-- ==== Sys2Proof/Word.lean ====
section
/-! DEFINITION. The word types of the machine (R5: little-endian, hexadecimal sizes). Plain names only. -/
namespace Sys2Proof

/-- One byte of memory. -/
abbrev Byte := BitVec 8
/-- One 32-bit lane or word. -/
abbrev Word := BitVec 32
/-- One 64-bit register, instruction word or command word. -/
abbrev DWord := BitVec 64
/-- A virtual address of 52 bits (R33). -/
abbrev VAddr := BitVec 52
/-- A vector of a strand: 64 lanes of 32 bits (R2), lane 0 first. -/
abbrev Vec := List Word

end Sys2Proof
end

