-- ==== Sys2Proof/Machine/Bits.lean ====
section
/-! DEFINITION. Bit fields, sign extension and byte order (R5): little-endian values of bytes. -/
namespace Sys2Proof.Machine

/-- Bits [lo + len - 1 : lo] of a number. -/
def bits (w : Nat) (lo len : Nat) : Nat := w / 2 ^ lo % 2 ^ len

/-- Bit i of a number. -/
def bit (w : Nat) (i : Nat) : Bool := w / 2 ^ i % 2 == 1

/-- A Bool as 0 or 1. -/
def b2n (b : Bool) : Nat := if b then 1 else 0

/-- A number of `len` bits read as two's complement. -/
def sext (len : Nat) (n : Nat) : Int :=
  if n % 2 ^ len < 2 ^ (len - 1) then ((n % 2 ^ len : Nat) : Int) else ((n % 2 ^ len : Nat) : Int) - 2 ^ len

/-- An integer reduced to its residue modulo 2^len. -/
def wrap (len : Nat) (z : Int) : Nat := (z % (2 ^ len : Int)).toNat

/-- The little-endian value of a run of bytes. -/
def leVal : List Byte → Nat
  | [] => 0
  | b :: rest => b.toNat + 256 * leVal rest

/-- The n little-endian bytes of a number. -/
def leBytes : Nat → Nat → List Byte
  | 0, _ => []
  | n + 1, v => BitVec.ofNat 8 v :: leBytes n (v / 256)

/-- Replace bits [lo + len - 1 : lo] of a number. -/
def setBits (w lo len v : Nat) : Nat :=
  w - bits w lo len * 2 ^ lo + v % 2 ^ len * 2 ^ lo

/-- Every multiple of `n` up to `count` of them: 0, 1, ..., used to name lanes and elements. -/
def upto (n : Nat) : List Nat := List.range n

/-- The lesser power: floor of log2, 0 for 0, by fuel. -/
def log2Aux : Nat → Nat → Nat
  | 0, _ => 0
  | fuel + 1, n => if n < 2 then 0 else log2Aux fuel (n / 2) + 1

/-- A 48-bit serial number lies before or at another (R217). -/
def serialLe (a b : BitVec 48) : Bool := (b - a).toNat < 2 ^ 47

/-- The later of two 48-bit serial numbers (R217). -/
def serialMax (a b : BitVec 48) : BitVec 48 := if serialLe a b then b else a

end Sys2Proof.Machine
end

