-- ==== Sys2Proof/Syntax.lean ====
section
/-! DEFINITION. The instructions: one constructor of `Instr` per row of spec/opcode_table.json. Register
numbers and specifier codes are constructors here (R45 to R50), so the machine never sees raw fields. -/
namespace Sys2Proof

/-- Token bits of an A, X or S instruction (R34). -/
structure Tk where
  pl : Bool
  pr : Bool
  sl : Bool
  sr : Bool
  deriving DecidableEq, Repr

/-- Access size codes (R50). -/
inductive Size where
  | b | h | w | d | v | hv
  deriving DecidableEq, Repr

/-- Scope codes 0 to 6 (R50). -/
inductive Scope where
  | core | quad | die | pkg | pod | ten | sys
  deriving DecidableEq, Repr

/-- Destination codes of the access unit (R45). -/
inductive ADst where
  | q (n : Fin 4) | qs | qz | fq | a (n : Fin 16)
  deriving DecidableEq, Repr

/-- Source codes of the AA format (R46). -/
inductive ASrc where
  | a (n : Fin 16) | imm | xaWord | xaPair | zero
  deriving DecidableEq, Repr

/-- Destination codes of the execute unit (R17, R47): the result queue alone, a named vector, sd, xa, cq,
a predicate p1 to p7, the queue with the predicate discarded, or nothing. -/
inductive XDst where
  | t | n (k : Fin 16) | sd | xa | cq | p (k : Fin 7) | drop | none
  deriving DecidableEq, Repr

/-- Source codes of the execute unit (R47). -/
inductive XSrc where
  | t (k : Fin 16) | n (k : Fin 16) | q (k : Fin 4) | qs | o (k : Fin 4) | lane | imm | zero
  deriving DecidableEq, Repr

/-- Element types (R49). -/
inductive Ty where
  | f32 | bf16 | f16 | i32 | u32 | i16 | i8 | u8 | fx
  deriving DecidableEq, Repr

/-- Rounding codes (R49). -/
inductive Rm where
  | rne | rtz | rup | rdn
  deriving DecidableEq, Repr

/-- Operand of an FB instruction: IMM32, or a scalar popped from fq under SRC = 1 (R38). -/
inductive FOp where
  | imm (v : Word) | fq
  deriving DecidableEq, Repr

/-- A barrier named by scope, id and object base (R98). -/
structure BarRef where
  scope : Scope
  id : Fin 16
  ob : Fin 64
  deriving DecidableEq, Repr

/-- Fields of LD and LDX (R40, R111). -/
structure LdArgs where
  tk : Tk
  dst : ADst
  h : Fin 32
  ix : Option (Fin 16)
  sz : Size
  na : Bool
  fc : Bool
  fw : Bool
  sys : Bool
  sh : Fin 8
  tap : Fin 7
  off : BitVec 23
  deriving DecidableEq, Repr

/-- Fields of SA and SAX (R40, R111). -/
structure SaArgs where
  tk : Tk
  h : Fin 32
  ix : Option (Fin 16)
  sz : Size
  na : Bool
  sys : Bool
  sh : Fin 8
  off : BitVec 23
  deriving DecidableEq, Repr

/-- Fields of PFT (R111). -/
structure PftArgs where
  tk : Tk
  h : Fin 32
  ix : Option (Fin 16)
  sz : Size
  sh : Fin 8
  off : BitVec 23
  deriving DecidableEq, Repr

/-- Fields of an AA instruction (R41); `fn` is bit 0 of FN (R67). -/
structure AaArgs where
  tk : Tk
  dst : ADst
  s1 : ASrc
  s2 : ASrc
  fn : Bool
  imm : Word
  deriving DecidableEq, Repr

/-- A count given as an immediate or in an address register (SBIND, SSKIP; R111). -/
inductive Cnt where
  | imm (v : BitVec 28) | reg (n : Fin 16)
  deriving DecidableEq, Repr

/-- Fields of an XV instruction (R43). -/
structure XArgs where
  tk : Tk
  d : XDst
  s1 : XSrc
  s2 : XSrc
  s3 : XSrc
  p : Fin 8
  pz : Bool
  ty : Ty
  rm : Rm
  sat : Bool
  imm : BitVec 16
  deriving DecidableEq, Repr

/-- Fields of ST, STF and STX (R157). -/
structure StArgs where
  tk : Tk
  sz : Size
  na : Bool
  sys : Bool
  deriving DecidableEq, Repr

/-- Operations of RED (R157). -/
inductive RedOp where
  | add | min | max | and | or | xor
  deriving DecidableEq, Repr

/-- Fields of RED (R157, R164). -/
structure RedArgs where
  tk : Tk
  sz : Size
  na : Bool
  sys : Bool
  op : RedOp
  c : Bool
  ty : Ty
  deriving DecidableEq, Repr

/-- Fields of SMP (R157, R166). -/
structure SmpArgs where
  tk : Tk
  sz : Size
  f32 : Bool
  sq : Bool
  deriving DecidableEq, Repr

/-- The WAIT and SIGNAL bytes of a command word (R51). Source and destination codes: 0 none, 1 M, 2 C,
3 G, 4 K, 5 the owning strand. -/
structure Hdr where
  wsrc : BitVec 3
  wcnt : BitVec 5
  sdst : BitVec 3
  scnt : BitVec 5
  deriving DecidableEq, Repr

/-- The operand bits common to the four tile commands (R178). -/
structure TileOp where
  tile : Fin 64
  vc : Bool
  ever : BitVec 16
  stat : Bool
  deriving DecidableEq, Repr

/-- The seven extension words of COPYN (R186). -/
structure CopynExt where
  src : DWord
  dst : DWord
  counts : DWord
  s01 : DWord
  s23 : DWord
  d01 : DWord
  d23 : DWord
  deriving DecidableEq, Repr

/-- The seven extension words of RUN (R196). -/
structure RunExt where
  prog : DWord
  ids : DWord
  ranks : DWord
  bf0 : DWord
  bf1 : DWord
  bf2 : DWord
  bf3 : DWord
  deriving DecidableEq, Repr

/-- The operand pattern shared by the data steps of a shepherd program (R197). -/
structure StepOp where
  bf : Fin 4
  oi : Bool
  kc : Fin 4
  ext : DWord
  deriving DecidableEq, Repr

/-- Who makes a request at a home (R253): a core's L1D, a core's paddock, another die's RDC, another
package, the host, or an agent that holds no copy. -/
inductive HomeAgent where
  | l1d (core : Nat) | paddock (core idx j : Nat) | rdc (die : Nat) | pkg (id : Nat) | host | none
  deriving DecidableEq, Repr

/-- What a request at a home is (R252, R258): a read or a write of the words of a 16-bit mask, a
read-modify-write of them, an eviction of a copy, or a commutative update kept in state C. -/
inductive HomeKind where
  | read (words : BitVec 16) | write (words : BitVec 16) | rmw (words : BitVec 16) | evict | commute
  deriving DecidableEq, Repr

/-- One request for one line at its home slice; `line` is the physical address divided by 64, `cl` the class of its page. -/
structure HomeReq where
  agent : HomeAgent
  kind : HomeKind
  line : Nat
  cl : Fin 4
  deriving DecidableEq, Repr

/-- What a request from another package or the host does to a word or a run of bytes at its home, or to an assay bay of its die: an OPEN takes one, and
the end of its lot gives it back (R267). A prefetch brings a line into the
memory-side cache of its home (R190). A home asks another package for the paddock words it holds of some physical ranges, and in a reclass for every copy of
them (R258, R260). -/
inductive MemOp where
  | read (bytes : Nat)
  | write (data : List Byte)
  | update (aop : Nat) (dword : Bool) (operand : DWord) (comparand : DWord)
  | bay (take : Bool)
  | bring
  | recall (ranges : List (Nat × Nat)) (words : BitVec 16) (write copies : Bool)
  deriving DecidableEq, Repr

/-- A fabric request that arrives at a home of this package (R307, R308); `pad` says that a paddock makes it (R258). -/
structure RemoteReq where
  src : Nat
  unit : Nat
  tag : Word
  ten : Nat
  pa : Nat
  pad : Bool
  op : MemOp
  deriving DecidableEq, Repr

/-- How a home answers a request (R307, R308, R352): performed, refused, or with poisoned data. -/
inductive RespSt where
  | done | refused | poison
  deriving DecidableEq, Repr

/-- What a Llyned flit carries to its destination package (R307 to R315), each for a tenant (R308): a request and its response, with the timestamp of what was
performed (R217); an arrival at a pod barrier object, its configuration and the completion of its phase; data and aborts of a collective. -/
inductive Msg where
  | req (r : RemoteReq)
  | resp (ten who : Nat) (tag : Word) (st : RespSt) (ts : BitVec 48) (data : List Byte)
  | arrive (ten obj src drove : Nat) (tag : Word)
  | barcfg (ten obj src count : Nat) (tag : Word)
  | release (ten obj phase : Nat)
  | data (ten cid src step seq : Nat) (bytes : List Byte)
  | abort (ten cid src : Nat)
  deriving DecidableEq, Repr

/-- A message with the clock of the package that sends it: what follows it in S has no earlier timestamp (R217). -/
structure Packet where
  ts : BitVec 48
  msg : Msg
  deriving DecidableEq, Repr

/-- The answer to a request (R307): its tag, its state, the timestamp of what was performed, and the data of a read or the old value of an update. -/
structure Answer where
  tag : Word
  st : RespSt
  ts : BitVec 48
  data : List Byte
  deriving DecidableEq, Repr

/-- Who arrives at a pod barrier object: its package, and its drove (R100, R310). -/
structure Arriver where
  pkg : Nat
  drove : Nat
  deriving DecidableEq, Repr

/-- A phase of a barrier object at a package's anchor (R310). -/
structure PodPhase where
  obj : Nat
  phase : Nat
  deriving DecidableEq, Repr

/-- The number of a flit of a collective, and the step of the program that it belongs to (R312). -/
structure FlitNo where
  step : Nat
  no : Nat
  deriving DecidableEq, Repr

/-- What a difference record writes into a plane, and whether it is the last of its set (R297). -/
structure PlanePiece where
  bytes : List Byte
  last : Bool
  deriving DecidableEq, Repr

/-- What the stages of a cold boot report (R348): which of stages 0 to 5 fail, whether the BSC self-test
fails, whether port 1 and each Llyned port train, the fused enable map read at stage 1 and the strap. -/
structure BootIn where
  fail : Option Nat
  hot : Bool
  selfTest : Bool
  port1 : Bool
  llyned : BitVec 18
  deriving DecidableEq, Repr

/-- One temperature reading (R281): stack, degrees, hottest sensor. -/
structure Reading where
  stack : Nat
  temp : BitVec 8
  layer : BitVec 5
  deriving DecidableEq, Repr

/-- The instructions, engine commands, program steps and events of the opcode table. -/
inductive Instr where
  -- F class (R90)
  | nop
  | br (o : FOp)
  | brc (sense : Bool) (o : FOp)
  | loop (lc : Fin 8) (o : FOp)
  | lcset (lc : Fin 8) (o : FOp)
  | call (o : FOp)
  | ret
  | jmp (bias : Word)
  | endIter
  | bar (r : BarRef)
  | bara (r : BarRef)
  | barw (r : BarRef)
  | barcfg (r : BarRef) (count : BitVec 21)
  | barrot (st : Word)
  | fence (sc : Scope) (kinds : BitVec 5)
  | waitev (ev : Fin 16) (thr : Word)
  | evclr (ev : Fin 16)
  | launch (sc : Scope) (off : Word)
  | yieldTurn
  | trap (code : Word)
  | sleep (cycles : Word)
  | halt (code : Word)
  -- A class (R111)
  | ld (o : LdArgs)
  | ldx (o : LdArgs)
  | lds (tk : Tk) (dst : ADst) (sn : Fin 8)
  | sa (o : SaArgs)
  | sax (o : SaArgs)
  | pft (o : PftArgs)
  | xlt (tk : Tk) (h : Fin 32) (ra : Fin 16)
  | hdrop (tk : Tk) (h : Fin 32)
  | hqry (tk : Tk) (dst : ADst) (h : Fin 32)
  | sbind (tk : Tk) (sn : Fin 8) (ra : Fin 16) (rs : Option (Fin 16)) (cnt : Cnt) (sz : Size)
  | sskip (tk : Tk) (sn : Fin 8) (cnt : Cnt)
  | sfree (tk : Tk) (sn : Fin 8)
  | pdbind (tk : Tk) (pd : Fin 64) (rs : Fin 16) (rg : Fin 16) (lines : BitVec 28)
  | pdflush (tk : Tk) (pd : Fin 64)
  | pdunbind (tk : Tk) (pd : Fin 64)
  | feset (tk : Tk) (n : Fin 64) (base : Option (Fin 16)) (off : BitVec 28)
  | feclr (tk : Tk) (n : Fin 64) (base : Option (Fin 16)) (off : BitVec 28)
  | fetest (tk : Tk) (dst : ADst) (base : Option (Fin 16)) (off : BitVec 28)
  | tkw (tk : Tk) (eng : Fin 4) (cnt : BitVec 28)
  | adda (o : AaArgs) | suba (o : AaArgs) | mula (o : AaArgs) | mada (o : AaArgs)
  | shla (o : AaArgs) | shra (o : AaArgs) | anda (o : AaArgs) | ora (o : AaArgs)
  | xora (o : AaArgs) | mina (o : AaArgs) | maxa (o : AaArgs)
  | lia (o : AaArgs) | liha (o : AaArgs) | mova (o : AaArgs)
  | ctlr (tk : Tk) (dst : ADst) (ix : Fin 8)
  | ctlw (tk : Tk) (ix : Fin 8) (src : Option (Fin 16))
  -- X class (R43)
  | fadd (o : XArgs) | fsub (o : XArgs) | fmul (o : XArgs) | fma (o : XArgs) | fnma (o : XArgs)
  | fmin (o : XArgs) | fmax (o : XArgs) | fsgn (o : XArgs) | fcmp (o : XArgs)
  | frcp (o : XArgs) | frsq (o : XArgs) | fsqrt (o : XArgs) | fexp2 (o : XArgs) | flog2 (o : XArgs)
  | fcvt (o : XArgs) | frnd (o : XArgs)
  | iadd (o : XArgs) | isub (o : XArgs) | imul (o : XArgs) | imulh (o : XArgs) | imad (o : XArgs)
  | imin (o : XArgs) | imax (o : XArgs) | iabs (o : XArgs) | ishl (o : XArgs) | ishr (o : XArgs)
  | and (o : XArgs) | or (o : XArgs) | xor (o : XArgs) | andn (o : XArgs)
  | popc (o : XArgs) | clz (o : XArgs) | icmp (o : XArgs)
  | qmul (o : XArgs) | qmad (o : XArgs) | bpack (o : XArgs) | bunpk (o : XArgs)
  | mov (o : XArgs) | sel (o : XArgs) | shfl (o : XArgs) | bcast (o : XArgs) | slide (o : XArgs)
  | ins (o : XArgs) | ext (o : XArgs)
  | rsum (o : XArgs) | rmax (o : XArgs) | rmin (o : XArgs) | scan (o : XArgs)
  | plog (o : XArgs) | pset (o : XArgs) | pcnt (o : XArgs)
  | accrd (o : XArgs) | flgrd (o : XArgs) | flgclr (o : XArgs)
  -- S class (R157)
  | st (o : StArgs) | stf (o : StArgs) | stx (o : StArgs)
  | red (o : RedArgs)
  | smp (o : SmpArgs)
  | tick (tk : Tk) (ev : Fin 16) (sc : Scope) (rg : BitVec 16)
  | enq (tk : Tk) (eng : Fin 4) (cnt : Fin 32)
  | enqm (tk : Tk) (eng : Fin 4) (cnt : Fin 32)
  | fmtq (tk : Tk) (imm : Word)
  | tks (tk : Tk) (eng : Fin 4) (cnt : Fin 32)
  -- matrix engine (R178)
  | mma (hd : Hdr) (t : TileOp) (kb : BitVec 8) (e0 e1 : DWord)
  | drain (hd : Hdr) (t : TileOp) (za : Bool) (dst exp : DWord)
  | accld (hd : Hdr) (t : TileOp) (src : DWord)
  | accz (hd : Hdr) (t : TileOp)
  | wbld (hd : Hdr) (off : BitVec 21) (len : BitVec 21) (src : DWord)
  -- copy engine (R186)
  | copy (hd : Hdr) (len : BitVec 40) (src dst : DWord)
  | copyn (hd : Hdr) (esz : Fin 4) (ndim : Fin 4) (x : CopynExt)
  | fill (hd : Hdr) (len : BitVec 40) (dst pat : DWord)
  | acw (hd : Hdr) (aop : Fin 16) (cs : Bool) (len : BitVec 36) (src dst : DWord)
  | amo (hd : Hdr) (aop : Fin 16) (d : Bool) (tgt operand comparand : DWord)
  | pftt (hd : Hdr) (len : BitVec 40) (bo : Bool) (addr bar : DWord)
  | pin (hd : Hdr) (win : Fin 16) (units : BitVec 16) (base : DWord)
  | unpin (hd : Hdr) (win : Fin 16)
  | mrgSet (hd : Hdr) (g : Fin 64) (tgt : Bool) (target lim counter : DWord)
  | mrgOpen (hd : Hdr) (g : Fin 64) (contrib : BitVec 10) (seq : BitVec 16) (tiles : BitVec 8) (bt : DWord)
  | bayGrant (die : Nat)
  | mrgDep (hd : Hdr) (tile : BitVec 8) (src : DWord)
  | mrgClose (hd : Hdr) (ev : Fin 16) (even : Bool)
  | lotAbandon (k : Nat)
  | flag (hd : Hdr) (d sys : Bool) (tgt val : DWord)
  | resume (hd : Hdr) (rec : DWord)
  -- gather engine (R194)
  | gath (hd : Hdr) (n rw : BitVec 16) (out : Bool) (idx base stride dst : DWord)
  | scat (hd : Hdr) (n rw : BitVec 16) (idx base stride src : DWord)
  | scata (hd : Hdr) (n rw : BitVec 16) (aop : Fin 4) (idx base stride src : DWord)
  | embag (hd : Hdr) (nb rw : BitVec 16) (idx base stride offs dst : DWord)
  -- shepherd engine and its program steps (R196, R197)
  | run (hd : Hdr) (out : Bool) (x : RunExt)
  | send (o : StepOp)
  | recv (o : StepOp)
  | rrs (o : StepOp) (rop : BitVec 2)
  | rrw (o : StepOp) (rop : BitVec 2) (dbf : Fin 4) (df : BitVec 4) (rm : Rm) (ext1 : DWord)
  | rcpy (o : StepOp)
  | kWait
  | kLoop (kc : Fin 4) (ext : DWord)
  | peer (recv sk : Bool) (kc : Fin 4) (delta stride : BitVec 16)
  | barc
  | endp
  | notify (hd : Hdr) (ev : Fin 16) (part : BitVec 4)
  | engineNop (hd : Hdr)
  -- events of the strands, the engines and the walker
  | arrayLeaseTurn (core : Nat)
  | translationComplete (k : Nat) (h : Fin 32)
  | sleepExpire (k : Nat)
  | watchdog (k : Nat) (unit : Fin 4)
  | ptsAdvance (k : Nat)
  | clockCatchup
  | readLeaseExpiry (core : Nat) (line : Nat)
  | faultRecordWrite (ten : Nat)
  | replayRetry (ten : Nat) (seq : Word) (one : Bool)
  | replaySkip (ten : Nat) (seq : Word) (one : Bool)
  | replayKill (ten : Nat) (seq : Word) (one : Bool)
  | droveValidate (d : Nat)
  | droveWaitMet (d : Nat)
  | iterationHandout (d : Nat) (strand : Nat)
  | preempt (strand : Nat)
  | partitionResume (strand : Nat)
  | planeDiffRecord (core : Nat) (part : Bool) (off : Nat) (data : PlanePiece) (d : Nat)
  | planeSwap (core : Nat) (part : Bool) (d : Nat)
  | droveComplete (d : Nat)
  | chainFollow (ten : Nat) (c : Fin 8)
  -- filter regions
  | tickSweep (chan : Nat)
  | sampleAccumulate (ten : Nat) (rg : Nat) (cell : Nat) (x : Word)
  | autoSatnRewrite (ten : Nat) (rg : Nat)
  | regionRegister (ten : Nat) (rg : Nat)
  | regionCoef (ten : Nat) (rg : Nat)
  | regionRetire (ten : Nat) (rg : Nat)
  | regionCommandDone (ten : Nat)
  -- homes, classes, pins, ways
  | homeRequest (r : HomeReq)
  | reclass (ten : Nat) (cl : BitVec 2)
  | reclassComplete (ten : Nat)
  | pinFadePeriod (ten : Nat)
  | wayMaskWrite (ten : Nat) (v : DWord)
  | wayMaskComplete
  -- main memory and temperature
  | thermalSample (rs : List Reading)
  | thcfgWrite (v : DWord)
  | bankIdlePrecharge (chan bank : Nat) (queued : Bool)
  | forecastUpdate
  -- fabric
  | llynedFlitReceive (port : Fin 18) (seq : Nat) (m : Option Packet)
  | llynedReplayRequest (port : Fin 18) (seq : Nat)
  | portDown (port : Fin 18)
  | portUp (port : Fin 18) (nbr : BitVec 10)
  | remoteRequest (r : RemoteReq)
  | remoteResponse (who : Nat) (a : Answer)
  | fabricTimeout (who : Nat)
  | podBarrierArrival (ten obj : Nat) (src : Arriver) (tag : Word)
  | podBarrierRelease (ten : Nat) (obj : PodPhase)
  | shepherdDataFlit (ten cid src : Nat) (seq : FlitNo) (data : List Byte)
  | collectiveAbort (ten cid src : Nat)
  -- host
  | memrd (pa : Nat)
  | memwr (pa : Nat) (data : List Byte)
  | birsp (who : Nat) (data : Option (List Byte))
  | biconflict (who : Nat) (op : MemOp)
  | snpdata (line : Nat)
  | snpinv (line : Nat)
  | snpcur (line : Nat)
  | hostCacheResponse (who : Nat) (excl : Bool)
  | barAccess (fn : Nat) (off size : Nat) (write : Bool) (v : DWord)
  | doeDiscovery (fn : Nat) (ix : Nat)
  | spdmRequest (fn : Nat) (code : Nat)
  | getMeasurements (fn : Nat) (ix : Nat)
  | ideKm (port : Fin 2) (key : DWord)
  | ideIntegrityFail (port : Fin 2)
  -- tenancy
  | tpartWrite (t : Nat) (v : DWord)
  | tpolWrite (t : Nat) (v : DWord)
  | windowLoad (t : Nat)
  | windowLoadComplete
  | rvk (ten : Nat) (va : DWord)
  | chainEnable (ten : Nat) (c : Fin 8)
  | snapshotRequest (ten : Nat)
  | meterSnapshot (ten : Nat)
  | pinbAccumulate (ten : Nat)
  | powerCapThrottle (watts : Nat)
  -- boot
  | coldBoot (x : BootIn)
  | bootStageTimeout (stage : Nat)
  | bootWatchdog
  | bootctlRetry (x : BootIn)
  | registerWrite (fn off : Nat) (v : DWord)
  | illegalInstruction (w : DWord)
  | unassignedCommandCode (w : DWord)
  | cxlPortDown
  | cxlPortUp
  | refresh (chan : Nat) (banks : List Nat)
  | modulePowerRemoved
  | revocationComplete (ten : Nat)
  deriving DecidableEq, Repr

end Sys2Proof
end

