-- ==== Sys2Proof/WellFormed.lean ====
section
/-! DEFINITION. When an instruction is well formed: the static checks of R35 that are not the shape of a field (R36, R40, R67 to
R71, R111, R139, R157), and those of R51 for engine commands. -/
namespace Sys2Proof

open Machine (bits bit)

/-- Which RM values an X row accepts (R68). -/
inductive RmRule where
  | yes | no | f32Only | f32Add
  deriving DecidableEq, Repr

/-- How an X row lays out IMM16 (R139). -/
inductive ImmRule where
  | bcast | fsgn | fcmp | icmp | shfl | slide | scan | plog | fcvt | frac | bpack | width | laneNo | pset | pred | any
  | zero | flags
  deriving DecidableEq, Repr

/-- One row of the tables of R68, R135 to R139: types, rounding, saturation, sources read, whether it works across lanes,
IMM16. -/
structure XRow where
  tys : List Ty
  rm : RmRule
  sat : Bool
  ns : Nat
  across : Bool
  imm : ImmRule
  deriving DecidableEq, Repr

/-- The row of an X opcode (R64). -/
def xRow : Nat → XRow
  | 0 => ⟨[.f32, .bf16, .f16], .yes, false, 2, false, .bcast⟩  -- FADD
  | 1 => ⟨[.f32, .bf16, .f16], .yes, false, 2, false, .bcast⟩  -- FSUB
  | 2 => ⟨[.f32, .bf16, .f16], .yes, false, 2, false, .bcast⟩  -- FMUL
  | 3 => ⟨[.f32, .bf16, .f16], .yes, false, 3, false, .bcast⟩  -- FMA
  | 4 => ⟨[.f32, .bf16, .f16], .yes, false, 3, false, .bcast⟩  -- FNMA
  | 5 => ⟨[.f32, .bf16, .f16], .no, false, 2, false, .bcast⟩  -- FMIN
  | 6 => ⟨[.f32, .bf16, .f16], .no, false, 2, false, .bcast⟩  -- FMAX
  | 7 => ⟨[.f32, .bf16, .f16], .no, false, 2, false, .fsgn⟩  -- FSGN
  | 8 => ⟨[.f32, .bf16, .f16], .no, false, 2, false, .fcmp⟩  -- FCMP
  | 9 => ⟨[.f32, .bf16, .f16], .yes, false, 1, false, .bcast⟩  -- FRCP
  | 10 => ⟨[.f32, .bf16, .f16], .yes, false, 1, false, .bcast⟩  -- FRSQ
  | 11 => ⟨[.f32, .bf16, .f16], .yes, false, 1, false, .bcast⟩  -- FSQRT
  | 12 => ⟨[.f32, .bf16, .f16], .yes, false, 1, false, .bcast⟩  -- FEXP2
  | 13 => ⟨[.f32, .bf16, .f16], .yes, false, 1, false, .bcast⟩  -- FLOG2
  | 14 => ⟨[.f32, .bf16, .f16, .i32, .u32, .i16, .i8, .u8, .fx], .yes, true, 3, false, .fcvt⟩  -- FCVT
  | 15 => ⟨[.f32, .bf16, .f16], .yes, false, 1, false, .bcast⟩  -- FRND
  | 16 => ⟨[.i32, .u32, .i16, .i8, .u8], .no, true, 2, false, .bcast⟩  -- IADD
  | 17 => ⟨[.i32, .u32, .i16, .i8, .u8], .no, true, 2, false, .bcast⟩  -- ISUB
  | 18 => ⟨[.i32, .u32, .i16], .no, true, 2, false, .bcast⟩  -- IMUL
  | 19 => ⟨[.i32, .u32], .no, false, 2, false, .bcast⟩  -- IMULH
  | 20 => ⟨[.i32, .u32, .i16], .no, true, 3, false, .bcast⟩  -- IMAD
  | 21 => ⟨[.i32, .u32, .i16, .i8, .u8], .no, false, 2, false, .bcast⟩  -- IMIN
  | 22 => ⟨[.i32, .u32, .i16, .i8, .u8], .no, false, 2, false, .bcast⟩  -- IMAX
  | 23 => ⟨[.i32, .i16, .i8], .no, true, 1, false, .bcast⟩  -- IABS
  | 24 => ⟨[.i32, .u32, .i16], .no, true, 2, false, .bcast⟩  -- ISHL
  | 25 => ⟨[.i32, .u32, .i16], .no, false, 2, false, .bcast⟩  -- ISHR
  | 26 => ⟨[.i32, .u32], .no, false, 2, false, .bcast⟩  -- AND
  | 27 => ⟨[.i32, .u32], .no, false, 2, false, .bcast⟩  -- OR
  | 28 => ⟨[.i32, .u32], .no, false, 2, false, .bcast⟩  -- XOR
  | 29 => ⟨[.i32, .u32], .no, false, 2, false, .bcast⟩  -- ANDN
  | 30 => ⟨[.i32, .u32], .no, false, 1, false, .bcast⟩  -- POPC
  | 31 => ⟨[.i32, .u32], .no, false, 1, false, .bcast⟩  -- CLZ
  | 32 => ⟨[.i32, .u32, .i16, .i8, .u8], .no, false, 2, false, .icmp⟩  -- ICMP
  | 33 => ⟨[.fx], .yes, true, 2, false, .frac⟩  -- QMUL
  | 34 => ⟨[.fx], .yes, true, 3, false, .frac⟩  -- QMAD
  | 35 => ⟨[.f32], .yes, false, 1, true, .bpack⟩  -- BPACK
  | 36 => ⟨[.f32], .no, false, 1, true, .width⟩  -- BUNPK
  | 37 => ⟨[.f32, .bf16, .f16, .i32, .u32, .i16, .i8, .u8, .fx], .no, false, 1, false, .bcast⟩  -- MOV
  | 38 => ⟨[.f32, .bf16, .f16, .i32, .u32, .i16, .i8, .u8, .fx], .no, false, 3, false, .bcast⟩  -- SEL
  | 39 => ⟨[.f32, .bf16, .f16, .i32, .u32, .i16, .i8, .u8, .fx], .no, false, 2, false, .shfl⟩  -- SHFL
  | 40 => ⟨[.f32, .bf16, .f16, .i32, .u32, .i16, .i8, .u8, .fx], .no, false, 1, false, .laneNo⟩  -- BCAST
  | 41 => ⟨[.f32, .bf16, .f16, .i32, .u32, .i16, .i8, .u8, .fx], .no, false, 2, false, .slide⟩  -- SLIDE
  | 42 => ⟨[.f32, .bf16, .f16, .i32, .u32, .i16, .i8, .u8, .fx], .no, false, 2, false, .laneNo⟩  -- INS
  | 43 => ⟨[.f32, .bf16, .f16, .i32, .u32, .i16, .i8, .u8, .fx], .no, false, 1, false, .laneNo⟩  -- EXT
  | 44 => ⟨[.f32, .i32, .u32], .f32Only, false, 1, true, .zero⟩  -- RSUM
  | 45 => ⟨[.f32, .i32, .u32], .no, false, 1, true, .zero⟩  -- RMAX
  | 46 => ⟨[.f32, .i32, .u32], .no, false, 1, true, .zero⟩  -- RMIN
  | 47 => ⟨[.f32, .i32, .u32], .f32Add, false, 1, true, .scan⟩  -- SCAN
  | 48 => ⟨[.f32], .no, false, 0, false, .plog⟩  -- PLOG
  | 49 => ⟨[.f32], .no, false, 0, false, .pset⟩  -- PSET
  | 50 => ⟨[.f32], .no, false, 0, true, .pred⟩  -- PCNT
  | 51 => ⟨[.f32, .i32], .no, false, 1, false, .any⟩  -- ACCRD
  | 52 => ⟨[.f32], .no, false, 0, false, .zero⟩  -- FLGRD
  | _ => ⟨[.f32], .no, false, 0, false, .flags⟩  -- FLGCLR

/-- Does a list of sources name code 48? -/
def XArgs.namesImm (o : XArgs) : Bool := o.s1 == .imm || o.s2 == .imm || o.s3 == .imm

/-- How many sources an instruction reads: FSGN.abs and SHFL.bfly read one (R135, R151). -/
def XRow.sources (r : XRow) (o : XArgs) : Nat :=
  match r.imm with
  | .fsgn => if o.imm.toNat = 3 then 1 else r.ns
  | .shfl => if bit o.imm.toNat 15 then 1 else r.ns
  | _ => r.ns

/-- The type code of an element type (R49). -/
def Ty.code : Ty → Nat
  | .f32 => 0 | .bf16 => 1 | .f16 => 2 | .i32 => 3 | .u32 => 4 | .i16 => 5 | .i8 => 6 | .u8 => 7 | .fx => 8

/-- The IMM16 checks of R69, R70 and R139. -/
def immOk (rule : ImmRule) (o : XArgs) : Bool :=
  let v := o.imm.toNat
  match rule with
  | .bcast =>
    if o.namesImm then o.ty != .fx && (!(o.ty == .i8 || o.ty == .u8) || decide (v < 256)) else v == 0
  | .fsgn => decide (v < 4)
  | .fcmp => decide (v < 8)
  | .icmp => decide (v < 6)
  | .shfl => if bit v 15 then bits v 6 9 == 0 else v == 0
  | .slide => bits v 6 9 == 0
  | .scan => decide (v < 8) && bits v 0 2 != 3
  | .plog => decide (bits v 0 3 ≤ 4) && bits v 3 3 == 0 && bits v 12 4 == 0 && (bits v 0 3 != 4 || bits v 9 3 == 0)
  | .fcvt =>
    decide (bits v 0 4 ≤ 8) && (o.ty == .fx || bits v 4 5 == 0) && (bits v 0 4 == 8 || bits v 9 5 == 0) && bits v 14 2 == 0
  | .frac => decide (v < 32)
  | .bpack => bits v 0 3 != 7 && bits v 3 2 != 3 && !bit v 15
  | .width => decide (v < 7)
  | .laneNo => decide (v < 64)
  | .pset => if bit v 15 then bits v 8 7 == 0 else decide (v ≤ 64)
  | .pred => decide (v < 8)
  | .any => true
  | .zero => v == 0
  | .flags => decide (v < 128)

/-- The static checks of an X instruction of a given row. -/
def XArgs.wf (r : XRow) (o : XArgs) : Bool :=
  r.tys.contains o.ty
    && (match r.rm with
        | .yes => true
        | .no => o.rm == .rne
        | .f32Only => o.rm == .rne || o.ty == .f32
        | .f32Add => o.rm == .rne || (o.ty == .f32 && bits o.imm.toNat 0 2 == 0))
    && (r.sat || !o.sat)
    && (decide (1 ≤ r.sources o) || o.s1 == .zero)
    && (decide (2 ≤ r.sources o) || o.s2 == .zero)
    && (decide (3 ≤ r.sources o) || o.s3 == .zero)
    && (r.imm == .bcast || !o.namesImm)
    && (!r.across || !o.pz)
    && immOk r.imm o

/-- A vector or half-vector size. -/
def Size.isVec : Size → Bool
  | .v => true | .hv => true | _ => false

/-- A destination that holds a scalar: qs, fq or an address register (R45). -/
def ADst.scalar : ADst → Bool
  | .qs => true | .fq => true | .a _ => true | _ => false

/-- A destination that is an address register. -/
def ADst.isReg : ADst → Bool
  | .a _ => true | _ => false

/-- The checks of an AA instruction: whether FN may be 1, DST must be a register, and which sources are unused
(R67, R133). IMM32 is used by a source that names code 16, or by LIA and LIHA. -/
def AaArgs.wf (fnOk reg use1 use2 immUsed : Bool) (o : AaArgs) : Bool :=
  (fnOk || !o.fn) && (!reg || o.dst.isReg) && (use1 || o.s1 == .zero) && (use2 || o.s2 == .zero)
    && (immUsed || o.s1 == .imm || o.s2 == .imm || o.imm == 0)

/-- The WAIT and SIGNAL bytes agree with themselves (R51). -/
def Hdr.wf (hd : Hdr) : Bool :=
  decide (hd.wsrc.toNat ≤ 5) && decide (hd.sdst.toNat ≤ 5)
    && ((hd.wsrc == 0) == (hd.wcnt == 0)) && ((hd.sdst == 0) == (hd.scnt == 0))

/-- And neither names engine e itself (R51); engines M, C, G, K are 0 to 3. -/
def Hdr.wfFor (e : Nat) (hd : Hdr) : Bool := hd.wf && hd.wsrc.toNat != e + 1 && hd.sdst.toNat != e + 1

/-- Sizes .b, .h and .w. -/
def Size.small : Size → Bool
  | .b => true | .h => true | .w => true | _ => false

/-- Sizes .w, .v and .hv. -/
def Size.wide : Size → Bool
  | .w => true | .v => true | .hv => true | _ => false

/-- Is the opcode cell of a word unassigned (R64)? -/
def illegalCell (w : DWord) : Bool :=
  let op := bits w.toNat 52 6
  match bits w.toNat 58 2 with
  | 0 => decide (0x16 ≤ op)
  | 1 => decide (0x23 ≤ op)
  | 2 => decide (0x36 ≤ op)
  | _ => decide (0x0A ≤ op)

/-- Well-formedness. Events are well formed as they stand; an illegal word is one whose opcode cell is unassigned (R64). -/
def Instr.wf : Instr → Bool
  | .nop => true
  | .br _ => true
  | .brc _ _ => true
  | .loop _ _ => true
  | .lcset _ _ => true
  | .call _ => true
  | .ret => true
  | .jmp _ => true
  | .endIter => true
  | .bar _ => true
  | .bara _ => true
  | .barw _ => true
  | .barcfg _ _ => true
  | .barrot _ => true
  | .fence _ _ => true
  | .waitev _ _ => true
  | .evclr _ => true
  | .launch _ _ => true
  | .yieldTurn => true
  | .trap _ => true
  | .sleep _ => true
  | .halt _ => true
  | .ld o => (!o.dst.scalar || !o.sz.isVec) && (!(o.fc || o.fw) || o.h == 0)
  | .ldx o => o.ix == none && o.sz.small && !o.dst.scalar && (!(o.fc || o.fw) || o.h == 0)
  | .lds _ _ _ => true
  | .sa _ => true
  | .sax o => o.ix == none && o.sz.small
  | .pft _ => true
  | .xlt _ _ _ => true
  | .hdrop _ _ => true
  | .hqry _ _ _ => true
  | .sbind _ _ _ _ _ _ => true
  | .sskip _ _ _ => true
  | .sfree _ _ => true
  | .pdbind _ _ _ _ n => decide (1 ≤ n.toNat) && decide (n.toNat ≤ 65536)
  | .pdflush _ _ => true
  | .pdunbind _ _ => true
  | .feset _ _ _ _ => true
  | .feclr _ _ _ _ => true
  | .fetest _ _ _ _ => true
  | .tkw _ _ n => decide (1 ≤ n.toNat) && decide (n.toNat ≤ 32)
  | .adda o => o.wf false false true true false
  | .suba o => o.wf false false true true false
  | .mula o => o.wf true false true true false
  | .mada o => o.wf false true true true false
  | .shla o => o.wf false false true true false
  | .shra o => o.wf true false true true false
  | .anda o => o.wf false false true true false
  | .ora o => o.wf false false true true false
  | .xora o => o.wf false false true true false
  | .mina o => o.wf true false true true false
  | .maxa o => o.wf true false true true false
  | .lia o => o.wf false false false false true
  | .liha o => o.wf false true false false true
  | .mova o => o.wf false false true false false
  | .ctlr _ _ _ => true
  | .ctlw _ ix _ => ix == 0 || ix == 1 || ix == 6 || ix == 7
  | .fadd o => o.wf (xRow 0)
  | .fsub o => o.wf (xRow 1)
  | .fmul o => o.wf (xRow 2)
  | .fma o => o.wf (xRow 3)
  | .fnma o => o.wf (xRow 4)
  | .fmin o => o.wf (xRow 5)
  | .fmax o => o.wf (xRow 6)
  | .fsgn o => o.wf (xRow 7)
  | .fcmp o => o.wf (xRow 8)
  | .frcp o => o.wf (xRow 9)
  | .frsq o => o.wf (xRow 10)
  | .fsqrt o => o.wf (xRow 11)
  | .fexp2 o => o.wf (xRow 12)
  | .flog2 o => o.wf (xRow 13)
  | .fcvt o => o.wf (xRow 14)
  | .frnd o => o.wf (xRow 15)
  | .iadd o => o.wf (xRow 16)
  | .isub o => o.wf (xRow 17)
  | .imul o => o.wf (xRow 18)
  | .imulh o => o.wf (xRow 19)
  | .imad o => o.wf (xRow 20)
  | .imin o => o.wf (xRow 21)
  | .imax o => o.wf (xRow 22)
  | .iabs o => o.wf (xRow 23)
  | .ishl o => o.wf (xRow 24)
  | .ishr o => o.wf (xRow 25)
  | .and o => o.wf (xRow 26)
  | .or o => o.wf (xRow 27)
  | .xor o => o.wf (xRow 28)
  | .andn o => o.wf (xRow 29)
  | .popc o => o.wf (xRow 30)
  | .clz o => o.wf (xRow 31)
  | .icmp o => o.wf (xRow 32)
  | .qmul o => o.wf (xRow 33)
  | .qmad o => o.wf (xRow 34)
  | .bpack o => o.wf (xRow 35)
  | .bunpk o => o.wf (xRow 36)
  | .mov o => o.wf (xRow 37)
  | .sel o => o.wf (xRow 38)
  | .shfl o => o.wf (xRow 39)
  | .bcast o => o.wf (xRow 40)
  | .slide o => o.wf (xRow 41)
  | .ins o => o.wf (xRow 42)
  | .ext o => o.wf (xRow 43)
  | .rsum o => o.wf (xRow 44)
  | .rmax o => o.wf (xRow 45)
  | .rmin o => o.wf (xRow 46)
  | .scan o => o.wf (xRow 47)
  | .plog o => o.wf (xRow 48)
  | .pset o => o.wf (xRow 49)
  | .pcnt o => o.wf (xRow 50)
  | .accrd o => o.wf (xRow 51)
  | .flgrd o => o.wf (xRow 52)
  | .flgclr o => o.wf (xRow 53)
  | .st _ => true
  | .stf _ => true
  | .stx o => o.sz.small
  | .red o => o.sz.wide && (o.ty == .f32 || o.ty == .i32 || o.ty == .u32) && (o.ty != .f32 || o.op == .add || o.op == .min || o.op == .max)
  | .smp o => o.sz.wide
  | .tick _ _ _ _ => true
  | .enq _ _ _ => true
  | .enqm _ _ _ => true
  | .fmtq _ _ => true
  | .tks _ _ _ => true
  | .mma hd _ _ _ _ => hd.wfFor 0
  | .drain hd _ _ _ _ => hd.wfFor 0
  | .accld hd _ _ => hd.wfFor 0
  | .accz hd _ => hd.wfFor 0
  | .wbld hd _ _ _ => hd.wfFor 0
  | .copy hd _ _ _ => hd.wfFor 1
  | .copyn hd _ _ _ => hd.wfFor 1
  | .fill hd _ _ _ => hd.wfFor 1
  | .acw hd _ _ _ _ _ => hd.wfFor 1
  | .amo hd _ _ _ _ _ => hd.wfFor 1
  | .pftt hd _ _ _ _ => hd.wfFor 1
  | .pin hd _ _ _ => hd.wfFor 1
  | .unpin hd _ => hd.wfFor 1
  | .mrgSet hd _ _ _ _ _ => hd.wfFor 1
  | .mrgOpen hd _ _ _ _ _ => hd.wfFor 1
  | .bayGrant _ => true
  | .mrgDep hd _ _ => hd.wfFor 1
  | .mrgClose hd _ _ => hd.wfFor 1
  | .lotAbandon _ => true
  | .flag hd _ _ _ _ => hd.wfFor 1
  | .resume hd _ => hd.wf
  | .gath hd _ _ _ _ _ _ _ => hd.wfFor 2
  | .scat hd _ _ _ _ _ _ => hd.wfFor 2
  | .scata hd _ _ _ _ _ _ _ => hd.wfFor 2
  | .embag hd _ _ _ _ _ _ _ => hd.wfFor 2
  | .run hd _ _ => hd.wfFor 3
  | .send _ => true
  | .recv _ => true
  | .rrs _ _ => true
  | .rrw _ _ _ _ _ _ => true
  | .rcpy _ => true
  | .kWait => true
  | .kLoop _ _ => true
  | .peer _ _ _ _ _ => true
  | .barc => true
  | .endp => true
  | .notify hd _ _ => hd.wf
  | .engineNop hd => hd.wf
  | .arrayLeaseTurn _ => true
  | .translationComplete _ _ => true
  | .sleepExpire _ => true
  | .watchdog _ _ => true
  | .ptsAdvance _ => true
  | .clockCatchup => true
  | .readLeaseExpiry _ _ => true
  | .faultRecordWrite _ => true
  | .replayRetry _ _ _ => true
  | .replaySkip _ _ _ => true
  | .replayKill _ _ _ => true
  | .droveValidate _ => true
  | .droveWaitMet _ => true
  | .iterationHandout _ _ => true
  | .preempt _ => true
  | .partitionResume _ => true
  | .planeDiffRecord _ _ _ _ _ => true
  | .planeSwap _ _ _ => true
  | .droveComplete _ => true
  | .chainFollow _ _ => true
  | .tickSweep _ => true
  | .sampleAccumulate _ _ _ _ => true
  | .autoSatnRewrite _ _ => true
  | .regionRegister _ _ => true
  | .regionCoef _ _ => true
  | .regionRetire _ _ => true
  | .regionCommandDone _ => true
  | .homeRequest _ => true
  | .reclass _ _ => true
  | .reclassComplete _ => true
  | .pinFadePeriod _ => true
  | .wayMaskWrite _ _ => true
  | .wayMaskComplete => true
  | .thermalSample _ => true
  | .thcfgWrite _ => true
  | .bankIdlePrecharge _ _ _ => true
  | .forecastUpdate => true
  | .llynedFlitReceive _ _ _ => true
  | .llynedReplayRequest _ _ => true
  | .portDown _ => true
  | .portUp _ _ => true
  | .remoteRequest _ => true
  | .remoteResponse _ _ => true
  | .fabricTimeout _ => true
  | .podBarrierArrival _ _ _ _ => true
  | .podBarrierRelease _ _ => true
  | .shepherdDataFlit _ _ _ _ _ => true
  | .collectiveAbort _ _ _ => true
  | .memrd _ => true
  | .memwr _ _ => true
  | .birsp _ _ => true
  | .biconflict _ _ => true
  | .snpdata _ => true
  | .snpinv _ => true
  | .snpcur _ => true
  | .hostCacheResponse _ _ => true
  | .barAccess _ _ _ _ _ => true
  | .doeDiscovery _ _ => true
  | .spdmRequest _ _ => true
  | .getMeasurements _ _ => true
  | .ideKm _ _ => true
  | .ideIntegrityFail _ => true
  | .tpartWrite _ _ => true
  | .tpolWrite _ _ => true
  | .windowLoad _ => true
  | .windowLoadComplete => true
  | .rvk _ _ => true
  | .chainEnable _ _ => true
  | .snapshotRequest _ => true
  | .meterSnapshot _ => true
  | .pinbAccumulate _ => true
  | .powerCapThrottle _ => true
  | .coldBoot _ => true
  | .bootStageTimeout _ => true
  | .bootWatchdog => true
  | .bootctlRetry _ => true
  | .registerWrite _ _ _ => true
  | .illegalInstruction w => illegalCell w
  | .unassignedCommandCode _ => true
  | .cxlPortDown => true
  | .cxlPortUp => true
  | .refresh _ _ => true
  | .modulePowerRemoved => true
  | .revocationComplete _ => true

end Sys2Proof
end

