-- ==== Sys2Proof/Decode.lean ====
section
/-! DEFINITION. The decoder and the encoder of instruction words (R33 to R50, R64, R90, R111, R157), engine command words (R51,
R72, R178, R186, R194, R196, R198) and shepherd program steps (R197). A word is read field by field; an unused field must
hold its "none" value, which is checked by encoding the result again (R36): the canonical word of an instruction is the only
one that decodes to it. -/
namespace Sys2Proof

open Machine (bits bit b2n)

/-- Why a word is not an instruction: it is rejected by name (R35). -/
inductive DecErr where
  | reservedField
  deriving DecidableEq, Repr

/-- A number as an element of Fin (n + 1), by its residue; the fields read below are already in range. -/
def toFin (n : Nat) (v : Nat) : Fin (n + 1) := Fin.ofNat (n + 1) v

/-! Specifier codes (R45 to R50). -/

/-- Token bits [63:60] as a number (R34). -/
def Tk.code (t : Tk) : Nat := b2n t.pl * 8 + b2n t.pr * 4 + b2n t.sl * 2 + b2n t.sr

/-- Token bits from a number. -/
def Tk.ofCode (n : Nat) : Tk := ⟨bit n 3, bit n 2, bit n 1, bit n 0⟩

/-- Size code (R50). -/
def Size.code : Size → Nat
  | .b => 0 | .h => 1 | .w => 2 | .d => 3 | .v => 4 | .hv => 5

/-- Size from its code; 6 and 7 are reserved. -/
def Size.ofCode : Nat → Option Size
  | 0 => some .b | 1 => some .h | 2 => some .w | 3 => some .d | 4 => some .v | 5 => some .hv | _ => none

/-- Scope code (R50). -/
def Scope.code : Scope → Nat
  | .core => 0 | .quad => 1 | .die => 2 | .pkg => 3 | .pod => 4 | .ten => 5 | .sys => 6

/-- Scope from its code; 7 is reserved. -/
def Scope.ofCode : Nat → Option Scope
  | 0 => some .core | 1 => some .quad | 2 => some .die | 3 => some .pkg | 4 => some .pod | 5 => some .ten | 6 => some .sys
  | _ => none

/-- Element type from its code; 9 to 15 are reserved (R49). -/
def Ty.ofCode : Nat → Option Ty
  | 0 => some .f32 | 1 => some .bf16 | 2 => some .f16 | 3 => some .i32 | 4 => some .u32 | 5 => some .i16 | 6 => some .i8
  | 7 => some .u8 | 8 => some .fx | _ => none

/-- Rounding code (R49). -/
def Rm.code : Rm → Nat
  | .rne => 0 | .rtz => 1 | .rup => 2 | .rdn => 3

/-- Rounding from its code. -/
def Rm.ofCode : Nat → Rm
  | 0 => .rne | 1 => .rtz | 2 => .rup | _ => .rdn

/-- Destination code of the access unit (R45). -/
def ADst.code : ADst → Nat
  | .q n => n.val | .qs => 4 | .qz => 5 | .fq => 6 | .a n => 8 + n.val

/-- Destination from its code; 7 and 24 to 63 are reserved. -/
def ADst.ofCode (c : Nat) : Option ADst :=
  if c < 4 then some (.q (toFin 3 c)) else if c = 4 then some .qs else if c = 5 then some .qz else if c = 6 then some .fq
  else if 8 ≤ c ∧ c < 24 then some (.a (toFin 15 (c - 8))) else none

/-- Source code of the AA format (R46). -/
def ASrc.code : ASrc → Nat
  | .a n => n.val | .imm => 16 | .xaWord => 17 | .xaPair => 18 | .zero => 31

/-- Source from its code; 19 to 30 are reserved. -/
def ASrc.ofCode (c : Nat) : Option ASrc :=
  if c < 16 then some (.a (toFin 15 c)) else if c = 16 then some .imm else if c = 17 then some .xaWord
  else if c = 18 then some .xaPair else if c = 31 then some .zero else none

/-- Code of an optional address register: 31 for none (R40, R42). -/
def rcode : Option (Fin 16) → Nat
  | some r => r.val | none => 31

/-- An optional address register from its code; the outer none is a reserved code, 16 to 30. -/
def rOfCode (c : Nat) : Option (Option (Fin 16)) :=
  if c < 16 then some (some (toFin 15 c)) else if c = 31 then some none else none

/-- Destination code of the execute unit (R17). -/
def XDst.code : XDst → Nat
  | .t => 0 | .n k => 1 + k.val | .sd => 17 | .xa => 18 | .cq => 19 | .p k => 20 + k.val | .drop => 27 | .none => 63

/-- Destination from its code; 28 to 62 are reserved (R47). -/
def XDst.ofCode (c : Nat) : Option XDst :=
  if c = 0 then some .t else if c < 17 then some (.n (toFin 15 (c - 1))) else if c = 17 then some .sd
  else if c = 18 then some .xa else if c = 19 then some .cq else if c < 27 then some (.p (toFin 6 (c - 20)))
  else if c = 27 then some .drop else if c = 63 then some .none else none

/-- Source code of the execute unit (R47). -/
def XSrc.code : XSrc → Nat
  | .t k => k.val | .n k => 16 + k.val | .q k => 32 + k.val | .qs => 36 | .o k => 37 + k.val | .lane => 41 | .imm => 48
  | .zero => 63

/-- Source from its code; 42 to 47 and 49 to 62 are reserved. -/
def XSrc.ofCode (c : Nat) : Option XSrc :=
  if c < 16 then some (.t (toFin 15 c)) else if c < 32 then some (.n (toFin 15 (c - 16)))
  else if c < 36 then some (.q (toFin 3 (c - 32))) else if c = 36 then some .qs
  else if c < 41 then some (.o (toFin 3 (c - 37))) else if c = 41 then some .lane else if c = 48 then some .imm
  else if c = 63 then some .zero else none

/-- Operation code of RED (R157). -/
def RedOp.code : RedOp → Nat
  | .add => 0 | .min => 1 | .max => 2 | .and => 3 | .or => 4 | .xor => 5

/-- Operation of RED from its code; 6 and 7 are not listed. -/
def RedOp.ofCode : Nat → Option RedOp
  | 0 => some .add | 1 => some .min | 2 => some .max | 3 => some .and | 4 => some .or | 5 => some .xor | _ => none

/-! Encoding. -/

/-- Class, opcode and token bits of a word (R34). -/
def encHead (cls op : Nat) (tk : Nat) : Nat := tk * 2 ^ 60 + cls * 2 ^ 58 + op * 2 ^ 52

/-- A word of the FB format (R38). -/
def encFB (op lc : Nat) (sense : Bool) (o : FOp) : Nat :=
  encHead 0 op 0 + lc * 2 ^ 48 + b2n sense * 2 ^ 47
    + (match o with | .imm v => v.toNat | .fq => 2 ^ 46)

/-- A word of the FS format (R39). -/
def encFS (op sc id kind imm : Nat) : Nat := encHead 0 op 0 + sc * 2 ^ 49 + id * 2 ^ 45 + kind * 2 ^ 40 + imm

/-- A word of the AM format (R40). -/
def encAM (op : Nat) (tk : Tk) (dst : Nat) (h : Fin 32) (ix : Option (Fin 16)) (sz : Size) (na fc fw sys : Bool)
    (sh : Fin 8) (tap : Nat) (off : BitVec 23) : Nat :=
  encHead 1 op tk.code + dst * 2 ^ 46 + h.val * 2 ^ 41 + rcode ix * 2 ^ 36 + sz.code * 2 ^ 33 + b2n na * 2 ^ 32
    + b2n fc * 2 ^ 31 + b2n fw * 2 ^ 30 + b2n sys * 2 ^ 29 + sh.val * 2 ^ 26 + tap * 2 ^ 23 + off.toNat

/-- A word of the AC format (R42). -/
def encAC (op : Nat) (tk : Tk) (d x1 a1 a2 mode imm : Nat) : Nat :=
  encHead 1 op tk.code + d * 2 ^ 46 + x1 * 2 ^ 41 + a1 * 2 ^ 36 + a2 * 2 ^ 31 + mode * 2 ^ 28 + imm

/-- A word of the AA format (R41). -/
def encAA (op : Nat) (o : AaArgs) : Nat :=
  encHead 1 op o.tk.code + o.dst.code * 2 ^ 46 + o.s1.code * 2 ^ 41 + o.s2.code * 2 ^ 36 + b2n o.fn * 2 ^ 32 + o.imm.toNat

/-- A word of the XV format (R43). -/
def encXV (op : Nat) (o : XArgs) : Nat :=
  encHead 2 op o.tk.code + o.d.code * 2 ^ 46 + o.s1.code * 2 ^ 40 + o.s2.code * 2 ^ 34 + o.s3.code * 2 ^ 28
    + o.p.val * 2 ^ 25 + b2n o.pz * 2 ^ 24 + o.ty.code * 2 ^ 20 + o.rm.code * 2 ^ 18 + b2n o.sat * 2 ^ 17 + o.imm.toNat

/-- A word of the SS format (R44). -/
def encSS (op : Nat) (tk : Tk) (sz : Nat) (na sys : Bool) (opc ty eng cnt imm : Nat) : Nat :=
  encHead 3 op tk.code + sz * 2 ^ 49 + b2n na * 2 ^ 48 + b2n sys * 2 ^ 47 + opc * 2 ^ 43 + ty * 2 ^ 39 + eng * 2 ^ 37
    + cnt * 2 ^ 32 + imm

/-- A command word (R51). -/
def encCmd (hd : Hdr) (code opnd : Nat) : Nat :=
  hd.wsrc.toNat * 2 ^ 61 + hd.wcnt.toNat * 2 ^ 56 + hd.sdst.toNat * 2 ^ 53 + hd.scnt.toNat * 2 ^ 48 + code * 2 ^ 42 + opnd

/-- The operand bits common to the tile commands (R178). -/
def TileOp.code (t : TileOp) : Nat := t.tile.val + b2n t.vc * 2 ^ 6 + t.ever.toNat * 2 ^ 7 + b2n t.stat * 2 ^ 23

/-- A program step (R197): its [63:48] are zero. -/
def encStep (code opnd : Nat) : Nat := code * 2 ^ 42 + opnd

/-- The operand bits shared by the data steps (R197). -/
def StepOp.code (o : StepOp) : Nat := o.bf.val + b2n o.oi * 2 ^ 2 + o.kc.val * 2 ^ 3

/-- The words of an instruction, command or step; an event has none. -/
def encodeNat : Instr → List Nat
  | .nop => [encFS 0 0 0 0 0]
  | .br o => [encFB 1 0 false o]
  | .brc sense o => [encFB 2 0 sense o]
  | .loop lc o => [encFB 3 lc.val false o]
  | .lcset lc o => [encFB 4 lc.val false o]
  | .call o => [encFB 5 0 false o]
  | .ret => [encFS 6 0 0 0 0]
  | .jmp b => [encFS 7 0 0 0 b.toNat]
  | .endIter => [encFS 8 0 0 0 0]
  | .bar r => [encFS 9 r.scope.code r.id.val 0 (r.ob.val * 2 ^ 26)]
  | .bara r => [encFS 10 r.scope.code r.id.val 0 (r.ob.val * 2 ^ 26)]
  | .barw r => [encFS 11 r.scope.code r.id.val 0 (r.ob.val * 2 ^ 26)]
  | .barcfg r c => [encFS 12 r.scope.code r.id.val 0 (r.ob.val * 2 ^ 26 + c.toNat)]
  | .barrot v => [encFS 13 0 0 0 v.toNat]
  | .fence sc k => [encFS 14 sc.code 0 k.toNat 0]
  | .waitev ev v => [encFS 15 0 ev.val 0 v.toNat]
  | .evclr ev => [encFS 16 0 ev.val 0 0]
  | .launch sc v => [encFS 17 sc.code 0 0 v.toNat]
  | .yieldTurn => [encFS 18 0 0 0 0]
  | .trap v => [encFS 19 0 0 0 v.toNat]
  | .sleep v => [encFS 20 0 0 0 v.toNat]
  | .halt v => [encFS 21 0 0 0 v.toNat]
  | .ld o => [encAM 0 o.tk o.dst.code o.h o.ix o.sz o.na o.fc o.fw o.sys o.sh o.tap.val o.off]
  | .ldx o => [encAM 1 o.tk o.dst.code o.h o.ix o.sz o.na o.fc o.fw o.sys o.sh o.tap.val o.off]
  | .lds tk dst sn => [encAC 2 tk dst.code sn.val 31 31 0 0]
  | .sa o => [encAM 3 o.tk 0 o.h o.ix o.sz o.na false false o.sys o.sh 0 o.off]
  | .sax o => [encAM 4 o.tk 0 o.h o.ix o.sz o.na false false o.sys o.sh 0 o.off]
  | .pft o => [encAM 5 o.tk 0 o.h o.ix o.sz false false false false o.sh 0 o.off]
  | .xlt tk h ra => [encAC 6 tk 0 h.val ra.val 31 0 0]
  | .hdrop tk h => [encAC 7 tk 0 h.val 31 31 0 0]
  | .hqry tk dst h => [encAC 8 tk dst.code h.val 31 31 0 0]
  | .sbind tk sn ra rs cnt sz => match cnt with
    | .imm v => [encAC 9 tk 0 sn.val ra.val (rcode rs) sz.code v.toNat]
    | .reg r => [encAC 9 tk (8 + r.val) sn.val ra.val (rcode rs) sz.code 0]
  | .sskip tk sn cnt => match cnt with
    | .imm v => [encAC 10 tk 0 sn.val 31 31 0 v.toNat]
    | .reg r => [encAC 10 tk 0 sn.val r.val 31 0 0]
  | .sfree tk sn => [encAC 11 tk 0 sn.val 31 31 0 0]
  | .pdbind tk pd rs rg n => [encAC 12 tk 0 (pd.val % 32) rs.val rg.val (pd.val / 32) n.toNat]
  | .pdflush tk pd => [encAC 13 tk 0 (pd.val % 32) 31 31 (pd.val / 32) 0]
  | .pdunbind tk pd => [encAC 14 tk 0 (pd.val % 32) 31 31 (pd.val / 32) 0]
  | .feset tk n base off => [encAC 15 tk n.val 0 (rcode base) 31 0 off.toNat]
  | .feclr tk n base off => [encAC 16 tk n.val 0 (rcode base) 31 0 off.toNat]
  | .fetest tk dst base off => [encAC 17 tk dst.code 0 (rcode base) 31 0 off.toNat]
  | .tkw tk e n => [encAC 18 tk 0 e.val 31 31 0 n.toNat]
  | .adda o => [encAA 19 o]
  | .suba o => [encAA 20 o]
  | .mula o => [encAA 21 o]
  | .mada o => [encAA 22 o]
  | .shla o => [encAA 23 o]
  | .shra o => [encAA 24 o]
  | .anda o => [encAA 25 o]
  | .ora o => [encAA 26 o]
  | .xora o => [encAA 27 o]
  | .mina o => [encAA 28 o]
  | .maxa o => [encAA 29 o]
  | .lia o => [encAA 30 o]
  | .liha o => [encAA 31 o]
  | .mova o => [encAA 32 o]
  | .ctlr tk dst ix => [encAC 33 tk dst.code ix.val 31 31 0 0]
  | .ctlw tk ix src => [encAC 34 tk 0 ix.val (rcode src) 31 0 0]
  | .fadd o => [encXV 0 o]
  | .fsub o => [encXV 1 o]
  | .fmul o => [encXV 2 o]
  | .fma o => [encXV 3 o]
  | .fnma o => [encXV 4 o]
  | .fmin o => [encXV 5 o]
  | .fmax o => [encXV 6 o]
  | .fsgn o => [encXV 7 o]
  | .fcmp o => [encXV 8 o]
  | .frcp o => [encXV 9 o]
  | .frsq o => [encXV 10 o]
  | .fsqrt o => [encXV 11 o]
  | .fexp2 o => [encXV 12 o]
  | .flog2 o => [encXV 13 o]
  | .fcvt o => [encXV 14 o]
  | .frnd o => [encXV 15 o]
  | .iadd o => [encXV 16 o]
  | .isub o => [encXV 17 o]
  | .imul o => [encXV 18 o]
  | .imulh o => [encXV 19 o]
  | .imad o => [encXV 20 o]
  | .imin o => [encXV 21 o]
  | .imax o => [encXV 22 o]
  | .iabs o => [encXV 23 o]
  | .ishl o => [encXV 24 o]
  | .ishr o => [encXV 25 o]
  | .and o => [encXV 26 o]
  | .or o => [encXV 27 o]
  | .xor o => [encXV 28 o]
  | .andn o => [encXV 29 o]
  | .popc o => [encXV 30 o]
  | .clz o => [encXV 31 o]
  | .icmp o => [encXV 32 o]
  | .qmul o => [encXV 33 o]
  | .qmad o => [encXV 34 o]
  | .bpack o => [encXV 35 o]
  | .bunpk o => [encXV 36 o]
  | .mov o => [encXV 37 o]
  | .sel o => [encXV 38 o]
  | .shfl o => [encXV 39 o]
  | .bcast o => [encXV 40 o]
  | .slide o => [encXV 41 o]
  | .ins o => [encXV 42 o]
  | .ext o => [encXV 43 o]
  | .rsum o => [encXV 44 o]
  | .rmax o => [encXV 45 o]
  | .rmin o => [encXV 46 o]
  | .scan o => [encXV 47 o]
  | .plog o => [encXV 48 o]
  | .pset o => [encXV 49 o]
  | .pcnt o => [encXV 50 o]
  | .accrd o => [encXV 51 o]
  | .flgrd o => [encXV 52 o]
  | .flgclr o => [encXV 53 o]
  | .st o => [encSS 0 o.tk o.sz.code o.na o.sys 0 0 0 0 0]
  | .stf o => [encSS 1 o.tk o.sz.code o.na o.sys 0 0 0 0 0]
  | .stx o => [encSS 2 o.tk o.sz.code o.na o.sys 0 0 0 0 0]
  | .red o => [encSS 3 o.tk o.sz.code o.na o.sys (o.op.code + 8 * b2n o.c) o.ty.code 0 0 0]
  | .smp o => [encSS 4 o.tk o.sz.code false false (b2n o.sq) (if o.f32 then 0 else 3) 0 0 0]
  | .tick tk ev sc rg => [encSS 5 tk 0 false false 0 0 0 0 (ev.val * 2 ^ 28 + sc.code * 2 ^ 25 + rg.toNat)]
  | .enq tk e n => [encSS 6 tk 0 false false 0 0 e.val n.val 0]
  | .enqm tk e n => [encSS 7 tk 0 false false 0 0 e.val n.val 0]
  | .fmtq tk v => [encSS 8 tk 0 false false 0 0 0 0 v.toNat]
  | .tks tk e n => [encSS 9 tk 0 false false 0 0 e.val n.val 0]
  | .mma hd t kb e0 e1 => [encCmd hd 1 (t.code + kb.toNat * 2 ^ 24), e0.toNat, e1.toNat]
  | .drain hd t za dst exp => [encCmd hd 2 (t.code + b2n za * 2 ^ 24), dst.toNat, exp.toNat]
  | .accld hd t src => [encCmd hd 3 t.code, src.toNat]
  | .accz hd t => [encCmd hd 4 t.code]
  | .wbld hd off len src => [encCmd hd 5 (off.toNat + len.toNat * 2 ^ 21), src.toNat]
  | .copy hd len src dst => [encCmd hd 1 len.toNat, src.toNat, dst.toNat]
  | .copyn hd esz nd x => [encCmd hd 2 (esz.val + nd.val * 4), x.src.toNat, x.dst.toNat, x.counts.toNat, x.s01.toNat, x.s23.toNat, x.d01.toNat, x.d23.toNat]
  | .fill hd len dst pat => [encCmd hd 3 len.toNat, dst.toNat, pat.toNat]
  | .acw hd aop cs len src dst => [encCmd hd 4 (aop.val + b2n cs * 2 ^ 4 + len.toNat * 2 ^ 6), src.toNat, dst.toNat]
  | .amo hd aop d tgt op cmp => [encCmd hd 5 (aop.val + b2n d * 2 ^ 4), tgt.toNat, op.toNat, cmp.toNat]
  | .pftt hd len bo addr bar => [encCmd hd 6 (len.toNat + b2n bo * 2 ^ 40), addr.toNat, bar.toNat]
  | .pin hd win units base => [encCmd hd 7 (win.val + units.toNat * 2 ^ 4), base.toNat]
  | .unpin hd win => [encCmd hd 8 win.val]
  | .mrgSet hd g tgt target lim counter => [encCmd hd 9 (g.val + b2n tgt * 2 ^ 6), target.toNat, lim.toNat, counter.toNat]
  | .mrgOpen hd g c sq tl bt => [encCmd hd 10 (g.val + c.toNat * 2 ^ 6 + sq.toNat * 2 ^ 16 + tl.toNat * 2 ^ 32), bt.toNat]
  | .mrgDep hd tile src => [encCmd hd 11 tile.toNat, src.toNat]
  | .mrgClose hd ev even => [encCmd hd 12 (ev.val + b2n even * 2 ^ 4)]
  | .flag hd d sys tgt val => [encCmd hd 13 (b2n d + b2n sys * 2), tgt.toNat, val.toNat]
  | .resume hd rec => [encCmd hd 14 0, rec.toNat]
  | .gath hd n rw out idx base stride dst => [encCmd hd 1 (n.toNat + rw.toNat * 2 ^ 16 + b2n out * 2 ^ 32), idx.toNat, base.toNat, stride.toNat, dst.toNat]
  | .scat hd n rw idx base stride src => [encCmd hd 2 (n.toNat + rw.toNat * 2 ^ 16), idx.toNat, base.toNat, stride.toNat, src.toNat]
  | .scata hd n rw aop idx base stride src => [encCmd hd 3 (n.toNat + rw.toNat * 2 ^ 16 + aop.val * 2 ^ 32), idx.toNat, base.toNat, stride.toNat, src.toNat]
  | .embag hd n rw idx base stride offs dst => [encCmd hd 4 (n.toNat + rw.toNat * 2 ^ 16), idx.toNat, base.toNat, stride.toNat, offs.toNat, dst.toNat]
  | .run hd out x => [encCmd hd 1 (b2n out), x.prog.toNat, x.ids.toNat, x.ranks.toNat, x.bf0.toNat, x.bf1.toNat, x.bf2.toNat, x.bf3.toNat]
  | .send o => [encStep 0x10 o.code, o.ext.toNat]
  | .recv o => [encStep 0x11 o.code, o.ext.toNat]
  | .rrs o rop => [encStep 0x12 (o.code + rop.toNat * 2 ^ 5), o.ext.toNat]
  | .rrw o rop dbf df rm e1 => [encStep 0x13 (o.code + rop.toNat * 2 ^ 5 + dbf.val * 2 ^ 7 + df.toNat * 2 ^ 9 + rm.code * 2 ^ 13), o.ext.toNat, e1.toNat]
  | .rcpy o => [encStep 0x14 o.code, o.ext.toNat]
  | .kWait => [encStep 0x15 0]
  | .kLoop kc e => [encStep 0x16 kc.val, e.toNat]
  | .peer rv sk kc dl st => [encStep 0x17 (b2n rv + b2n sk * 2 + kc.val * 2 ^ 2 + dl.toNat * 2 ^ 4 + st.toNat * 2 ^ 20)]
  | .barc => [encStep 0x18 0]
  | .endp => [encStep 0x19 0]
  | .notify hd ev part => [encCmd hd 0x3E (ev.val + part.toNat * 2 ^ 4)]
  | .engineNop hd => [encCmd hd 0x3F 0]
  | .illegalInstruction w => [w.toNat]
  | .unassignedCommandCode w => [w.toNat]
  | .bayGrant _ => []
  | .lotAbandon _ => []
  | .arrayLeaseTurn _ => []
  | .translationComplete _ _ => []
  | .sleepExpire _ => []
  | .watchdog _ _ => []
  | .ptsAdvance _ => []
  | .clockCatchup => []
  | .readLeaseExpiry _ _ => []
  | .faultRecordWrite _ => []
  | .replayRetry _ _ _ => []
  | .replaySkip _ _ _ => []
  | .replayKill _ _ _ => []
  | .droveValidate _ => []
  | .droveWaitMet _ => []
  | .iterationHandout _ _ => []
  | .preempt _ => []
  | .partitionResume _ => []
  | .planeDiffRecord _ _ _ _ _ => []
  | .planeSwap _ _ _ => []
  | .droveComplete _ => []
  | .chainFollow _ _ => []
  | .tickSweep _ => []
  | .sampleAccumulate _ _ _ _ => []
  | .autoSatnRewrite _ _ => []
  | .regionRegister _ _ => []
  | .regionCoef _ _ => []
  | .regionRetire _ _ => []
  | .regionCommandDone _ => []
  | .homeRequest _ => []
  | .reclass _ _ => []
  | .reclassComplete _ => []
  | .pinFadePeriod _ => []
  | .wayMaskWrite _ _ => []
  | .wayMaskComplete => []
  | .thermalSample _ => []
  | .thcfgWrite _ => []
  | .bankIdlePrecharge _ _ _ => []
  | .forecastUpdate => []
  | .llynedFlitReceive _ _ _ => []
  | .llynedReplayRequest _ _ => []
  | .portDown _ => []
  | .portUp _ _ => []
  | .remoteRequest _ => []
  | .remoteResponse _ _ => []
  | .fabricTimeout _ => []
  | .podBarrierArrival _ _ _ _ => []
  | .podBarrierRelease _ _ => []
  | .shepherdDataFlit _ _ _ _ _ => []
  | .collectiveAbort _ _ _ => []
  | .memrd _ => []
  | .memwr _ _ => []
  | .birsp _ _ => []
  | .biconflict _ _ => []
  | .snpdata _ => []
  | .snpinv _ => []
  | .snpcur _ => []
  | .hostCacheResponse _ _ => []
  | .barAccess _ _ _ _ _ => []
  | .doeDiscovery _ _ => []
  | .spdmRequest _ _ => []
  | .getMeasurements _ _ => []
  | .ideKm _ _ => []
  | .ideIntegrityFail _ => []
  | .tpartWrite _ _ => []
  | .tpolWrite _ _ => []
  | .windowLoad _ => []
  | .windowLoadComplete => []
  | .rvk _ _ => []
  | .chainEnable _ _ => []
  | .snapshotRequest _ => []
  | .meterSnapshot _ => []
  | .pinbAccumulate _ => []
  | .powerCapThrottle _ => []
  | .coldBoot _ => []
  | .bootStageTimeout _ => []
  | .bootWatchdog => []
  | .bootctlRetry _ => []
  | .registerWrite _ _ _ => []
  | .cxlPortDown => []
  | .cxlPortUp => []
  | .refresh _ _ => []
  | .modulePowerRemoved => []
  | .revocationComplete _ => []

/-- The words of a well-formed instruction, first word first. -/
def encode (i : Instr) : List DWord := (encodeNat i).map (BitVec.ofNat 64)

/-! Reading the fields. -/

/-- The operand of an FB word (R38). -/
def fopOf (n : Nat) : FOp := if bit n 46 then .fq else .imm (BitVec.ofNat 32 n)

/-- The barrier of an FS word (R98). -/
def barOf (n : Nat) : Option BarRef :=
  match Scope.ofCode (bits n 49 3) with
  | some sc => some ⟨sc, toFin 15 (bits n 45 4), toFin 63 (bits n 26 6)⟩
  | none => none

/-- Fields of an F-class word, by opcode (R90). -/
def parseF (n : Nat) : Option Instr :=
  let lc := toFin 7 (bits n 48 3)
  let ev := toFin 15 (bits n 45 4)
  let imm : Word := BitVec.ofNat 32 n
  match bits n 52 6 with
  | 0 => some .nop
  | 1 => some (.br (fopOf n))
  | 2 => some (.brc (bit n 47) (fopOf n))
  | 3 => some (.loop lc (fopOf n))
  | 4 => some (.lcset lc (fopOf n))
  | 5 => some (.call (fopOf n))
  | 6 => some .ret
  | 7 => some (.jmp imm)
  | 8 => some .endIter
  | 9 => (barOf n).map .bar
  | 10 => (barOf n).map .bara
  | 11 => (barOf n).map .barw
  | 12 => (barOf n).map (fun r => .barcfg r (BitVec.ofNat 21 n))
  | 13 => some (.barrot imm)
  | 14 => (Scope.ofCode (bits n 49 3)).map (fun sc => .fence sc (BitVec.ofNat 5 (bits n 40 5)))
  | 15 => some (.waitev ev imm)
  | 16 => some (.evclr ev)
  | 17 => (Scope.ofCode (bits n 49 3)).map (fun sc => .launch sc imm)
  | 18 => some .yieldTurn
  | 19 => some (.trap imm)
  | 20 => some (.sleep imm)
  | 21 => some (.halt imm)
  | _ => none

/-- The AM fields of a load (R40). -/
def ldOf (tk : Tk) (n : Nat) : Option LdArgs :=
  match ADst.ofCode (bits n 46 6), rOfCode (bits n 36 5), Size.ofCode (bits n 33 3) with
  | some dst, some ix, some sz =>
    if bits n 23 3 = 7 then none
    else some ⟨tk, dst, toFin 31 (bits n 41 5), ix, sz, bit n 32, bit n 31, bit n 30, bit n 29, toFin 7 (bits n 26 3),
      toFin 6 (bits n 23 3), BitVec.ofNat 23 n⟩
  | _, _, _ => none

/-- The AM fields of SA and SAX (R40). -/
def saOf (tk : Tk) (n : Nat) : Option SaArgs :=
  match rOfCode (bits n 36 5), Size.ofCode (bits n 33 3) with
  | some ix, some sz =>
    some ⟨tk, toFin 31 (bits n 41 5), ix, sz, bit n 32, bit n 29, toFin 7 (bits n 26 3), BitVec.ofNat 23 n⟩
  | _, _ => none

/-- The AM fields of PFT (R111). -/
def pftOf (tk : Tk) (n : Nat) : Option PftArgs :=
  match rOfCode (bits n 36 5), Size.ofCode (bits n 33 3) with
  | some ix, some sz => some ⟨tk, toFin 31 (bits n 41 5), ix, sz, toFin 7 (bits n 26 3), BitVec.ofNat 23 n⟩
  | _, _ => none

/-- The AA fields (R41). -/
def aaOf (tk : Tk) (n : Nat) : Option AaArgs :=
  match ADst.ofCode (bits n 46 6), ASrc.ofCode (bits n 41 5), ASrc.ofCode (bits n 36 5) with
  | some dst, some s1, some s2 => some ⟨tk, dst, s1, s2, bit n 32, BitVec.ofNat 32 n⟩
  | _, _, _ => none

/-- Fields of an A-class word, by opcode (R111). -/
def parseA (n : Nat) : Option Instr :=
  let tk := Tk.ofCode (bits n 60 4)
  let dst := ADst.ofCode (bits n 46 6)
  let h := toFin 31 (bits n 41 5)
  let sn := toFin 7 (bits n 41 5)
  let pd := toFin 63 (bits n 41 5 + 32 * bits n 28 1)
  let ra := toFin 15 (bits n 36 5)
  let a1 := rOfCode (bits n 36 5)
  let a2 := rOfCode (bits n 31 5)
  let imm : BitVec 28 := BitVec.ofNat 28 n
  match bits n 52 6 with
  | 0 => (ldOf tk n).map .ld
  | 1 => (ldOf tk n).map .ldx
  | 2 => dst.map (fun d => .lds tk d sn)
  | 3 => (saOf tk n).map .sa
  | 4 => (saOf tk n).map .sax
  | 5 => (pftOf tk n).map .pft
  | 6 => some (.xlt tk h ra)
  | 7 => some (.hdrop tk h)
  | 8 => dst.map (fun d => .hqry tk d h)
  | 9 =>
    match a2, Size.ofCode (bits n 28 3) with
    | some rs, some sz =>
      if bits n 46 6 = 0 then some (.sbind tk sn ra rs (.imm imm) sz)
      else if 8 ≤ bits n 46 6 ∧ bits n 46 6 < 24 then some (.sbind tk sn ra rs (.reg (toFin 15 (bits n 46 6 - 8))) sz)
      else none
    | _, _ => none
  | 10 =>
    match a1 with
    | some none => some (.sskip tk sn (.imm imm))
    | some (some r) => some (.sskip tk sn (.reg r))
    | none => none
  | 11 => some (.sfree tk sn)
  | 12 => some (.pdbind tk pd ra (toFin 15 (bits n 31 5)) imm)
  | 13 => some (.pdflush tk pd)
  | 14 => some (.pdunbind tk pd)
  | 15 => a1.map (fun b => .feset tk (toFin 63 (bits n 46 6)) b imm)
  | 16 => a1.map (fun b => .feclr tk (toFin 63 (bits n 46 6)) b imm)
  | 17 => match dst, a1 with
    | some d, some b => some (.fetest tk d b imm)
    | _, _ => none
  | 18 => some (.tkw tk (toFin 3 (bits n 41 5)) imm)
  | 19 => (aaOf tk n).map .adda
  | 20 => (aaOf tk n).map .suba
  | 21 => (aaOf tk n).map .mula
  | 22 => (aaOf tk n).map .mada
  | 23 => (aaOf tk n).map .shla
  | 24 => (aaOf tk n).map .shra
  | 25 => (aaOf tk n).map .anda
  | 26 => (aaOf tk n).map .ora
  | 27 => (aaOf tk n).map .xora
  | 28 => (aaOf tk n).map .mina
  | 29 => (aaOf tk n).map .maxa
  | 30 => (aaOf tk n).map .lia
  | 31 => (aaOf tk n).map .liha
  | 32 => (aaOf tk n).map .mova
  | 33 => dst.map (fun d => .ctlr tk d sn)
  | 34 => a1.map (fun r => .ctlw tk sn r)
  | _ => none

/-- The XV fields (R43). -/
def xOf (n : Nat) : Option XArgs :=
  match XDst.ofCode (bits n 46 6), XSrc.ofCode (bits n 40 6), XSrc.ofCode (bits n 34 6), XSrc.ofCode (bits n 28 6),
    Ty.ofCode (bits n 20 4) with
  | some d, some s1, some s2, some s3, some ty =>
    some ⟨Tk.ofCode (bits n 60 4), d, s1, s2, s3, toFin 7 (bits n 25 3), bit n 24, ty, Rm.ofCode (bits n 18 2), bit n 17,
      BitVec.ofNat 16 n⟩
  | _, _, _, _, _ => none

/-- The X instruction of an opcode (R64). -/
def xCtor (op : Nat) (o : XArgs) : Option Instr :=
  match op with
  | 0 => some (.fadd o)
  | 1 => some (.fsub o)
  | 2 => some (.fmul o)
  | 3 => some (.fma o)
  | 4 => some (.fnma o)
  | 5 => some (.fmin o)
  | 6 => some (.fmax o)
  | 7 => some (.fsgn o)
  | 8 => some (.fcmp o)
  | 9 => some (.frcp o)
  | 10 => some (.frsq o)
  | 11 => some (.fsqrt o)
  | 12 => some (.fexp2 o)
  | 13 => some (.flog2 o)
  | 14 => some (.fcvt o)
  | 15 => some (.frnd o)
  | 16 => some (.iadd o)
  | 17 => some (.isub o)
  | 18 => some (.imul o)
  | 19 => some (.imulh o)
  | 20 => some (.imad o)
  | 21 => some (.imin o)
  | 22 => some (.imax o)
  | 23 => some (.iabs o)
  | 24 => some (.ishl o)
  | 25 => some (.ishr o)
  | 26 => some (.and o)
  | 27 => some (.or o)
  | 28 => some (.xor o)
  | 29 => some (.andn o)
  | 30 => some (.popc o)
  | 31 => some (.clz o)
  | 32 => some (.icmp o)
  | 33 => some (.qmul o)
  | 34 => some (.qmad o)
  | 35 => some (.bpack o)
  | 36 => some (.bunpk o)
  | 37 => some (.mov o)
  | 38 => some (.sel o)
  | 39 => some (.shfl o)
  | 40 => some (.bcast o)
  | 41 => some (.slide o)
  | 42 => some (.ins o)
  | 43 => some (.ext o)
  | 44 => some (.rsum o)
  | 45 => some (.rmax o)
  | 46 => some (.rmin o)
  | 47 => some (.scan o)
  | 48 => some (.plog o)
  | 49 => some (.pset o)
  | 50 => some (.pcnt o)
  | 51 => some (.accrd o)
  | 52 => some (.flgrd o)
  | 53 => some (.flgclr o)
  | _ => none

/-- Fields of an X-class word. -/
def parseX (n : Nat) : Option Instr :=
  match xOf n with
  | some o => xCtor (bits n 52 6) o
  | none => none

/-- Fields of an S-class word, by opcode (R157). -/
def parseS (n : Nat) : Option Instr :=
  let tk := Tk.ofCode (bits n 60 4)
  let eng := toFin 3 (bits n 37 2)
  let cnt := toFin 31 (bits n 32 5)
  let st : Option StArgs := (Size.ofCode (bits n 49 3)).map (fun sz => ⟨tk, sz, bit n 48, bit n 47⟩)
  match bits n 52 6 with
  | 0 => st.map .st
  | 1 => st.map .stf
  | 2 => st.map .stx
  | 3 =>
    match Size.ofCode (bits n 49 3), RedOp.ofCode (bits n 43 3), Ty.ofCode (bits n 39 4) with
    | some sz, some op, some ty => some (.red ⟨tk, sz, bit n 48, bit n 47, op, bit n 46, ty⟩)
    | _, _, _ => none
  | 4 => (Size.ofCode (bits n 49 3)).map (fun sz => .smp ⟨tk, sz, bits n 39 4 == 0, bit n 43⟩)
  | 5 => (Scope.ofCode (bits n 25 3)).map (fun sc => .tick tk (toFin 15 (bits n 28 4)) sc (BitVec.ofNat 16 n))
  | 6 => some (.enq tk eng cnt)
  | 7 => some (.enqm tk eng cnt)
  | 8 => some (.fmtq tk (BitVec.ofNat 32 n))
  | 9 => some (.tks tk eng cnt)
  | _ => none

/-- The fields of a word, by class. -/
def parse (n : Nat) : Option Instr :=
  match bits n 58 2 with
  | 0 => parseF n
  | 1 => parseA n
  | 2 => parseX n
  | _ => parseS n

/-- Decode an instruction word (R35): an unassigned opcode cell first, then every field. Total on any word. -/
def decode (w : DWord) : Except DecErr Instr :=
  if illegalCell w then .ok (.illegalInstruction w)
  else
    match parse w.toNat with
    | some i => if i.wf && encode i == [w] then .ok i else .error .reservedField
    | none => .error .reservedField

/-! Engine command words. -/

/-- The extension words a code takes on an engine (R52, R72, R178, R186, R194, R196); none where the code is not assigned. -/
def cmdExt (e code : Nat) : Option Nat :=
  if code = 0x3E ∨ code = 0x3F then some 0
  else
    match e, code with
    | 0, 1 => some 2 | 0, 2 => some 2 | 0, 3 => some 1 | 0, 4 => some 0 | 0, 5 => some 1
    | 1, 1 => some 2 | 1, 2 => some 7 | 1, 3 => some 2 | 1, 4 => some 2 | 1, 5 => some 3 | 1, 6 => some 2 | 1, 7 => some 1
    | 1, 8 => some 0 | 1, 9 => some 3 | 1, 10 => some 1 | 1, 11 => some 1 | 1, 12 => some 0 | 1, 13 => some 2
    | 1, 14 => some 1
    | 2, 1 => some 4 | 2, 2 => some 4 | 2, 3 => some 4 | 2, 4 => some 5 | 2, 14 => some 1
    | 3, 1 => some 7
    | _, _ => none

/-- The WAIT and SIGNAL bytes of a command word. -/
def hdrOf (n : Nat) : Hdr :=
  ⟨BitVec.ofNat 3 (bits n 61 3), BitVec.ofNat 5 (bits n 56 5), BitVec.ofNat 3 (bits n 53 3), BitVec.ofNat 5 (bits n 48 5)⟩

/-- The operand bits common to the tile commands. -/
def tileOf (n : Nat) : TileOp := ⟨toFin 63 (bits n 0 6), bit n 6, BitVec.ofNat 16 (bits n 7 16), bit n 23⟩

/-- Extension word j of a command. -/
def extw (x : List DWord) (j : Nat) : DWord := x.getD j 0

/-- Fields of a command of engine e, by code, with its extension words. -/
def parseCmd (e : Nat) (w : DWord) (x : List DWord) : Option Instr :=
  let n := w.toNat
  let hd := hdrOf n
  let len : BitVec 40 := BitVec.ofNat 40 n
  let n16 : BitVec 16 := BitVec.ofNat 16 n
  let rw : BitVec 16 := BitVec.ofNat 16 (bits n 16 16)
  match e, bits n 42 6 with
  | _, 0x3E => some (.notify hd (toFin 15 (bits n 0 4)) (BitVec.ofNat 4 (bits n 4 4)))
  | _, 0x3F => some (.engineNop hd)
  | 0, 1 => some (.mma hd (tileOf n) (BitVec.ofNat 8 (bits n 24 8)) (extw x 0) (extw x 1))
  | 0, 2 => some (.drain hd (tileOf n) (bit n 24) (extw x 0) (extw x 1))
  | 0, 3 => some (.accld hd (tileOf n) (extw x 0))
  | 0, 4 => some (.accz hd (tileOf n))
  | 0, 5 => some (.wbld hd (BitVec.ofNat 21 n) (BitVec.ofNat 21 (bits n 21 21)) (extw x 0))
  | 1, 1 => some (.copy hd len (extw x 0) (extw x 1))
  | 1, 2 => some (.copyn hd (toFin 3 (bits n 0 2)) (toFin 3 (bits n 2 2))
      ⟨extw x 0, extw x 1, extw x 2, extw x 3, extw x 4, extw x 5, extw x 6⟩)
  | 1, 3 => some (.fill hd len (extw x 0) (extw x 1))
  | 1, 4 => some (.acw hd (toFin 15 (bits n 0 4)) (bit n 4) (BitVec.ofNat 36 (bits n 6 36)) (extw x 0) (extw x 1))
  | 1, 5 => some (.amo hd (toFin 15 (bits n 0 4)) (bit n 4) (extw x 0) (extw x 1) (extw x 2))
  | 1, 6 => some (.pftt hd len (bit n 40) (extw x 0) (extw x 1))
  | 1, 7 => some (.pin hd (toFin 15 (bits n 0 4)) (BitVec.ofNat 16 (bits n 4 16)) (extw x 0))
  | 1, 8 => some (.unpin hd (toFin 15 (bits n 0 4)))
  | 1, 9 => some (.mrgSet hd (toFin 63 (bits n 0 6)) (bit n 6) (extw x 0) (extw x 1) (extw x 2))
  | 1, 10 => some (.mrgOpen hd (toFin 63 (bits n 0 6)) (BitVec.ofNat 10 (bits n 6 10)) rw (BitVec.ofNat 8 (bits n 32 8))
      (extw x 0))
  | 1, 11 => some (.mrgDep hd (BitVec.ofNat 8 n) (extw x 0))
  | 1, 12 => some (.mrgClose hd (toFin 15 (bits n 0 4)) (bit n 4))
  | 1, 13 => some (.flag hd (bit n 0) (bit n 1) (extw x 0) (extw x 1))
  | 1, 14 => some (.resume hd (extw x 0))
  | 2, 1 => some (.gath hd n16 rw (bit n 32) (extw x 0) (extw x 1) (extw x 2) (extw x 3))
  | 2, 2 => some (.scat hd n16 rw (extw x 0) (extw x 1) (extw x 2) (extw x 3))
  | 2, 3 => some (.scata hd n16 rw (toFin 3 (bits n 32 2)) (extw x 0) (extw x 1) (extw x 2) (extw x 3))
  | 2, 4 => some (.embag hd n16 rw (extw x 0) (extw x 1) (extw x 2) (extw x 3) (extw x 4))
  | 2, 14 => some (.resume hd (extw x 0))
  | 3, 1 => some (.run hd (bit n 0) ⟨extw x 0, extw x 1, extw x 2, extw x 3, extw x 4, extw x 5, extw x 6⟩)
  | _, _ => none

/-- Do the WAIT and SIGNAL bytes of a command agree with engine e (R51)? -/
def cmdHdrOk (e : Nat) (w : DWord) : Bool := (hdrOf w.toNat).wfFor e

/-- The check engine e makes when it takes a word (R51): assigned code, WAIT and SIGNAL, reserved operand bits. -/
def cmdHeadOk (e : Nat) (w : DWord) : Bool :=
  (cmdExt e (bits w.toNat 42 6)).isSome && cmdHdrOk e w
    && (match parseCmd e w [] with
        | some i => (encode i).head? == some w
        | none => false)

/-- Decode a command of engine e: its word and the extension words its code fixes. A word whose code is not assigned is the
UNASSIGNED_COMMAND_CODE of the opcode table. -/
def decodeCommand (e : Nat) (ws : List DWord) : Except DecErr Instr :=
  match ws with
  | [] => .error .reservedField
  | w :: x =>
    match cmdExt e (bits w.toNat 42 6) with
    | none => .ok (.unassignedCommandCode w)
    | some k =>
      if cmdHeadOk e w && x.length == k then
        match parseCmd e w x with
        | some i => .ok i
        | none => .error .reservedField
      else .error .reservedField

/-! Shepherd program steps (R197). -/

/-- The extension words of a step (R197); none where the code is not a step. -/
def stepExt (code : Nat) : Option Nat :=
  match code with
  | 0x10 => some 1 | 0x11 => some 1 | 0x12 => some 1 | 0x13 => some 2 | 0x14 => some 1 | 0x15 => some 0 | 0x16 => some 1
  | 0x17 => some 0 | 0x18 => some 0 | 0x19 => some 0 | 0x3F => some 0
  | _ => none

/-- Fields of a step, by code. -/
def parseStep (w : DWord) (x : List DWord) : Option Instr :=
  let n := w.toNat
  let o : StepOp := ⟨toFin 3 (bits n 0 2), bit n 2, toFin 3 (bits n 3 2), extw x 0⟩
  match bits n 42 6 with
  | 0x10 => some (.send o)
  | 0x11 => some (.recv o)
  | 0x12 => some (.rrs o (BitVec.ofNat 2 (bits n 5 2)))
  | 0x13 => some (.rrw o (BitVec.ofNat 2 (bits n 5 2)) (toFin 3 (bits n 7 2)) (BitVec.ofNat 4 (bits n 9 4))
      (Rm.ofCode (bits n 13 2)) (extw x 1))
  | 0x14 => some (.rcpy o)
  | 0x15 => some .kWait
  | 0x16 => some (.kLoop (toFin 3 (bits n 0 2)) (extw x 0))
  | 0x17 => some (.peer (bit n 0) (bit n 1) (toFin 3 (bits n 2 2)) (BitVec.ofNat 16 (bits n 4 16)) (BitVec.ofNat 16 (bits n 20 16)))
  | 0x18 => some .barc
  | 0x19 => some .endp
  | 0x3F => some (.engineNop (hdrOf n))
  | _ => none

/-- Decode a step and its extension words; a reserved value is refused (R73, R197). -/
def decodeStep (ws : List DWord) : Except DecErr Instr :=
  match ws with
  | [] => .error .reservedField
  | w :: x =>
    match stepExt (bits w.toNat 42 6), parseStep w x with
    | some k, some i =>
      if x.length == k && bits w.toNat 48 16 == 0 && (encode i).head? == some w then .ok i else .error .reservedField
    | _, _ => .error .reservedField

/-- The instruction the decoder reads from a word numbered as the opcode table numbers its bits: an instruction is one 64-bit
little-endian word (R33), and bits a row does not give are zero. -/
def decodeTableWord (_nbits w : Nat) : Option Instr :=
  match decode (BitVec.ofNat 64 w) with
  | .ok i => some i
  | .error _ => none

end Sys2Proof
end

