-- ==== Sys2Proof/Config.lean ====
section
/-! DEFINITION. What one implementation fixes, and the free values: constants without a body, of which
nothing can be proved. -/
namespace Sys2Proof.Config

/-- FREE VALUE. How far past its lower bound the device puts the n-th timestamp it gives (R217: only the
order is fixed). -/
opaque tsGap : Nat → BitVec 6

/-- FREE VALUE. How far past its lower bounds the device puts pts at an iteration start (R18). -/
opaque ptsStartGap : Nat → BitVec 6

/-- FREE VALUE. The ECDSA P-384 signature of the BSC over a 48-byte hash (R344): 96 bytes, byte i. -/
opaque signature : List Byte → Nat → Byte

/-- FREE VALUE. The BSC's answer to an SPDM request whose payload the spec does not lay out (R331): the function and the request. -/
opaque spdmAnswer : Nat → Nat → List Byte

/-- FREE VALUE. The device's firmware measurements (R331): the blocks that a function gives for an index. -/
opaque firmwareBlocks : Nat → Nat → List (List Byte)

/-- FREE VALUE. The kind of value that the BSC puts into a measurement block (R346 fixes its type only), by index. -/
opaque measureKind : Nat → BitVec 7

/-- FREE VALUE. What follows the blocks of the n-th MEASUREMENTS response: nonce, opaque data, and the signature over the response that the request asks for (R346). -/
opaque measureTail : Nat → List Byte → List Byte

/-- FREE VALUE. The hash that chooses among the ports of a route (R305): source package, destination package, and the line address or
CID. -/
opaque portHash : Nat → Nat → Nat → Nat

/-- FREE VALUE. Whether an L1D holds the n-th commutative update as a private partial in state C (R165: it may). -/
opaque holdPartial : Nat → Bool

/-- FREE VALUE. What the n-th device access adds to a meter whose amount depends on the caches: the bytes it moves at the DRAM, the
flits it sends or receives, the payload bytes on the CXL ports (R342). The arguments are the counter, n, and the address. -/
opaque moved : Nat → Nat → Nat → Nat

/-- FREE VALUE. How many of 64 running cycles of a strand are strand-active (R109, R342), the n-th time, and with idle slots inserted for the power cap (R353). -/
opaque activeCycles : Nat → Bool → BitVec 6

/-- FREE VALUE. Whether an access to the open row is queued at the channel behind the n-th one (R280). -/
opaque queuedAt : Nat → Bool

/-- FREE VALUE. The bytes of a command pool image whose page is not mapped (R60). -/
opaque unmappedPool : Nat → Byte

/-- FREE VALUE. The element, with the flags SAT and NX, that a conversion to an integer type of at least the source's width gives for an
integer the type does not hold (R81 has no row for it): the width and sign of the destination, .sat, the value. -/
opaque intoInt : Nat → Bool → Bool → Int → BitVec 32 × BitVec 2

/-- FREE VALUE. Whether a copy command reads a source word that it has also written as the word stood before that write (R187: before or after). The arguments
are the copy and iteration that pushed it, its ring index, and the word's number. -/
opaque overlapRead : Nat → Nat → Nat → Nat → Bool

/-- FREE VALUE. In which order an MMA reads the 16-byte granules of its operands (R182): the iteration and ring index of the command, and the granule. -/
opaque granuleRank : Nat → Nat → Nat → Nat

/-- FREE VALUE. Whether the host gets E for the n-th line it reads that the package has never written (R325 names the states it may hold). -/
opaque hostExclusive : Nat → Bool

/-- FREE VALUE. A configuration register that the spec does not lay out (R322): the function, its offset, and the n-th time. -/
opaque configSpace : Nat → Nat → Nat → BitVec 32

/-- Lanes of a vector (R2). -/
def lanes : Nat := 64
/-- Cores of the package (R1). -/
def cores : Nat := 128
/-- Cycles of one translation (R11). -/
def xltCycles : Nat := 24
/-- First scratchpad offset of the U window (R8). -/
def spadU : Nat := 0x3C0000
/-- Bytes of the scratchpad (R2). -/
def spadBytes : Nat := 0x400000
/-- First tile of U (R8). -/
def tileU : Nat := 60
/-- First weight-buffer byte of U (R8). -/
def wbufU : Nat := 0x1E0000
/-- Bytes of the weight buffer (R2). -/
def wbufBytes : Nat := 0x200000
/-- First paddock entry of U (R8). -/
def paddockU : Nat := 56
/-- Ticks a channel may hold that it has not applied (R238). -/
def chanTicks : Nat := 16
/-- Depth of a token queue between units (R18). -/
def tokDepth : Nat := 16
/-- Depth of an engine token queue (R132, R170, R173). -/
def engTokDepth : Nat := 32

end Sys2Proof.Config
end

