-- ==== Sys2Proof/Machine/Flags.lean ====
section
/-! DEFINITION. The sticky flags as a mask (R14, R80). Every computation below answers its result with the flags it raises, and
masks combine by OR. -/
namespace Sys2Proof.Machine

/-- Invalid operation. -/
def fNV : Nat := 1
/-- Overflow. -/
def fOF : Nat := 2
/-- Underflow. -/
def fUF : Nat := 4
/-- Inexact. -/
def fNX : Nat := 8
/-- Integer or fixed-point saturation. -/
def fSAT : Nat := 16
/-- Quantiser retried. -/
def fQR : Nat := 32
/-- Quantiser clamped. -/
def fQS : Nat := 64

/-- A flag when a condition holds. -/
def flagIf (b : Bool) (f : Nat) : Nat := if b then f else 0

/-- A result with the flags it raises. -/
abbrev FR := Nat × Nat

/-- The flags of a clamp by a conversion: SAT and NX (R80, R81). -/
def fClamp : Nat := fSAT ||| fNX

end Sys2Proof.Machine
end

