-- ==== Sys2Proof/Machine/Float.lean ====
section
/-! DEFINITION. Numbers (R75 to R81): binary floating point on exact dyadic values with one rounding, fixed point, integer
conversion. A value is exact until it is rounded; an irrational value stands as a dyadic value strictly inside the
interval that the rounding cannot tell apart. -/
namespace Sys2Proof.Machine

/-- A binary format: exponent and fraction bits (R75). -/
structure FFmt where
  eb : Nat
  fb : Nat
  deriving DecidableEq, Repr

/-- FP32. -/
def f32 : FFmt := ⟨8, 23⟩
/-- BF16. -/
def bf16 : FFmt := ⟨8, 7⟩
/-- FP16. -/
def f16 : FFmt := ⟨5, 10⟩

/-- Bias of a format. -/
def FFmt.bias (f : FFmt) : Nat := 2 ^ (f.eb - 1) - 1
/-- Exponent of the smallest normal. -/
def FFmt.emin (f : FFmt) : Int := 1 - (f.bias : Int)
/-- The sign bit alone. -/
def FFmt.signBit (f : FFmt) : Nat := 2 ^ (f.eb + f.fb)
/-- Positive infinity. -/
def FFmt.inf (f : FFmt) : Nat := (2 ^ f.eb - 1) * 2 ^ f.fb
/-- Largest finite magnitude. -/
def FFmt.maxFin (f : FFmt) : Nat := f.inf - 1
/-- The canonical quiet NaN. -/
def FFmt.qnan (f : FFmt) : Nat := f.inf + 2 ^ (f.fb - 1)

/-- An exact dyadic value: sign, magnitude m times 2^e. Zero keeps its sign. -/
structure Dy where
  neg : Bool
  m : Nat
  e : Int
  deriving DecidableEq, Repr

/-- What a pattern stands for. -/
inductive FVal where
  | nan (signalling : Bool) | inf (neg : Bool) | fin (d : Dy)
  deriving DecidableEq, Repr

/-- Read a pattern (R75). -/
def unpack (f : FFmt) (n : Nat) : FVal :=
  let neg := bit n (f.eb + f.fb)
  let ex := bits n f.fb f.eb
  let fr := bits n 0 f.fb
  if ex = 2 ^ f.eb - 1 then (if fr = 0 then .inf neg else .nan (!bit fr (f.fb - 1)))
  else if ex = 0 then .fin ⟨neg, fr, f.emin - f.fb⟩
  else .fin ⟨neg, 2 ^ f.fb + fr, (ex : Int) - f.bias - f.fb⟩

/-- Put a sign on a magnitude pattern. -/
def withSign (f : FFmt) (neg : Bool) (mag : Nat) : Nat := if neg then f.signBit + mag else mag

/-- Floor of log2; numbers here have fewer than 4096 bits. -/
def flog (n : Nat) : Nat := log2Aux 4096 n

/-- Round m * 2^e to a multiple of 2^q: the multiple, as a number, and whether it is inexact (R78). -/
def roundAt (rm : Rm) (neg : Bool) (m : Nat) (e q : Int) : Nat × Bool :=
  if q ≤ e then (m * 2 ^ (e - q).toNat, false)
  else
    let d := (q - e).toNat
    let base := m / 2 ^ d
    let rem := m % 2 ^ d
    let up : Bool :=
      match rm with
      | .rne => decide (2 ^ d < 2 * rem) || (decide (2 * rem = 2 ^ d) && decide (base % 2 = 1))
      | .rtz => false
      | .rup => !neg && decide (rem ≠ 0)
      | .rdn => neg && decide (rem ≠ 0)
    (base + b2n up, decide (rem ≠ 0))

/-- The overflow result of a rounding mode (R78). -/
def overflowBits (f : FFmt) (rm : Rm) (neg : Bool) : Nat :=
  let toInf : Bool := match rm with
    | .rne => true
    | .rtz => false
    | .rup => !neg
    | .rdn => neg
  withSign f neg (if toInf then f.inf else f.maxFin)

/-- Round an exact value to a format: the pattern, and OF, UF, NX (R78, R80). -/
def roundFP (f : FFmt) (rm : Rm) (d : Dy) : FR :=
  if d.m = 0 then (withSign f d.neg 0, 0)
  else
    let ex : Int := flog d.m + d.e
    let q0 := ex - f.fb
    let (r0, _) := roundAt rm d.neg d.m d.e q0
    let ex0 : Int := if r0 = 2 ^ (f.fb + 1) then ex + 1 else ex
    if (f.bias : Int) < ex0 then (overflowBits f rm d.neg, fOF ||| fNX)
    else
      let q := max q0 (f.emin - f.fb)
      let (r, nx) := roundAt rm d.neg d.m d.e q
      (withSign f d.neg ((q - (f.emin - f.fb)).toNat * 2 ^ f.fb + r),
        flagIf nx fNX ||| flagIf (nx && decide (ex0 < f.emin)) fUF)

/-- The sign of an exact zero sum of operands with opposite signs (R78). -/
def zeroSign (rm : Rm) : Bool := match rm with | .rdn => true | _ => false

/-- The exact sum of two values, with the sign of a zero sum under rm. -/
def Dy.add (rm : Rm) (a b : Dy) : Dy :=
  let e := min a.e b.e
  let x : Int := (if a.neg then -1 else 1) * (a.m * 2 ^ (a.e - e).toNat : Nat)
  let y : Int := (if b.neg then -1 else 1) * (b.m * 2 ^ (b.e - e).toNat : Nat)
  let s := x + y
  if s = 0 then ⟨if a.neg = b.neg then a.neg else zeroSign rm, 0, e⟩ else ⟨decide (s < 0), s.natAbs, e⟩

/-- The exact product. -/
def Dy.mul (a b : Dy) : Dy := ⟨a.neg != b.neg, a.m * b.m, a.e + b.e⟩

/-- The opposite. -/
def Dy.opp (a : Dy) : Dy := { a with neg := !a.neg }

/-- A dyadic value from an integer times 2^e. -/
def Dy.ofInt (z : Int) (e : Int) : Dy := ⟨decide (z < 0), z.natAbs, e⟩

/-- The opposite of a value. -/
def FVal.opp : FVal → FVal
  | .nan s => .nan s
  | .inf n => .inf (!n)
  | .fin d => .fin d.opp

/-- Is it a NaN? -/
def FVal.isNan : FVal → Bool
  | .nan _ => true
  | _ => false

/-- Is it a signalling NaN? -/
def FVal.isSnan : FVal → Bool
  | .nan s => s
  | _ => false

/-- Round a value. -/
def roundVal (f : FFmt) (rm : Rm) : FVal → FR
  | .nan _ => (f.qnan, 0)
  | .inf n => (withSign f n f.inf, 0)
  | .fin d => roundFP f rm d

/-- NaN operands give the canonical NaN; a signalling one sets NV (R75). -/
def nanResult (f : FFmt) (l : List FVal) : FR := (f.qnan, flagIf (l.any FVal.isSnan) fNV)

/-- a + b (R143). -/
def addV (f : FFmt) (rm : Rm) (a b : FVal) : FR :=
  match a, b with
  | .fin x, .fin y => roundFP f rm (x.add rm y)
  | .inf n, .inf m => if n = m then (withSign f n f.inf, 0) else (f.qnan, fNV)
  | .inf n, .fin _ => (withSign f n f.inf, 0)
  | .fin _, .inf n => (withSign f n f.inf, 0)
  | a, b => nanResult f [a, b]

/-- a * b (R143). -/
def mulV (f : FFmt) (rm : Rm) (a b : FVal) : FR :=
  match a, b with
  | .fin x, .fin y => roundFP f rm (x.mul y)
  | .inf n, .inf m => (withSign f (n != m) f.inf, 0)
  | .inf n, .fin y => if y.m = 0 then (f.qnan, fNV) else (withSign f (n != y.neg) f.inf, 0)
  | .fin x, .inf n => if x.m = 0 then (f.qnan, fNV) else (withSign f (x.neg != n) f.inf, 0)
  | a, b => nanResult f [a, b]

/-- a * b + c with one rounding; 0 times infinity sets NV even beside a NaN (R143). -/
def fmaV (f : FFmt) (rm : Rm) (a b c : FVal) : FR :=
  let prod : Option FVal :=
    match a, b with
    | .fin x, .fin y => some (.fin (x.mul y))
    | .inf n, .inf m => some (.inf (n != m))
    | .inf n, .fin y => if y.m = 0 then none else some (.inf (n != y.neg))
    | .fin x, .inf n => if x.m = 0 then none else some (.inf (x.neg != n))
    | a, b => some (.nan (a.isSnan || b.isSnan))
  match prod with
  | none => (f.qnan, fNV)
  | some p =>
    match p, c with
    | .fin x, .fin y => roundFP f rm (x.add rm y)
    | .inf n, .inf m => if n = m then (withSign f n f.inf, 0) else (f.qnan, fNV)
    | .inf n, .fin _ => (withSign f n f.inf, 0)
    | .fin _, .inf n => (withSign f n f.inf, 0)
    | p, c => nanResult f [p, c]

/-- Order of two exact values, −0 equal to +0: −1, 0 or 1. -/
def Dy.cmp (a b : Dy) : Int :=
  let e := min a.e b.e
  let x : Int := (if a.neg then -1 else 1) * (a.m * 2 ^ (a.e - e).toNat : Nat)
  let y : Int := (if b.neg then -1 else 1) * (b.m * 2 ^ (b.e - e).toNat : Nat)
  if x < y then -1 else if x = y then 0 else 1

/-- Order of two values that are not NaN. -/
def cmpV (a b : FVal) : Int :=
  match a, b with
  | .fin x, .fin y => x.cmp y
  | .inf n, .inf m => if n = m then 0 else if n then -1 else 1
  | .inf n, _ => if n then -1 else 1
  | _, .inf n => if n then 1 else -1
  | _, _ => 0

/-- FMIN and FMAX (R75): the non-NaN operand against a NaN, −0 below +0. -/
def minmaxV (f : FFmt) (isMax : Bool) (na nb : Nat) : FR :=
  let a := unpack f na
  let b := unpack f nb
  let nv := flagIf (a.isSnan || b.isSnan) fNV
  if a.isNan && b.isNan then (f.qnan, nv)
  else if a.isNan then (nb, nv)
  else if b.isNan then (na, nv)
  else
    let c := cmpV a b
    let aLess : Bool := decide (c < 0) || (decide (c = 0) && bit na (f.eb + f.fb))
    (if aLess = isMax then nb else na, 0)

/-- Square root of a number, rounded down, by two binary digits at a time. -/
def isqrtAux : Nat → Nat → Nat
  | 0, _ => 0
  | fuel + 1, n =>
    if n = 0 then 0
    else
      let r := 2 * isqrtAux fuel (n / 4)
      if (r + 1) * (r + 1) ≤ n then r + 1 else r

/-- Square root of a number of fewer than 4096 bits, rounded down. -/
def isqrt (n : Nat) : Nat := isqrtAux 2048 n

/-- A quotient stood for by its floor: exact, or strictly inside the next unit. -/
def sticky (neg : Bool) (q : Nat) (e : Int) (exact : Bool) : Dy := if exact then ⟨neg, q, e⟩ else ⟨neg, 2 * q + 1, e - 1⟩

/-- x / y for y ≠ 0, precise enough for one rounding to f. -/
def Dy.div (f : FFmt) (x y : Dy) : Dy :=
  let k := flog y.m + f.fb + 5 - flog x.m
  let n := x.m * 2 ^ k
  sticky (x.neg != y.neg) (n / y.m) (x.e - y.e - k) (decide (n % y.m = 0))

/-- √x for x ≥ 0. -/
def Dy.sqrt (f : FFmt) (x : Dy) : Dy :=
  let k0 := 2 * (f.fb + 5)
  let k := if (x.e - k0) % 2 = 0 then k0 else k0 + 1
  let n := x.m * 2 ^ k
  let r := isqrt n
  sticky false r ((x.e - k) / 2) (decide (r * r = n))

/-- 1 / √x for x > 0. -/
def Dy.rsqrt (f : FFmt) (x : Dy) : Dy :=
  let m := if x.e % 2 = 0 then x.m else 2 * x.m
  let e := if x.e % 2 = 0 then x.e else x.e - 1
  let k := flog m + f.fb + 6
  let r := isqrt (2 ^ (2 * k) / m)
  sticky false r (-(e / 2) - k) (decide (r * r * m = 2 ^ (2 * k)))

/-- a / b (R144: FRCP is 1 / a). Zero divisors give infinities without a flag. -/
def divV (f : FFmt) (rm : Rm) (a b : FVal) : FR :=
  match a, b with
  | .fin x, .fin y =>
    if y.m = 0 then (if x.m = 0 then (f.qnan, fNV) else (withSign f (x.neg != y.neg) f.inf, 0))
    else if x.m = 0 then (withSign f (x.neg != y.neg) 0, 0)
    else roundFP f rm (x.div f y)
  | .inf n, .fin y => (withSign f (n != y.neg) f.inf, 0)
  | .fin x, .inf n => (withSign f (x.neg != n) 0, 0)
  | .inf _, .inf _ => (f.qnan, fNV)
  | a, b => nanResult f [a, b]

/-- √a (R144). -/
def sqrtV (f : FFmt) (rm : Rm) (a : FVal) : FR :=
  match a with
  | .nan s => (f.qnan, flagIf s fNV)
  | .inf n => if n then (f.qnan, fNV) else (f.inf, 0)
  | .fin x => if x.m = 0 then (withSign f x.neg 0, 0) else if x.neg then (f.qnan, fNV) else roundFP f rm (x.sqrt f)

/-- 1 / √a (R144): a zero gives the infinity of its sign. -/
def rsqrtV (f : FFmt) (rm : Rm) (a : FVal) : FR :=
  match a with
  | .nan s => (f.qnan, flagIf s fNV)
  | .inf n => if n then (f.qnan, fNV) else (0, 0)
  | .fin x => if x.m = 0 then (withSign f x.neg f.inf, 0) else if x.neg then (f.qnan, fNV) else roundFP f rm (x.rsqrt f)

/-- Working precision of the power and the logarithm, in bits. -/
def trPrec : Nat := 320

/-- Multiply `acc` by 2^(2^-i) for every set bit i of a fraction, most significant bit first: `root` is 2^(2^-(i-1)). The bits are
those of `frac` below position `pos`. -/
def expBits : Nat → Nat → Nat → Nat → Nat
  | 0, _, _, acc => acc
  | pos + 1, frac, root, acc =>
    let root' := isqrt (root * 2 ^ trPrec)
    expBits pos frac root' (if bit frac pos then acc * root' / 2 ^ trPrec else acc)

/-- 2^a for a finite a (R144): exact for an integer, else strictly inside a unit far below any rounding. -/
def Dy.exp2 (x : Dy) : Dy :=
  if x.m = 0 then ⟨false, 1, 0⟩
  else if 11 ≤ flog x.m + x.e then ⟨false, 1, if x.neg then -4096 else 4096⟩
  else
    let neg : Int := if x.neg then -1 else 1
    if 0 ≤ x.e then ⟨false, 1, neg * (x.m * 2 ^ x.e.toNat : Nat)⟩
    else
      let d := (-x.e).toNat
      let z : Int := neg * (x.m : Nat)
      let n := z / (2 ^ d : Nat)
      let frac := (z % (2 ^ d : Nat)).toNat
      if frac = 0 then ⟨false, 1, n⟩
      else ⟨false, 2 * expBits d frac (2 ^ (trPrec + 1)) (2 ^ trPrec) + 1, n - trPrec - 1⟩

/-- Binary digits of log2 of a mantissa in [1, 2), by repeated squaring: `x` has `trPrec` fraction bits. -/
def logBits : Nat → Nat → Nat → Nat
  | 0, _, acc => acc
  | k + 1, x, acc =>
    let y := x * x / 2 ^ trPrec
    if 2 ^ (trPrec + 1) ≤ y then logBits k (y / 2) (2 * acc + 1) else logBits k y (2 * acc)

/-- log2 x for x > 0 (R144): exact for a power of two. -/
def Dy.log2 (x : Dy) : Dy :=
  let n := flog x.m
  let ex : Int := n + x.e
  if x.m = 2 ^ n then Dy.ofInt ex 0
  else
    let frac := logBits 200 (x.m * 2 ^ trPrec / 2 ^ n) 0
    Dy.ofInt (2 * (ex * 2 ^ 200 + frac) + 1) (-201)

/-- 2^a (R144). -/
def exp2V (f : FFmt) (rm : Rm) (a : FVal) : FR :=
  match a with
  | .nan s => (f.qnan, flagIf s fNV)
  | .inf n => (if n then 0 else f.inf, 0)
  | .fin x => roundFP f rm x.exp2

/-- log2 a (R144). -/
def log2V (f : FFmt) (rm : Rm) (a : FVal) : FR :=
  match a with
  | .nan s => (f.qnan, flagIf s fNV)
  | .inf n => if n then (f.qnan, fNV) else (f.inf, 0)
  | .fin x =>
    if x.m = 0 then (withSign f true f.inf, 0) else if x.neg then (f.qnan, fNV) else roundFP f rm x.log2

/-- Round to an integral value in the same format: NX when it differs (R143). What rounds to zero keeps its sign (DESIGN CHOICE,
notes/assumptions/59.md). -/
def rndV (f : FFmt) (rm : Rm) (n : Nat) : FR :=
  match unpack f n with
  | .nan s => (f.qnan, flagIf s fNV)
  | .inf _ => (n, 0)
  | .fin x =>
    let (r, nx) := roundAt rm x.neg x.m x.e (max x.e 0)
    ((roundFP f rm ⟨x.neg, r, max x.e 0⟩).1, flagIf nx fNX)

/-! ### Rounding to integers, fixed point -/

/-- ROUNDINT of an exact value, and whether it is inexact (R79). -/
def Dy.roundInt (rm : Rm) (d : Dy) : Int × Bool :=
  let (r, nx) := roundAt rm d.neg d.m d.e 0
  ((if d.neg then -(r : Int) else (r : Int)), nx)

/-- RNDSH(x, k, rm) (R79). -/
def rndsh (x : Int) (k : Nat) (rm : Rm) : Int := ((Dy.ofInt x (-(k : Int))).roundInt rm).1

/-- Clamp to bounds. -/
def clampTo (lo hi : Int) (x : Int) : Int := if x < lo then lo else if hi < x then hi else x

/-- SAT32 (R79). -/
def sat32 (x : Int) : Int := clampTo (-2147483648) 2147483647 x

/-- ROUNDINT of the exact quotient s / k under RNE, for k > 0 (R238). -/
def divRne (s : Int) (k : Nat) : Int :=
  let a := s.natAbs
  let q := a / k
  let r := a % k
  let q := if k < 2 * r ∨ (2 * r = k ∧ q % 2 = 1) then q + 1 else q
  if s < 0 then -(q : Int) else (q : Int)

/-- A signed 32-bit pattern as an integer. -/
def i32 (w : Nat) : Int := sext 32 w

/-- The bounds of an integer type of a width. -/
def intBounds (signed : Bool) (w : Nat) : Int × Int :=
  if signed then (-(2 ^ (w - 1) : Int), 2 ^ (w - 1) - 1) else (0, 2 ^ w - 1)

/-- A float, times 2^F, to an integer type (R81): NaN gives 0 and NV, a clamp sets SAT and NX. -/
def floatToInt (signed : Bool) (w F : Nat) (rm : Rm) (v : FVal) : FR :=
  let (lo, hi) := intBounds signed w
  match v with
  | .nan _ => (0, fNV)
  | .inf n => (wrap w (if n then lo else hi), fClamp)
  | .fin d =>
    let (r, nx) := { d with e := d.e + F }.roundInt rm
    let c := clampTo lo hi r
    (wrap w c, if c = r then flagIf nx fNX else fClamp)

/-! FP32 on patterns, with RNE where the machine fixes it. -/

/-- One FP32 addition. -/
def add32 (rm : Rm) (a b : Nat) : FR := addV f32 rm (unpack f32 a) (unpack f32 b)
/-- One FP32 multiplication. -/
def mul32 (rm : Rm) (a b : Nat) : FR := mulV f32 rm (unpack f32 a) (unpack f32 b)
/-- One FP32 fused multiply-add. -/
def fma32 (rm : Rm) (a b c : Nat) : FR := fmaV f32 rm (unpack f32 a) (unpack f32 b) (unpack f32 c)
/-- The negation of an FP32 pattern's value. -/
def neg32 (a : Nat) : Nat := if bit a 31 then a - 2 ^ 31 else a + 2 ^ 31

/-! ### Element types (R49, R76) -/

/-- Bits of an element of a type. -/
def Ty.width : Ty → Nat
  | .f32 | .i32 | .u32 | .fx => 32
  | .bf16 | .f16 | .i16 => 16
  | .i8 | .u8 => 8

/-- Is an integer type signed? -/
def Ty.signed : Ty → Bool
  | .u32 | .u8 => false
  | _ => true

/-- The floating format of a type, if it has one. -/
def Ty.fmt : Ty → Option FFmt
  | .f32 => some f32
  | .bf16 => some bf16
  | .f16 => some f16
  | _ => none

/-- Elements of a lane. -/
def perLane (t : Ty) : Nat := 32 / Ty.width t

/-- Element k of a lane. -/
def elemOf (t : Ty) (lane : Nat) (k : Nat) : Nat := bits lane (k * Ty.width t) (Ty.width t)

/-- A lane from its elements, lowest first. -/
def packElems (w : Nat) : List Nat → Nat
  | [] => 0
  | x :: xs => x % 2 ^ w + 2 ^ w * packElems w xs

/-- Apply an element operation to every element of a lane: the lane and the flags of all of them (R138). -/
def mapElems (t : Ty) (f : Nat → FR) : FR :=
  let rs := (upto (perLane t)).map f
  (packElems (Ty.width t) (rs.map (·.1)), rs.foldl (fun a r => a ||| r.2) 0)

/-- An element as an integer, signed as its type says. -/
def elemInt (t : Ty) (x : Nat) : Int := if Ty.signed t then sext (Ty.width t) x else ((x % 2 ^ Ty.width t : Nat) : Int)

/-- Convert one element (R81): from type `src` with `fs` fraction bits to `dst` with `fd`, under rm, with .sat or without. An
integer that a type of equal or greater width does not hold gives a free value: R81 has no row for it (notes/assumptions/10.md). -/
def convElem (dst : Ty) (fd : Nat) (src : Ty) (fs : Nat) (rm : Rm) (sat : Bool) (x : Nat) : FR :=
  let w := Ty.width dst
  match Ty.fmt src, Ty.fmt dst with
  | some fsrc, some fdst =>
    match unpack fsrc x with
    | .nan s => (fdst.qnan, flagIf s fNV)
    | v => roundVal fdst rm v
  | some fsrc, none => floatToInt (Ty.signed dst) w (if dst = .fx then fd else 0) rm (unpack fsrc x)
  | none, some fdst => roundFP fdst rm (Dy.ofInt (elemInt src x) (if src = .fx then -(fs : Int) else 0))
  | none, none =>
    let f1 : Nat := if src = .fx then fs else 0
    let f2 : Nat := if dst = .fx then fd else 0
    let (r, nx) := (Dy.ofInt (elemInt src x) ((f2 : Int) - f1)).roundInt rm
    let (lo, hi) := intBounds (Ty.signed dst) w
    let c := clampTo lo hi r
    let fxToInt : Bool := src == .fx && dst != .fx
    if c = r then (wrap w r, flagIf nx fNX)
    else if src ≠ .fx ∧ dst ≠ .fx ∧ Ty.width src ≤ w then
      let x := Config.intoInt w (Ty.signed dst) sat r
      (wrap w x.1.toNat, 8 * x.2.toNat)
    else if sat || fxToInt then (wrap w c, fClamp)
    else (wrap w r, flagIf nx fNX)

end Sys2Proof.Machine
end

