-- ==== Sys2Proof/Machine/Maps.lean ====
section
/-! DEFINITION. Finite maps from numbers, as plain data: a list of keys and values with keys rising. A key
that is not listed reads as the default its reader names. The byte memory of Machine/Ops.lean has its own,
canonical, form. -/
namespace Sys2Proof.Machine

/-- A map from numbers: keys strictly rising. -/
abbrev Map (α : Type) := List (Nat × α)

/-- The value at a key, if it is listed. -/
def Map.find? {α : Type} : Map α → Nat → Option α
  | [], _ => none
  | (k, v) :: rest, j => if j = k then some v else Map.find? rest j

/-- The value at a key, or the default. -/
def Map.get {α : Type} (d : α) (m : Map α) (k : Nat) : α :=
  match Map.find? m k with
  | some v => v
  | none => d

/-- Set the value at a key. -/
def Map.put {α : Type} : Map α → Nat → α → Map α
  | [], k, v => [(k, v)]
  | (j, w) :: rest, k, v =>
    if k = j then (k, v) :: rest
    else if k < j then (k, v) :: (j, w) :: rest
    else (j, w) :: Map.put rest k v

/-- Remove a key. -/
def Map.del {α : Type} : Map α → Nat → Map α
  | [], _ => []
  | (j, w) :: rest, k => if k = j then Map.del rest k else (j, w) :: Map.del rest k

/-- A vector of 64 lanes from a function of the lane number (R2). -/
def mkVec (f : Nat → Word) : Vec := (List.range 64).map f

/-- Lane i of a vector; a lane beyond its length reads 0. -/
def lane (v : Vec) (i : Nat) : Word := v.getD i 0

/-- The vector of 64 zero lanes. -/
def zeroVec : Vec := List.replicate 64 0

end Sys2Proof.Machine
end

