-- ==== Sys2Proof/Machine/State.lean ====
section
/-! DEFINITION. The state of the machine: everything the spec gives it, as plain data. INVENTORY.md names the
rule of every field. Three index conventions: a core is die*32 + QD*4 + COR (R14); a strand is core*4 + STR; a
strand's copy of its state in one partition (R7) has the key k = strand*2 + partition, P 0 and U 1. A requester
is k*8 + SRC, with the SRC codes of R203: 0 F, 1 A, 2 X, 3 S, 4 M, 5 C, 6 G, 7 K. -/
namespace Sys2Proof.Machine

/-- A translation: the page a walk found (R249, R339). Addresses are numbers; `vbase` and `pbase` are the page's
virtual and physical base, `leaf` the physical address of its leaf entry. -/
structure PageInfo where
  vbase : Nat
  pbase : Nat
  ps : Nat
  cl : Nat
  w : Bool
  x : Bool
  hh : Bool
  rgn : Nat
  leaf : Nat
  deriving DecidableEq, Repr

/-- No page. -/
def PageInfo.none : PageInfo := ⟨0, 0, 0, 0, false, false, false, 0, 0⟩

/-- Handle states (R11). -/
inductive HSt where
  | empty | pending | valid | absent | stale
  deriving DecidableEq, Repr

/-- A handle (R10, R11): its state, the virtual address it names, the translation it holds, the cycle at which a
pending translation ends, and a revocation that waits for that end (R12). -/
structure Handle where
  st : HSt
  va : Nat
  page : PageInfo
  due : Nat
  revoked : Bool
  deriving DecidableEq, Repr

/-- An EMPTY handle. -/
def Handle.empty : Handle := ⟨.empty, 0, PageInfo.none, 0, false⟩

/-- A stream register (R13). -/
structure Strm where
  bnd : Bool
  addr : VAddr
  stride : Word
  left : Word
  esz : Size
  deriving DecidableEq, Repr

/-- An unbound stream. -/
def Strm.unbound : Strm := ⟨false, 0, 0, 0, .b⟩

/-- An entry of aq (R119): plain with one address or scatter with 64; addresses are virtual, or scratchpad offsets
through h0; `page` is the checked translation and `gpages` those of a paddock's global pages by 64 KiB unit (R120). -/
structure AqEntry where
  scatter : Bool
  addrs : List Nat
  h : Fin 32
  page : PageInfo
  gpages : Map PageInfo
  sz : Size
  na : Bool
  sys : Bool
  deriving DecidableEq, Repr

/-- An access of a unit that has been translated and is not complete (R12, R215): its pages, how many of its indivisible parts are performed, and the
bytes that those of a load returned. -/
structure Flight where
  pages : List PageInfo
  done : Nat
  data : List Byte
  deriving DecidableEq, Repr

/-- An A, X or S instruction that has been routed and waits in its unit: its place in program order, its address
and word, and itself. -/
structure Routed where
  seq : Nat
  pc : VAddr
  word : DWord
  instr : Instr
  deriving DecidableEq, Repr

/-- A placed FENCE (R103): its place in program order, kinds, scope, and the producer index of each engine's ring
when it was placed. -/
structure FenceRec where
  seq : Nat
  kinds : BitVec 5
  sc : Scope
  idx : Map Nat
  deriving DecidableEq, Repr

/-- A lot opened by MRG.OPEN (R267): its group, identity, declared tiles, the die and bay it holds (none while it
waits), the bay's bitmap and data, duplicates, the elements its CLOSE recorded (R270), and the tenant, drove, iteration and linear
number it belongs to (R273); of a CLOSE in progress, its outcome, norm and factor, and how many elements it has committed (R272). -/
structure Lot where
  g : Nat
  contrib : Nat
  seq : Nat
  bt : Nat
  tiles : Nat
  die : Nat
  bay : Option Nat
  bitmap : Map Bool
  data : Map Word
  dup : Nat
  result : Option (List Word)
  iter : Nat
  ten : Nat
  drove : Nat
  lin : Nat
  verdict : Option (Nat × Nat × Nat)
  done : Nat
  deriving DecidableEq, Repr

/-- The command an engine has taken from a ring (R173): its ring index, its word, the extension words still to
come and those taken, whether its WAIT tokens are popped, its progress (R208), how many elements of its output queue it has
reserved and not yet produced (R20), the format word a tile command has popped (R180), the drove and iteration that pushed it, the values that
the accesses of the element in progress have returned, each at its own time (R176, R182), the record and image a RESUME has read (R209), the words its
own writes replaced in a source that it may still read (R187), and the elements past its progress point that it has performed already (R221). -/
structure Cur where
  idx : Nat
  word : DWord
  need : Nat
  ext : List DWord
  toks : Bool
  prog : Nat
  resv : Nat
  fw : Option DWord
  drove : Nat
  iter : Nat
  seen : List Nat
  latch : List DWord
  was : Map Word
  ahead : List Nat
  deriving DecidableEq, Repr

/-- An engine input FIFO and its ring (R26). `size` is in bytes, 0 for no ring. `more` are the started commands that are set aside while
another of the ring goes on (R174), `bad` those stopped at a fault (R177). `sig` is the destination and number of
signal tokens still to push and the iteration they belong to (R173); `hold` the event of a reached NOTIFY (R198); `opening` the lot of an
OPEN that is not done (R267), its `result` set where its identity was taken. -/
structure Ring where
  base : Nat
  size : Nat
  prod : Nat
  cons : Nat
  cur : Option Cur
  more : List Cur
  bad : List Cur
  sig : Option (Nat × Nat × Nat)
  hold : Option Nat
  lot : Option Lot
  opening : Option Lot
  deriving DecidableEq, Repr

/-- No ring: a FIFO with no room (R295). -/
def Ring.none : Ring := ⟨0, 0, 0, 0, .none, [], [], .none, .none, .none, .none⟩

/-- A combiner slot (R301): PART of the first NOTIFY reached on the event and the engines that have reached it. -/
structure Slot where
  part : BitVec 4
  reached : BitVec 4
  iter : Nat
  deriving DecidableEq, Repr

/-- One partition copy of a strand's state (R7). -/
structure Part where
  -- the iteration it runs (R28, R95)
  inIter : Bool
  iter : Nat
  drove : Nat
  entry : VAddr
  lin : Nat
  ending : Bool
  frozen : Bool
  -- front end (R9)
  pc : VAddr
  lc : Map Word
  rstack : List VAddr
  ev : Map Word
  brb : Nat
  bd : Nat
  joined : Map (Nat × Nat)
  barArrived : Option Nat
  sleeping : Option Nat
  yielded : Bool
  fences : List FenceRec
  seq : Nat
  -- access unit (R10 to R16)
  a : Map DWord
  h : Map Handle
  strm : Map Strm
  fmth : Word
  rmode : Word
  flags : Word
  lrun : Word
  pts : BitVec 48
  gid : Word
  -- execute unit (R17)
  t : List Vec
  n : Map Vec
  p : Map DWord
  -- queues (R18)
  q : Map (List Vec)
  qs : List Word
  xa : List Vec
  cq : List Bool
  fq : List Word
  aq : List AqEntry
  sd : List Vec
  o : Map (List Vec)
  fmtq : List DWord
  tok : Map Nat
  engTok : Map Nat
  strTok : Map Nat
  owed : Map Nat
  tail : Map Routed
  flight : Map Flight
  early : Map (List Byte)
  ahead : Map (List Byte)
  pfts : List (PageInfo × Nat × Nat)
  soft : Map Nat
  -- routed instructions that wait, by unit, and why (R18, R205)
  pendA : List Routed
  pendX : List Routed
  pendS : List Routed
  waits : Map Nat
  -- engines (R26, R301)
  rings : Map Ring
  slots : Map Slot
  skip : Option (Nat × Nat)
  deriving DecidableEq, Repr

/-- A partition copy with every queue and register empty or zero, outside an iteration (notes/assumptions/2.md). -/
def Part.reset : Part where
  inIter := false
  iter := 0
  drove := 0
  entry := 0
  lin := 0
  ending := false
  frozen := false
  pc := 0
  lc := []
  rstack := []
  ev := []
  brb := 0
  bd := 1
  joined := []
  barArrived := none
  sleeping := none
  yielded := false
  fences := []
  seq := 0
  a := []
  h := []
  strm := []
  fmth := 0
  rmode := 0
  flags := 0
  lrun := 0
  pts := 0
  gid := 0
  t := []
  n := []
  p := []
  q := []
  qs := []
  xa := []
  cq := []
  fq := []
  aq := []
  sd := []
  o := []
  fmtq := []
  tok := []
  engTok := []
  strTok := []
  owed := []
  tail := []
  flight := []
  early := []
  ahead := []
  pfts := []
  soft := []
  pendA := []
  pendX := []
  pendS := []
  waits := []
  rings := []
  slots := []
  skip := none

/-- An accumulator tile (R24): element (i, j) at key 128*i + j. -/
structure Tile where
  data : Map Word
  i32 : Bool
  ver : BitVec 16
  of : Bool
  sat : Bool
  nv : Bool
  deriving DecidableEq, Repr

/-- A tile as zeroed by R23. -/
def Tile.zero : Tile := ⟨[], false, 0, false, false, false⟩

/-- One line of a paddock (R27, R257): present, the dirty words, the physical line it holds (none before its first fill or
store) and whether that line is homed on the host. A paddock word is the global word (R225), so memory holds the value of
a dirty word from its store on; `old` holds what the home held before, for a write-back that is discarded (R297). -/
structure PdLine where
  present : Bool
  dirty : BitVec 16
  pa : Option Nat
  hh : Bool
  old : Map Word
  deriving DecidableEq, Repr

/-- A paddock map entry (R27). -/
structure Paddock where
  spad : Nat
  glob : Nat
  lines : Nat
  st : Map PdLine
  deriving DecidableEq, Repr

/-- L1D line states (R251), each with the end of its read lease (R218); `c` holds the operation, type and one partial per word (R254). Memory
holds the combination that an ordinary read returns; `Pkg.cbase` holds the home value without the partials. -/
inductive L1St where
  | s (lease : BitVec 48) | e (lease : BitVec 48) | m (lease : BitVec 48) | c (lease : BitVec 48) (op : Nat) (ty : Nat) (partials : Map Word)
  deriving DecidableEq, Repr

/-- A running shepherd program (R196, R312); `faulted` while its record waits for a slot (R196). -/
structure Run where
  k : Nat
  drove : Nat
  iter : Nat
  out : Bool
  pc : Nat
  rank : Nat
  g : Nat
  cid : Nat
  ids : List Nat
  bf : Map DWord
  kc : Map Word
  sendPeer : Nat
  recvPeer : Nat
  sentSeq : Map Nat
  sentSteps : Nat
  unreceived : Nat
  atBarc : Bool
  barcDone : Bool
  fin : Bool
  faulted : Bool
  deriving DecidableEq, Repr

/-- A core (R22 to R27, R299): `empties` lists the granules that are empty, `spoison` the poisoned 64-byte lines of scratchpad and `mpoison` the
poisoned tiles and weight-buffer lines (R351, R352),
`l1i` the code lines it may fetch from, each with the end of its lease, the cycle at which it was filled and its bytes (R264); a key is 2 * line + 1 for host
memory. -/
structure Core where
  spad : List Host.Cell
  empties : Map Bool
  tiles : Map Tile
  wbuf : List Host.Cell
  pd : Map Paddock
  engTok : Map Nat
  holder : Option Nat
  turnLeft : Nat
  lastHolder : Nat
  lastUrgent : Nat
  run : Option Run
  plane : Map (Map Byte)
  shadow : Map (Map Byte)
  shadowOk : Map Nat
  lastDrove : Map Nat
  pools : List (Nat × Nat)
  l1d : Map L1St
  l1i : Map (BitVec 48 × Nat × List Byte)
  spoison : Map Bool
  mpoison : Map Bool
  deriving DecidableEq, Repr

/-- A core as a cold boot leaves it (R23, R348). -/
def Core.reset : Core where
  spad := []
  empties := []
  tiles := []
  wbuf := []
  pd := []
  engTok := []
  holder := none
  turnLeft := 0
  lastHolder := 0
  lastUrgent := 0
  run := none
  plane := []
  shadow := []
  shadowOk := []
  lastDrove := []
  pools := []
  l1d := []
  l1i := []
  spoison := []
  mpoison := []

/-- A barrier object (R99): member count, arrivals, phase, the drove of the pending arrivals by the package it runs on, and, at a pod object's anchor, the
other packages that wait for the phase (R310). -/
structure BarObj where
  c : Nat
  a : Nat
  phase : Nat
  drove : Map Nat
  srcs : List Nat
  deriving DecidableEq, Repr

/-- A zeroed barrier object. -/
def BarObj.zero : BarObj := ⟨0, 0, 0, [], []⟩

/-- What a replay asks for (R207). -/
inductive ReplayAct where
  | retry | skip | kill
  deriving DecidableEq, Repr

/-- A stopped unit or engine with its fault record (R203): `id` its own number, `seq` none while the record waits for a slot (R204), `act` a
replay that waits for a frozen partition (R207, R211), `dead` once its unit has left the iteration by another record's end. -/
structure FRec where
  id : Nat
  who : Nat
  ten : Nat
  cause : Nat
  res : Bool
  loc : Nat
  addr : Nat
  info : DWord
  prog : Nat
  lane : Nat
  aux : Nat
  img : List DWord
  pts : BitVec 48
  atTake : Bool
  seq : Option Word
  act : Option ReplayAct
  dead : Bool
  deriving DecidableEq, Repr

/-- Coefficients of a region (R231). -/
structure Coef where
  b0 : Word
  b1 : Word
  b2 : Word
  a1 : Word
  a2 : Word
  deriving DecidableEq, Repr

/-- A registered region (R231): descriptor fields, the physical 64 KiB units of its pages, ticks sequenced, TICKNO and
SATN, whether it retires, and whether SATN waits for its rewrite (AUTO). -/
structure Region where
  ord : Bool
  fp : Bool
  f : Nat
  rtz : Bool
  auto : Bool
  mean : Bool
  hold : Bool
  base : Nat
  ncell : Nat
  coef : Coef
  units : List Nat
  sequenced : Word
  tickno : Word
  satn : Word
  retiring : Bool
  satnDue : Bool
  deriving DecidableEq, Repr

/-- A sequenced tick waiting at a channel (R238): tenant, region, its number, the coefficients it uses (R233) and the
event it raises; `swept` at a channel that has applied it last and waits for the descriptor's home. -/
structure Tick where
  ten : Nat
  rg : Nat
  num : Word
  coef : Coef
  k : Nat
  iter : Nat
  ev : Nat
  seq : Nat
  swept : Bool
  deriving DecidableEq, Repr

/-- A merge group (R265, R266), with the copies whose CLOSEs have reached it and are not concluded, in that order (R272). -/
structure Group where
  set : Bool
  tgt : Bool
  target : Nat
  len : Nat
  lim : Word
  counter : Nat
  valid : Map Nat
  concl : Word
  rej : Nat
  stale : Nat
  dup : Nat
  abnd : Nat
  closing : List Nat
  deriving DecidableEq, Repr

/-- A group that no SET has defined. -/
def Group.unset : Group := ⟨false, false, 0, 0, 0, 0, [], 0, 0, 0, 0, 0, []⟩

/-- A pinned window (R261). -/
structure Pin where
  bnd : Bool
  cnt : Nat
  units : Nat
  base : Nat
  deriving DecidableEq, Repr

/-- A memory window (R337). -/
structure Window where
  host : Bool
  base : Nat
  gib : Nat
  deriving DecidableEq, Repr

/-- A launch chain (R328, R329): anchor, enable, die, error, accepted count, the NEXT field it stands at, and what it
has read there while that record is fetched (0 for none). -/
structure Chain where
  anch : DWord
  en : Bool
  die : Nat
  err : Bool
  acc : Word
  pos : Nat
  fetched : Nat
  deriving DecidableEq, Repr

/-- A chain at reset. -/
def Chain.reset : Chain := ⟨0, false, 0, false, 0, 0, 0⟩

/-- An MSI-X table entry (R330). -/
structure Msix where
  masked : Bool
  pending : Bool
  deriving DecidableEq, Repr

/-- A tenant: its control page (R202, R232, R259, R261, R266, R287, R297, R328, R335, R339, R342, R343) and what the
package keeps for it. -/
structure Tenant where
  fqbase : DWord
  fqctl : DWord
  fqprod : Word
  fqcons : Word
  nomap : Bool
  sinceIrq : Nat
  rtbase : DWord
  rgBusy : Bool
  rgErr : Nat
  rgLost : Bool
  rgLrg : Nat
  rgCmd : Nat
  rcaddr : DWord
  rclen : Word
  rcBusy : Bool
  rcErr : Nat
  rcClass : Nat
  rcAt : Nat
  rcSize : Nat
  pincfg : Nat
  pins : Map Pin
  hot : BitVec 24
  rbk : Word
  whole : Word
  chains : Map Chain
  msix : Map Msix
  msixOff : Bool
  mtr : Map DWord
  snpbase : DWord
  snpLog : Nat
  snpEn : Bool
  snpLast : Word
  snpSeq : Nat
  snpPrev : List Byte
  snpOut : Option (List Byte)
  ptroot : DWord
  rvkVa : Option Nat
  quads : Word
  bays : Word
  pol : DWord
  ways : DWord
  pinlim : Nat
  wins : List Window
  regs : Map Region
  groups : Map Group
  aborts : List (Nat × Nat)
  ended : List Nat
  deriving DecidableEq, Repr

/-- Tenant t at reset: the reset columns of the register tables, and notes/assumptions/4.md and 5.md. -/
def Tenant.reset (t : Nat) : Tenant where
  fqbase := 0
  fqctl := 0x1F000000
  fqprod := 0
  fqcons := 0
  nomap := false
  sinceIrq := 0
  rtbase := 0
  rgBusy := false
  rgErr := 0
  rgLost := false
  rgLrg := 0
  rgCmd := 0
  rcaddr := 0
  rclen := 0
  rcBusy := false
  rcErr := 0
  rcClass := 0
  rcAt := 0
  rcSize := 0
  pincfg := 0
  pins := []
  hot := 0
  rbk := 0
  whole := 0
  chains := []
  msix := []
  msixOff := false
  mtr := []
  snpbase := 0
  snpLog := 0
  snpEn := false
  snpLast := 0
  snpSeq := 0
  snpPrev := []
  snpOut := none
  ptroot := 0
  rvkVa := none
  quads := if t = 0 then 0xFFFFFFFF else 0
  bays := if t = 0 then 0xFFFFFFFF else 0
  pol := if t = 0 then 0x40820001 else 0
  ways := if t = 0 then 0xFFFFFFFFFFFF else 0
  pinlim := 0
  wins := []
  regs := []
  groups := []
  aborts := []
  ended := []

/-- Where a drove stands (R108, R290). -/
inductive DSt where
  | submitted | waiting | eligible | done
  deriving DecidableEq, Repr

/-- A drove accepted by a walker (R107, R290): tenant, walker's die, scope of its LAUNCH, the launching copy and iteration,
its 128-byte record, its state, the cursor, its iteration count, the gangs running (linear number, first strand, strands
left), those retired, the halt code, the status, the gangs a resident drove holds, and
the bytes of its validated plane. -/
structure Drove where
  ten : Nat
  die : Nat
  sc : Scope
  from? : Option (Nat × Nat)
  record : List Byte
  st : DSt
  next : Nat
  total : Nat
  live : List (Nat × Nat × Nat)
  retired : Nat
  haltCode : Option Word
  status : Nat
  presetDone : Bool
  reserved : List Nat
  plane : List Byte
  deriving DecidableEq, Repr

/-- An HBM stack (R281, R285). -/
structure Stack where
  idle : Nat
  temp : BitVec 8
  layer : BitVec 5
  lvl : Nat
  frz : Word
  deriving DecidableEq, Repr

/-- A stack at reset. -/
def Stack.reset : Stack := ⟨64, 0, 0, 0, 0⟩

/-- Where a 64 KiB unit of device memory lies (R236, R278): its stack and the channel offset of its page. -/
structure Place where
  stack : Nat
  c0 : Nat
  deriving DecidableEq, Repr

/-- A flit on its way (R303, R305): its destination package, what the hash of R305 takes (a line address or a CID), and what it carries. -/
structure Flit where
  dst : Nat
  key : Nat
  pkt : Packet
  deriving DecidableEq, Repr

/-- A Llyned port (R303, R306): its register fields, the next sequence it expects, the next it sends, the flits in its
replay buffer by sequence, its consecutive failed replays, the sequence of the last replay asked of it, the
first flit whose replay it has asked for, and the flits it has refused through the link's flow control (R313). -/
structure Port where
  up : Bool
  trn : Bool
  nbr : BitVec 10
  rpl : Nat
  crce : Nat
  down : Nat
  rxNext : Nat
  txNext : Nat
  txBuf : List (Nat × Flit)
  failed : Nat
  replayed : Option Nat
  asked : Option Nat
  refused : List Nat
  deriving DecidableEq, Repr

/-- A port at reset. -/
def Port.reset : Port := ⟨false, false, 0, 0, 0, 0, 0, 0, [], 0, none, none, []⟩

/-- One stream of a collective at its receiver (R312, R313): next expected sequence, flits ahead of their turn, bytes
delivered and not yet consumed. -/
structure RxStream where
  ten : Nat
  cid : Nat
  src : Nat
  next : Nat
  held : Map (List Byte)
  buf : List Byte
  deriving DecidableEq, Repr

/-- A flit of shepherd data sent to another package (R312). -/
structure TxFlit where
  ten : Nat
  cid : Nat
  src : Nat
  dst : Nat
  seq : Nat
  step : Nat
  data : List Byte
  deriving DecidableEq, Repr

/-- What an outstanding exchange waits for (R258, R307, R325, R327). -/
inductive ReqKind where
  | remote (pa : Nat) | recall (pkg line : Nat) | hostLine (line : Nat) (own : Bool) | hostU (line : Nat) | backInv (line : Nat) (inv : Bool)
  deriving DecidableEq, Repr

/-- An exchange outstanding for one requester: what it waits for, what it has got with the data that came with it by physical address, the virtual
address, whether the answer is here, how the home answered (R308) and the timestamp of what it performed, whether 2^FTO µs have passed without an answer (R309), its tag (R307), and
whether a RETRY has it sent again. -/
structure Req where
  kind : ReqKind
  got : List ReqKind
  va : Nat
  answered : Bool
  st : RespSt
  ts : BitVec 48
  timedOut : Bool
  tag : Word
  msg : Option Msg
  resend : Bool
  data : List (Nat × BitVec 48 × List Byte)
  deriving DecidableEq, Repr

/-- State of a line in an RDC (R251, R327) or in the host's caches (R325). -/
inductive Mesi where
  | s | e | m
  deriving DecidableEq, Repr

/-- A line in an RDC (R247, R263): its state, the end of its read lease, its way, and the tenant in whose ways it is. -/
structure RdcLine where
  st : Mesi
  lease : BitVec 48
  way : Nat
  ten : Nat
  deriving DecidableEq, Repr

/-- A line in an L2 or an MSC (R247, R263): its way, and whether HBM lacks what it holds. -/
structure HomeLine where
  way : Nat
  dirty : Bool
  deriving DecidableEq, Repr

/-- Messages of the package on its CXL ports that no instruction waits for (R326, R327). -/
inductive CxlMsg where
  | dirtyEvict (line : Nat) | cleanEvict (line : Nat) | biConflictAck (line : Nat)
  deriving DecidableEq, Repr

/-- How a request from outside was answered: performed; refused or outside every window; poisoned data; unsupported. -/
inductive ReplySt where
  | none | done | refused | poison | unsupported
  deriving DecidableEq, Repr

/-- The latest answer to a request of the host or of another package, with the data it returned. -/
structure Reply where
  st : ReplySt
  data : List Byte
  deriving DecidableEq, Repr

/-- Who holds an assay bay or waits for one: the C ring of a copy, or an OPEN of another package (R267). -/
inductive BayUser where
  | ring (k : Nat) | away (r : RemoteReq)
  deriving DecidableEq, Repr

/-- The package, its fabric, its host port and its BSC: registers of the physical function's page and what the package
keeps. -/
structure Pkg where
  -- physical-function registers
  waysNew : Option (Nat × DWord)
  waysOvl : Bool
  waysOt : Nat
  thcfg : DWord
  fcast : Map DWord
  wintab : DWord
  pstatErr : Bool
  pstatTen : Nat
  pstatWhy : Nat
  winBusy : Option Nat
  winDue : Bool
  winNew : List Window
  corr : Word
  uncorr : Word
  ueloc : DWord
  errctl : DWord
  pwrcap : DWord
  pkgid : BitVec 10
  fabcfg : DWord
  route : Map (BitVec 18)
  ports : Map Port
  -- scheduling
  quadOwner : Map Nat
  -- HBM
  hbm : Map Stack
  openRows : Map Bool
  rowIdle : Map Nat
  place : Map Place
  chanQ : Map (List Tick)
  samples : List (Nat × Nat × Nat × Word)
  hotstop : Bool
  -- bays
  bays : Map BayUser
  bayWait : List BayUser
  -- fabric
  served : List (Nat × BitVec 48 × List Byte)
  rxQ : List Packet
  txTag : Word
  awayTs : Map (BitVec 48 × Nat)
  padAway : Map (Nat × BitVec 16)
  streams : List RxStream
  txFlits : List TxFlit
  txHeld : List TxFlit
  txAborts : List (Nat × Nat × Nat × Nat)
  cids : List (Nat × Nat × Nat)
  -- host
  hostLines : Map Mesi
  rdc : Map RdcLine
  cxlOut : List CxlMsg
  port1Up : Bool
  ideKeyed : Map Bool
  ideSecure : Map Bool
  ideEver : Map Bool
  doe : Map (List Byte)
  irqs : List (Nat × Nat)
  reply : Reply
  -- homes
  poison : Map Bool
  dir : Map (BitVec 12)
  lineTs : Map (BitVec 48 × BitVec 48)
  cbase : Map Word
  homeServed : Nat
  caughtUp : BitVec 48
  l2 : Map HomeLine
  msc : Map HomeLine
  homeQ : Map (List HomeReq)
  -- BSC
  em : DWord
  fails : Nat
  stage : Nat
  ready : Bool
  minMode : Bool
  booting : Bool
  reason : Nat
  boots : Word
  throttle : Bool
  power : Bool
  deriving DecidableEq, Repr

/-- The package at reset: the reset columns of the register tables; the fuse map, the strap and the values without a stated
reset are those of notes/assumptions/4.md, 8.md and 9.md. BOOTSTAT reads 0 until a cold boot runs (R350). -/
def Pkg.reset : Pkg where
  waysNew := none
  waysOvl := false
  waysOt := 0
  thcfg := 0x0000008373695F55
  fcast := []
  wintab := 0
  pstatErr := false
  pstatTen := 0
  pstatWhy := 0
  winBusy := none
  winDue := false
  winNew := []
  corr := 0
  uncorr := 0
  ueloc := 0
  errctl := 0
  pwrcap := 3600
  pkgid := 0
  fabcfg := 0x80010
  route := []
  ports := []
  quadOwner := []
  hbm := []
  openRows := []
  rowIdle := []
  place := []
  chanQ := []
  samples := []
  hotstop := false
  bays := []
  bayWait := []
  served := []
  rxQ := []
  txTag := 0
  awayTs := []
  padAway := []
  streams := []
  txFlits := []
  txHeld := []
  txAborts := []
  cids := []
  hostLines := []
  rdc := []
  cxlOut := []
  port1Up := false
  ideKeyed := []
  ideSecure := []
  ideEver := []
  doe := []
  irqs := []
  reply := ⟨.none, []⟩
  poison := []
  dir := []
  lineTs := []
  cbase := []
  homeServed := 0
  caughtUp := 0
  l2 := []
  msc := []
  homeQ := []
  em := 0x7FBFDFEFF
  fails := 0
  stage := 0
  ready := false
  minMode := false
  booting := false
  reason := 0
  boots := 0
  throttle := false
  power := true

/-- Outside happenings that have no row of their own: a soft error at a physical line, in a register file, in a queue, in an array or in a line of a cache
(R352), and a silent change where nothing checks (R351); the peers' receipt of sent bytes (R312) and of a BARC (R314); data that a link refused and room for them (R313); a line
that a cache gives up: 0 an L1D, 1 an RDC, 2 an L2, 3 an MSC; the end of a home's service of a line (R252); a page placed by software (R278); a host write
of host memory (R327); the reading of a DOE answer (R331); changes of MSI-X masks (R330); a host request that uses an unsupported feature, and one for a
port's configuration space (R322). -/
inductive Env where
  | softErrorMem (line : Nat) (corrected : Bool)
  | softErrorUnit (k : Nat) (unit : Fin 8) (queue : Bool)
  | softErrorSpad (core line : Nat)
  | softErrorArray (core : Nat) (wbuf : Bool) (i : Nat)
  | softErrorCache (level : Fin 5) (place line : Nat) (hh corrected : Bool)
  | silentVec (k lane : Nat) (x : Word)
  | silentCell (t rg c i : Nat) (x : Byte)
  | silentReduce (j i : Nat) (x : Byte)
  | silentFlit (j i : Nat) (x : Byte)
  | received (core : Nat)
  | barcReached (core : Nat)
  | flitRefused (i : Nat)
  | flitRoom
  | evict (level : Fin 4) (core line : Nat)
  | homeDone (line : Nat)
  | placePage (pa : Nat) (ps : Fin 3) (p : Place)
  | hostStore (pa : Nat) (data : List Byte)
  | doeRead (fn : Nat)
  | msixMask (fn vec : Nat) (masked : Bool)
  | msixFn (fn : Nat) (off : Bool)
  | unsupported (mem : Bool)
  | config (fn off : Nat)
  deriving DecidableEq, Repr

/-- One action of one agent: the front end of a copy fetches; a unit tries its oldest waiting instruction; an engine
advances a ring; a shepherd engine performs its next step; an event of the opcode table; a message from another package is taken; something from
outside; a sample that has waited for its channel (R282); a record of meters that is formed is written (R344). And what a memory order leaves free: an instruction of S goes before older stores of host memory, a waiting load of A is performed
ahead of older loads of host memory, a line of host memory is read for loads that are not yet routed (R226, R333), a prefetch goes on (R121), and a stream reads an element ahead (R125); an engine sets the command of a ring aside for
the ring's next, or for one set aside before (R174), and performs an element of a command ahead of those before it (R221). `grain` says how many
elements the coming steps perform whole, with 0 one access a step (R174, R215; notes/assumptions/18.md). -/
inductive Action where
  | fetch (k : Nat)
  | unit (k : Nat) (u : Fin 4)
  | engine (k : Nat) (e : Fin 4)
  | shepherd (core : Nat)
  | event (i : Instr)
  | msg (j : Nat)
  | sample
  | snap (t : Nat)
  | env (e : Env)
  | pass (k j : Nat)
  | early (k j : Nat)
  | ahead (k va : Nat)
  | pft (k : Nat)
  | stream (k : Nat) (sn : Fin 8) (i : Nat)
  | switch (k : Nat) (e : Fin 4) (fresh : Bool)
  | pick (k : Nat) (e : Fin 4) (i : Nat)
  | grain (n : Nat)
  deriving DecidableEq, Repr

/-- The agent whose instruction is in execution: its copy k, the place in program order, address and word of the
instruction, whether it is being routed or tried again, and whether it goes before older ones of S. For a command: its engine, how many accesses of the
element in progress this step has passed, how many it may still perform, and the element it performs ahead of its turn. -/
structure Ctx where
  k : Nat
  seq : Nat
  pc : VAddr
  word : DWord
  retry : Bool
  eng : Nat
  first : Bool
  nth : Nat
  room : Option Nat
  pick : Option Nat
  deriving DecidableEq, Repr

/-- The state of the machine. -/
structure State where
  parts : Map Part
  cores : Map Core
  tens : Map Tenant
  pkg : Pkg
  droves : Map Drove
  nextDrove : Nat
  nextIter : Nat
  bars : Map BarObj
  faults : List FRec
  nextRec : Nat
  reqs : Map Req
  mem : List Host.Cell
  hostMem : List Host.Cell
  gts : BitVec 48
  cycle : Nat
  freeCtr : Nat
  budget : Nat
  ctx : Ctx
  agenda : List Action
  turn : Nat
  deriving DecidableEq, Repr

/-- The machine right after reset (notes/assumptions/1.md to 9.md name the values the spec does not state). -/
def State.reset : State where
  parts := []
  cores := []
  tens := []
  pkg := Pkg.reset
  droves := []
  nextDrove := 1
  nextIter := 1
  bars := []
  faults := []
  nextRec := 0
  reqs := []
  mem := []
  hostMem := []
  gts := 0
  cycle := 0
  freeCtr := 0
  budget := 1073741824
  ctx := ⟨0, 0, 0, 0, false, 0, false, 0, none, none⟩
  agenda := []
  turn := 0

/-- Why a step ends the run. -/
inductive Fault where
  /-- Raised by `step` when module power is off (R284: the device does nothing until the next cold boot). SAFE: the model stops
  where the hardware has no power. -/
  | powerOff
  deriving DecidableEq, Repr

/-- Why a step has no meaning. -/
inductive Refusal where
  /-- Raised by an arm of `exec` for an instruction that has no meaning yet. SAFE: nothing is claimed of it. -/
  | notModelled (mnemonic : String)
  deriving DecidableEq, Repr

end Sys2Proof.Machine
end

