-- ==== Sys2Proof/Machine/Ops.lean ====
section
/-! DEFINITION. The named operations over memory, registers, queues, tokens, translations and faults that every meaning is
written in. Nothing else reads or writes the fields of State directly, but for the events of the package. -/
namespace Sys2Proof.Machine

/-! ### Where things are -/

/-- The copy with key k (R7). -/
def State.part (s : State) (k : Nat) : Part := Map.get Part.reset s.parts k
/-- Replace a copy. -/
def State.setPart (s : State) (k : Nat) (p : Part) : State := { s with parts := Map.put s.parts k p }
/-- Change a copy. -/
def State.modPart (s : State) (k : Nat) (f : Part → Part) : State := s.setPart k (f (s.part k))
/-- A core. -/
def State.core (s : State) (c : Nat) : Core := Map.get Core.reset s.cores c
/-- Replace a core. -/
def State.setCore (s : State) (c : Nat) (x : Core) : State := { s with cores := Map.put s.cores c x }
/-- Change a core. -/
def State.modCore (s : State) (c : Nat) (f : Core → Core) : State := s.setCore c (f (s.core c))
/-- A tenant. -/
def State.ten (s : State) (t : Nat) : Tenant := Map.get (Tenant.reset t) s.tens t
/-- Replace a tenant. -/
def State.setTen (s : State) (t : Nat) (x : Tenant) : State := { s with tens := Map.put s.tens t x }
/-- Change a tenant. -/
def State.modTen (s : State) (t : Nat) (f : Tenant → Tenant) : State := s.setTen t (f (s.ten t))
/-- Change the package. -/
def State.modPkg (s : State) (f : Pkg → Pkg) : State := { s with pkg := f s.pkg }

/-- The core of a copy. -/
def coreOf (k : Nat) : Nat := k / 8
/-- The strand within its core (sid.STR). -/
def strOf (k : Nat) : Nat := k / 2 % 4
/-- Is the copy the U partition? -/
def isU (k : Nat) : Bool := k % 2 == 1
/-- The quad of a core on the package: 8 * die + QD. -/
def quadOf (core : Nat) : Nat := core / 4
/-- The die of a core. -/
def dieOf (core : Nat) : Nat := core / 32
/-- The key of a strand's copy: P for false, U for true. -/
def keyOf (core str : Nat) (u : Bool) : Nat := (core * 4 + str) * 2 + b2n u

/-- The sid register of a copy (R14). -/
def sidOf (k : Nat) : Word :=
  BitVec.ofNat 32 (strOf k + 4 * (coreOf k % 4) + 16 * (coreOf k / 4 % 8) + 128 * dieOf (coreOf k) + 512 * b2n (isU k))

/-- The tenant a core's quad belongs to (R23, R336). -/
def State.tenOf (s : State) (core : Nat) : Nat := Map.get 0 s.pkg.quadOwner (quadOf core)

/-- The scratchpad window of a partition: first offset and bytes (R8). -/
def spadWindow (u : Bool) : Nat × Nat :=
  if u then (Config.spadU, Config.spadBytes - Config.spadU) else (0, Config.spadU)

/-- Does [off, off + n - 1] lie in the partition's window? -/
def inSpad (u : Bool) (off n : Nat) : Bool :=
  decide ((spadWindow u).1 ≤ off) && decide (off + n ≤ (spadWindow u).1 + (spadWindow u).2)

/-! ### Byte memory: the canonical form -/

/-- What an address reads: an unlisted one reads 0 (notes/assumptions/1.md; for scratchpad R348). -/
def memRead : List Host.Cell → Nat → Byte
  | [], _ => 0
  | (a, b) :: rest, x => if x = a then b else memRead rest x

/-- Write one byte and keep the form: addresses rising, no listed zero. -/
def memWrite : List Host.Cell → Nat → Byte → List Host.Cell
  | [], x, v => if v = 0 then [] else [(x, v)]
  | (a, b) :: rest, x, v =>
    if x = a then (if v = 0 then rest else (a, v) :: rest)
    else if x < a then (if v = 0 then (a, b) :: rest else (x, v) :: (a, b) :: rest)
    else (a, b) :: memWrite rest x v

/-- The canonical form: addresses strictly rising and above `lo`, no entry equal to what an unlisted address reads as. -/
def memWfFrom : Nat → List Host.Cell → Bool
  | _, [] => true
  | lo, (a, b) :: rest => decide (lo ≤ a) && b != 0 && memWfFrom (a + 1) rest

/-- The canonical form of a memory. -/
def memWf (m : List Host.Cell) : Bool := memWfFrom 0 m

/-- Read n bytes from an address up. -/
def memReadN (m : List Host.Cell) (a : Nat) : Nat → List Byte
  | 0 => []
  | n + 1 => memRead m a :: memReadN m (a + 1) n

/-- Write a run of bytes from an address up. -/
def memWriteN (m : List Host.Cell) (a : Nat) : List Byte → List Host.Cell
  | [] => m
  | b :: rest => memWriteN (memWrite m a b) (a + 1) rest

/-- Where a byte lives: a core's scratchpad, device memory of the pod, host memory (R213, R226). -/
inductive Space where
  | spad (core : Nat) | dev | host
  deriving DecidableEq, Repr

/-- The space of a page. -/
def spaceOf (hh : Bool) : Space := if hh then .host else .dev

/-- The memory of a space. -/
def State.memOf (s : State) : Space → List Host.Cell
  | .spad c => (s.core c).spad
  | .dev => s.mem
  | .host => s.hostMem

/-- One byte, as the model's read of a byte. -/
def State.byteAt (s : State) (sp : Space) (a : Nat) : Byte := memRead (s.memOf sp) a

/-- n bytes. -/
def State.bytesAt (s : State) (sp : Space) (a n : Nat) : List Byte := memReadN (s.memOf sp) a n

/-- A little-endian value of n bytes. -/
def State.valAt (s : State) (sp : Space) (a n : Nat) : Nat := leVal (s.bytesAt sp a n)

/-- Write a run of bytes. Every device address of a package holds what is written, also one beyond the 2,304 GB of HBM, of which the spec does not speak
(DESIGN CHOICE, notes/assumptions/58.md). -/
def State.putBytes (s : State) (sp : Space) (a : Nat) (bs : List Byte) : State :=
  match sp with
  | .spad c => s.modCore c (fun x => { x with spad := memWriteN x.spad a bs })
  | .dev => { s with mem := memWriteN s.mem a bs }
  | .host => { s with hostMem := memWriteN s.hostMem a bs }

/-- Write an n-byte little-endian value. -/
def State.putVal (s : State) (sp : Space) (a n v : Nat) : State := s.putBytes sp a (leBytes n v)

/-! ### Registers: every read and write goes through these -/

/-- a0 to a15. -/
def Part.rdA (p : Part) (r : Nat) : DWord := Map.get 0 p.a r
/-- Write an address register. -/
def Part.wrA (p : Part) (r : Nat) (v : DWord) : Part := { p with a := Map.put p.a r v }
/-- An optional address register: none reads 0. -/
def Part.rdAo (p : Part) : Option (Fin 16) → DWord
  | some r => p.rdA r.val
  | none => 0
/-- lc0 to lc7. -/
def Part.rdLc (p : Part) (r : Nat) : Word := Map.get 0 p.lc r
/-- Write a loop counter. -/
def Part.wrLc (p : Part) (r : Nat) (v : Word) : Part := { p with lc := Map.put p.lc r v }
/-- ev0 to ev15. -/
def Part.rdEv (p : Part) (r : Nat) : Word := Map.get 0 p.ev r
/-- Write an event counter. -/
def Part.wrEv (p : Part) (r : Nat) (v : Word) : Part := { p with ev := Map.put p.ev r v }
/-- t0 to t15. -/
def Part.rdT (p : Part) (r : Nat) : Vec := p.t.getD r zeroVec
/-- A result enters the queue: the old t15 is discarded (R17). -/
def Part.pushT (p : Part) (v : Vec) : Part := { p with t := (v :: p.t).take 16 }
/-- n0 to n15. -/
def Part.rdN (p : Part) (r : Nat) : Vec := Map.get zeroVec p.n r
/-- Write a named vector. -/
def Part.wrN (p : Part) (r : Nat) (v : Vec) : Part := { p with n := Map.put p.n r v }
/-- p0 reads all ones (R17). -/
def Part.rdP (p : Part) (r : Nat) : DWord := if r = 0 then BitVec.allOnes 64 else Map.get 0 p.p r
/-- Write a predicate; a write to p0 is discarded (R17). -/
def Part.wrP (p : Part) (r : Nat) (v : DWord) : Part := if r = 0 then p else { p with p := Map.put p.p r v }

/-- h0 always reads VALID with page size 3 (R11). -/
def h0Page : PageInfo := ⟨0, 0, 3, 0, true, false, false, 0, 0⟩
/-- A handle; h0 is fixed (R11). -/
def Part.rdH (p : Part) (h : Nat) : Handle :=
  if h = 0 then ⟨.valid, 0, h0Page, 0, false⟩ else Map.get Handle.empty p.h h
/-- Write a handle; h0 does not change (R11). -/
def Part.wrH (p : Part) (h : Nat) (v : Handle) : Part := if h = 0 then p else { p with h := Map.put p.h h v }
/-- A stream register. -/
def Part.rdStrm (p : Part) (r : Nat) : Strm := Map.get Strm.unbound p.strm r
/-- Write a stream register. -/
def Part.wrStrm (p : Part) (r : Nat) (v : Strm) : Part := { p with strm := Map.put p.strm r v }
/-- Raise sticky flags (R80): OR into bits [6:0]. -/
def Part.orFlags (p : Part) (f : Word) : Part := { p with flags := p.flags ||| (f &&& 0x7F) }
/-- Raise sticky flags in a copy. -/
def State.orFlags (s : State) (k : Nat) (f : Word) : State := s.modPart k (·.orFlags f)

/-! ### Queues and tokens (R18, R19) -/

/-- q0 to q3. -/
def Part.rdQ (p : Part) (n : Nat) : List Vec := Map.get [] p.q n
/-- Write an operand queue. -/
def Part.wrQ (p : Part) (n : Nat) (l : List Vec) : Part := { p with q := Map.put p.q n l }
/-- o0 to o3. -/
def Part.rdO (p : Part) (n : Nat) : List Vec := Map.get [] p.o n
/-- Write an output queue. -/
def Part.wrO (p : Part) (n : Nat) (l : List Vec) : Part := { p with o := Map.put p.o n l }
/-- Room in an output queue (R18: 32 elements). -/
def Part.roomO (p : Part) (n count : Nat) : Bool := decide ((p.rdO n).length + count ≤ 32)

/-- Units of the ring A, X, S as numbers 1, 2, 3 (R203); the token queue from one to another is numbered 4 * from + to. -/
def tokQ (a b : Nat) : Nat := 4 * a + b
/-- Left neighbour in the ring A to X to S to A (R34). -/
def leftOf : Nat → Nat
  | 1 => 3 | 2 => 1 | _ => 2
/-- Right neighbour. -/
def rightOf : Nat → Nat
  | 1 => 2 | 2 => 3 | _ => 1
/-- Tokens in a queue between units. -/
def Part.toks (p : Part) (q : Nat) : Nat := Map.get 0 p.tok q

/-- The tokens unit u must pop are there (R19). -/
def Part.canPop (p : Part) (u : Nat) (tk : Tk) : Bool :=
  (!tk.pl || decide (1 ≤ p.toks (tokQ (leftOf u) u))) && (!tk.pr || decide (1 ≤ p.toks (tokQ (rightOf u) u)))

/-- Pop them. -/
def Part.popToks (p : Part) (u : Nat) (tk : Tk) : Part :=
  let p := if tk.pl then { p with tok := Map.put p.tok (tokQ (leftOf u) u) (p.toks (tokQ (leftOf u) u) - 1) } else p
  if tk.pr then { p with tok := Map.put p.tok (tokQ (rightOf u) u) (p.toks (tokQ (rightOf u) u) - 1) } else p

/-- Push one token from u to v if the queue has room (16, R18); whether it went. -/
def Part.pushTok (p : Part) (u v : Nat) : Part × Bool :=
  if p.toks (tokQ u v) < Config.tokDepth then ({ p with tok := Map.put p.tok (tokQ u v) (p.toks (tokQ u v) + 1) }, true)
  else (p, false)

/-- The tokens that the instruction in unit u has popped at its start, kept beside what the unit owes: 1 from the left, 2 from the right (R19). -/
def startKey (u : Nat) : Nat := 16 + u

/-- The instruction of unit u starts: its tokens are popped. -/
def Part.startToks (p : Part) (u : Nat) (tk : Tk) : Part :=
  if tk.pl || tk.pr then
    let p := p.popToks u tk
    { p with owed := Map.put p.owed (startKey u) (b2n tk.pl + 2 * b2n tk.pr) }
  else p

/-- An instruction that faults has popped nothing (R205): its tokens are back. -/
def Part.unstart (p : Part) (u : Nat) : Part :=
  let n := Map.get 0 p.owed (startKey u)
  if n = 0 then p
  else
    { p with
      owed := Map.del p.owed (startKey u)
      tok := Map.put (Map.put p.tok (tokQ (leftOf u) u) (p.toks (tokQ (leftOf u) u) + b2n (bit n 0))) (tokQ (rightOf u) u)
        (p.toks (tokQ (rightOf u) u) + b2n (bit n 1)) }

/-- Push the tokens an instruction of unit u pushes on finishing; those without room stay owed: 1 left, 2 right. -/
def Part.pushToks (p : Part) (u : Nat) (l r : Bool) : Part :=
  let (p, okL) := if l then p.pushTok u (leftOf u) else (p, true)
  let (p, okR) := if r then p.pushTok u (rightOf u) else (p, true)
  { p with owed := Map.put p.owed u (b2n (!okL) + 2 * b2n (!okR)) }

/-- Push what unit u still owes; the unit no longer stands at the instruction that owed it. -/
def Part.payOwed (p : Part) (u : Nat) : Part :=
  let q := p.pushToks u (bit (Map.get 0 p.owed u) 0) (bit (Map.get 0 p.owed u) 1)
  if Map.get 0 q.owed u = 0 ∧ (Map.find? q.tail u).isSome = true then { q with tail := Map.del q.tail u, waits := Map.del q.waits u } else q

/-- Unit u has finished an instruction and pushes its tokens; while one finds no room the unit stands at it, waiting on a token (R18, R205). -/
def Part.endToks (p : Part) (u : Nat) (tk : Tk) (r : Routed) : Part :=
  let q := { p with owed := Map.del p.owed (startKey u) }.pushToks u tk.sl tk.sr
  if Map.get 0 q.owed u = 0 then q else { q with tail := Map.put q.tail u r, waits := Map.put q.waits u 0 }

/-! ### Routed instructions waiting in a unit -/

/-- The instructions waiting in unit u. -/
def Part.pend (p : Part) : Nat → List Routed
  | 1 => p.pendA | 2 => p.pendX | _ => p.pendS
/-- Replace them. -/
def Part.setPend (p : Part) (u : Nat) (l : List Routed) : Part :=
  match u with
  | 1 => { p with pendA := l }
  | 2 => { p with pendX := l }
  | _ => { p with pendS := l }
/-- Has unit u an instruction older than place q in program order? -/
def Part.older (p : Part) (u q : Nat) : Bool := (p.pend u).any (fun r => decide (r.seq < q))

/-! ### Results of a meaning -/

/-- What a fault says (R201, R203): cause, ADDR, AUX, lowest failing lane, progress. -/
structure FInfo where
  cause : Nat
  addr : Nat
  aux : Nat
  lane : Nat
  prog : Nat
  deriving DecidableEq, Repr

/-- What the body of an instruction comes to: done; waiting, with what it waits on (the AUX code of WATCHDOG in R201, or 7
for a wait that the watchdog does not count); a fault. -/
inductive Res where
  | done (s : State)
  | wait (why : Nat) (s : State)
  | fault (f : FInfo) (s : State)

/-- Go on after a done result. -/
def Res.andThen (r : Res) (f : State → Res) : Res :=
  match r with
  | .done s => f s
  | .wait w s => .wait w s
  | .fault i s => .fault i s

/-- A fault without address. -/
def FInfo.of (cause aux : Nat) : FInfo := ⟨cause, 0, aux, 0, 0⟩
/-- A fault at an address. -/
def FInfo.at (cause addr aux : Nat) : FInfo := ⟨cause, addr, aux, 0, 0⟩

/-! ### Computations that may wait or fault -/

/-- A computation that yields a value, waits, or faults. -/
inductive Eff (α : Type) where
  | ok (a : α) (s : State)
  | wait (why : Nat) (s : State)
  | fault (f : FInfo) (s : State)

/-- Go on with the value. -/
def Eff.bind {α β : Type} (x : Eff α) (f : α → State → Eff β) : Eff β :=
  match x with
  | .ok a s => f a s
  | .wait w s => .wait w s
  | .fault i s => .fault i s

/-- Go on with the value to a result. -/
def Eff.run {α : Type} (x : Eff α) (f : α → State → Res) : Res :=
  match x with
  | .ok a s => f a s
  | .wait w s => .wait w s
  | .fault i s => .fault i s

/-- A result as a computation without a value. -/
def Res.eff : Res → Eff Unit
  | .done s => .ok () s
  | .wait w s => .wait w s
  | .fault i s => .fault i s

/-- A check: none goes on, some faults. -/
def check (f : Option FInfo) (s : State) : Eff Unit :=
  match f with
  | none => .ok () s
  | some i => .fault i s

/-- The first fault of a list of checks. -/
def firstFault : List (Option FInfo) → Option FInfo
  | [] => none
  | some f :: _ => some f
  | none :: rest => firstFault rest

/-! Cause codes (R201). -/

def cTranslation : Nat := 0x01
def cProtection : Nat := 0x02
def cHandleRange : Nat := 0x03
def cMisaligned : Nat := 0x04
def cFilter : Nat := 0x05
def cPaddock : Nat := 0x06
def cFormatUnderflow : Nat := 0x07
def cFormatReserved : Nat := 0x08
def cIllegal : Nat := 0x0A
def cReserved : Nat := 0x0B
def cScope : Nat := 0x0C
def cQueue : Nat := 0x0D
def cBarrier : Nat := 0x0E
def cEngine : Nat := 0x0F
def cMergeLate : Nat := 0x10
def cUncorrectable : Nat := 0x12
def cTimeout : Nat := 0x13
def cTrap : Nat := 0x14
def cWatchdog : Nat := 0x15

/-- Is a cause resumable for a source (R201)? -/
def resumable (cause src aux : Nat) : Bool :=
  if cause = cTranslation ∨ cause = cProtection ∨ cause = cFormatUnderflow ∨ cause = cScope ∨ cause = cTrap
      ∨ cause = cWatchdog then src != 7
  else if cause = cUncorrectable then aux == 0 && src != 7
  else if cause = cTimeout then src != 7
  else false

/-! ### Translation (R249, R339) -/

/-- Does a physical range lie in a window of the tenant, or at another package's home, which checks for itself (R308, R338)? -/
def State.inWin (s : State) (t : Nat) (hh : Bool) (pa n : Nat) : Bool :=
  (!hh && pa / 2 ^ 50 % 1024 != s.pkg.pkgid.toNat)
    || (s.ten t).wins.any (fun w => w.host == hh && decide (w.base ≤ pa) && decide (pa + n ≤ w.base + w.gib * 2 ^ 30))

/-- Bytes of a page by its PS code. -/
def pageBytes (ps : Nat) : Nat := if ps = 0 then 2 ^ 16 else if ps = 1 then 2 ^ 21 else 2 ^ 30

/-- Read a table entry: none where the table lies outside the windows. -/
def State.entry (s : State) (t pa : Nat) : Option Nat :=
  if s.inWin t false pa 8 then some (s.valAt .dev pa 8) else none

/-- The table an entry points to: VLD, PS = 3, bits [7:1] and [63:62] zero. -/
def nextTable (e : Nat) : Option Nat :=
  if bit e 0 && bits e 60 2 == 3 && bits e 1 7 == 0 && bits e 62 2 == 0 then some (bits e 8 52 * 256) else none

/-- A leaf entry of page size ps in the layout of R249, for a virtual address. -/
def State.leaf (s : State) (t ps leafPa va e : Nat) : Option PageInfo :=
  if bit e 0 && bits e 60 2 == ps && !bit e 63 && decide (bits e 5 3 ≤ 3) && (bits e 5 3 == 3 || bits e 8 8 == 0) then
    let size := pageBytes ps
    let hh := bit e 62
    let pbase := bits e 16 44 * 2 ^ 16 / size * size
    if s.inWin t hh pbase size then
      some ⟨va / size * size, pbase, ps, bits e 5 3, bit e 1, bit e 2, hh, bits e 8 8, leafPa⟩
    else none
  else none

/-- Walk the four levels for a virtual address of 52 bits. -/
def State.walk (s : State) (t va : Nat) : Option PageInfo :=
  let e3 := s.entry t (bits (s.ten t).ptroot.toNat 16 44 * 2 ^ 16 + 8 * bits va 39 13)
  match e3.bind nextTable with
  | none => none
  | some t2 =>
    let p2 := t2 + 8 * bits va 30 9
    match s.entry t p2 with
    | none => none
    | some e2 =>
      match nextTable e2 with
      | none => s.leaf t 2 p2 va e2
      | some t1 =>
        let p1 := t1 + 8 * bits va 21 9
        match s.entry t p1 with
        | none => none
        | some e1 =>
          match nextTable e1 with
          | none => s.leaf t 1 p1 va e1
          | some t0 =>
            let p0 := t0 + 8 * bits va 16 5
            match s.entry t p0 with
            | none => none
            | some e0 => s.leaf t 0 p0 va e0

/-- Translate a virtual address; bits above 52 make it not mapped (R122). -/
def State.xlate (s : State) (t va : Nat) : Option PageInfo := if va < 2 ^ 52 then s.walk t va else none

/-- The physical address of a virtual address on its page. -/
def PageInfo.pa (p : PageInfo) (va : Nat) : Nat := p.pbase + (va - p.vbase)

/-! ### Planes (R295) -/

/-- A byte of the plane resident in a partition of a core. -/
def State.planeByte (s : State) (core : Nat) (u : Bool) (off : Nat) : Nat :=
  (Map.get 0 (Map.get [] (s.core core).plane (b2n u)) off : Byte).toNat
/-- An n-byte field of it. -/
def State.planeVal (s : State) (core : Nat) (u : Bool) (off : Nat) : Nat → Nat
  | 0 => 0
  | n + 1 => s.planeByte core u off + 256 * s.planeVal core u (off + 1) n
/-- The read lease LL (R218): 0 acts as 16. -/
def State.leaseLen (s : State) (core : Nat) (u : Bool) : Nat :=
  let v := s.planeByte core u 0xF % 128
  if v = 0 then 16 else v

/-! ### Channels and stacks (R236, R278) -/

/-- The placement of a device address. -/
def State.placeOf (s : State) (pa : Nat) : Place := Map.get ⟨0, 0⟩ s.pkg.place (pa / 2 ^ 16)
/-- Its channel on the package: 32 * stack + (k + c0) mod 32. -/
def State.chanOf (s : State) (pa : Nat) : Nat :=
  32 * (s.placeOf pa).stack + (pa / 1024 + (s.placeOf pa).c0) % 32
/-- A stack. -/
def State.stack (s : State) (n : Nat) : Stack := Map.get Stack.reset s.pkg.hbm n
/-- Is the stack of a device address of this package frozen or shut down (R282, R284), or one that minimal mode does not run (R349)? -/
def State.frozenAt (s : State) (pa : Nat) : Bool :=
  decide (pa / 2 ^ 50 % 1024 = s.pkg.pkgid.toNat)
    && (s.pkg.hotstop || decide (3 ≤ (s.stack (s.placeOf pa).stack).lvl) || (s.pkg.minMode && decide (6 ≤ (s.placeOf pa).stack)))

/-- The die that homes a device address of this package. -/
def State.homeDie (s : State) (pa : Nat) : Nat := (s.placeOf pa).stack / 6

/-! ### Coherence at the home (R247, R250 to R258): none of it changes a byte of memory -/

/-- Every core changed. -/
def State.mapCores (s : State) (f : Nat → Core → Core) : Map Core := s.cores.map (fun e => (e.1, f e.1 e.2))

/-- What another agent's access does to a paddock line that holds the physical line (R258). -/
def PdLine.probe (l : PdLine) (write : Bool) (words : BitVec 16) : PdLine :=
  if l.dirty &&& words != 0 then { l with present := false, dirty := 0, old := [] }
  else if write then { l with present := false }
  else l

/-- Does a paddock line hold the physical line? -/
def PdLine.holds (l : PdLine) (hh : Bool) (line : Nat) : Bool := l.pa == some line && l.hh == hh && (l.present || l.dirty != 0)

/-- Who reaches a home: an agent of the package without a copy of its own, the host by a snoop, an engine of a core, a core through its L1D, or one line of a core's
paddock. -/
inductive Via where
  | agent | host | engine (core : Nat) | strand (core : Nat) | paddock (core idx j : Nat)
  deriving DecidableEq, Repr

/-- The die of who reaches a home. -/
def Via.die : Via → Option Nat
  | .agent => none
  | .host => none
  | .engine c => some (dieOf c)
  | .strand c => some (dieOf c)
  | .paddock c _ _ => some (dieOf c)

/-- The die whose RDC keeps a host line for an engine or a paddock. -/
def Via.keeps : Via → Option Nat
  | .engine c => some (dieOf c)
  | .paddock c _ _ => some (dieOf c)
  | _ => none

/-- The paddock lines of a core after an access by another agent, which may be another line of the core's paddocks. -/
def Core.probePd (c : Core) (core : Nat) (hh : Bool) (line : Nat) (write : Bool) (words : BitVec 16) (via : Via) : Core :=
  { c with
    pd := c.pd.map (fun e =>
      (e.1, { e.2 with st := e.2.st.map (fun x =>
        if x.2.holds hh line && via != .paddock core e.1 x.1 then (x.1, x.2.probe write words) else x) })) }

/-- A core's L1D copy of the line after an access at the home (R251, R254): C partials are collected; a probe takes an E or M copy
of another core; a write invalidates clean copies of class T. -/
def Core.probeL1 (c : Core) (line : Nat) (inv own : Bool) : Core :=
  match Map.find? c.l1d line with
  | some (.c _ _ _ _) => { c with l1d := Map.del c.l1d line }
  | some (.s _) => if inv && !own then { c with l1d := Map.del c.l1d line } else c
  | some _ => if own then c else { c with l1d := Map.del c.l1d line }
  | none => c

/-- The cluster of a core towards a home die: its quad there, or its own die's RDC (R253). -/
def clusterOf (home core : Nat) : Nat :=
  if dieOf core = home then quadOf core % 8 else 8 + (if dieOf core < home then dieOf core else dieOf core - 1)

/-- Record in the directory that a cluster may hold a copy of a line (R253): one entry for each 512-byte region. -/
def Pkg.mark (g : Pkg) (line cluster : Nat) : Pkg :=
  { g with dir := Map.put g.dir (line / 8) (Map.get 0 g.dir (line / 8) ||| BitVec.ofNat 12 (2 ^ cluster)) }

/-- The directory after an access to a device line. -/
def State.markVia (s : State) (line : Nat) (via : Via) (g : Pkg) : Pkg :=
  match via with
  | .agent => g
  | .host => g
  | .engine _ => g
  | .strand c => g.mark line (clusterOf (s.homeDie (64 * line)) c)
  | .paddock c _ _ => g.mark line (clusterOf (s.homeDie (64 * line)) c)

/-- Is a device line homed on this package? -/
def State.ours (s : State) (pa : Nat) : Bool := decide (pa / 2 ^ 50 % 1024 = s.pkg.pkgid.toNat)

/-- Can a line of this package not be written at its home: its stack is frozen or shut down, and neither L2 nor MSC holds it (R282, R284)? -/
def State.stuckAt (s : State) (line : Nat) : Bool :=
  s.ours (64 * line) && s.frozenAt (64 * line) && (Map.find? s.pkg.l2 line).isNone && (Map.find? s.pkg.msc line).isNone

/-- Does a port carry anything? A port whose IDE was once enabled carries nothing while it is insecure (R332). -/
def State.portOpen (s : State) (p : Nat) : Bool := !Map.get false s.pkg.ideEver p || Map.get false s.pkg.ideSecure p

/-- The port a line travels on: address bit 12 selects port 1 while it is up. -/
def State.portOf (s : State) (line : Nat) : Nat := if s.pkg.port1Up && bit (64 * line) 12 then 1 else 0

/-- Do CXL.mem and CXL.cache carry a line? -/
def State.carries (s : State) (line : Nat) : Bool := !s.pkg.minMode && s.portOpen (s.portOf line)

/-- Must an RDC keep a line: one of the host that its port does not carry, or a written one of the package whose home takes no writes (R282, R332)? -/
def State.keepsRdc (s : State) (e : Nat × RdcLine) : Bool :=
  let line := e.1 % 2 ^ 54
  if e.1 / 2 ^ 54 % 2 == 1 then !s.carries line else e.2.st == .m && s.stuckAt line

/-- Key of a line in the RDC of a die. -/
def rdcKey (die : Nat) (hh : Bool) (line : Nat) : Nat := (2 * die + b2n hh) * 2 ^ 54 + line

/-- One RDC's copy of a line after an access (R250, R251, R327): `own` is the requester's die, `keep` says that a paddock of the copy's die holds words of a host
line dirty, or that the requester has no die, so that the die's copy serves it. A host line written on one die leaves the
others; a device line of this package is probed as an L1D copy is; one of another package lasts as long as its lease. -/
def RdcLine.probe (r : RdcLine) (hh ours write inv own keep : Bool) : Option RdcLine :=
  if hh then
    (if write then (if own || (keep && r.st != .s) then some { r with st := .m } else none)
     else if own || keep then some r else some { r with st := .s })
  else if ours then
    (match r.st with
      | .s => if inv && !own then none else some r
      | _ => if own then some r else none)
  else some r

/-- The RDC copies of a line after an access. -/
def Pkg.probeRdc (g : Pkg) (hh : Bool) (line : Nat) (ours write inv : Bool) (die : Option Nat) (keep : Nat → Bool) : Pkg :=
  { g with
    rdc := g.rdc.filterMap (fun e =>
      if e.1 % 2 ^ 54 = line ∧ (e.1 / 2 ^ 54 % 2 == 1) = hh then
        (e.2.probe hh ours write inv (die == some (e.1 / 2 ^ 54 / 2)) (keep (e.1 / 2 ^ 54 / 2))).map (fun r => (e.1, r))
      else some e) }

/-! ### The caches of the homes and the banks of HBM (R247, R262, R263, R280) -/

/-- The tenant whose window of a kind holds a physical range. -/
def State.owner (s : State) (hh : Bool) (pa n : Nat) : Option Nat :=
  (upto 17).find? (fun t => (s.ten t).wins.any (fun w => w.host == hh && decide (w.base ≤ pa) && decide (pa + n ≤ w.base + w.gib * 2 ^ 30)))

/-- The tenant whose device window holds it. -/
def State.windowOwner (s : State) (pa n : Nat) : Option Nat := s.owner false pa n

/-- Does a bound pinned window of a tenant hold a device line of the package (R262)? -/
def State.pinned (s : State) (line : Nat) : Bool :=
  s.tens.any (fun e => e.2.pins.any (fun w => w.2.bnd && (upto (w.2.units + 1)).any (fun j =>
    match s.xlate e.1 (w.2.base + j * 65536) with
    | some p => !p.hh && p.pa (w.2.base + j * 65536) / 65536 == line / 1024
    | none => false)))

/-- Key of a bank of a channel. -/
def bankKey (chan bank : Nat) : Nat := chan * 1024 + bank

/-- The bank of a device address (notes/assumptions/40.md). -/
def bankOf (pa : Nat) : Nat := pa / 2 ^ 15 % 1024

/-- An access opens a bank's row and restarts its idle timer with the IDLE of its stack; IDLE = 0 precharges at once, unless an access to the open row is queued
(R280). -/
def State.touchBank (s : State) (chan bank : Nat) (queued : Bool) : State :=
  let idle := (s.stack (chan / 32)).idle
  s.modPkg (fun g =>
    if idle = 0 ∧ queued = false then { g with openRows := Map.del g.openRows (bankKey chan bank), rowIdle := Map.del g.rowIdle (bankKey chan bank) }
    else { g with
      openRows := Map.put g.openRows (bankKey chan bank) true
      rowIdle := Map.put g.rowIdle (bankKey chan bank) (s.cycle + idle) })

/-- A line goes to its bank. -/
def State.atBank (s : State) (line : Nat) : State := s.touchBank (s.chanOf (64 * line)) (bankOf (64 * line)) (Config.queuedAt s.freeCtr)

/-- A way of a mask for a new line, from the ways its set holds and whether each may be given up: a free one, else one that may be; none where
the mask has none (notes/assumptions/53.md). -/
def pickWay (mask turn : Nat) (held : List (Nat × Bool)) : Option Nat :=
  let ws := (upto 16).filter (bit mask)
  match ws.find? (fun w => held.all (fun h => h.1 != w)) with
  | some w => some w
  | none =>
    let vs := ws.filter (fun w => held.all (fun h => h.1 != w || h.2))
    vs[turn % max vs.length 1]?

/-- The lines a cache of a home holds in the set of a line: `sets` sets on each die. -/
def State.setOf (s : State) (m : Map HomeLine) (sets line : Nat) : Map HomeLine :=
  m.filter (fun e => e.1 % sets == line % sets && s.homeDie (64 * e.1) == s.homeDie (64 * line))

/-- Meters (R342): add to counter i of a tenant. -/
def State.meter (s : State) (t i n : Nat) : State :=
  s.modTen t (fun x => { x with mtr := Map.put x.mtr i (Map.get 0 x.mtr i + BitVec.ofNat 64 n) })

/-- A line that a cache of the home gives up: a dirty one goes down to the MSC that holds it, or to HBM, which counts for the tenant that owns it (R342). -/
def State.writeDown (s : State) (l2 : Bool) (e : Nat × HomeLine) : State :=
  if !e.2.dirty then s
  else
    match (if l2 then Map.find? s.pkg.msc e.1 else none) with
    | some x => s.modPkg (fun g => { g with msc := Map.put g.msc e.1 { x with dirty := true } })
    | none => (s.atBank e.1).meter ((s.windowOwner (64 * e.1) 64).getD 0) 6 64

/-- Take a line into the MSC or the L2 of its home in a way of the tenant that owns it. A line of a bound pinned window is not given up by the MSC,
nor a dirty one whose stack is frozen (R262, R282). -/
def State.takeLine (s : State) (l2 : Bool) (t line : Nat) (dirty : Bool) : State :=
  let m := if l2 then s.pkg.l2 else s.pkg.msc
  let set := s.setOf m (if l2 then 65536 else 131072) line
  let keep := fun (e : Nat × HomeLine) => (e.2.dirty && s.frozenAt (64 * e.1)) || (!l2 && s.pinned e.1)
  match pickWay (bits (s.ten t).ways.toNat (if l2 then 0 else 32) 16) s.freeCtr (set.map (fun e => (e.2.way, !keep e))) with
  | none => if dirty then s.atBank line else s
  | some w =>
    let out := set.filter (fun e => e.2.way == w)
    let s := out.foldl (fun s e => s.writeDown l2 e) s
    let m' := Map.put ((if l2 then s.pkg.l2 else s.pkg.msc).filter (fun e => !out.any (fun o => o.1 == e.1))) line ⟨w, dirty⟩
    s.modPkg (fun g => if l2 then { g with l2 := m' } else { g with msc := m' })

/-- A line of the package is read or written at its home: from L2, from MSC, or from its bank (R255). One of a bound pinned window enters the MSC, from L2
too (R262). -/
def State.atHome (s : State) (line : Nat) (write : Bool) : State :=
  if !s.ours (64 * line) then s
  else
    let t := (s.windowOwner (64 * line) 64).getD 0
    match Map.find? s.pkg.l2 line with
    | some x =>
      let s := if write then s.modPkg (fun g => { g with l2 := Map.put g.l2 line { x with dirty := true } }) else s
      if (Map.find? s.pkg.msc line).isNone && s.pinned line then s.takeLine false t line false else s
    | none =>
      match Map.find? s.pkg.msc line with
      | some _ => s.takeLine true t line write
      | none => ((s.atBank line).takeLine false t line false).takeLine true t line write

/-! ### Word updates -/

/-- The operations of a read-modify-write of a word (R164, R188, R189, R194). -/
inductive Upd where
  | iadd | fadd | fmin | fmax | imin | imax | umin | umax | and | or | xor | swap
  deriving DecidableEq, Repr

/-- An update of a 32-bit word: FP32 additions round RNE, minima and maxima follow R75; no flag is set (R80). -/
def Upd.word (u : Upd) (m d : Nat) : Nat :=
  match u with
  | .iadd => (m + d) % 2 ^ 32
  | .fadd => (add32 .rne m d).1
  | .fmin => (minmaxV f32 false m d).1
  | .fmax => (minmaxV f32 true m d).1
  | .imin => if i32 d < i32 m then d else m
  | .imax => if i32 m < i32 d then d else m
  | .umin => min m d
  | .umax => max m d
  | .and => m &&& d
  | .or => m ||| d
  | .xor => m ^^^ d
  | .swap => d

/-- The identity a partial begins as (R152, R254). -/
def Upd.ident : Upd → Nat
  | .fmin => f32.inf
  | .fmax => withSign f32 true f32.inf
  | .imin => 2 ^ 31 - 1
  | .imax => 2 ^ 31
  | .umin => 2 ^ 32 - 1
  | .and => 2 ^ 32 - 1
  | _ => 0

/-- A number for an operation, as an L1D line in state C records it. -/
def Upd.code : Upd → Nat
  | .iadd => 0 | .fadd => 1 | .fmin => 2 | .fmax => 3 | .imin => 4 | .imax => 5 | .umin => 6 | .umax => 7 | .and => 8 | .or => 9
  | .xor => 10 | .swap => 11

/-- The operation of a code. -/
def Upd.ofCode (n : Nat) : Upd :=
  match n with
  | 0 => .iadd | 1 => .fadd | 2 => .fmin | 3 => .fmax | 4 => .imin | 5 => .imax | 6 => .umin | 7 => .umax | 8 => .and | 9 => .or
  | 10 => .xor | _ => .swap

/-! ### Partials in state C (R165, R254) -/

/-- A partial after an update: it begins as the identity of its operation; a minimum or maximum of FP32 begins with the update itself, so that a NaN
meets what stands at home (R165). -/
def Upd.partial_ (u : Upd) (old : Option Word) (d : Nat) : Nat :=
  match old, u with
  | some p, _ => u.word p.toNat d
  | none, .fmin => d
  | none, .fmax => d
  | none, _ => u.word u.ident d

/-- The value a read of a device word returns from its home value and every core's partial, in core order. -/
def State.combined (s : State) (w base : Nat) : Nat :=
  s.cores.foldl (fun (v : Nat) (e : Nat × Core) =>
    match Map.find? e.2.l1d (w / 16) with
    | some (.c _ op _ ps) =>
      match Map.find? ps (w % 16) with
      | some p => (Upd.ofCode op).word v p.toNat
      | none => v
    | _ => v) base

/-- The home value of a device word: without the partials. -/
def State.homeWord (s : State) (w : Nat) : Nat :=
  match Map.find? s.pkg.cbase w with
  | some v => v.toNat
  | none => s.valAt .dev (4 * w) 4

/-- Send a core's own partials of a line home, where the apply unit applies them before those that other cores still hold (R254). -/
def State.mergeOwn (s : State) (core line : Nat) : State :=
  match Map.find? (s.core core).l1d line with
  | some (.c _ op _ ps) =>
    let s := ps.foldl (fun s e =>
      let w := line * 16 + e.1
      s.modPkg (fun g => { g with cbase := Map.put g.cbase w (BitVec.ofNat 32 ((Upd.ofCode op).word (s.homeWord w) e.2.toNat)) })) s
    let s := s.modCore core (fun c => { c with l1d := Map.del c.l1d line })
    (ps.foldl (fun s e => s.putVal .dev (4 * (line * 16 + e.1)) 4 (s.combined (line * 16 + e.1) (s.homeWord (line * 16 + e.1)))) s).atHome line true
  | _ => s

/-- Merge every core's partials of a line: memory holds what they come to. -/
def State.mergeAll (s : State) (line : Nat) : State :=
  { s with
    cores := s.cores.map (fun (e : Nat × Core) => (e.1, match Map.find? e.2.l1d line with
      | some (.c _ _ _ _) => { e.2 with l1d := Map.del e.2.l1d line }
      | _ => e.2))
    pkg := { s.pkg with cbase := s.pkg.cbase.filter (fun e => e.1 / 16 != line) } }

/-- A core's L1D gives up its copy of a line for room: partials go home, every core's then (notes/assumptions/53.md), and a written line is written back
(R251, R254). -/
def State.dropL1 (s : State) (core line : Nat) : State :=
  match Map.find? (s.core core).l1d line with
  | some (.c _ _ _ _) => (s.mergeAll line).atHome line true
  | some (.m _) => (s.modCore core (fun c => { c with l1d := Map.del c.l1d line })).atHome line true
  | some _ => s.modCore core (fun c => { c with l1d := Map.del c.l1d line })
  | none => s

/-- Does a die's RDC keep a host line through an access (R258, R327): it serves one of the device's own accesses, or its paddocks still hold words of the line
dirty after a read of others? -/
def State.rdcKeeps (s : State) (die line : Nat) (write : Bool) (words : BitVec 16) (via : Via) : Bool :=
  via == .agent
    || (!write && s.cores.any (fun e => dieOf e.1 == die && e.2.pd.any (fun p => p.2.st.any (fun l =>
      l.2.holds true line && l.2.dirty != 0 && l.2.dirty &&& words == 0))))

/-- Does anyone but the requester hold a line in M, or partials of it, so that it is written at the home first (R251, R254)? -/
def State.writtenBy (s : State) (line : Nat) (via : Via) : Bool :=
  s.cores.any (fun e => via != .strand e.1 && (match Map.find? e.2.l1d line with | some (.m _) => true | some (.c _ _ _ _) => true | _ => false))
    || s.pkg.rdc.any (fun e => e.1 % 2 ^ 54 == line && e.1 / 2 ^ 54 % 2 == 0 && e.2.st == .m && via.die != some (e.1 / 2 ^ 54 / 2))

/-- Serve an access to a line at its home: recall the paddock words of others, collect C partials, take or drop L1D and RDC copies, and
record timestamps (R217, R252, R254, R258). `inv` is a write to a page of class T. Only the clusters that the directory marks for a line
of this package are probed (R253). -/
def State.settle (s : State) (hh : Bool) (line : Nat) (write inv : Bool) (words : BitVec 16) (via : Via) : State :=
  let ours := !hh && s.ours (64 * line)
  let marks := Map.get 0 s.pkg.dir (line / 8)
  let home := s.homeDie (64 * line)
  let s := if ours && s.writtenBy line via then s.atHome line true else s
  { s with
    cores := s.mapCores (fun j c =>
      if ours && !marks.getLsbD (clusterOf home j) then c
      else if hh then c.probePd j hh line write words via
      else (c.probePd j hh line write words via).probeL1 line inv (via = .strand j))
    pkg := { ((if ours then s.markVia line via s.pkg else s.pkg).probeRdc hh line ours write inv via.die (fun d => s.rdcKeeps d line write words via)) with
      cbase := if hh then s.pkg.cbase else s.pkg.cbase.filter (fun e => e.1 / 16 != line)
      padAway := if ours && (match Map.find? s.pkg.padAway line with | some e => write || e.2 &&& words != 0 | none => false)
        then Map.del s.pkg.padAway line else s.pkg.padAway
      lineTs := if hh then s.pkg.lineTs
        else
          let old := Map.get (0, 0) s.pkg.lineTs line
          Map.put s.pkg.lineTs line (if write then s.gts else old.1, serialMax old.2 s.gts)
      homeServed := s.pkg.homeServed + 1 } }

/-- The 16-bit mask of the words of a line that [pa, pa + n - 1] touches. -/
def wordMask (pa n line : Nat) : BitVec 16 :=
  BitVec.ofNat 16 (((upto 16).map (fun w =>
    if line * 64 + 4 * w < pa + n ∧ pa < line * 64 + 4 * w + 4 then 2 ^ w else 0)).sum)

/-- The lines [pa, pa + n - 1] touches; none for n = 0. -/
def linesOf (pa n : Nat) : List Nat :=
  if n = 0 then [] else (upto ((pa + n - 1) / 64 - pa / 64 + 1)).map (fun j => pa / 64 + j)

/-- Settle every line of an access. -/
def State.settleRange (s : State) (hh : Bool) (pa n : Nat) (write inv : Bool) (via : Via) : State :=
  (linesOf pa n).foldl (fun s l => s.settle hh l write inv (wordMask pa n l) via) s

/-- Does a core's own copy serve its access: within its lease, and for a write in E or M (R218, R251)? -/
def State.hitsL1 (s : State) (via : Via) (line : Nat) (write : Bool) : Bool :=
  match via with
  | .strand c =>
    (match Map.find? (s.core c).l1d line with
      | some (.s l) => !write && serialLe s.gts l
      | some (.e l) => serialLe s.gts l
      | some (.m l) => serialLe s.gts l
      | _ => false)
  | _ => false

/-- Every line of an access that no copy of its own serves is read or written at its home. -/
def State.homeRange (s : State) (hh : Bool) (pa n : Nat) (write : Bool) (via : Via) : State :=
  if hh || !s.ours pa then s else (linesOf pa n).foldl (fun s l => if s.hitsL1 via l write then s else s.atHome l write) s

/-- Key of a line's poison. -/
def poisonKey (hh : Bool) (line : Nat) : Nat := b2n hh * 2 ^ 54 + line

/-- Poison of the lines of a write (R352): a write of all 64 bytes clears it. -/
def State.unpoison (s : State) (hh : Bool) (pa n : Nat) : State :=
  let a := pa + 64 * poisonKey hh 0
  s.modPkg (fun g => { g with poison := g.poison.filter (fun e => !(decide (a ≤ e.1 * 64) && decide (e.1 * 64 + 64 ≤ a + n))) })

/-! ### Exchanges with another package or the host (R307, R325, R327) -/

/-- One stretch of an access: its page, its virtual address and its bytes. -/
structure Stretch where
  page : PageInfo
  va : Nat
  n : Nat
  deriving DecidableEq, Repr

/-- The physical address of a stretch. -/
def Stretch.pa (x : Stretch) : Nat := x.page.pa x.va

/-- The latest lease end among the device lines of some stretches: a write's timestamp lies beyond it (R217, R218). -/
def State.leaseEnd (s : State) (xs : List Stretch) : BitVec 48 :=
  xs.foldl (fun m x =>
    if x.page.hh then m
    else (linesOf x.pa x.n).foldl (fun m l => serialMax m (Map.get (s.gts, s.gts) s.pkg.lineTs l).2) m) s.gts

/-- The timestamp of the next access in S: at or after every timestamp given; a write's lies beyond every lease on its lines. The
gap is free. -/
def State.nextTs (s : State) (write : Bool) (xs : List Stretch) : BitVec 48 :=
  (if write then s.leaseEnd xs + 1 else s.gts) + (Config.tsGap s.freeCtr).setWidth 48

/-- Place an access of copy k in S (R217): its pts reaches the timestamp. -/
def State.stamp (s : State) (k : Nat) (write : Bool) (xs : List Stretch) : State :=
  let ts := serialMax (s.nextTs write xs) (s.part k).pts
  { (s.modPart k (fun p => { p with pts := ts })) with gts := ts, freeCtr := s.freeCtr + 1 }

/-- Place an access of an engine or of another agent in S. -/
def State.stampAgent (s : State) (write : Bool) (xs : List Stretch) : State :=
  { s with gts := s.nextTs write xs, freeCtr := s.freeCtr + 1 }

/-- The requesters of a copy's instruction fetch and of its prefetches, apart from those of its instructions. -/
def fetchReq (k : Nat) : Nat := 2 ^ 24 + k
/-- See above. -/
def pftReq (k : Nat) : Nat := 2 ^ 25 + k
/-- The requester of a copy's reads of host memory ahead of its loads (R333). -/
def aheadReq (k : Nat) : Nat := 2 ^ 25 + 2 ^ 16 + k
/-- The requester of the translation of a handle. -/
def xltReq (k h : Nat) : Nat := 2 ^ 29 + 32 * k + h

/-- A physical range of a class, with no page and so no leaf entry behind it. -/
def physStretch (pa n cl : Nat) : Stretch := ⟨{ PageInfo.none with vbase := pa, pbase := pa, ps := 3, cl := cl }, pa, n⟩

/-- The byte of a leaf entry that an access to its page changes (R249). -/
def leafStretch (p : PageInfo) : Stretch := physStretch p.leaf 1 2

/-- Does an access to a page change its leaf entry: ACC, and DRT for a write (R249)? -/
def State.leafDue (s : State) (p : PageInfo) (write : Bool) : Bool :=
  p.ps != 3 && (let b := s.byteAt .dev p.leaf; b ||| 8 ||| (if write then 16 else 0)) != s.byteAt .dev p.leaf

/-- Set ACC, and DRT for a write, in the leaf entry of a page by a read-modify-write at its home (R249, R339). That of another package has performed it already;
here it is what the package knows of the entry. -/
def State.touchLeaf (s : State) (p : PageInfo) (write : Bool) : State :=
  if s.leafDue p write then
    let b := s.byteAt .dev p.leaf
    let s := if s.ours p.leaf then (s.settleRange false p.leaf 1 true false .agent).homeRange false p.leaf 1 true .agent else s
    s.putBytes .dev p.leaf [b ||| 8 ||| (if write then 16 else 0)]
  else s

/-- The die of a requester: a unit, an engine, a fetch or a prefetch of a copy; 0 for an agent of the package. -/
def whoDie (who : Nat) : Nat :=
  if who < 2 ^ 24 then dieOf (coreOf (who / 8)) else if who < 2 ^ 26 then dieOf (coreOf (who % 2 ^ 16)) else 0

/-- The strongest state in which the package holds a host line for an access, whichever die holds it: a copy is read only within its lease, and E or M serves a
write (R218, R327). -/
def State.hostState (s : State) (line : Nat) (write : Bool) : Option Mesi :=
  (upto 4).foldl (fun r d =>
    match r, Map.find? s.pkg.rdc (rdcKey d true line) with
    | some .m, _ => r
    | _, some x =>
      if !serialLe s.gts x.lease && !(write && x.st != .s) then r else (match r, x.st with | some .e, .s => r | _, y => some y)
    | r, none => r) none

/-- May a strand read a line of another package from its die's RDC (R218)? Its pts lies within the copy's lease, and its clock has not passed the lease since the
line was fetched. -/
def State.awayHit (s : State) (k line : Nat) : Bool :=
  match Map.find? s.pkg.rdc (rdcKey (dieOf (coreOf k)) false line), Map.find? s.pkg.awayTs line with
  | some r, some f => serialLe (s.part k).pts r.lease && decide (s.cycle ≤ f.2 + 64 * (s.leaseLen (coreOf k) (isU k) + 1))
  | _, _ => false

/-- May a requester: a unit of a strand? -/
def State.rdcReads (s : State) (who line : Nat) : Bool := decide (who < 2 ^ 24) && decide (who % 8 < 4) && s.awayHit (who / 8) line

/-- Place a load of copy k in S. One that copies of other packages' lines serve takes its place at the time of the copies (R217, R218). -/
def State.stampLoad (s : State) (k : Nat) (xs : List Stretch) : State :=
  let ls := (xs.map (fun x => linesOf x.pa x.n)).flatten
  if !xs.isEmpty && xs.all (fun x => !x.page.hh && !s.ours x.pa && decide (x.page.cl ≤ 1)) && ls.all (s.awayHit k) then
    let ts := ls.foldl (fun m l => serialMax m (Map.get (0, 0) s.pkg.awayTs l).1) (s.part k).pts
    { (s.modPart k (fun p => { p with pts := ts })) with gts := serialMax s.gts ts, freeCtr := s.freeCtr + 1 }
  else s.stamp k false xs

/-- What a read asks another package's home for: whole lines for a page of class T or V, which the die's RDC keeps; its own bytes for class U or NA. -/
def Stretch.fetched (x : Stretch) (na : Bool) : Nat × Nat :=
  if x.page.cl ≤ 1 ∧ na = false then (x.pa / 64 * 64, 64 * (linesOf x.pa x.n).length) else (x.pa, x.n)

/-- Must a home first ask another package for the paddock words that it holds of a line (R258)? `src` is the requester's package, `pad` says that it is a paddock. -/
def State.padRecall (s : State) (src line : Nat) (write pad : Bool) (words : BitVec 16) : Option ReqKind :=
  match Map.find? s.pkg.padAway line with
  | some (p, dirty) => if p != src && (write || pad || dirty &&& words != 0) then some (.recall p line) else none
  | none => none

/-- What an access to a line of this package needs from outside first: paddock words of another package recalled, the host's copy taken back or shared (R258,
R325). -/
def State.lineNeeds (s : State) (src line : Nat) (write pad : Bool) (words : BitVec 16) : Option ReqKind :=
  match s.padRecall src line write pad words, Map.find? s.pkg.hostLines line with
  | some k, _ => some k
  | none, none => none
  | none, some .s => if write then some (.backInv line true) else none
  | none, some _ => some (.backInv line write)

/-- What an access of a requester still needs from outside: none when it may go. A host line that no RDC may take, for NA (R256) or for want of
ways (R263), is asked for as one of class U is. -/
def State.needs (s : State) (who t : Nat) (write na : Bool) (x : Stretch) : Option ReqKind :=
  if x.page.hh then
    (linesOf x.pa x.n).foldl (fun r l =>
      match r with
      | some k => some k
      | none =>
        if x.page.cl = 2 then some (.hostU l)
        else
          match s.hostState l write with
          | none => some (if na || bits (s.ten t).ways.toNat 16 16 == 0 then .hostU l else .hostLine l write)
          | some .s => if write then some (if na then .hostU l else .hostLine l true) else none
          | some _ => none) none
  else if !s.ours x.pa then
    (if !write && decide (x.page.cl ≤ 1) && (linesOf x.pa x.n).all (s.rdcReads who) then none
      else some (.remote (if write then x.pa else (x.fetched na).1)))
  else
    (linesOf x.pa x.n).foldl (fun r l =>
      match r with
      | some k => some k
      | none => s.lineNeeds s.pkg.pkgid.toNat l write false (wordMask x.pa x.n l)) none

/-- Has an access got what it needs? A line recalled from the host, or held for a write, shows in the state itself. -/
def ReqKind.isGot (k : ReqKind) (got : List ReqKind) : Bool :=
  match k with
  | .remote _ => got.contains k
  | .recall _ _ => got.contains k
  | .hostU _ => got.contains k
  | .hostLine _ own => !own && got.contains k
  | .backInv _ _ => false

/-- The first thing an access needs that it has not got, with the virtual address of the stretch that needs it: `rs` are read, `ws` written. A
stretch that is read and written is asked for once, for the write (R325). -/
def State.needsAll (s : State) (who t : Nat) (na : Bool) (rs ws : List Stretch) (got : List ReqKind) : Option (ReqKind × Nat) :=
  let all := (rs.filter (fun x => !ws.contains x)).filterMap (fun x => (s.needs who t false na x).map (fun k => (k, x.va)))
    ++ ws.filterMap (fun x => (s.needs who t true na x).map (fun k => (k, x.va)))
  all.find? (fun k => !k.1.isGot got)

/-- The leaf entries that an access changes. -/
def State.leaves (s : State) (rs ws : List Stretch) : List Stretch :=
  (rs.filter (fun x => s.leafDue x.page false) ++ ws.filter (fun x => s.leafDue x.page true)).map (fun x => leafStretch x.page)

/-- Is a tenant's stretch inside a range being reclassed (R260), or does its tenant load windows (R338)? -/
def State.heldBack (s : State) (t : Nat) (x : Stretch) : Bool :=
  s.pkg.winBusy == some t
    || (x.page.ps != 3 && (s.ten t).rcBusy && decide ((s.ten t).rcAt < x.va + x.n) && decide (x.va < (s.ten t).rcAt + (s.ten t).rcSize))

/-- Does a requester wait for ways that its tenant's lines are leaving (R263)? -/
def State.waysWait (s : State) (t : Nat) (x : Stretch) : Bool :=
  match s.pkg.waysNew with
  | some (u, _) => x.page.cl != 3 && u == t
  | none => false

/-- Is a line held above HBM for a requester: in L2 or MSC, or in its core's L1D in a state that the access may use (R282)? -/
def State.cached (s : State) (who line : Nat) (write : Bool) : Bool :=
  (Map.find? s.pkg.l2 line).isSome || (Map.find? s.pkg.msc line).isSome
    || (decide (who < 2 ^ 24) && (match Map.find? (s.core (coreOf (who / 8))).l1d line with
        | some (.s _) => !write
        | some (.e _) => true
        | some (.m _) => true
        | _ => false))

/-- Does a stretch wait for a frozen stack: a line of it lies there and is held nowhere above (R282, R284)? -/
def State.frozenFor (s : State) (who : Nat) (write : Bool) (x : Stretch) : Bool :=
  !x.page.hh && s.frozenAt x.pa && (x.page.cl == 3 || !(linesOf x.pa x.n).all (fun l => s.cached who l write))

/-- Is a line of a stretch busy at its home with a request that came first (R252)? -/
def State.lineBusy (s : State) (x : Stretch) : Bool := !x.page.hh && (linesOf x.pa x.n).any (fun l => (Map.find? s.pkg.homeQ l).isSome)

/-- Does anything on the package hold a stretch back? -/
def State.held (s : State) (who t : Nat) (write : Bool) (x : Stretch) : Bool :=
  s.heldBack t x || s.waysWait t x || s.frozenFor who write x || s.lineBusy x

/-- A poisoned line among the stretches (R352), as the virtual address of the first byte of its stretch. -/
def State.poisonedIn (s : State) (xs : List Stretch) : Option Nat :=
  xs.foldl (fun r x =>
    match r with
    | some a => some a
    | none => if (linesOf x.pa x.n).any (fun l => Map.get false s.pkg.poison (poisonKey x.page.hh l)) then some x.va else none) none

/-- AUX of FABRIC_TIMEOUT (R201): the package, or 0xFFFF for the host. -/
def ReqKind.aux : ReqKind → Nat
  | .remote pa => pa / 2 ^ 50 % 1024
  | .recall p _ => p
  | _ => 0xFFFF

/-- The ports of a package's route that are up. -/
def State.upPorts (s : State) (dst : Nat) : List Nat :=
  let route := (Map.get 0 s.pkg.route dst : BitVec 18)
  (upto 18).filter (fun p => route.getLsbD p && (Map.get Port.reset s.pkg.ports p).up)

/-- The port of a flit (R305): that of its route which the hash names, while it is up, else the next one that is. -/
def State.portFor (s : State) (f : Flit) : Option Nat :=
  let ps := (upto 18).filter (fun p => (Map.get 0 s.pkg.route f.dst : BitVec 18).getLsbD p)
  let i := Config.portHash s.pkg.pkgid.toNat f.dst f.key % max ps.length 1
  (ps.drop i ++ ps.take i).find? (fun p => (Map.get Port.reset s.pkg.ports p).up)

/-- Send a flit towards its package (R305); where no port of its route is up nothing goes. The port's replay buffer keeps its last 64 flits (R303). -/
def State.send (s : State) (f : Flit) : State :=
  match s.portFor f with
  | none => s
  | some p =>
    let x := Map.get Port.reset s.pkg.ports p
    let buf := x.txBuf ++ [(x.txNext, f)]
    s.modPkg (fun g => { g with ports := Map.put g.ports p { x with txNext := x.txNext + 1, txBuf := buf.drop (buf.length - 64) } })

/-- The tenant of a message (R308). -/
def msgTen : Msg → Nat
  | .req r => r.ten
  | .resp t _ _ _ _ _ => t
  | .arrive t _ _ _ _ => t
  | .barcfg t _ _ _ _ => t
  | .release t _ _ => t
  | .data t _ _ _ _ _ => t
  | .abort t _ _ => t

/-- Data bytes of a flit: a flit has 256 bytes with its CRC and its header (R303; notes/assumptions/57.md). -/
def flitBytes : Nat := 240

/-- The flits of a message: as many as its data need. -/
def msgFlits (m : Msg) : Nat :=
  let n := match m with
    | .req r => (match r.op with | .write bs => bs.length | _ => 0)
    | .resp _ _ _ _ _ bs => bs.length
    | .data _ _ _ _ _ bs => bs.length
    | _ => 0
  max 1 ((n + flitBytes - 1) / flitBytes)

/-- Send a message to a package, with this package's clock (R217); its flits count for its tenant (R342). -/
def State.transmit (s : State) (dst key : Nat) (m : Msg) : State := (s.send ⟨dst, key, ⟨s.gts, m⟩⟩).meter (msgTen m) 8 (256 * msgFlits m)

/-- Send a message about a device address to its home: hashed by its line address. -/
def State.sendHome (s : State) (pa : Nat) (m : Msg) : State := s.transmit (pa / 2 ^ 50 % 1024) (pa / 64) m

/-- A clock of the package or of another one reaches this package: what follows has no earlier timestamp (R217). -/
def State.reachTs (s : State) (ts : BitVec 48) : State := { s with gts := serialMax s.gts ts }

/-- The id of a request: source package, unit and tag. -/
def reqId (src unit : Nat) (tag : Word) : Nat := (src * 2 ^ 64 + unit) * 2 ^ 32 + tag.toNat

/-- The recorded response of a request that was performed before (R307), with its timestamp. -/
def State.recorded (s : State) (id : Nat) : Option (BitVec 48 × List Byte) := (s.pkg.served.find? (fun e => e.1 == id)).map (·.2)

/-- Record a response. -/
def State.record (s : State) (id : Nat) (bs : List Byte) : State := s.modPkg (fun g => { g with served := g.served ++ [(id, s.gts, bs)] })

/-- Answer a request of another package. -/
def State.respond (s : State) (r : RemoteReq) (st : RespSt) (ts : BitVec 48) (bs : List Byte) : State :=
  s.transmit r.src (r.pa / 64) (.resp r.ten r.unit r.tag st ts bs)

/-- The package that a request goes to, and the physical address it names. -/
def ReqKind.target : ReqKind → Option (Nat × Nat)
  | .remote pa => some (pa / 2 ^ 50 % 1024, pa)
  | .recall p l => some (p, 64 * l)
  | _ => none

/-- The clock of a requester: the pts of the strand of a unit; the package's for any other. -/
def State.whoTs (s : State) (who : Nat) : BitVec 48 := if who < 2 ^ 24 ∧ who % 8 < 4 then (s.part (who / 8)).pts else s.gts

/-- Start an exchange for a requester. What goes to another package carries a request id, its tenant and what it does there (R307, R308). -/
def State.asked (s : State) (who t : Nat) (k : ReqKind) (got : List ReqKind) (data : List (Nat × BitVec 48 × List Byte)) (va : Nat) (pad : Bool) (op : MemOp) : State :=
  let tag := s.pkg.txTag
  let m : Option Msg := k.target.map (fun e => .req ⟨s.pkg.pkgid.toNat, who, tag, t, e.2, pad, op⟩)
  let s : State := match k.target, m with
    | some e, some m => ((s.reachTs (s.whoTs who)).transmit e.1 (e.2 / 64) m).modPkg (fun g => { g with txTag := tag + 1 })
    | _, _ => s
  { s with reqs := Map.put s.reqs who ⟨k, got, va, false, .done, 0, false, tag, m, false, data⟩ }

/-- Start an exchange for a requester, and wait for it. -/
def State.ask (s : State) (who t : Nat) (k : ReqKind) (got : List ReqKind) (data : List (Nat × BitVec 48 × List Byte)) (va : Nat) (pad : Bool) (op : MemOp) : Res :=
  .wait 7 (s.asked who t k got data va pad op)

/-- A RETRY after FABRIC_TIMEOUT sends the request again under its original id (R307, R309). -/
def State.resend (s : State) (who : Nat) (r : Req) : State :=
  let s : State := match r.kind.target, r.msg with
    | some e, some m => s.transmit e.1 (e.2 / 64) m
    | _, _ => s
  { s with reqs := Map.put s.reqs who { r with resend := false } }

/-- What an access does at a package outside: what the caller says for its physical address, else the read of its bytes; of a recall, the return of paddock
words (R258). -/
def opFor (ops : List (Nat × MemOp)) (k : ReqKind) (na : Bool) (xs : List Stretch) : MemOp :=
  match k with
  | .remote pa =>
    match ops.find? (fun e => e.1 == pa), xs.find? (fun x => (x.fetched na).1 == pa) with
    | some e, _ => e.2
    | none, some x => .read (x.fetched na).2
    | none, none => .read 0
  | .recall _ l => .recall [(64 * l, 64)] (BitVec.allOnes 16) true false
  | _ => .read 0

/-- The bytes at a home that an exchange has reached. -/
def Req.span (r : Req) : List Nat :=
  match r.kind, r.msg with
  | .remote pa, some (.req q) =>
    linesOf pa (match q.op with | .read n => n | .write bs => bs.length | .update _ _ _ _ => 8 | _ => 0)
  | _, _ => []

/-- Does the package hold later data of a line than those of a time? -/
def State.laterOf (s : State) (ts : BitVec 48) (line : Nat) : Bool :=
  match Map.find? s.pkg.awayTs line with
  | some f => ts != f.1 && serialLe ts f.1
  | none => false

/-- Are the data of an exchange older than what the package has seen of their lines since? -/
def State.outdated (s : State) (r : Req) : Bool := r.data.any (fun e => (linesOf e.1 e.2.2.length).any (s.laterOf e.2.1))

/-- The copies that the package's dies and cores hold of lines of other packages are gone. -/
def State.dropAway (s : State) (hit : Nat → Bool) : State :=
  { s with
    cores := s.cores.map (fun (e : Nat × Core) => (e.1, { e.2 with l1d := e.2.l1d.filter (fun x => s.ours (64 * x.1) || !hit x.1) }))
    pkg := { s.pkg with rdc := s.pkg.rdc.filter (fun e => e.1 / 2 ^ 54 % 2 == 1 || s.ours (64 * (e.1 % 2 ^ 54)) || !hit (e.1 % 2 ^ 54)) } }

/-- The data of an exchange become what the package holds of those lines, in place of the copies it held. -/
def State.takeData (s : State) (r : Req) : State :=
  let s := if r.span.isEmpty then s else s.dropAway r.span.contains
  r.data.foldl (fun s e =>
    let ls := linesOf e.1 e.2.2.length
    if ls.any (s.laterOf e.2.1) then s
    else
      ({ s with mem := memWriteN s.mem e.1 e.2.2 } : State).modPkg (fun g =>
        { g with awayTs := ls.foldl (fun m l => Map.put m l (e.2.1, s.cycle)) g.awayTs })) s

/-- Does anything on the package hold an access back, or the change it makes to its leaf entries? -/
def State.anyHeld (s : State) (who t : Nat) (rs ws : List Stretch) : Bool :=
  rs.any (s.held who t false) || ws.any (s.held who t true) || (s.leaves rs ws).any (s.frozenFor who true)

/-- AUX of PROTECTION for an access: 0 a read, 1 a write, 2 a fetch, 3 a read-modify-write (R201). -/
def accessKind (who : Nat) (rs ws : List Stretch) : Nat :=
  if 2 ^ 24 ≤ who then 2 else if rs.isEmpty then 1 else if ws.isEmpty then 0 else 3

/-- A stretch that lies in no window of the tenant any more, by its virtual address: its home refuses it (R308, R338). -/
def State.outside (s : State) (t : Nat) (xs : List Stretch) : Option Nat :=
  (xs.find? (fun x => x.page.ps != 3 && !s.inWin t x.page.hh x.pa x.n)).map (·.va)

/-- What is set in a remote leaf entry by a read-modify-write at its home (R249): update 5 is or. -/
def State.leafOps (s : State) (rs ws : List Stretch) : List (Nat × MemOp) :=
  (rs.filter (fun x => s.leafDue x.page false)).map (fun x => (x.page.leaf, .update 5 true 8 0))
    ++ (ws.filter (fun x => s.leafDue x.page true)).map (fun x => (x.page.leaf, .update 5 true 24 0))

/-- The exchange of a requester: none begun; one that has ended, with what it came to; or what the access comes to meanwhile. A home that refused it is
PROTECTION (R308), one that did not answer FABRIC_TIMEOUT (R309), poisoned data UNCORRECTABLE (R352). -/
def State.exchange (s : State) (who kind : Nat) : Except Res (Option Req) :=
  match Map.find? s.reqs who with
  | none => .ok none
  | some r =>
    if r.resend then .error (.wait 7 (s.resend who r))
    else if r.timedOut then
      .error (.fault (.at cTimeout r.va r.kind.aux) { s with reqs := Map.put s.reqs who { r with timedOut := false, resend := true } })
    else if !r.answered then .error (.wait 7 s)
    else
      match r.st with
      | .refused => .error (.fault (.at cProtection r.va kind) { s with reqs := Map.del s.reqs who })
      | .poison => .error (.fault (.at cUncorrectable r.va 0) { s with reqs := Map.del s.reqs who })
      | .done => .ok (some r)

/-- Before an access is performed, with `rs` the stretches it reads and `ws` those it writes: wait for what holds it back, for a
frozen stack, or for an exchange with its home outside; fault where it lies outside the windows or a line that it reads is poisoned (R352). `ops` says what it
does at a home outside, `pad` that a paddock makes it. -/
def State.gate (s : State) (who t : Nat) (rs ws : List Stretch) (na : Bool := false) (ops : List (Nat × MemOp) := []) (pad : Bool := false) : Res :=
  if s.anyHeld who t rs ws then .wait 7 s
  else
    match s.outside t (ws ++ rs), s.poisonedIn rs with
    | some va, _ => .fault (.at cProtection va (accessKind who rs ws)) s
    | none, some va => .fault (.at cUncorrectable va 0) s
    | none, none =>
      let all := ws ++ s.leaves rs ws
      let go := fun (got : List ReqKind) (data : List (Nat × BitVec 48 × List Byte)) (done : State) =>
        match s.needsAll who t na rs all got with
        | none => .done done
        | some (k, va) => s.ask who t k got data va pad (opFor (ops ++ s.leafOps rs ws) k na (ws ++ rs))
      match s.exchange who (accessKind who rs ws) with
      | .error r => r
      | .ok none => go [] [] s
      | .ok (some r) =>
        if ws.isEmpty && s.outdated r then go [] [] s
        else go (r.kind :: r.got) r.data ({ s with reqs := Map.del s.reqs who }.takeData r)

/-! ### Reading the tables (R339) -/

/-- The requester of the table reads of a requester's walks. -/
def walkReq (who : Nat) : Nat := 2 ^ 42 + who

/-- The exchanges of a requester are over. -/
def State.endReqs (s : State) (who : Nat) : State := { s with reqs := Map.del (Map.del s.reqs who) (walkReq who) }

/-- The table reads of a requester are over, but for one that a RETRY sends again (R309). -/
def State.endWalk (s : State) (who : Nat) : State :=
  match Map.find? s.reqs (walkReq who) with
  | some r => if r.resend then s else { s with reqs := Map.del s.reqs (walkReq who) }
  | none => s

/-- The entries that a walk reads, as the package has them now. -/
def State.walkPath (s : State) (t va : Nat) : List Nat :=
  let p3 := bits (s.ten t).ptroot.toNat 16 44 * 2 ^ 16 + 8 * bits va 39 13
  p3 :: (match (s.entry t p3).bind nextTable with
    | none => []
    | some t2 =>
      let p2 := t2 + 8 * bits va 30 9
      p2 :: (match (s.entry t p2).bind nextTable with
        | none => []
        | some t1 =>
          let p1 := t1 + 8 * bits va 21 9
          p1 :: (match (s.entry t p1).bind nextTable with
            | none => []
            | some t0 => [t0 + 8 * bits va 16 5])))

/-- A table entry that its home refuses to give is no entry: its address is not mapped (R338). -/
def State.noEntry (s : State) (r : Req) : State :=
  match r.kind with
  | .remote pa => { s with mem := memWriteN s.mem pa (leBytes 8 0) }
  | _ => s

/-- The reads of a walk (R339): each entry at its home, as an ordinary read of the tenant, before the translation is used. One in a frozen stack waits, one that
another package homes, or that the host holds, is fetched from there; what a home refuses is no entry. They wait for a window load of the tenant (R338). -/
def State.walk1 (s : State) (who t va : Nat) : Res :=
  let w := walkReq who
  let go := fun (got : List ReqKind) (data : List (Nat × BitVec 48 × List Byte)) (s : State) =>
    let xs := (s.walkPath t va).map (fun pa => physStretch pa 8 2)
    if 2 ^ 52 ≤ va then .done s
    else if s.pkg.winBusy == some t || xs.any (fun x => s.ours x.pa && s.frozenFor who false x) then .wait 7 s
    else
      match s.needsAll w t false xs [] got with
      | none => .done s
      | some (k, a) => s.ask w t k got data a false (opFor [] k false xs)
  match Map.find? s.reqs w with
  | none => go [] [] s
  | some r =>
    if r.answered && r.st == .refused then go (r.kind :: r.got) r.data (s.noEntry r)
    else
      match s.exchange w 0 with
      | .error (.fault f u) => .fault { f with addr := va } u
      | .error x => x
      | .ok none => go [] [] s
      | .ok (some r) => go (r.kind :: r.got) r.data (s.takeData r)

/-- The addresses of a virtual range whose translations its pages may need: its first byte and each 64 KiB boundary in it. -/
def walkVas (va n : Nat) : List Nat := (upto ((va + n - 1) / 65536 - va / 65536 + 1)).map (fun j => max va ((va / 65536 + j) * 65536))

/-- A computation that has walked comes to its end. -/
def Eff.endWalk {α : Type} (x : Eff α) (who : Nat) : Eff α :=
  match x with
  | .ok a s => .ok a (s.endWalk who)
  | .wait w s => .wait w s
  | .fault i s => .fault i (s.endWalk who)

/-- An instruction that has walked comes to its end. -/
def Res.endWalk (r : Res) (who : Nat) : Res :=
  match r with
  | .done s => .done (s.endWalk who)
  | .wait w s => .wait w s
  | .fault i s => .fault i (s.endWalk who)

/-- The walks of some virtual addresses. -/
def State.walks (s : State) (who t : Nat) (vas : List Nat) : Eff Unit :=
  vas.foldl (fun (r : Eff Unit) va => r.bind (fun _ s => (s.walk1 who t va).eff)) (.ok () s)

/-! ### Performing accesses -/

/-- Meter an access to memory of the package: the bytes moved at the DRAM, a free amount that takes in the reads of its walk and what it makes the caches write
back (R342; notes/assumptions/20.md). What goes to another package or the host is counted as it goes. -/
def State.meterMem (s : State) (t : Nat) (x : Stretch) (write : Bool) : State :=
  let n := fun (i : Nat) => Config.moved i s.freeCtr x.pa
  if x.page.hh || x.pa / 2 ^ 50 % 1024 != s.pkg.pkgid.toNat then s
  else if write then (s.meter t 6 (n 6)).meter t 5 (n 5)
  else s.meter t 5 (n 5)

/-- The end of the lease of an L1D copy. -/
def L1St.lease : L1St → BitVec 48
  | .s l => l | .e l => l | .m l => l | .c l _ _ _ => l

/-- The L1D of a core after its own access to a line (R218, R250, R251, R256). A load of class T or V leaves a leased copy, E where no other copy is left; a copy
whose lease has passed is fetched again. A store of class T leaves M; one of class V updates the copy in place. NA allocates nothing, and its store of class T
leaves no shared copy. Partials of the core's own were collected before. -/
def Core.ownL1 (c : Core) (cl line : Nat) (write na sole : Bool) (now lease : BitVec 48) : Core :=
  let put := fun (x : L1St) => { c with l1d := Map.put c.l1d line x }
  match Map.find? c.l1d line with
  | some (.s l) =>
    if write then (if cl ≠ 0 then c else if na then { c with l1d := Map.del c.l1d line } else put (.m lease))
    else if serialLe now l || na then c else put (.s lease)
  | some (.e l) => if write then put (.m (serialMax l lease)) else if serialLe now l || na then c else put (.e lease)
  | some (.m l) => if serialLe now l then c else put (.m lease)
  | some (.c _ _ _ _) => c
  | none =>
    if na then c
    else if write then (if cl = 0 then put (.m lease) else c)
    else put (if cl = 0 ∧ sole = true then .e lease else .s lease)

/-- Lines an L1D holds (R2, R247): 384 KiB. -/
def l1dLines : Nat := 6144

/-- Has a core's L1D room for a line? -/
def Core.hasRoomL1 (c : Core) (line : Nat) : Bool := decide (c.l1d.length < l1dLines) || (Map.find? c.l1d line).isSome

/-- Must an L1D keep a copy: it holds what the home lacks, and the home's stack takes no writes (R282)? -/
def State.keepsL1 (s : State) (e : Nat × L1St) : Bool :=
  (match e.2 with | .m _ => true | .c _ _ _ _ => true | _ => false) && s.stuckAt e.1

/-- Room for a line in a core's L1D: a full one gives up a line that it may (R251, R254; notes/assumptions/53.md). -/
def State.roomL1 (s : State) (core line : Nat) : State :=
  if (s.core core).hasRoomL1 line then s
  else
    let m := (s.core core).l1d.filter (fun e => !s.keepsL1 e)
    match m[s.freeCtr % max m.length 1]? with
    | none => s
    | some v => s.dropL1 core v.1

/-- A copy of an RDC is gone, and with it paddock words of its die over a host line, or L1D copies of a device line, whose partials go home (R247, R254, R258). -/
def State.dropCopies (s : State) (key : Nat) : State :=
  let die := key / 2 ^ 54 / 2
  let line := key % 2 ^ 54
  let s : State :=
    if key / 2 ^ 54 % 2 == 1 then
      { s with cores := s.mapCores (fun j c => if dieOf j = die then c.probePd j true line true (BitVec.allOnes 16) .agent else c) }
    else (s.cores.filter (fun e => dieOf e.1 == die && (Map.find? e.2.l1d line).isSome)).foldl (fun s e => s.dropL1 e.1 line) s
  s.modPkg (fun g => { g with rdc := Map.del g.rdc key })

/-- A line leaves an RDC: a host line is given back to the host (R327), and a written device line to its home. -/
def State.dropRdc (s : State) (e : Nat × RdcLine) : State :=
  let line := e.1 % 2 ^ 54
  let s := s.dropCopies e.1
  if e.1 / 2 ^ 54 % 2 == 1 then
    let s := s.modPkg (fun g => { g with cxlOut := g.cxlOut ++ [if e.2.st = .m then .dirtyEvict line else .cleanEvict line] })
    if e.2.st = .m then s.meter ((s.owner true (64 * line) 64).getD 0) 10 64 else s
  else if e.2.st = .m then s.atHome line true
  else s

/-- The tenant in whose ways an RDC keeps a line: that whose window holds it, or for a line of another package the one that asks for it (R263). -/
def State.rdcTen (s : State) (die : Nat) (hh : Bool) (line t : Nat) : Nat :=
  if !hh && !s.ours (64 * line) then (match Map.find? s.pkg.rdc (rdcKey die hh line) with | some x => x.ten | none => t)
  else (s.owner hh (64 * line) 64).getD 0

/-- The lines of the set of a line in the RDC of a die. -/
def State.rdcSet (s : State) (die line : Nat) : Map RdcLine := s.pkg.rdc.filter (fun e => e.1 / 2 ^ 54 / 2 == die && e.1 % 32768 == line % 32768)

/-- A way for a new line in the RDC of a die, among those of its tenant (R263); a line that cannot be given back is not given up (R282, R332). -/
def State.rdcWay (s : State) (die : Nat) (hh : Bool) (line t : Nat) : Option Nat :=
  pickWay (bits (s.ten (s.rdcTen die hh line t)).ways.toNat 16 16) s.freeCtr
    ((s.rdcSet die line).map (fun e => (e.2.way, !s.keepsRdc e)))

/-- Can the RDC of a die hold a line? -/
def State.rdcTakes (s : State) (die : Nat) (hh : Bool) (line t : Nat) : Bool :=
  (Map.find? s.pkg.rdc (rdcKey die hh line)).isSome || (s.rdcWay die hh line t).isSome

/-- Put a line into the RDC of a die, in a way of its tenant (R263): its state, and the end of its lease. -/
def State.putRdc (s : State) (die : Nat) (hh : Bool) (line t : Nat) (st : Mesi) (lease : BitVec 48) : State :=
  let key := rdcKey die hh line
  let ten := s.rdcTen die hh line t
  match Map.find? s.pkg.rdc key with
  | some x => s.modPkg (fun g => { g with rdc := Map.put g.rdc key { x with st := st, lease := lease } })
  | none =>
    match s.rdcWay die hh line t with
    | none => s
    | some w =>
      let s := ((s.rdcSet die line).filter (fun e => e.2.way == w)).foldl (fun s e => s.dropRdc e) s
      s.modPkg (fun g => { g with rdc := Map.put g.rdc key ⟨st, lease, w, ten⟩ })

/-- Does another die hold a host line in M, so that an access is served there (R327)? -/
def State.elsewhereM (s : State) (die line : Nat) : Bool :=
  (upto 4).any (fun d => d != die && (match Map.find? s.pkg.rdc (rdcKey d true line) with | some x => x.st == .m | none => false))

/-- The RDC of a die after an access of it to a line of this package or the host that is not homed there (R218, R247, R250): a copy within its lease stays. A store
with NA writes at the home, and leaves no copy (R256). -/
def State.leaseRdc (s : State) (die : Nat) (hh : Bool) (line t : Nat) (write na : Bool) (lease : BitVec 48) : State :=
  match Map.find? s.pkg.rdc (rdcKey die hh line) with
  | some x =>
    if write then
      (if na && (!hh || x.st == .s) then s.dropRdc (rdcKey die hh line, x) else s.putRdc die hh line t .m (serialMax x.lease lease))
    else if serialLe s.gts x.lease || na then s
    else s.putRdc die hh line t x.st lease
  | none => if na || (hh && !write && s.elsewhereM die line) then s else s.putRdc die hh line t (if write then .m else .s) lease

/-- The RDC's copy of a line of another package after a load of a strand: one within its lease stays, and one that was fetched is leased from the time of its data
on (R218, R250). -/
def State.leaseAway (s : State) (k line t : Nat) (na : Bool) : State :=
  let die := dieOf (coreOf k)
  match Map.find? s.pkg.rdc (rdcKey die false line), Map.find? s.pkg.awayTs line with
  | some x, some _ => if serialLe (s.part k).pts x.lease then s else s.dropCopies (rdcKey die false line)
  | none, some f => if na then s else s.putRdc die false line t .s (f.1 + BitVec.ofNat 48 (min 64 (s.leaseLen (coreOf k) (isU k))))
  | _, none => s

/-- Has no one but a core a copy of a line, in a cache, a paddock or the host? -/
def State.sole (s : State) (core line : Nat) : Bool :=
  s.cores.all (fun e => e.1 == core || ((Map.find? e.2.l1d line).isNone && !e.2.pd.any (fun p => p.2.st.any (fun l => l.2.holds false line))))
    && s.pkg.rdc.all (fun e => e.1 % 2 ^ 54 != line || e.1 / 2 ^ 54 % 2 == 1 || e.1 / 2 ^ 54 / 2 == dieOf core)
    && (Map.find? s.pkg.hostLines line).isNone

/-- The copies of a line of another package after an access of a strand (R250): as of class V, so that a store leaves none, for its lease ends before the store. -/
def State.leaseOut (s : State) (k t line : Nat) (write na : Bool) : State :=
  if write then s
  else
    let core := coreOf k
    let s := s.leaseAway k line t na
    match Map.find? s.pkg.rdc (rdcKey (dieOf core) false line) with
    | some x =>
      if na then s
      else (s.roomL1 core line).modCore core (fun c => if c.hasRoomL1 line then { c with l1d := Map.put c.l1d line (.s x.lease) } else c)
    | none => s

/-- An access of copy k to a stretch through its core's L1D and its die's RDC; lease ends are kept at the home. What an RDC without ways for it cannot hold, the
L1D does not hold either (R247). -/
def State.leaseL1 (s : State) (k t : Nat) (x : Stretch) (write na : Bool) : State :=
  if 2 ≤ x.page.cl then s
  else
    let core := coreOf k
    let die := dieOf core
    let lease := s.gts + BitVec.ofNat 48 (s.leaseLen core (isU k))
    (linesOf x.pa x.n).foldl (fun s l =>
      if x.page.hh then s.leaseRdc die true l t write na lease
      else if !s.ours x.pa then s.leaseOut k t l write na
      else if s.homeDie (64 * l) != die && !s.rdcTakes die false l t then s
      else
        let s := (s.roomL1 core l).modCore core (fun c => if c.hasRoomL1 l then c.ownL1 x.page.cl l write na (s.sole core l) s.gts lease else c)
        let held := (match Map.find? (s.core core).l1d l with | some (.s _) => false | some _ => true | none => false)
        let s : State :=
          if s.homeDie (64 * l) == die || (write && x.page.cl != 0) then s
          else s.leaseRdc die false l t write (na && !held) lease
        if write || na then s
        else
          s.modPkg (fun g =>
            let old := Map.get (0, 0) g.lineTs l
            { g with lineTs := Map.put g.lineTs l (old.1, serialMax old.2 lease) })) s

/-- Does a bound window of a tenant hold a 64 KiB unit of device memory, under whatever mapping? -/
def State.pinHolds (s : State) (t : Nat) (w : Pin) (unit : Nat) : Bool :=
  w.bnd && (upto (w.units + 1)).any (fun j =>
    match s.xlate t (w.base + j * 65536) with
    | some p => !p.hh && p.pa (w.base + j * 65536) / 65536 == unit
    | none => false)

/-- CNT of a pinned window is reloaded at every access in S to a line of it (R262). -/
def State.pinTouch (s : State) (hh : Bool) (pa n : Nat) : State :=
  if hh || s.tens.all (fun e => e.2.pins.isEmpty) then s
  else
    { s with
      tens := s.tens.map (fun (e : Nat × Tenant) =>
        (e.1, { e.2 with pins := e.2.pins.map (fun w =>
          if s.pinHolds e.1 w.2 (pa / 65536) || s.pinHolds e.1 w.2 ((pa + n - 1) / 65536) then (w.1, { w.2 with cnt := 255 }) else w) })) }

/-- The homes serve an access of a tenant to a stretch: one of class F at its channel, held in no cache (R250); a paddock over host memory or an engine keeps the line in its die's RDC (R258, R327). -/
def State.serve (s : State) (t : Nat) (x : Stretch) (write : Bool) (via : Via) : State :=
  let s := s.settleRange x.page.hh x.pa x.n write (write && x.page.cl == 0) via
  let s := if x.page.cl = 3 then (linesOf x.pa x.n).foldl State.atBank s else s.homeRange x.page.hh x.pa x.n write via
  match via.keeps with
  | some d =>
    if x.page.hh && decide (x.page.cl ≤ 1) then
      (linesOf x.pa x.n).foldl (fun s l =>
        if (Map.find? s.pkg.rdc (rdcKey d true l)).isSome || (!write && s.elsewhereM d l) then s
        else s.putRdc d true l t (if write then .m else .s) s.gts) s
    else s
  | none => s

/-- Everything a read of a stretch does besides returning its bytes. -/
def State.readSide (s : State) (t : Nat) (x : Stretch) (via : Via) : State :=
  (((s.touchLeaf x.page false).serve t x false via).pinTouch x.page.hh x.pa x.n).meterMem t x false

/-- A prefetch of a stretch: no place in S, no accessed bit, nothing counted but its traffic (R121, R212, R262). -/
def State.prefetchSide (s : State) (t : Nat) (x : Stretch) (via : Via) : State := (s.serve t x false via).meterMem t x false

/-- Everything a write of a stretch does besides storing its bytes. -/
def State.writeSide (s : State) (t : Nat) (x : Stretch) (via : Via) : State :=
  ((((s.touchLeaf x.page true).serve t x true via).pinTouch x.page.hh x.pa x.n).meterMem t x true).unpoison x.page.hh x.pa x.n

/-- The bytes of a stretch. -/
def State.stretchBytes (s : State) (x : Stretch) : List Byte := s.bytesAt (spaceOf x.page.hh) x.pa x.n

/-- Store the bytes of a stretch. -/
def State.stretchPut (s : State) (x : Stretch) (bs : List Byte) : State := s.putBytes (spaceOf x.page.hh) x.pa bs

/-! ### Interrupts (R330) -/

/-- Raise entry VEC mod 64 of a function's MSI-X table: a vector masked by itself or with its function, or that port 0 does not carry, stays
pending, else one message is posted. -/
def State.raiseVec (s : State) (fn vec : Nat) : State :=
  let i := vec % 64
  let e := Map.get ⟨true, false⟩ (s.ten fn).msix i
  if e.masked || (s.ten fn).msixOff || !s.portOpen 0 then s.modTen fn (fun t => { t with msix := Map.put t.msix i { e with pending := true } })
  else s.modPkg (fun p => { p with irqs := p.irqs ++ [(fn, i)] })

/-! ### Writing to a tenant's memory on the device's own account (records, counts, snapshots, counters) -/

/-- Split [va, va + n - 1] at page boundaries and translate; none where a page is not mapped. -/
def State.stretches (s : State) (t : Nat) : Nat → Nat → Nat → Option (List Stretch)
  | 0, _, n => if n = 0 then some [] else none
  | fuel + 1, va, n =>
    if n = 0 then some []
    else
      match s.xlate t va with
      | none => none
      | some p =>
        let m := min n (p.vbase + pageBytes p.ps - va)
        match s.stretches t fuel (va + m) (n - m) with
        | none => none
        | some r => some (⟨p, va, m⟩ :: r)

/-- Store a run of bytes over stretches. -/
def State.putStretches (s : State) (t : Nat) : List Stretch → List Byte → State
  | [], _ => s
  | x :: xs, bs => ((s.writeSide t x .agent).stretchPut x (bs.take x.n)).putStretches t xs (bs.drop x.n)

/-- The requester of an access that the device makes for a tenant on its own account, by its purpose: 0 a fault record, 1 its image, 2 a snapshot;
and for a chain or a drove 6 up. -/
def ownReq (t purpose : Nat) : Nat := 2 ^ 26 + 32 * purpose + t

/-- The requester of an access to a region's descriptor. -/
def descReq (t rg : Nat) : Nat := 2 ^ 27 + 32 * rg + t

/-- What a write of bytes over stretches does at homes outside. -/
def writeOps : List Stretch → List Byte → List (Nat × MemOp)
  | [], _ => []
  | x :: xs, bs => (x.pa, .write (bs.take x.n)) :: writeOps xs (bs.drop x.n)

/-- An access that the device makes on its own account has no unit to stop: where a home does not answer in time it is sent again, and goes on waiting (R309). -/
def Eff.patient {α : Type} (x : Eff α) : Eff α :=
  match x with
  | .fault f s => if f.cause = cTimeout then .wait 7 s else .fault f s
  | y => y

/-- Write bytes at a tenant's virtual address; a fault where a page is not mapped or its home refuses. -/
def State.putVa (s : State) (who t va : Nat) (bs : List Byte) : Eff Unit :=
  ((s.walks who t (walkVas va bs.length)).bind (fun _ s =>
    match s.stretches t 64 va bs.length with
    | none => .fault (.at cTranslation va 1) s
    | some xs =>
      (s.gate who t [] xs false (writeOps xs bs)).eff.bind (fun _ s => .ok () ((s.stampAgent true xs).putStretches t xs bs)))).patient.endWalk who

/-- A computation that leaves the record of its exchanges as it was, so that what follows can build on it. -/
def Eff.keep {α : Type} (x : Eff α) (s0 : State) : Eff α :=
  match x with
  | .ok a s => .ok a { s with reqs := s0.reqs }
  | .wait w s => .wait w s
  | .fault i s => .fault i s

/-- A computation of several accesses comes to its end: its exchanges are over. -/
def Eff.ends {α : Type} (x : Eff α) (who : Nat) : Eff α :=
  match x with
  | .ok a s => .ok a (s.endReqs who)
  | .wait w s => .wait w s
  | .fault i s => .fault i (s.endReqs who)

/-- What remains of a computation that waits: the exchanges it has begun, with the flits that they sent. -/
def State.waiting (s0 s : State) : State :=
  { s0 with
    reqs := s.reqs
    pkg := { s0.pkg with ports := s.pkg.ports, txTag := s.pkg.txTag }
    tens := s.tens.foldl (fun m e =>
      let v := Map.get 0 e.2.mtr 8
      let x := s0.ten e.1
      if Map.get 0 x.mtr 8 = v then m else Map.put m e.1 { x with mtr := Map.put x.mtr 8 v }) s0.tens }

/-- Read bytes at a tenant's virtual address; a fault where a page is not mapped or its home refuses. -/
def State.getVa (s : State) (who t va n : Nat) : Eff (List Byte) :=
  ((s.walks who t (walkVas va n)).bind (fun _ s =>
    match s.stretches t 64 va n with
    | none => .fault (.at cTranslation va 0) s
    | some xs =>
      (s.gate who t xs []).eff.bind (fun _ s =>
        .ok ((xs.map s.stretchBytes).flatten) (xs.foldl (fun s x => s.readSide t x .agent) (s.stampAgent false xs))))).patient.endWalk who

/-! ### Ending an iteration -/

/-- Discard every queue and token queue of a copy (R96, R355), and leave the iteration. The tokens that TKS pushed towards the engines and the format words
stay for the ring's commands until the next iteration (R21, R96, R170). Where A or S has an access in progress, its instruction stays with what it
pops until it is complete (R355). -/
def Part.discard (p : Part) (inA inS : Bool) : Part :=
  let keep := fun (u : Nat) => (inA && u == 1) || (inS && u == 3)
  { p with
    inIter := false, ending := false, barArrived := none, sleeping := none, yielded := false
    fences := [], q := [], qs := [], xa := p.xa.take (b2n inA), cq := [], fq := [], aq := p.aq.take (b2n inS), sd := p.sd.take (b2n inS), o := []
    tok := [], engTok := [], owed := [], tail := [], flight := p.flight.filter (fun e => keep e.1), early := [], ahead := [], pfts := [], soft := []
    pendA := p.pendA.take (b2n inA), pendX := [], pendS := p.pendS.take (b2n inS), waits := [] }

/-- A strand gives up its iteration: the gang's count falls, and the iteration retires with its last strand (R95, R288). -/
def Drove.leave (d : Drove) (lin : Nat) : Drove :=
  let live := d.live.map (fun e => if e.1 = lin then (e.1, e.2.1, e.2.2 - 1) else e)
  { d with
    live := live.filter (fun e => e.2.2 != 0)
    retired := d.retired + (live.filter (fun e => e.2.2 == 0)).length }

/-- A drove is halted: no further hand-out, the first code counts (R96, R355). -/
def Drove.halt (d : Drove) (code : Word) : Drove :=
  match d.haltCode with
  | some _ => d
  | none => { d with haltCode := some code }

/-- Change a drove. -/
def State.modDrove (s : State) (d : Nat) (f : Drove → Drove) : State :=
  match Map.find? s.droves d with
  | some x => { s with droves := Map.put s.droves d (f x) }
  | none => s

/-- Zero what R23 zeroes in a core. -/
def Core.zeroed (c : Core) : Core :=
  { c with spad := [], empties := [], tiles := [], wbuf := [], lastDrove := [], pools := [], spoison := [], mpoison := [] }

/-- Key of a barrier object: level (0 core, 1 quad, 2 die, 3 package, 4 pod), tenant, place, index. -/
def barKey (level ten place idx : Nat) : Nat := ((level * 32 + ten) * 1024 + place) * 64 + idx

/-- The commands a ring's engine has taken and not finished: in execution, set aside, or stopped at a fault. -/
def Ring.cmds (g : Ring) : List Cur := g.cur.toList ++ g.more ++ g.bad

/-- Does a lot of a ring hold a bay, or stand to get one? -/
def Ring.holdsBay (g : Ring) : Bool := (match g.lot with | some l => l.bay.isSome | .none => false) || g.opening.isSome

/-- Has a ring's engine finished every word pushed? -/
def Ring.idle (g : Ring) : Bool := g.cmds.isEmpty && g.cons == g.prod

/-- Has a copy an access in progress? -/
def Part.inFlight (p : Part) : Bool := p.pendA != [] || p.pendS != []

/-- Does a copy still hold its quad: in an iteration, or with accesses or engine commands that are not complete, or a lot that is not abandoned? -/
def Part.holdsQuad (p : Part) : Bool := p.inIter || p.inFlight || p.rings.any (fun e => !e.2.idle || e.2.holdsBay)

/-- Is something of a quad's strands still running? -/
def State.quadBusy (s : State) (q : Nat) : Bool := s.parts.any (fun e => decide (quadOf (coreOf e.1) = q) && e.2.holdsQuad)

/-- Is a barrier object one of the core or quad level of a quad? -/
def barOfQuad (q key : Nat) : Bool :=
  let place := key / 64 % 1024
  (decide (key / 65536 / 32 = 0) && decide (place / 4 = q)) || (decide (key / 65536 / 32 = 1) && decide (place = q))

/-- A quad on which nothing runs passes to a tenant: zeroed as R23 sets out (R336), and no longer held for a resident drove (R293). -/
def State.passQuad (s : State) (t q : Nat) : State :=
  { s with
    cores := s.cores.map (fun e => if quadOf e.1 = q then (e.1, e.2.zeroed) else e)
    parts := s.parts.map (fun e => if quadOf (coreOf e.1) = q then (e.1, { e.2 with joined := [] }) else e)
    droves := s.droves.map (fun e => (e.1, { e.2 with reserved := e.2.reserved.filter (fun a => quadOf (a / 4) != q) }))
    bars := s.bars.filter (fun e => !barOfQuad q e.1)
    pkg := { s.pkg with quadOwner := Map.put s.pkg.quadOwner q t } }

/-- Is an exchange open for unit u of a copy? -/
def State.inExchange (s : State) (k u : Nat) : Bool :=
  match Map.find? s.reqs (k * 8 + u) with
  | some r => !r.resend
  | none => false

/-- A strand leaves its iteration with its queues discarded: a record of one of its units asks for nothing more (R355), and what its front end fetches or
waits for is dropped. -/
def State.leaveIter (s : State) (k : Nat) : State :=
  let p := s.part k
  let inA := s.inExchange k 1 || (Map.find? p.flight 1).isSome
  let inS := s.inExchange k 3 || (match Map.find? p.flight 3 with | some f => f.data.isEmpty | none => false)
  let s := { s with
    faults := s.faults.map (fun (r : FRec) => if r.who / 8 = k ∧ r.who % 8 < 4 then { r with dead := true } else r)
    reqs := s.reqs.filter (fun e => !((upto 4).any (fun u => e.1 == walkReq (k * 8 + u)) || e.1 == walkReq (aheadReq k) || e.1 == walkReq (fetchReq k) || e.1 == walkReq (pftReq k)
      || e.1 == k * 8 || e.1 == fetchReq k || e.1 == pftReq k || e.1 == aheadReq k || e.1 == k * 8 + 2 || (e.1 / 8 == k && decide (e.1 % 8 < 4) && e.2.resend))) }
  (s.modPart k (·.discard inA inS)).modDrove p.drove (·.leave p.lin)

/-- HALT and KILL end the iteration for the whole gang (R288): the other strands of the gang leave it as well. -/
def State.leaveGang (s : State) (k : Nat) : State :=
  let p := s.part k
  s.parts.foldl (fun s e =>
    if e.2.inIter && e.2.drove == p.drove && e.2.lin == p.lin && decide (e.1 ≠ k) then s.leaveIter e.1 else s)
    (s.leaveIter k)

/-! ### Taking a fault (R201 to R207) and returning from one -/

/-- The halt code of a KILL (R207). -/
def killCode (cause : Nat) (seq : Option Word) : Word :=
  BitVec.ofNat 32 (0xFA000000 + cause * 65536 + ((seq.getD 0).toNat % 65536))

/-- A ring of a copy. -/
def Part.ring (p : Part) (e : Nat) : Ring := Map.get Ring.none p.rings e
/-- Change a ring of a copy. -/
def State.modRing (s : State) (k e : Nat) (f : Ring → Ring) : State :=
  s.modPart k (fun p => { p with rings := Map.put p.rings e (f (p.ring e)) })

/-- The command of an engine's record: the one stopped at its ring index, in execution again. -/
def Ring.focus (g : Ring) (loc : Nat) : Ring :=
  match g.bad.find? (fun c => c.idx % 2 ^ 32 == loc) with
  | .none => g
  | some c => { g with cur := some c, more := g.cur.toList ++ g.more, bad := g.bad.filter (fun d => d.idx % 2 ^ 32 != loc) }

/-- Has a command started: its words and its WAIT tokens are taken (R173)? -/
def Cur.started (c : Cur) : Bool := c.need == 0 && c.toks

/-- KILL of a ring: the command at fault and every word that has not started are discarded; started commands go on (R177, R207). -/
def Ring.killed (g : Ring) (loc : Nat) : Ring :=
  { g with
    cur := g.cur.filter Cur.started, more := g.more.filter Cur.started, bad := g.bad.filter (fun d => d.idx % 2 ^ 32 != loc), cons := g.prod }

/-- The shepherd program of a copy leaves its core's engine (R196). -/
def State.freeRun (s : State) (k : Nat) : State :=
  s.modCore (coreOf k) (fun c => if (c.run.map (·.k)) == some k then { c with run := none } else c)

/-- KILL of a stopped unit or engine (R207, R355). A unit that has left its iteration since has nothing more to end. -/
def State.kill (s : State) (r : FRec) : State :=
  let k := r.who / 8
  let src := r.who % 8
  let p := s.part k
  let s := { s with faults := s.faults.filter (fun x => x.id != r.id) }
  let code := killCode r.cause r.seq
  if r.dead then s
  else if src < 4 then (s.modDrove p.drove (·.halt code)).leaveGang k
  else
    let d := match (p.ring (src - 4)).bad.find? (fun c => c.idx % 2 ^ 32 == r.loc) with | some c => c.drove | none => p.drove
    let s := if src = 7 then s.freeRun k else s
    ((s.modRing k (src - 4) (·.killed r.loc)).modDrove d (·.halt code))

/-- N of a fault queue (R202). -/
def Tenant.fqN (t : Tenant) : Nat := 2 ^ (min (bits t.fqctl.toNat 0 4) 11 + 4)
/-- EN of a fault queue. -/
def Tenant.fqEn (t : Tenant) : Bool := bit t.fqctl.toNat 4
/-- Base of a fault queue. -/
def Tenant.fqBase (t : Tenant) : Nat := bits t.fqbase.toNat 12 40 * 4096

/-- The 64 bytes of a fault record (R203). -/
def FRec.bytes (r : FRec) (seq : Word) (img : Nat) : List Byte :=
  let k := r.who / 8
  leBytes 8 (r.cause + (r.who % 8) * 2 ^ 8 + b2n (isU k) * 2 ^ 11 + b2n r.res * 2 ^ 12 + (sidOf k).toNat % 1024 * 2 ^ 16
      + r.ten * 2 ^ 26 + seq.toNat * 2 ^ 32)
    ++ leBytes 8 r.loc ++ leBytes 8 r.addr ++ leBytes 8 r.info.toNat
    ++ leBytes 8 (r.prog % 2 ^ 48 + r.lane % 256 * 2 ^ 48) ++ leBytes 8 r.aux ++ leBytes 8 img
    ++ leBytes 8 r.pts.toNat

/-- The image of an engine fault: the command word and its extension words, zero-padded to 64 bytes. -/
def FRec.image (r : FRec) : List Byte := leBytes 64 (leVal ((r.img.map (fun w => leBytes 8 w.toNat)).flatten))

/-- Set a pending record's number. -/
def State.setSeq (s : State) (id : Nat) (seq : Word) : State :=
  { s with faults := s.faults.map (fun x => if x.id = id then { x with seq := some seq } else x) }

/-- Has a tenant's fault queue no free slot? -/
def State.fullQueue (s : State) (t : Nat) : Bool := (s.ten t).fqprod - (s.ten t).fqcons == BitVec.ofNat 32 (s.ten t).fqN

/-- Write a held record if it can be (R204): with EN = 0 the fault is a KILL; a full queue holds it, and so does a home it waits for; after HOTSTOP none is written
(R284); an unmapped page, or one that its home refuses to write (notes/assumptions/23.md), makes it a KILL with NOMAP and VEC; otherwise image, record, PROD and the interrupt of COAL. A shepherd's engine is free once its record is written (R196). -/
def State.writeRecord (s : State) (r : FRec) : State :=
  let t := s.ten r.ten
  if !t.fqEn then s.kill r
  else if s.fullQueue r.ten || s.pkg.hotstop then s
  else
    let slot := t.fqprod.toNat % t.fqN
    let img := if r.who % 8 < 4 then 0 else t.fqBase + 64 * (t.fqN + slot)
    let s1 : Eff Unit := if r.who % 8 < 4 then .ok () s else s.putVa (ownReq r.ten 1) r.ten img r.image
    match s1.bind (fun _ s => s.putVa (ownReq r.ten 0) r.ten (t.fqBase + 64 * slot) (r.bytes t.fqprod img)) with
    | .wait _ s => s
    | .fault _ s => ((s.modTen r.ten (fun t => { t with nomap := true })).raiseVec r.ten (bits t.fqctl.toNat 16 8)).kill r
    | .ok _ s2 =>
      let coal := bits t.fqctl.toNat 8 8
      let due := decide (max coal 1 ≤ t.sinceIrq + 1)
      let s2 := if r.who % 8 = 7 then s2.freeRun (r.who / 8) else s2
      let s3 := (s2.setSeq r.id t.fqprod).modTen r.ten (fun t =>
        { t with fqprod := t.fqprod + 1, sinceIrq := if due then 0 else t.sinceIrq + 1 })
      if due then s3.raiseVec r.ten (bits t.fqctl.toNat 16 8) else s3

/-- Is a requester stopped at a fault? -/
def State.stopped (s : State) (who : Nat) : Bool := s.faults.any (fun r => r.who == who && !r.dead)

/-- TAKING A FAULT: the one operation. The unit or engine stops, its instruction having popped nothing; its record is formed (R203), and it is written,
held or turned into a KILL (R204). -/
def State.takeFault (s : State) (who : Nat) (f : FInfo) (loc : Nat) (info : DWord) (img : List DWord) (atTake : Bool) : State :=
  let s := if who % 8 < 4 then s.modPart (who / 8) (·.unstart (who % 8)) else s
  let r : FRec :=
    { id := s.nextRec, who := who, ten := s.tenOf (coreOf (who / 8)), cause := f.cause, res := resumable f.cause (who % 8) f.aux, loc := loc
      addr := f.addr, info := info, prog := f.prog, lane := f.lane, aux := f.aux, img := img, pts := (s.part (who / 8)).pts
      atTake := atTake, seq := none, act := none, dead := false }
  { s with faults := s.faults ++ [r], nextRec := s.nextRec + 1 }.writeRecord r

/-! ### Routing (R18, R19, R35, R205) -/

/-- What exec answers: the machine of the spec always has a next state. -/
abbrev Out := Host.Outcome State Fault Refusal

/-- The instruction being routed moves the front end on: pc and the place in program order. -/
def State.advance (s : State) : State :=
  s.modPart s.ctx.k (fun p => { p with pc := p.pc + 8, seq := p.seq + 1 })

/-- The instruction in execution as an entry of its unit. -/
def State.routedEntry (s : State) (i : Instr) : Routed := ⟨s.ctx.seq, s.ctx.pc, s.ctx.word, i⟩

/-- An instruction stays in its unit: it is already at the head when it is tried again, else it joins the end. -/
def State.keepIn (s : State) (u : Nat) (i : Instr) (retry : Bool) : State :=
  if retry then s else s.modPart s.ctx.k (fun p => p.setPend u (p.pend u ++ [s.routedEntry i]))

/-- An instruction leaves its unit. -/
def State.leaveUnit (s : State) (u : Nat) (retry : Bool) : State :=
  s.modPart s.ctx.k (fun p =>
    let p := { p with waits := Map.del p.waits u }
    if retry then p.setPend u ((p.pend u).drop 1) else p)

/-! An instruction of S may go before older stores of host memory (R226): it stands at the head of its unit while it is tried, and its entry and data at the
heads of their queues. -/

/-- Does an S instruction take an entry of aq? -/
def popsAq : Instr → Bool
  | .st _ => true | .stf _ => true | .stx _ => true | .red _ => true | .smp _ => true | .enqm _ _ _ => true | _ => false

/-- Does it take a vector of sd? -/
def popsSd : Instr → Bool
  | .st _ => true | .stf _ => true | .stx _ => true | .red _ => true | .smp _ => true | .enq _ _ _ => true | _ => false

/-- The element at a place of a queue comes to its head. -/
def toHead {α : Type} (l : List α) (i : Nat) : List α :=
  match l[i]? with
  | some x => x :: l.eraseIdx i
  | none => l

/-- The element at the head goes back to its place. -/
def fromHead {α : Type} (l : List α) (i : Nat) : List α :=
  match l with
  | x :: rest => rest.insertIdx i x
  | [] => []

/-- Which place of aq, and of sd, the jth instruction of S takes. -/
def Part.aqAt (p : Part) (j : Nat) : Nat := ((p.pendS.take j).filter (fun r => popsAq r.instr)).length
/-- See above. -/
def Part.sdAt (p : Part) (j : Nat) : Nat := ((p.pendS.take j).filter (fun r => popsSd r.instr)).length

/-- The jth instruction of S comes to the head of the unit. -/
def Part.hoist (p : Part) (j : Nat) : Part :=
  match p.pendS[j]? with
  | none => p
  | some r =>
    { p with
      pendS := toHead p.pendS j
      aq := if popsAq r.instr then toHead p.aq (p.aqAt j) else p.aq
      sd := if popsSd r.instr then toHead p.sd (p.sdAt j) else p.sd }

/-- The instruction at the head of S goes back behind the older ones. -/
def Part.unhoist (p : Part) : Part :=
  match p.pendS with
  | [] => p
  | r :: rest =>
    let older := rest.filter (fun x => decide (x.seq < r.seq))
    let back := fun (f : Instr → Bool) => (older.filter (fun x => f x.instr)).length
    { p with
      pendS := older ++ r :: rest.filter (fun x => decide (r.seq ≤ x.seq))
      aq := if popsAq r.instr then fromHead p.aq (back popsAq) else p.aq
      sd := if popsSd r.instr then fromHead p.sd (back popsSd) else p.sd }

/-- Does the instruction in execution in unit u go before older ones of its unit? -/
def State.goesFirst (s : State) (u : Nat) : Bool := u == 3 && s.ctx.first

/-- It cannot go on: it goes back to its place, with nothing begun. -/
def State.goBack (s : State) : State :=
  (s.modPart s.ctx.k (fun p => { p.unhoist with flight := Map.del p.flight 3, waits := Map.del p.waits 3 })).endReqs (s.ctx.k * 8 + 3)

/-- What a copy outside an iteration keeps of an access that has come to its end: nothing (R355). -/
def State.settleLeft (s : State) (k : Nat) : State :=
  s.modPart k (fun p => if p.inIter then p else p.discard (p.pendA != []) (p.pendS != []))

/-- The progress of an access that faults: a unit that loads begins anew, S goes on from the parts that are performed, so that none is performed twice
(R172, R205). -/
def Part.faultFlight (p : Part) (u : Nat) : Map Flight :=
  match Map.find? p.flight u with
  | some f => if u = 3 ∧ f.done ≠ 0 then p.flight else Map.del p.flight u
  | none => p.flight

/-- What an instruction of A, X or S comes to in its unit: it is done, and pushes its tokens (R19); it stays
waiting; or it faults at its place (R205). An access that outlasts its iteration ends without a record. One that goes before older ones of S
goes back to its place where it waits, but for an exchange, or would fault (R226). -/
def finishRouted (u : Nat) (i : Instr) (tk : Tk) (retry : Bool) : Res → State
  | .done s =>
    let r := s.routedEntry i
    ((s.leaveUnit u retry).modPart s.ctx.k (fun p => { p.endToks u tk r with flight := Map.del p.flight u })).settleLeft s.ctx.k
  | .wait why s =>
    if s.goesFirst u && (Map.find? s.reqs (s.ctx.k * 8 + 3)).isNone then s.goBack
    else (s.modPart s.ctx.k (fun p => { p with waits := Map.put p.waits u why })).keepIn u i retry
  | .fault f s =>
    if s.goesFirst u then s.goBack
    else
      let s := s.modPart s.ctx.k (fun p => { p with flight := p.faultFlight u })
      if (s.part s.ctx.k).inIter then (s.keepIn u i retry).takeFault (s.ctx.k * 8 + u) f s.ctx.pc.toNat s.ctx.word [] false
      else (s.leaveUnit u retry).settleLeft s.ctx.k

/-- Does an AA instruction pop xa? -/
def popsXa (o : AaArgs) : Bool := [o.s1, o.s2].any (fun x => x == .xaWord || x == .xaPair)

/-- Does a routed instruction pop an element of a queue: of xa in A, of an operand or output queue in X, of aq or sd in S? The source fields of its word
say so in X (R47). -/
def Routed.popsQ (r : Routed) : Bool :=
  match r.instr with
  | .ldx _ => true | .sax _ => true | .st _ => true | .stf _ => true | .stx _ => true | .red _ => true | .smp _ => true | .enq _ _ _ => true
  | .enqm _ _ _ => true
  | .adda o => popsXa o | .suba o => popsXa o | .mula o => popsXa o | .mada o => popsXa o | .shla o => popsXa o | .shra o => popsXa o | .anda o => popsXa o
  | .ora o => popsXa o | .xora o => popsXa o | .mina o => popsXa o | .maxa o => popsXa o | .lia o => popsXa o | .liha o => popsXa o | .mova o => popsXa o
  | _ => bits r.word.toNat 58 2 == 2 && [40, 34, 28].any (fun b => decide (32 ≤ bits r.word.toNat b 6) && decide (bits r.word.toNat b 6 ≤ 40))

/-- The parity error that an instruction meets in its unit, as the AUX of its fault (R142, R172, R352): 1 in a register file, 2 in an element it pops; S
raises none for a register. -/
def Part.softHit (p : Part) (u : Nat) (r : Routed) : Option Nat :=
  match Map.find? p.soft u with
  | some x => if x = 2 then (if r.popsQ then some 2 else none) else if u = 3 then none else some 1
  | none => none

/-- Run an instruction in its unit: what the unit owes is paid first; a parity error it meets stops it; then its tokens must be there, and it pops them
as it starts (R19). -/
def runRouted (u : Nat) (i : Instr) (tk : Tk) (retry : Bool) (body : State → Res) (s : State) : State :=
  let s := s.modPart s.ctx.k (·.payOwed u)
  let p := s.part s.ctx.k
  if Map.get 0 p.owed u ≠ 0 then finishRouted u i tk retry (.wait 0 s)
  else if let some aux := p.softHit u (s.routedEntry i) then
    finishRouted u i tk retry (.fault (.of cUncorrectable aux) (s.modPart s.ctx.k (fun p => { p with soft := Map.del p.soft u })))
  else if Map.get 0 p.owed (startKey u) ≠ 0 then finishRouted u i tk retry (body s)
  else if p.canPop u tk = false then finishRouted u i tk retry (.wait 0 s)
  else finishRouted u i tk retry (body (s.modPart s.ctx.k (·.startToks u tk)))

/-- An instruction of A, X or S: routed by the front end, or tried again by its unit. It runs at once when nothing older
waits in its unit and the unit is not stopped (R18). -/
def routed (u : Nat) (i : Instr) (tk : Tk) (body : State → Res) (s : State) : Out :=
  if s.ctx.retry then .next (runRouted u i tk true body s)
  else
    let s := s.advance
    if (s.part s.ctx.k).pend u = [] ∧ s.stopped (s.ctx.k * 8 + u) = false then .next (runRouted u i tk false body s)
    else .next (s.keepIn u i false)

/-- An F-class instruction: done moves on as its body says; waiting leaves pc where it is; a fault stops the front end. -/
def front (body : State → Res) (s : State) : Out :=
  match body s with
  | .done s => .next (s.modPart s.ctx.k (fun p => { p with seq := p.seq + 1, waits := Map.del p.waits 0, flight := Map.del p.flight 0 }))
  | .wait why s => .next (s.modPart s.ctx.k (fun p => { p with waits := Map.put p.waits 0 why }))
  | .fault f s => .next ((s.modPart s.ctx.k (fun p => { p with flight := Map.del p.flight 0 })).takeFault (s.ctx.k * 8) f s.ctx.pc.toNat s.ctx.word [] false)

/-! ### Engine commands (R173, R177) -/

/-- Key of the token queue between two engines of a core (R173). -/
def engPair (a b : Nat) : Nat := 4 * a + b

/-- Tokens that a command of ring (k, e) with WSRC = w may pop: from an engine of the core, or from the owning strand. -/
def State.waitTokens (s : State) (k e w : Nat) : Nat :=
  if w = 5 then Map.get 0 (s.part k).strTok e else Map.get 0 (s.core (coreOf k)).engTok (engPair (w - 1) e)

/-- Pop them together. -/
def State.popWait (s : State) (k e w n : Nat) : State :=
  if w = 0 then s
  else if w = 5 then s.modPart k (fun p => { p with strTok := Map.put p.strTok e (Map.get 0 p.strTok e - n) })
  else s.modCore (coreOf k) (fun c => { c with engTok := Map.put c.engTok (engPair (w - 1) e) (Map.get 0 c.engTok (engPair (w - 1) e) - n) })

/-- Push signal tokens towards a destination as room appears (R173); how many are left. Tokens to a strand that has left the
iteration are discarded (R132). -/
def State.pushSig (s : State) (k e d n iter : Nat) : State × Nat :=
  if d = 0 then (s, 0)
  else if d = 5 then
    let p := s.part k
    if !p.inIter || p.iter != iter then (s, 0)
    else
      let have_ := Map.get 0 p.engTok e
      let m := min n (Config.engTokDepth - have_)
      (s.setPart k { p with engTok := Map.put p.engTok e (have_ + m) }, n - m)
  else
    let c := s.core (coreOf k)
    let have_ := Map.get 0 c.engTok (engPair e (d - 1))
    let m := min n (Config.engTokDepth - have_)
    (s.setCore (coreOf k) { c with engTok := Map.put c.engTok (engPair e (d - 1)) (have_ + m) }, n - m)

/-- Raise an event counter of a copy for the iteration that asked (R105): dropped once that iteration has ended. An increment ends a
sleep early (R109). -/
def State.raiseEv (s : State) (k iter ev : Nat) : State :=
  let p := s.part k
  if p.inIter && p.iter == iter then s.setPart k { p.wrEv ev (p.rdEv ev + 1) with sleeping := none } else s

/-- A command finishes: the ring is free for another, and its SIGNAL tokens go out (R173). -/
def State.finishCmd (s : State) (k e : Nat) (hd : Hdr) (iter : Nat) : State :=
  let (s, left) := (s.endReqs (k * 8 + 4 + e)).pushSig k e hd.sdst.toNat hd.scnt.toNat iter
  s.modRing k e (fun g => { g with cur := none, sig := if left = 0 then none else some (hd.sdst.toNat, left, iter) })

/-- The command a ring has taken; outside a ring's own steps, a command in execution stands for itself. -/
def State.curOf (s : State) (k e : Nat) : Cur :=
  match ((s.part k).ring e).cur with
  | some c => c
  | none => ⟨((s.part k).ring e).cons, s.ctx.word, 0, [], false, 0, 0, none, (s.part k).drove, (s.part k).iter, [], [], [], []⟩

/-- Change the command a ring has taken. -/
def State.modCur (s : State) (k e : Nat) (f : Cur → Cur) : State := s.modRing k e (fun g => { g with cur := some (f (s.curOf k e)) })

/-- The output queue of engine e: o3 for M, o0 for C, o2 for G, o1 for K (R18). -/
def outQueue (e : Nat) : Nat :=
  match e with
  | 0 => 3 | 1 => 0 | 2 => 2 | _ => 1

/-- Is the iteration that pushed a command still the one its copy runs? -/
def State.sameIter (s : State) (k iter : Nat) : Bool := (s.part k).inIter && (s.part k).iter == iter

/-- The room of an output queue that the started commands of ring (k, e) have reserved, but for the command in execution. -/
def State.reserved (s : State) (k e : Nat) : Nat := ((((s.part k).ring e).more ++ ((s.part k).ring e).bad).map (·.resv)).sum

/-- Reserve room for n output elements before a command starts (R20); none while there is no room, or while another command of the ring has elements to give, so
that those of one command come together. A command whose iteration has ended
reserves nothing: its elements are discarded (R355). -/
def State.reserve (s : State) (k e n : Nat) : Option State :=
  let c := s.curOf k e
  if n ≤ c.resv || !s.sameIter k c.iter then some s
  else if s.reserved k e = 0 ∧ (s.part k).roomO (outQueue e) n = true then some (s.modCur k e (fun c => { c with resv := n }))
  else none

/-- Push an output element of a command; discarded once the iteration has ended. -/
def State.pushOut (s : State) (k e : Nat) (v : Vec) : State :=
  let c := s.curOf k e
  let s := s.modCur k e (fun c => { c with resv := c.resv - 1 })
  if s.sameIter k c.iter then s.modPart k (fun p => p.wrO (outQueue e) (p.rdO (outQueue e) ++ [v])) else s

/-- An engine fault: the record names the ring index, the command word and its extension words (R203); the command stops (R177). What the accesses
of the element in progress have returned stays with it, so that none is made twice. -/
def State.engineFault (s : State) (k e : Nat) (f : FInfo) (atTake : Bool) : State :=
  let c := { s.curOf k e with prog := f.prog }
  (s.modRing k e (fun g => { g with cur := none, bad := g.bad ++ [c] })).takeFault (k * 8 + 4 + e) f (c.idx % 2 ^ 32) c.word (c.word :: c.ext) atTake

/-- An engine command: its WAIT tokens are popped together, then its body runs; done is its finish (R173). -/
def engineCmd (e : Nat) (hd : Hdr) (body : State → Res) (s : State) : Out :=
  let k := s.ctx.k
  let c := s.curOf k e
  if !c.toks && decide (s.waitTokens k e hd.wsrc.toNat < hd.wcnt.toNat) && hd.wsrc != 0 then .next (s.modCur k e id)
  else
    let s := if c.toks then s else (s.popWait k e hd.wsrc.toNat hd.wcnt.toNat).modCur k e (fun c => { c with toks := true })
    match body s with
    | .done s => .next (s.finishCmd k e hd c.iter)
    | .wait _ s => .next s
    | .fault f s => .next (s.engineFault k e f false)

/-- Does an engine of a core stand at a signal token that finds no room (R173)? -/
def State.sigStalls (s : State) (core e : Nat) : Bool := s.parts.any (fun x => coreOf x.1 == core && (x.2.ring e).sig.isSome)

end Sys2Proof.Machine
end

