-- ==== Sys2Proof/Machine/Operands.lean ====
section
/-! DEFINITION. The operand forms: effective addresses (R40), sources and destinations of A, X and S (R45 to R50, R17, R159), the
scratchpad with its paddocks and full/empty granules (R22, R128), and the memory side of a strand's accesses. -/
namespace Sys2Proof.Machine

/-! ### Sizes and vectors -/

/-- Bytes of a size (R50). -/
def szBytes : Size → Nat
  | .b => 1 | .h => 2 | .w => 4 | .d => 8 | .v => 256 | .hv => 128
/-- Alignment on ordinary pages and scratchpad (R113). -/
def szAlign : Size → Nat
  | .b => 1 | .h => 2 | .w => 4 | .d => 8 | .v => 16 | .hv => 16
/-- Cells a size names on a class-F page (R115); none for .b, .h and .d. -/
def szCells : Size → Option Nat
  | .w => some 1 | .v => some 64 | .hv => some 32 | _ => none

/-- A vector from loaded bytes: lanes from 0 upward, the rest 0 (R114). -/
def vecOfBytes (bs : List Byte) : Vec := mkVec (fun i => BitVec.ofNat 32 (leVal ((bs.drop (4 * i)).take 4)))
/-- Lanes 0 and 1 as one 64-bit value. -/
def val64 (v : Vec) : DWord := BitVec.ofNat 64 ((lane v 0).toNat + 2 ^ 32 * (lane v 1).toNat)
/-- A 64-bit value in lanes 0 and 1, the others 0. -/
def vecOf64 (v : DWord) : Vec := mkVec (fun i =>
  if i = 0 then BitVec.ofNat 32 v.toNat else if i = 1 then BitVec.ofNat 32 (v.toNat / 2 ^ 32) else 0)
/-- A scalar broadcast to all lanes. -/
def splat (w : Word) : Vec := mkVec (fun _ => w)
/-- The bytes of a store of a size from a vector (R159). -/
def storeBytes (sz : Size) (v : Vec) : List Byte :=
  (((upto 64).map (fun i => leBytes 4 (lane v i).toNat)).flatten).take (szBytes sz)

/-! ### Effective addresses (R40, R118) -/

/-- ea from the page base, an index of 64 bits with its shift, and the offset, modulo 2^64. -/
def eaOf (base : Nat) (ix : DWord) (sh : Nat) (off : BitVec 23) : Nat :=
  (BitVec.ofNat 64 base + (ix <<< sh) + off.signExtend 64).toNat

/-- The page base of a handle: its VPN, 0 for h0. -/
def Handle.base (h : Handle) : Nat :=
  match h.st with
  | .valid => h.page.vbase
  | .stale => h.page.vbase
  | _ => bits h.va 16 36 * 2 ^ 16

/-- The 64 lane addresses of LDX and SAX. -/
def laneEas (base : Nat) (v : Vec) (sh : Nat) (off : BitVec 23) : List Nat :=
  (upto 64).map (fun i => eaOf base ((lane v i).signExtend 64) sh off)

/-! ### Handles (R11) -/

/-- Use a handle: VALID gives its page; PENDING waits; STALE translates the page it names again, from its first address on (notes/assumptions/37.md);
EMPTY and ABSENT fault. `ea` is the address that a page base gives. -/
def useHandle (k : Nat) (h : Fin 32) (kind : Nat) (ea : Nat → Nat) (s : State) : Eff PageInfo :=
  let hd := (s.part k).rdH h.val
  match hd.st with
  | .valid => .ok hd.page s
  | .pending => .wait 7 s
  | .stale => .wait 7 (s.modPart k (·.wrH h.val { hd with st := .pending, va := hd.page.vbase, due := s.cycle + Config.xltCycles, revoked := false }))
  | .absent => .fault (.at cTranslation (ea hd.base) kind) s
  | .empty => .fault (.at cHandleRange (ea 0) h.val) s

/-! ### Scratchpad, paddocks and granules (R22, R27, R128) -/

/-- The paddock of a core that holds a scratchpad offset, with its index. -/
def Core.padAt (c : Core) (off : Nat) : Option (Nat × Paddock) :=
  List.find? (fun e => decide (e.2.spad ≤ off) && decide (off < e.2.spad + 64 * e.2.lines)) c.pd

/-- Does a range touch a bound paddock? -/
def Core.padIn (c : Core) (off n : Nat) : Bool :=
  c.pd.any (fun e => decide (e.2.spad < off + n) && decide (off < e.2.spad + 64 * e.2.lines))

/-- A range cut at multiples of m: first byte and length of each part. -/
def cutAt (m off n : Nat) : List (Nat × Nat) :=
  if n = 0 then []
  else (upto ((off + n - 1) / m - off / m + 1)).map (fun j =>
    let a := (off / m + j) * m
    (max off a, min (off + n) (a + m) - max off a))

/-- A range cut at 64-byte lines. -/
def lineParts (off n : Nat) : List (Nat × Nat) :=
  (linesOf off n).map (fun l => (max off (l * 64), min (off + n) (l * 64 + 64) - max off (l * 64)))

/-- Line j of a paddock. -/
def Paddock.line (p : Paddock) (j : Nat) : PdLine := Map.get ⟨false, 0, none, false, []⟩ p.st j

/-- One part of a range that lies in a paddock: the entry, its paddock, the line, the global address of its first byte,
its offset and length. -/
structure PadPart where
  idx : Nat
  pad : Paddock
  j : Nat
  glob : Nat
  off : Nat
  n : Nat
  deriving DecidableEq, Repr

/-- The parts of a range that lie in paddocks. -/
def Core.padParts (c : Core) (off n : Nat) : List PadPart :=
  (lineParts off n).filterMap (fun e =>
    match c.padAt e.1 with
    | none => none
    | some (i, p) => some ⟨i, p, (e.1 - p.spad) / 64, p.glob + (e.1 - p.spad), e.1, e.2⟩)

/-- The words of its line that a part touches. -/
def PadPart.words (x : PadPart) : BitVec 16 := wordMask x.glob x.n (x.glob / 64)

/-- Does a read of a part need a fill: a word that is neither present nor dirty (R128)? -/
def PadPart.needsFill (x : PadPart) : Bool :=
  let l := x.pad.line x.j
  !l.present && x.words &&& ~~~l.dirty != 0

/-- May a paddock hold a page (R128)? Not one of class F, nor a host-homed one of class U. -/
def padPageOk (p : PageInfo) : Bool := p.cl != 3 && !(p.cl == 2 && p.hh)

/-- The check of a fill (R128): translation, then the page's class. -/
def State.fillCheck (s : State) (t : Nat) (x : PadPart) : Option FInfo :=
  match s.xlate t x.glob with
  | none => some (.at cTranslation x.glob 0)
  | some p => if padPageOk p then none else some (.at cPaddock x.glob x.idx)

/-- The stretch of a whole global line. -/
def PadPart.lineStretch (x : PadPart) (p : PageInfo) : Stretch := ⟨p, x.glob / 64 * 64, 64⟩

/-- Change the state of a paddock line. -/
def Core.modLine (c : Core) (i j : Nat) (f : PdLine → PdLine) : Core :=
  match Map.find? c.pd i with
  | none => c
  | some p => { c with pd := Map.put c.pd i { p with st := Map.put p.st j (f (p.line j)) } }

/-- Write a run of bytes of a core's scratchpad, without more. -/
def State.putSpad (s : State) (core off : Nat) (bs : List Byte) : State := s.putBytes (.spad core) off bs

/-- A write of all 64 bytes of a scratchpad line clears its poison (R352). -/
def State.cleanSpad (s : State) (core off n : Nat) : State :=
  s.modCore core (fun c => { c with spoison := c.spoison.filter (fun e => !(decide (off ≤ e.1 * 64) && decide (e.1 * 64 + 64 ≤ off + n))) })

/-- Does a range of scratchpad touch a poisoned line (R352)? -/
def Core.spadBad (c : Core) (off n : Nat) : Bool := c.spoison.any (fun e => decide (e.1 * 64 < off + n) && decide (off < e.1 * 64 + 64))

/-- Where a soft error in a core's array is marked: by tile, or by the 64-byte line of its weight buffer (R351). -/
def arrayKey (wbuf : Bool) (i : Nat) : Nat := 2 * i + b2n wbuf

/-- Is a tile poisoned (R352)? -/
def Core.tileBad (c : Core) (t : Nat) : Bool := Map.get false c.mpoison (arrayKey false t)

/-- Does a range of the weight buffer touch a poisoned line? -/
def Core.wbufBad (c : Core) (off n : Nat) : Bool :=
  c.mpoison.any (fun e => e.1 % 2 == 1 && decide (e.1 / 2 * 64 < off + n) && decide (off < e.1 / 2 * 64 + 64))

/-- A tile that is written whole is not poisoned. -/
def State.cleanTile (s : State) (core t : Nat) : State := s.modCore core (fun c => { c with mpoison := Map.del c.mpoison (arrayKey false t) })

/-- Nor are lines of the weight buffer that are. -/
def State.cleanWbuf (s : State) (core off n : Nat) : State :=
  let whole := fun (e : Nat × Bool) => e.1 % 2 == 1 && decide (off ≤ e.1 / 2 * 64) && decide (e.1 / 2 * 64 + 64 ≤ off + n)
  s.modCore core (fun c => { c with mpoison := c.mpoison.filter (fun e => !whole e) })

/-- Fill a line: read the 64 bytes at their global place, write the words that are not dirty, set the line present (R128). A prefetch sets no
accessed bit and counts nothing (R121, R212). -/
def State.fillLine (s : State) (t core : Nat) (x : PadPart) (p : PageInfo) (pft : Bool) : State :=
  let st := x.lineStretch p
  let via : Via := .paddock core x.idx x.j
  let s := if pft then s.prefetchSide t st via else s.readSide t st via
  let l := ((Map.get ⟨0, 0, 0, []⟩ (s.core core).pd x.idx).line x.j)
  let s := (upto 16).foldl (fun s w =>
    if l.dirty.getLsbD w then s
    else s.putSpad core (x.pad.spad + 64 * x.j + 4 * w) (s.bytesAt (spaceOf p.hh) (st.pa + 4 * w) 4)) s
  let s := if l.dirty = 0 then s.cleanSpad core (x.pad.spad + 64 * x.j) 64 else s
  s.modCore core (·.modLine x.idx x.j (fun l => { l with present := true, pa := some (st.pa / 64), hh := p.hh }))

/-- A fault at a place that stands for another names the other: a line that a home refuses, for the byte that the access reads there (R354). -/
def Eff.moved {α : Type} (x : Eff α) (at_ : List (Nat × Nat)) : Eff α :=
  match x with
  | .fault f s => .fault { f with addr := Map.get f.addr at_ f.addr } s
  | y => y

/-- A fault in a lane names the lane (R112, R203). -/
def Eff.lane {α : Type} (x : Eff α) (i : Nat) : Eff α :=
  match x with
  | .fault f s => .fault { f with lane := i } s
  | y => y

/-- The walks of the global addresses of the paddock parts of a range. -/
def State.padWalks (s : State) (who t core off n : Nat) : Eff Unit := s.walks who t (((s.core core).padParts off n).map (·.glob))

/-- Fill every absent line that a read of a range of scratchpad touches; every fill is checked before any is made. A poisoned line that is read
faults (R352). -/
def State.padFill (s : State) (who t core off n : Nat) : Eff Unit :=
  let xs := ((s.core core).padParts off n).filter PadPart.needsFill
  match firstFault (xs.map (s.fillCheck t)) with
  | some f => .fault f s
  | none =>
    if (s.core core).spadBad off n then .fault (.of cUncorrectable 0) s
    else
      let ps := xs.map (fun x => (x, (s.xlate t x.glob).getD PageInfo.none))
      ((s.gate who t (ps.map (fun e => e.1.lineStretch e.2)) [] (pad := true)).eff.moved (xs.map (fun x => (x.glob / 64 * 64, x.glob)))).bind (fun _ s =>
        .ok () (ps.foldl (fun s e => s.fillLine t core e.1 e.2 false) s))

/-- The granules of a range. -/
def granules (off n : Nat) : List Nat := if n = 0 then [] else (upto ((off + n - 1) / 16 - off / 16 + 1)).map (fun j => off / 16 + j)
/-- Is a granule full? One inside a bound paddock always is (R22). -/
def Core.full (c : Core) (g : Nat) : Bool := c.padIn (g * 16) 16 || !Map.get false c.empties g
/-- Is every granule of a range full? -/
def Core.allFull (c : Core) (off n : Nat) : Bool := (granules off n).all c.full
/-- Set the granules of a range full. -/
def Core.setFull (c : Core) (off n : Nat) : Core := { c with empties := (granules off n).foldl Map.del c.empties }
/-- Set granules empty; those inside a bound paddock stay full (R22). -/
def Core.setEmpty (c : Core) (off n : Nat) : Core :=
  { c with empties := (granules off n).foldl (fun m g => if c.padIn (g * 16) 16 then m else Map.put m g true) c.empties }

/-! ### Ordering between the units of a strand (R16, R103, R141, R220) -/

/-- Does an instruction access memory, so that the strand's other accesses keep program order with it? -/
def isAccess : Instr → Bool
  | .ld _ => true
  | .ldx _ => true
  | .lds _ _ _ => true
  | .fetest _ _ _ _ => true
  | .feclr _ _ _ _ => true
  | .feset _ _ _ _ => true
  | .st _ => true
  | .stf _ => true
  | .stx _ => true
  | .red _ => true
  | .smp _ => true
  | .enqm _ _ _ => true
  | .pdbind _ _ _ _ _ => true
  | .pdflush _ _ => true
  | .pdunbind _ _ => true
  | _ => false

/-- Has unit u an access older than place q? -/
def Part.olderAccess (p : Part) (u q : Nat) : Bool := (p.pend u).any (fun r => decide (r.seq < q) && isAccess r.instr)

/-- Does a waiting instruction pop an output queue? The fields of its word say so (R47). -/
def Routed.popsO (r : Routed) : Bool :=
  bits r.word.toNat 58 2 == 2 && [40, 34, 28].any (fun b => decide (37 ≤ bits r.word.toNat b 6) && decide (bits r.word.toNat b 6 ≤ 40))

/-! What a command of a ring reaches, for a fence (R103, R228). -/

/-- The homes of a scope's reach seen from a core (R228): does a page's place lie there? `sys` alone holds the host. -/
def State.inReach (s : State) (core : Nat) (sc : Scope) (hh : Bool) (pa : Nat) : Bool :=
  match sc with
  | .core => false
  | .quad => !hh && s.ours pa && s.homeDie pa == dieOf core
  | .die => !hh && s.ours pa && s.homeDie pa == dieOf core
  | .pkg => !hh && s.ours pa
  | .pod => !hh
  | .ten => !hh
  | .sys => true

/-- May n bytes of scratchpad lie in reach of a scope? Those of a paddock lie at the homes of their global words, others on the core, which every scope
reaches. -/
def State.spadReaches (s : State) (t core : Nat) (sc : Scope) (off n : Nat) : Bool :=
  let xs := (s.core core).padParts off n
  decide ((xs.map (·.n)).sum < n) || xs.any (fun x =>
    match s.xlate t x.glob with
    | some p => s.inReach core sc p.hh (p.pa x.glob)
    | none => true)

/-- May n bytes from a virtual address on lie in reach of a scope? What is not mapped may. -/
def State.spanReaches (s : State) (t core : Nat) (sc : Scope) (va n : Nat) : Bool :=
  (cutAt 65536 va n).any (fun e =>
    match s.xlate t e.1 with
    | some p => s.inReach core sc p.hh (p.pa e.1)
    | none => true)

/-- May an access of a command lie in reach of a scope? The spans of COPY, FILL, ACW, AMO and FLAG are in their words, a dword with bit 63 names scratchpad
(R175); any other command may reach everything (notes/assumptions/17.md). Of a COPY, `read` says that all of its source is read. -/
def State.cmdReaches (s : State) (t core e : Nat) (sc : Scope) (ws : List DWord) (read : Bool) : Bool :=
  let w := (ws.getD 0 0).toNat
  let at_ := fun (j n : Nat) =>
    let a := (ws.getD j 0).toNat
    if bit a 63 then s.spadReaches t core sc (bits a 0 52) n
    else s.spanReaches t core sc (bits a 0 52) n
  let len := bits w 0 40
  if e ≠ 1 then true
  else
    match bits w 42 6 with
    | 1 => (!read && at_ 1 len) || at_ 2 len
    | 3 => at_ 1 len
    | 4 => at_ 1 (bits w 6 36) || at_ 2 (bits w 6 36)
    | 5 => at_ 1 8
    | 13 => at_ 1 8
    | _ => true

/-- The words of the commands of a ring that a fence placed at producer index `idx` waits for, command by command: those taken and not finished, and
those not taken. -/
def ringCmds (e : Nat) (g : Ring) (idx : Nat) : Nat → List (Nat × DWord) → List (List DWord)
  | 0, _ => []
  | _, [] => []
  | fuel + 1, (i, w) :: rest =>
    if idx ≤ i then []
    else
      let n := (cmdExt e (bits w.toNat 42 6)).getD 0
      (w :: (rest.take n).map (·.2)) :: ringCmds e g idx fuel (rest.drop n)

/-- A word of a ring, by index. -/
def State.ringWord (s : State) (k e i : Nat) : DWord :=
  let g := (s.part k).ring e
  BitVec.ofNat 64 (s.valAt (.spad (coreOf k)) (g.base + 8 * (i % (g.size / 8))) 8)

/-- The words of a ring that its engine has not fetched, with their indices. -/
def State.unfetched (s : State) (k e : Nat) : List (Nat × DWord) :=
  let g := (s.part k).ring e
  (upto (g.prod - g.cons)).map (fun i => (g.cons + i, s.ringWord k e (g.cons + i)))

/-- Is an ENQ or ENQM to engine e older than place q still in S? -/
def Part.olderPush (p : Part) (e q : Nat) : Bool :=
  p.pendS.any (fun r => decide (r.seq < q) && (match r.instr with
    | .enq _ f _ => f.val == e
    | .enqm _ f _ => f.val == e
    | _ => false))

/-- Has a COPY read its last source word, so that only writes are left? -/
def Cur.copyRead (c : Cur) : Bool :=
  let n := bits c.word.toNat 0 40 / 4
  (upto (n - c.prog / 4)).all (fun j => c.ahead.contains (c.prog / 4 + j) || (j == 0 && !c.seen.isEmpty))

/-- Are the commands of one engine kind of a fence complete, as far as they reach its scope (R103)? -/
def State.engineDone (s : State) (k : Nat) (f : FenceRec) (e : Nat) : Bool :=
  let p := s.part k
  let g := p.ring e
  let idx := Map.get 0 f.idx e
  let t := s.tenOf (coreOf k)
  !f.kinds.getLsbD e
    || (!p.olderPush e f.seq
      && g.cmds.all (fun c => (c.iter == p.iter && decide (idx ≤ c.idx))
          || !s.cmdReaches t (coreOf k) e f.sc (c.word :: c.ext ++ ((s.unfetched k e).take c.need).map (·.2)) c.copyRead)
      && (ringCmds e g idx (g.prod - g.cons) ((s.unfetched k e).drop ((g.cmds.map (·.need)).sum))).all (fun ws => !s.cmdReaches t (coreOf k) e f.sc ws false))

/-- Is a tick's region, or a part of it, within reach of a scope? -/
def tickReaches (core : Nat) (sc : Scope) (chan : Nat) : Bool :=
  match sc with
  | .core => false
  | .quad => chan / 32 / 6 == dieOf core
  | .die => chan / 32 / 6 == dieOf core
  | _ => true

/-! ### What plain accesses to host memory leave free (R116, R226, R230) -/

/-- Do two ranges overlap? -/
def overlaps (a n b m : Nat) : Bool := decide (a < b + m) && decide (b < a + n)

/-- Some bytes from an address on. -/
abbrev Extent := Nat × Nat

/-- Do [ea, ea + n - 1] lie on a page? -/
def PageInfo.has (p : PageInfo) (ea n : Nat) : Bool := decide (p.vbase ≤ ea) && decide (ea + n ≤ p.vbase + pageBytes p.ps)

/-- Where the bytes of a run lie: 0 device memory, 1 host memory, 2 scratchpad, a paddock's at their global place too (R225). -/
def State.placesOf (s : State) (k : Nat) (p : PageInfo) (r : Extent) : List (Nat × Extent) :=
  if p.ps = 3 then
    (2, r) :: ((s.core (coreOf k)).padParts r.1 r.2).filterMap (fun x =>
      (s.xlate (s.tenOf (coreOf k)) x.glob).map (fun g => (b2n g.hh, (g.pa x.glob, x.n))))
  else [(b2n p.hh, (p.pa r.1, r.2))]

/-- Do two runs have no byte in common? -/
def State.apart (s : State) (k : Nat) (p : PageInfo) (x : Extent) (g : PageInfo) (y : Extent) : Bool :=
  (s.placesOf k p x).all (fun a => (s.placesOf k g y).all (fun b => a.1 != b.1 || !overlaps a.2.1 a.2.2 b.2.1 b.2.2))

/-- Does a run lie in host memory, through a paddock or not? -/
def State.hostly (s : State) (k : Nat) (p : PageInfo) (r : Extent) : Bool :=
  if p.ps = 3 then
    let xs := (s.core (coreOf k)).padParts r.1 r.2
    decide ((xs.map (·.n)).sum = r.2) && !xs.isEmpty && xs.all (fun x =>
      match s.xlate (s.tenOf (coreOf k)) x.glob with
      | some g => g.hh
      | none => false)
  else p.hh

/-- A plain access: its page and its runs. -/
abbrev Span := PageInfo × List Extent

/-- Does an access lie in host memory? One that reaches no memory does not. -/
def State.hostSpan (s : State) (k : Nat) (x : Span) : Bool := !x.2.isEmpty && x.2.all (s.hostly k x.1)

/-- May one access of a strand go before another: both plain, one of them in host memory, and without a byte in common? -/
def State.free2 (s : State) (k : Nat) (x y : Span) : Bool :=
  (s.hostSpan k x || s.hostSpan k y) && x.2.all (fun a => y.2.all (fun b => s.apart k x.1 a y.1 b))

/-- Does an instruction of A leave address registers, handles and stream registers but its own as they are? -/
def steady : Instr → Bool
  | .ld o => (match o.dst with | .a _ => false | _ => true)
  | .ldx o => (match o.dst with | .a _ => false | _ => true)
  | .lds _ d _ => (match d with | .a _ => false | _ => true)
  | .sa _ => true
  | .sax _ => true
  | .pft _ => true
  | _ => false

/-- The instructions of A before place q. -/
def Part.beforeA (p : Part) (q : Nat) : List Routed := p.pendA.filter (fun r => decide (r.seq < q))

/-- How many elements of xa they take. -/
def Part.xaAt (p : Part) (q : Nat) : Nat :=
  ((p.beforeA q).filter (fun r => match r.instr with | .ldx _ => true | .sax _ => true | _ => false)).length

/-- How many elements of a stream they take. -/
def Part.strmAt (p : Part) (sn q : Nat) : Nat :=
  ((p.beforeA q).filter (fun r => match r.instr with | .lds _ _ x => x.val == sn | _ => false)).length

/-- What a load that waits in A reads, where it is plain and that can be told: its handle is valid and what waits before it is steady. -/
def State.loadSpan (s : State) (k : Nat) (r : Routed) : Option Span :=
  let p := s.part k
  let page := fun (o : LdArgs) =>
    let h := p.rdH o.h.val
    if o.sys || o.fw || o.fc || h.st != .valid || h.page.cl == 3 then none else some h.page
  if !(p.beforeA r.seq).all (fun x => steady x.instr) then none
  else
    match r.instr with
    | .ld o => (page o).map (fun g => (g, [(eaOf g.vbase (p.rdAo o.ix) o.sh.val o.off, szBytes o.sz)]))
    | .ldx o =>
      match p.xa[p.xaAt r.seq]? with
      | some v => (page o).map (fun g => (g, (laneEas g.vbase v o.sh.val o.off).map (fun a => (a, szBytes o.sz))))
      | none => none
    | .lds _ _ sn =>
      let st := p.rdStrm sn.val
      let j := p.strmAt sn.val r.seq
      let a := (st.addr + BitVec.ofNat 52 j * st.stride.signExtend 52).toNat
      if !st.bnd || decide (st.left.toNat ≤ j) then none
      else
        match s.xlate (s.tenOf (coreOf k)) a with
        | some g => if g.cl != 3 && g.has a (szBytes st.esz) then some (g, [(a, szBytes st.esz)]) else none
        | none => none
    | _ => none

/-- The SYS bit of an S instruction. -/
def sysOf : Instr → Bool
  | .st o => o.sys | .stf o => o.sys | .stx o => o.sys | .red o => o.sys | .tick _ _ sc _ => sc == .sys | _ => false

/-- The bytes an entry names from each of its addresses: on class F at most those of 64 cells. -/
def entryBytes (i : Instr) (e : AqEntry) : Nat :=
  match i with
  | .enqm _ _ n => 8 * (n.val + 1)
  | _ => if e.page.cl = 3 ∧ e.page.ps ≠ 3 then 2048 else szBytes e.sz

/-- What an access that waits in S reaches, where it is plain and its entry is there. -/
def State.storeSpan (s : State) (k : Nat) (r : Routed) : Option Span :=
  let p := s.part k
  let j := (p.pendS.takeWhile (fun x => x.seq != r.seq)).length
  if !popsAq r.instr || sysOf r.instr then none
  else
    match p.aq[p.aqAt j]? with
    | some e => if e.sys then none else some (e.page, e.addrs.map (fun a => (a, entryBytes r.instr e)))
    | none => none

/-- What a waiting access of unit A or S reaches. -/
def State.spanIn (s : State) (k u : Nat) (r : Routed) : Option Span := if u = 1 then s.loadSpan k r else s.storeSpan k r

/-- Has unit u an access older than place q that keeps its order with later ones: any but a plain one of host memory? -/
def State.olderKept (s : State) (k u q : Nat) : Bool :=
  ((s.part k).pend u).any (fun r => decide (r.seq < q) && isAccess r.instr && (match s.spanIn k u r with
    | some x => !s.hostSpan k x
    | none => true))

/-- May a plain access at place q go before every older access that waits in unit u? -/
def State.passes (s : State) (k u q : Nat) (x : Span) : Bool :=
  ((s.part k).pend u).all (fun r => decide (q ≤ r.seq) || !isAccess r.instr || (match s.spanIn k u r with
    | some y => s.free2 k x y
    | none => false))

/-- Is a placed fence satisfied? Its older accesses, those of host memory only for a FENCE.sys, its engine commands, and with bit 44 its samples and ticks. -/
def State.fenceDone (s : State) (k : Nat) (f : FenceRec) : Bool :=
  let p := s.part k
  (if f.sc = .sys then !p.olderAccess 1 f.seq && !p.olderAccess 3 f.seq else !s.olderKept k 1 f.seq && !s.olderKept k 3 f.seq)
    && (upto 4).all (s.engineDone k f)
    && (!f.kinds.getLsbD 4 || (!p.pendS.any (fun r => decide (r.seq < f.seq) && (match r.instr with
            | .smp _ => true | .tick _ _ _ _ => true | _ => false))
        && s.pkg.chanQ.all (fun e => !tickReaches (coreOf k) f.sc e.1
            || e.2.all (fun x => !(x.k == k && (x.iter != p.iter || decide (x.seq < f.seq)))))))

/-- Is a later access of the strand held by a fence? A plain one of host memory only by a FENCE.sys. -/
def State.fenced (s : State) (k q : Nat) (host : Bool := false) : Bool :=
  (s.part k).fences.any (fun f => decide (f.seq < q) && (!host || f.sc == .sys) && !s.fenceDone k f)

/-- Does nothing but older accesses hold an access at place q: no fence, no older pop of o0 to o3 (R103, R141)? -/
def State.clear (s : State) (k q : Nat) (host : Bool := false) : Bool :=
  !s.fenced k q host && !(s.part k).pendX.any (fun r => decide (r.seq < q) && r.popsO)

/-- May an access of unit u at place q of copy k be performed now: older accesses of the other unit, fences and older pops of o0 to
o3 come first. -/
def State.mayAccess (s : State) (k u q : Nat) : Bool := !(s.part k).olderAccess (4 - u) q && s.clear k q

/-- May an access of unit u at place q that is plain, without `sys`, be performed now: as any access, or as far as R226 leaves it free. -/
def State.mayPlain (s : State) (k u q : Nat) (sys : Bool) (x : Span) : Bool :=
  s.mayAccess k u q || (!sys && s.clear k q (s.hostSpan k x) && s.passes k (4 - u) q x)

/-! ### Accesses in parts (R12, R215) -/

/-- Does the machine perform the accesses of an instruction in parts, one in a step? The field `budget` of the state says so with 0; not those of
one that goes before older ones (notes/assumptions/18.md). -/
def State.inParts (s : State) (parts : Nat) : Bool := s.budget == 0 && decide (1 < parts) && !s.ctx.first

/-! ### Host memory read ahead (R333) -/

/-- What a copy has read ahead is read again: an access with SYS, or a fence or an acquire of the strand, comes between (R116, R226). -/
def State.forget (s : State) (k : Nat) : State := s.modPart k (fun p => { p with ahead := [] })

/-- A byte of host memory as a plain load of a copy takes it: as the copy has read its line ahead, or as it stands. -/
def State.hostByte (s : State) (k pa : Nat) : Byte :=
  match Map.find? (s.part k).ahead (pa / 64) with
  | some bs => bs.getD (pa % 64) 0
  | none => s.byteAt .host pa

/-- An access of a strand to host memory: what it has read of those lines ahead is used up, so that accesses to one address keep their order (R226). -/
def State.usedUp (s : State) (k : Nat) (hh : Bool) (pa n : Nat) : State :=
  if hh && !(s.part k).ahead.isEmpty then s.modPart k (fun p => { p with ahead := p.ahead.filter (fun e => !(linesOf pa n).contains e.1) }) else s

/-- The page of an access: that under which it is in flight (R12), else what the handle gives. -/
def State.pageOf (s : State) (k u : Nat) (h : Fin 32) (kind : Nat) (ea : Nat → Nat) : Eff PageInfo :=
  match Map.find? (s.part k).flight u with
  | some f => .ok (f.pages.headD PageInfo.none) s
  | none => useHandle k h kind ea s

/-- An access that waits keeps its translation (R12), unless its range is held for a change of class or of windows, after which it is translated anew
(R260, R338). -/
def Res.fly (r : Res) (k u t : Nat) (f : Flight) (xs : List Stretch) : Res :=
  match r with
  | .wait w s =>
    .wait w (s.modPart k (fun p =>
      { p with flight := if f.done = 0 ∧ xs.any (s.heldBack t) = true then Map.del p.flight u else Map.put p.flight u f }))
  | x => x

/-! ### Destinations and sources of the access unit (R45, R46) -/

/-- Has a destination room for one element (R18)? -/
def Part.roomA (p : Part) : ADst → Bool
  | .q n => decide ((p.rdQ n.val).length < 32)
  | .qs => decide (p.qs.length < 64)
  | .fq => decide (p.fq.length < 16)
  | _ => true

/-- Deliver a vector or a 64-bit value (R45). -/
def Part.deliver (p : Part) (d : ADst) (v : Vec) : Part :=
  match d with
  | .q n => p.wrQ n.val (p.rdQ n.val ++ [v])
  | .qs => { p with qs := p.qs ++ [lane v 0] }
  | .qz => p
  | .fq => { p with fq := p.fq ++ [lane v 0] }
  | .a r => p.wrA r.val (val64 v)

/-- How many elements of xa a source pops. -/
def ASrc.pops : ASrc → Nat
  | .xaWord => 1 | .xaPair => 1 | _ => 0

/-- Read a source, popping xa where it names it. -/
def Part.readA (p : Part) (imm : Word) : ASrc → DWord × Part
  | .a r => (p.rdA r.val, p)
  | .imm => (imm.signExtend 64, p)
  | .xaWord => ((lane (p.xa.headD zeroVec) 0).signExtend 64, { p with xa := p.xa.drop 1 })
  | .xaPair => (val64 (p.xa.headD zeroVec), { p with xa := p.xa.drop 1 })
  | .zero => (0, p)

/-! ### Sources and destinations of the execute unit (R17, R47, R48, R136) -/

/-- The broadcast of IMM16 for a type (R49). -/
def immLane (ty : Ty) (imm : BitVec 16) : Word :=
  match ty with
  | .f32 => BitVec.ofNat 32 (imm.toNat * 65536)
  | .bf16 | .f16 | .i16 => BitVec.ofNat 32 (imm.toNat * 65537)
  | .i32 => imm.signExtend 32
  | .u32 => imm.setWidth 32
  | .i8 | .u8 => BitVec.ofNat 32 (imm.toNat % 256 * 0x01010101)
  | .fx => 0

/-- The elements an instruction still pops are there: how many sources of a list name each queue. -/
def Part.srcsReady (p : Part) (l : List XSrc) : Bool :=
  l.all (fun x =>
    match x with
    | .q n => decide (l.count (.q n) ≤ (p.rdQ n.val).length)
    | .qs => decide (l.count .qs ≤ p.qs.length)
    | .o n => decide (l.count (.o n) ≤ (p.rdO n.val).length)
    | _ => true)

/-- Read a source: `p0` is the copy before the instruction, whose result queue it reads; pops act on `p`. -/
def Part.readX (p0 : Part) (ty : Ty) (imm : BitVec 16) (x : XSrc) (p : Part) : Vec × Part :=
  match x with
  | .t n => (p0.rdT n.val, p)
  | .n n => (p0.rdN n.val, p)
  | .q n => ((p.rdQ n.val).headD zeroVec, p.wrQ n.val ((p.rdQ n.val).drop 1))
  | .qs => (splat (p.qs.headD 0), { p with qs := p.qs.drop 1 })
  | .o n => ((p.rdO n.val).headD zeroVec, { p.wrO n.val ((p.rdO n.val).drop 1) with ahead := [] })
  | .lane => (mkVec (fun i => BitVec.ofNat 32 i), p)
  | .imm => (splat (immLane ty imm), p)
  | .zero => (zeroVec, p)

/-- Has the destination of an X instruction room for its element? -/
def Part.roomX (p : Part) : XDst → Bool
  | .sd => decide (p.sd.length < 32)
  | .xa => decide (p.xa.length < 16)
  | .cq => decide (p.cq.length < 64)
  | _ => true

/-- Bit i of a 64-bit mask. -/
def maskBit (m : DWord) (i : Nat) : Bool := m.getLsbD i

/-- How many bits of a mask are set. -/
def countOnes (m : DWord) : Nat := ((upto 64).filter (maskBit m)).length

/-- A predicate from a result: bit i is 1 where lane i is non-zero (R17). -/
def predOf (v : Vec) : DWord := BitVec.ofNat 64 (((upto 64).map (fun i => if lane v i = 0 then 0 else 2 ^ i)).sum)

/-- Deliver a result (R17): every destination but `none` shifts the result queue. `cqMask` is the mask of lanes whose OR goes to cq. -/
def Part.deliverX (p : Part) (d : XDst) (cqMask : DWord) (v : Vec) : Part :=
  match d with
  | .none => p
  | .t => p.pushT v
  | .n k => (p.pushT v).wrN k.val v
  | .sd => { p.pushT v with sd := p.sd ++ [v] }
  | .xa => { p.pushT v with xa := p.xa ++ [v] }
  | .cq => { p.pushT v with cq := p.cq ++ [predOf v &&& cqMask != 0] }
  | .p k => (p.pushT v).wrP (k.val + 1) (predOf v)
  | .drop => p.pushT v

/-- Instructions of A that X and S wait for (R16): an older write of the named control registers, or a read of flags. -/
def Part.olderCtl (p : Part) (q : Nat) (ixs : List Nat) : Bool :=
  p.pendA.any (fun r => decide (r.seq < q) && (match r.instr with
    | .ctlw _ ix _ => ixs.contains ix.val
    | .ctlr _ _ ix => ix == 6 && ixs.contains 6
    | _ => false))

/-- The values of the three sources and the copy after their pops, in the order S1, S2, S3 (R48). -/
def Part.readSrcs (p : Part) (o : XArgs) : Vec × Vec × Vec × Part :=
  let (a, p1) := p.readX o.ty o.imm o.s1 p
  let (b, p2) := p.readX o.ty o.imm o.s2 p1
  let (c, p3) := p.readX o.ty o.imm o.s3 p2
  (a, b, c, p3)

/-- Are the elements of an X instruction there, and is there room for its result (R140)? -/
def Part.queuesX (p : Part) (o : XArgs) : Bool := p.srcsReady [o.s1, o.s2, o.s3] && p.roomX o.d

/-- May an X instruction start (R140): its queues allow it, and no older access to the flags register waits in A (R16)? -/
def Part.readyX (p : Part) (q : Nat) (o : XArgs) : Bool := p.queuesX o && !p.olderCtl q [6]

/-- Has A an older write of the flags register? FLGRD does not wait for its other instructions (R16). -/
def Part.olderFlagWrite (p : Part) (q : Nat) : Bool :=
  p.pendA.any (fun r => decide (r.seq < q) && (match r.instr with | .ctlw _ ix _ => ix == 6 | _ => false))

/-- What an X instruction computes from its sources when its queues allow it and nothing else holds it: the result vector, the flags, and the lanes whose OR goes
to cq, which are the lanes that VLANE counts (R137, R342). `f` gets the predicate mask. -/
def xBodyOn (held : Bool) (o : XArgs) (f : DWord → Vec → Vec → Vec → Vec × Nat × DWord) (s : State) : Res :=
  let k := s.ctx.k
  let p := s.part k
  if !p.queuesX o then .wait 2 s
  else if held then .wait 7 s
  else
    let (a, b, c, p') := p.readSrcs o
    let (v, fl, cm) := f (p.rdP o.p.val) a b c
    .done ((s.setPart k ((p'.deliverX o.d cm v).orFlags (BitVec.ofNat 32 fl))).meter (s.tenOf (coreOf k)) 4 (countOnes cm))

/-- The body of an X instruction: an older access of A to the flags register holds it (R16). -/
def xBody (o : XArgs) (f : DWord → Vec → Vec → Vec → Vec × Nat × DWord) (s : State) : Res :=
  xBodyOn ((s.part s.ctx.k).olderCtl s.ctx.seq [6]) o f s

/-- A lane-wise result under the predicate (R136): flags only from active lanes. -/
def lanewise (o : XArgs) (f : Nat → FR) (m : DWord) (a : Vec) : Vec × Nat × DWord :=
  let rs := (upto 64).map (fun i => if maskBit m i then f i else (if o.pz then 0 else (lane a i).toNat, 0))
  (rs.map (fun r => BitVec.ofNat 32 r.1), rs.foldl (fun x r => x ||| r.2) 0, m)

/-- An element-wise operation on the elements of each lane (R138, R143, R147). -/
def elemwise (o : XArgs) (f : Nat → Nat → Nat → FR) (m : DWord) (a b c : Vec) : Vec × Nat × DWord :=
  lanewise o (fun i => mapElems o.ty (fun j =>
    f (elemOf o.ty (lane a i).toNat j) (elemOf o.ty (lane b i).toNat j) (elemOf o.ty (lane c i).toNat j))) m a

/-! ### Operands of the store unit (R158 to R160) -/

/-- The policy of a tenant for system scope (R229, R340). -/
def State.sysOk (s : State) (t : Nat) : Bool := bit (s.ten t).pol.toNat 0

/-- The entry at the head of aq, if it is of the kind and size an instruction accepts (R158); `scatter` says which kinds. -/
def Part.entryOk (e : AqEntry) (plain scatter : Bool) (sz : Size) : Bool :=
  (if e.scatter then scatter else plain) && e.sz == sz

/-- The body of an S instruction that pops aq and sd: waits, the check of R158, the policy check of its own SYS bit (R171), in this order
(DEDUCED, notes/assumptions/26.md), then the access with the entry and the data popped. -/
def sAccess (plain scatter : Bool) (sz : Size) (sys : Bool) (f : AqEntry → Vec → State → Res) (s : State) : Res :=
  let k := s.ctx.k
  let p := s.part k
  match p.aq, p.sd with
  | [], _ => .wait 2 s
  | _, [] => .wait 2 s
  | e :: _, d :: _ =>
    if !s.mayPlain k 3 s.ctx.seq (sys || e.sys) (e.page, e.addrs.map (fun a => (a, if e.page.cl = 3 ∧ e.page.ps ≠ 3 then 2048 else szBytes e.sz))) then .wait 7 s
    else if !Part.entryOk e plain scatter sz then .fault (.of cQueue 2) s
    else if sys && !s.sysOk (s.tenOf (coreOf k)) then .fault (.of cScope 6) s
    else
      let s := if sys || e.sys then s.forget k else s
      (f e d s).andThen (fun s => .done (s.modPart k (fun p => { p with aq := p.aq.drop 1, sd := p.sd.drop 1 })))

/-- The lane values and addresses of an entry: one for a plain word, one per lane for a scatter entry, and the 32-bit elements of a
vector entry at `stride` bytes from each other. -/
def AqEntry.elems (e : AqEntry) (stride : Nat) (v : Vec) : List (Nat × Word) :=
  if e.scatter then (upto 64).map (fun i => (e.addrs.getD i 0, lane v i))
  else
    let n := match szCells e.sz with | some n => n | none => 1
    (upto n).map (fun i => (e.addrs.getD 0 0 + i * stride, lane v i))

end Sys2Proof.Machine
end

