-- ==== Sys2Proof/Machine/Filter.lean ====
section
/-! DEFINITION. Filter regions (R231 to R243): the region commands, cells and taps, samples, ticks and the cell arithmetic. -/
namespace Sys2Proof.Machine

/-! ### Regions and cells -/

/-- Bytes of a cell (R234). -/
def Region.csz (r : Region) : Nat := if r.ord then 32 else 16

/-- The registered region of a class-F page; host memory has none (R243, R327). -/
def State.regionOf (s : State) (t : Nat) (p : PageInfo) : Option Region :=
  if p.cl = 3 ∧ p.hh = false then Map.find? (s.ten t).regs p.rgn else none

/-- The cell that lies at a virtual address. -/
def Region.cellAt (r : Region) (va : Nat) : Option Nat :=
  if r.base ≤ va ∧ (va - r.base) % r.csz = 0 ∧ (va - r.base) / r.csz < r.ncell then some ((va - r.base) / r.csz) else none

/-- The physical address of a cell: its 64 KiB unit as registered. -/
def Region.cellPa (r : Region) (c : Nat) : Nat := r.units.getD (c * r.csz / 65536) 0 * 65536 + c * r.csz % 65536

/-- A cell (R234). -/
structure Cell where
  y : Word
  s1 : Word
  s2 : Word
  xl : Word
  acc : DWord
  stamp : Word
  deriving DecidableEq, Repr

/-- The sum of a cell's accumulator. -/
def Cell.sum (c : Cell) : Int := sext 48 c.acc.toNat
/-- The count of a cell's accumulator. -/
def Cell.count (c : Cell) : Nat := bits c.acc.toNat 48 16
/-- An accumulator from sum and count. -/
def accOf (sum : Int) (count : Nat) : DWord := BitVec.ofNat 64 (wrap 48 sum + 2 ^ 48 * (count % 65536))

/-- Read a cell. -/
def State.cell (s : State) (r : Region) (c : Nat) : Cell :=
  let a := r.cellPa c
  let w := fun (o : Nat) => (BitVec.ofNat 32 (s.valAt .dev (a + o) 4) : Word)
  if r.ord then ⟨w 0, w 4, w 8, w 12, BitVec.ofNat 64 (s.valAt .dev (a + 16) 8), w 24⟩
  else ⟨w 0, w 4, 0, 0, BitVec.ofNat 64 (s.valAt .dev (a + 8) 8), 0⟩

/-- Write a cell. -/
def State.setCell (s : State) (r : Region) (c : Nat) (x : Cell) : State :=
  let a := r.cellPa c
  let b := fun (w : Word) => leBytes 4 w.toNat
  if r.ord then s.putBytes .dev a (b x.y ++ b x.s1 ++ b x.s2 ++ b x.xl ++ leBytes 8 x.acc.toNat ++ b x.stamp ++ b 0)
  else s.putBytes .dev a (b x.y ++ b x.s1 ++ leBytes 8 x.acc.toNat)

/-- Does a tap exist for the region's cells (R115)? -/
def tapOk (r : Region) (tap : Nat) : Bool := r.ord || !(tap == 2 || tap == 3 || tap == 6)

/-- What a tap delivers (R115). -/
def Cell.tap (x : Cell) (tap : Nat) : Word :=
  match tap with
  | 0 => x.y
  | 1 => x.s1
  | 2 => x.s2
  | 3 => x.xl
  | 4 => BitVec.ofNat 32 (wrap 32 (sat32 x.sum))
  | 5 => BitVec.ofNat 32 x.count
  | _ => x.stamp

/-! ### Cell arithmetic (R239, R240) -/

/-- SAT32 of a value and whether it clamped. -/
def clamp32 (x : Int) : Int × Nat := (sat32 x, b2n (sat32 x != x))

/-- A 32-bit pattern of an integer. -/
def wOf (x : Int) : Word := BitVec.ofNat 32 (wrap 32 x)

/-- STEP in an FX region (R239): the cell and how many clamps. -/
def stepFx (r : Region) (co : Coef) (x : Cell) (inp : Int) : Cell × Nat :=
  let rm := if r.rtz then Rm.rtz else Rm.rne
  let i := fun (w : Word) => i32 w.toNat
  let (y, n0) := clamp32 (i x.s1 + rndsh (i co.b0 * inp) 30 rm)
  let s2in : Int := if r.ord then i x.s2 else 0
  let (t1, n1) := clamp32 (rndsh (i co.b1 * inp - i co.a1 * y + s2in * 2 ^ 30) 30 rm)
  if r.ord then
    let (t2, n2) := clamp32 (rndsh (i co.b2 * inp - i co.a2 * y) 30 rm)
    ({ x with y := wOf y, s1 := wOf t1, s2 := wOf t2 }, n0 + n1 + n2)
  else ({ x with y := wOf y, s1 := wOf t1 }, n0 + n1)

/-- Overflows of an FP32 operation. -/
def ofCount (x : FR) : Nat := if x.2 &&& fOF = 0 then 0 else 1

/-- STEP in an FP32 region (R240): the cell and how many overflows. -/
def stepFp (r : Region) (co : Coef) (x : Cell) (inp : Nat) : Cell × Nat :=
  let rm := if r.rtz then Rm.rtz else Rm.rne
  let y := fma32 rm co.b0.toNat inp x.s1.toNat
  let m1 := fma32 rm co.b1.toNat inp (if r.ord then x.s2.toNat else 0)
  let t1 := fma32 rm (neg32 co.a1.toNat) y.1 m1.1
  let w := fun (n : Nat) => (BitVec.ofNat 32 n : Word)
  if r.ord then
    let m2 := mul32 rm co.b2.toNat inp
    let t2 := fma32 rm (neg32 co.a2.toNat) y.1 m2.1
    ({ x with y := w y.1, s1 := w t1.1, s2 := w t2.1 }, ofCount y + ofCount m1 + ofCount t1 + ofCount m2 + ofCount t2)
  else ({ x with y := w y.1, s1 := w t1.1 }, ofCount y + ofCount m1 + ofCount t1)

/-- STEP with an input pattern. -/
def stepCell (r : Region) (co : Coef) (x : Cell) (inp : Word) : Cell × Nat :=
  if r.fp then stepFp r co x inp.toNat else stepFx r co x (i32 inp.toNat)

/-- ACCUM (R237): the cell and whether the sum clamped. -/
def accum (r : Region) (x : Cell) (v : Word) : Cell × Nat :=
  let add : Int :=
    if r.fp then
      match unpack f32 v.toNat with
      | .nan _ => 0
      | .inf n => if n then -(2 ^ 60) else 2 ^ 60
      | .fin d => ({ d with e := d.e + r.f }.roundInt .rne).1
    else i32 v.toNat
  let s := x.sum + add
  let c := clampTo (-(2 ^ 47)) (2 ^ 47 - 1) s
  ({ x with acc := accOf c (min (x.count + 1) 65535) }, b2n (c != s))

/-- The input of a tick (R238): the pattern and how many clamps. -/
def tickInput (r : Region) (x : Cell) : Word × Nat :=
  if x.count = 0 then (0, 0)
  else if r.fp then
    let d := Dy.ofInt x.sum (-(r.f : Int))
    let q := if r.mean then d.div f32 (Dy.ofInt x.count 0) else d
    (BitVec.ofNat 32 (roundFP f32 .rne q).1, 0)
  else
    let (v, n) := clamp32 (if r.mean then divRne x.sum x.count else x.sum)
    (wOf v, n)

/-- TICKCELL (R238). -/
def tickCell (r : Region) (co : Coef) (num : Word) (x : Cell) : Cell × Nat :=
  if x.count = 0 ∧ r.hold = true then (x, 0)
  else
    let (v, n0) := tickInput r x
    let (x', n1) := stepCell r co x v
    let x' := if r.ord then { x' with xl := v, stamp := num } else x'
    ({ x' with acc := 0 }, n0 + n1)

/-! ### Samples (R237, R238) -/

/-- Change a region. -/
def State.modRegion (s : State) (t rg : Nat) (f : Region → Region) : State :=
  match Map.find? (s.ten t).regs rg with
  | some r => s.modTen t (fun x => { x with regs := Map.put x.regs rg (f r) })
  | none => s

/-- Add saturation events to a region, saturating at 2^32 - 1 (R231); an AUTO region then owes a rewrite of SATN. -/
def State.addSat (s : State) (t rg n : Nat) : State :=
  if n = 0 then s
  else s.modRegion t rg (fun r => { r with satn := BitVec.ofNat 32 (min (r.satn.toNat + n) 0xFFFFFFFF), satnDue := r.satnDue || r.auto })

/-- One sample reaches a cell at its channel: ACCUM, and in AUTO mode STEP at once. -/
def State.sample (s : State) (t rg : Nat) (r : Region) (c : Nat) (v : Word) : State :=
  let (x, n) := accum r (s.cell r c) v
  let s := (s.atBank (r.cellPa c / 64)).pinTouch false (r.cellPa c) r.csz
  if r.auto then
    let (y, m) := stepCell r r.coef x v
    let y := if r.ord then { y with xl := v, stamp := y.stamp + 1 } else y
    ((s.setCell r c y).addSat t rg (n + m)).meter t 11 1
  else (s.setCell r c x).addSat t rg n

/-- Does a sample wait at its channel: the stack is frozen, or an older one of the cell waits (R282)? -/
def State.sampleWaits (s : State) (ten rg cell : Nat) (r : Region) : Bool :=
  s.frozenAt (r.cellPa cell) || s.pkg.samples.any (fun e => e.1 == ten && e.2.1 == rg && e.2.2.1 == cell)

/-- A sample is performed at its channel; a cell that is not of a registered region takes none. -/
def State.takeSample (s : State) (ten rg cell : Nat) (x : Word) : State :=
  match Map.find? (s.ten ten).regs rg with
  | some r => if r.ncell ≤ cell then s else (s.stampAgent true []).sample ten rg r cell x
  | none => s

/-- SAMPLE_ACCUMULATE: a sample arriving at its channel. -/
def execSampleAccumulate (ten rg cell : Nat) (x : Word) (s : State) : Out :=
  match Map.find? (s.ten ten).regs rg with
  | some r =>
    if r.ncell ≤ cell then .next s
    else if s.sampleWaits ten rg cell r then .next (s.modPkg (fun g => { g with samples := g.samples ++ [(ten, rg, cell, x)] }))
    else .next (s.takeSample ten rg cell x)
  | none => .next s

/-- Is the stack of a waiting sample no longer frozen, or its region no more? -/
def State.sampleFree (s : State) (e : Nat × Nat × Nat × Word) : Bool :=
  match Map.find? (s.ten e.1).regs e.2.1 with
  | some r => !s.frozenAt (r.cellPa e.2.2.1)
  | none => true

/-- The first sample that need wait no longer is performed: those of one cell in the order in which they came. -/
def State.sampleNext (s : State) : State :=
  match s.pkg.samples.find? s.sampleFree with
  | some e => (s.modPkg (fun g => { g with samples := g.samples.erase e })).takeSample e.1 e.2.1 e.2.2.1 e.2.2.2
  | none => s

/-! ### Stores through a paddock (R120, R128) -/

/-- The cell that an access of n bytes names on a class-F page (R176, R243): of a registered region, at its first byte, a word. -/
def State.cellFor (s : State) (t n va : Nat) (p : PageInfo) : Option (Region × Nat) :=
  match s.regionOf t p with
  | none => none
  | some r => if n = 4 then (r.cellAt va).map (fun c => (r, c)) else none

/-- The words of a paddock store that stay in the paddock: whole words, and words of a line that is present or word dirty (R128). -/
def PadPart.localWords (x : PadPart) : BitVec 16 :=
  let l := x.pad.line x.j
  BitVec.ofNat 16 (((upto 16).map (fun w =>
    let a := x.glob / 64 * 64 + 4 * w
    if a < x.glob + x.n ∧ x.glob < a + 4 ∧ ((x.glob ≤ a ∧ a + 4 ≤ x.glob + x.n) ∨ l.present ∨ l.dirty.getLsbD w) then 2 ^ w else 0)).sum)

/-- Store bytes at a paddock part: the global word takes the value in S at once (R225), the paddock keeps its own words dirty, with
what the home held before. One that reaches a class-F page is a sample (R163). -/
def State.padStore (s : State) (t core : Nat) (x : PadPart) (p : PageInfo) (bs : List Byte) : State :=
  match s.cellFor t x.n x.glob p with
  | some (r, c) => ((s.touchLeaf p true).meterMem t ⟨p, x.glob, x.n⟩ true).sample t p.rgn r c (BitVec.ofNat 32 (leVal bs))
  | none =>
  let st : Stretch := ⟨p, x.glob, x.n⟩
  let lw := x.localWords
  let was := (upto 16).filterMap (fun w =>
    if lw.getLsbD w then some (w, BitVec.ofNat 32 (s.valAt (spaceOf p.hh) (st.pa / 64 * 64 + 4 * w) 4)) else none)
  let s := (s.writeSide t st (.paddock core x.idx x.j)).stretchPut st bs
  let s := (upto x.n).foldl (fun s i =>
    if lw.getLsbD ((x.glob + i) % 64 / 4) then s.putSpad core (x.off + i) [bs.getD i 0] else s) s
  if lw = 0 then s
  else s.modCore core (·.modLine x.idx x.j (fun l =>
    { l with
      dirty := l.dirty ||| lw, pa := some (st.pa / 64), hh := p.hh
      old := was.foldl (fun o e => if l.dirty.getLsbD e.1 then o else Map.put o e.1 e.2) l.old }))

/-- Store a run of bytes to scratchpad: parts in a paddock are paddock stores through the pages `pg` names, the rest are plain. -/
def State.spadStore (s : State) (t core : Nat) (pg : Nat → Option PageInfo) (off : Nat) (bs : List Byte) : State :=
  (lineParts off bs.length).foldl (fun s e =>
    let b := (bs.drop (e.1 - off)).take e.2
    match (s.core core).padAt e.1 with
    | none => s.putSpad core e.1 b
    | some (i, p) =>
      match pg (p.glob + (e.1 - p.spad)) with
      | some g => s.padStore t core ⟨i, p, (e.1 - p.spad) / 64, p.glob + (e.1 - p.spad), e.1, e.2⟩ g b
      | none => s.putSpad core e.1 b) (s.cleanSpad core off bs.length)

/-- The stretches of the global words a scratchpad store reaches. -/
def State.padStretches (s : State) (core : Nat) (pg : Nat → Option PageInfo) (off n : Nat) : List Stretch :=
  ((s.core core).padParts off n).filterMap (fun x => (pg x.glob).map (fun g => ⟨g, x.glob, x.n⟩))

/-- An access in S to a paddock's words reloads the count of a pinned window that holds them (R262). -/
def State.padTouch (s : State) (t core off n : Nat) : State :=
  ((s.core core).padParts off n).foldl (fun s x => match s.xlate t x.glob with | some p => s.pinTouch p.hh (p.pa x.glob) x.n | none => s) s

/-- The class check of a store through a paddock to a class-F page (R112, R120): each word it stores is the first of a cell (notes/assumptions/54.md). -/
def State.padClass (s : State) (t : Nat) (x : PadPart) (p : PageInfo) : Option FInfo :=
  if p.cl = 3 ∧ (s.cellFor t x.n x.glob p).isNone = true then some (.at cFilter x.glob p.rgn) else none

/-- The checks of a store's global side (R120): every page mapped, then writable, then the rules of its class. A store makes no fill, and so meets no
PADDOCK_CONFLICT (R128). -/
def State.padStoreCheck (s : State) (t core off n kind : Nat) : Option FInfo :=
  let xs := (s.core core).padParts off n
  let pg := fun (x : PadPart) => (s.xlate t x.glob).getD PageInfo.none
  firstFault (xs.map (fun x => if (s.xlate t x.glob).isNone then some (.at cTranslation x.glob kind) else none)
    ++ xs.map (fun x => if (pg x).w then none else some (.at cProtection x.glob kind))
    ++ xs.map (fun x => s.padClass t x (pg x)))

/-- A read-modify-write may not reach a class-F page, through a paddock either (R164, R176). -/
def State.padNoCell (s : State) (t core off n : Nat) : Option FInfo :=
  firstFault (((s.core core).padParts off n).map (fun x =>
    let p := (s.xlate t x.glob).getD PageInfo.none
    if p.cl = 3 then some (.at cFilter x.glob p.rgn) else none))

/-- The global pages of the paddock parts of a range, by 64 KiB unit (R120). -/
def State.padPages (s : State) (t core off n : Nat) : Map PageInfo :=
  ((s.core core).padParts off n).foldl (fun m x => Map.put m (x.glob / 65536) ((s.xlate t x.glob).getD PageInfo.none)) []

/-! ### The descriptor (R231) -/

/-- The virtual address of a descriptor. -/
def Tenant.descVa (t : Tenant) (rg : Nat) : Nat := bits t.rtbase.toNat 14 38 * 2 ^ 14 + 64 * rg

/-- A write of the device that is dropped where its page is not mapped. -/
def Eff.dropped (x : Eff Unit) : Eff Unit :=
  match x with
  | .fault _ s => .ok () s
  | y => y

/-- Rewrite TICKNO and SATN of a descriptor; dropped where its page is not mapped. -/
def State.rewriteDesc (s : State) (t rg : Nat) : Eff Unit :=
  match Map.find? (s.ten t).regs rg with
  | none => .ok () s
  | some r =>
    let a := (s.ten t).descVa rg
    let put := fun (a : Nat) (w : Word) (s : State) => ((s.putVa (descReq t rg) t a (leBytes 4 w.toNat)).dropped).keep s
    (put (a + 4) r.tickno s).bind (fun _ s => put (a + 0x14) r.satn s)

/-- AUTO_SATN_REWRITE: the SATN of an AUTO region is rewritten after a saturation changed it. -/
def execAutoSatnRewrite (ten rg : Nat) (s : State) : Out :=
  match Map.find? (s.ten ten).regs rg with
  | some r =>
    if r.satnDue then
      match (s.rewriteDesc ten rg).ends (descReq ten rg) with
      | .ok _ s => .next (s.modRegion ten rg (fun r => { r with satnDue := false }))
      | .wait _ s => .next s
      | .fault _ s => .next s
    else .next s
  | none => .next s

/-! ### Ticks (R167, R238) -/

/-- The ticks waiting at a channel. -/
def State.ticksAt (s : State) (chan : Nat) : List Tick := Map.get [] s.pkg.chanQ chan

/-- The channels that hold a cell of a region (R236). -/
def State.regionChans (s : State) (r : Region) : List Nat :=
  ((upto ((r.ncell * r.csz + 1023) / 1024)).map (fun b => s.chanOf (r.cellPa (b * 1024 / r.csz)))).eraseDups

/-- Has every channel of a region room for a tick (R238)? -/
def State.tickRoom (s : State) (r : Region) : Bool :=
  (s.regionChans r).all (fun c => decide ((s.ticksAt c).length < Config.chanTicks))

/-- SEQUENCE and send a tick to every channel of its region. -/
def State.sequenceTick (s : State) (t rg : Nat) (r : Region) (k iter ev seq : Nat) : State :=
  let n := r.sequenced + 1
  let tk : Tick := ⟨t, rg, n, r.coef, k, iter, ev, seq, false⟩
  let s := s.modRegion t rg (fun r => { r with sequenced := n })
  s.modPkg (fun g => { g with chanQ := (s.regionChans r).foldl (fun m c => Map.put m c (Map.get [] m c ++ [tk])) g.chanQ })

/-- Is a tick still to be swept at another channel? -/
def State.tickLeft (s : State) (tk : Tick) (chan : Nat) : Bool :=
  s.pkg.chanQ.any (fun e => e.1 != chan && e.2.any (fun x => x.ten == tk.ten && x.rg == tk.rg && x.num == tk.num))

/-- The sweep of a tick over the cells of a channel. -/
def State.sweepCells (s : State) (r : Region) (tk : Tick) (chan : Nat) : State :=
  (upto r.ncell).foldl (fun s c =>
    if s.chanOf (r.cellPa c) = chan then
      let (x, n) := tickCell r tk.coef tk.num (s.cell r c)
      (((((s.atBank (r.cellPa c / 64)).setCell r c x).addSat tk.ten tk.rg n).meter tk.ten 11 1)).meterMem tk.ten ⟨PageInfo.none, r.cellPa c, r.csz⟩ true
    else s) s

/-- The sweep of a tick at a channel, one access in S (R223); none where the region is no more. -/
def State.sweep (s : State) (tk : Tick) (chan : Nat) : State :=
  match Map.find? (s.ten tk.ten).regs tk.rg with
  | none => s
  | some r => (s.stampAgent true []).sweepCells r tk chan

/-- After the last channel's sweep: TICKNO and SATN are rewritten, then the event is raised (R167, R231). -/
def State.completeTick (s : State) (tk : Tick) : Eff Unit :=
  (((s.modRegion tk.ten tk.rg (fun r => { r with tickno := tk.num })).rewriteDesc tk.ten tk.rg).ends (descReq tk.ten tk.rg)).bind (fun _ s => .ok () (s.raiseEv tk.k tk.iter tk.ev))

/-- The ticks of a channel become others. -/
def State.setTicks (s : State) (chan : Nat) (l : List Tick) : State := s.modPkg (fun g => { g with chanQ := Map.put g.chanQ chan l })

/-- TICK_SWEEP: a channel applies its oldest sequenced tick to every cell of the region on it, as one access (R223). A frozen stack
holds it (R282). The last channel's sweep completes the tick, once the home of the descriptor takes the rewrite. -/
def execTickSweep (chan : Nat) (s : State) : Out :=
  match s.ticksAt chan with
  | [] => .next s
  | tk :: rest =>
    if !tk.swept && (s.pkg.hotstop || decide (3 ≤ (s.stack (chan / 32)).lvl)) then .next s
    else
      let s := if tk.swept then s else s.sweep tk chan
      if s.tickLeft tk chan then .next (s.setTicks chan rest)
      else
        match s.completeTick tk with
        | .ok _ s => .next (s.setTicks chan rest)
        | .wait _ s => .next (s.setTicks chan ({ tk with swept := true } :: rest))
        | .fault _ s => .next (s.setTicks chan rest)

/-! ### Region commands (R233) -/

/-- The fields of a descriptor from its 64 bytes, if it is valid (ERR 1 otherwise). -/
def parseDesc (bs : List Byte) : Option Region :=
  let w := fun (o : Nat) => leVal ((bs.drop o).take 8)
  let w0 := w 0
  let ord := bit w0 1
  let fp := bit w0 2
  let co : Coef := ⟨BitVec.ofNat 32 (w 0x18), BitVec.ofNat 32 (w 0x18 / 2 ^ 32), BitVec.ofNat 32 (w 0x20),
    BitVec.ofNat 32 (w 0x20 / 2 ^ 32), BitVec.ofNat 32 (w 0x28)⟩
  let fin := fun (c : Word) => bits c.toNat 23 8 != 255
  if bit w0 0 && bits w0 12 20 == 0 && bits (w 8) 52 12 == 0 && bits (w 0x28) 32 32 == 0 && w 0x30 == 0 && w 0x38 == 0
      && decide (1 ≤ bits (w 0x10) 0 32) && decide (bits (w 0x10) 0 32 ≤ 2 ^ 30) && bits (w 8) 0 16 == 0
      && (ord || (co.b2 == 0 && co.a2 == 0))
      && (!fp || (fin co.b0 && fin co.b1 && fin co.b2 && fin co.a1 && fin co.a2)) then
    some { ord := ord, fp := fp, f := bits w0 3 5, rtz := bit w0 8, auto := bit w0 9, mean := bit w0 10, hold := bit w0 11
           base := bits (w 8) 0 52, ncell := bits (w 0x10) 0 32, coef := co, units := [], sequenced := 0, tickno := 0, satn := 0
           retiring := false, satnDue := false }
  else none

/-- The physical 64 KiB unit of a page of the region: of class F, with the region's number, in the HBM of this package. -/
def State.regionUnit (s : State) (t rg va : Nat) : Option Nat :=
  match s.xlate t va with
  | some p =>
    if p.cl = 3 ∧ p.rgn = rg ∧ p.hh = false ∧ p.pa va / 2 ^ 50 % 1024 = s.pkg.pkgid.toNat then some (p.pa va / 65536) else none
  | none => none

/-- The 64 KiB units that cover the cells of a region, by their virtual addresses. -/
def Region.units64 (r : Region) : List Nat := (upto ((r.ncell * r.csz + 65535) / 65536)).map (fun j => r.base + j * 65536)

/-- The units of all pages that cover the cells (ERR 2 otherwise). -/
def State.regionUnits (s : State) (t rg : Nat) (r : Region) : Option (List Nat) := r.units64.mapM (s.regionUnit t rg)

/-- Memory with a range of bytes zero. -/
def memClear (m : List Host.Cell) (a n : Nat) : List Host.Cell := m.filter (fun c => !(decide (a ≤ c.1) && decide (c.1 < a + n)))

/-- Zero every field of every cell, by writes of the device at their channels. -/
def State.zeroCells (s : State) (r : Region) : State :=
  (upto r.units.length).foldl (fun s j =>
    let a := r.units.getD j 0 * 65536
    let n := min 65536 (r.ncell * r.csz - j * 65536)
    let s := (upto ((n + 1023) / 1024)).foldl (fun s b => s.atBank (a / 64 + 16 * b)) (s.settleRange false a n true true .agent)
    { s with mem := memClear s.mem a n }) (s.stampAgent true [])

/-- What zeroing the cells of some units still waits for: a frozen stack, or a copy of the host, which is invalidated first (R282, R325); none when it may go. -/
def State.zeroWaits (s : State) (who t : Nat) (us : List Nat) : Option State :=
  if us.any (fun u => s.frozenAt (u * 65536)) then some s
  else
    match List.find? (fun e => us.contains (e.1 / 1024)) s.pkg.hostLines with
    | none => none
    | some e =>
      match Map.find? s.reqs who with
      | none => some (s.asked who t (.backInv e.1 true) [] [] (64 * e.1) false (.read 0))
      | some r => some (if r.answered || r.timedOut then { s with reqs := Map.del s.reqs who } else s)

/-- Does a merge group target a region (R265)? -/
def State.regionTargeted (s : State) (t rg : Nat) : Bool :=
  (s.ten t).groups.any (fun e => e.2.set && e.2.tgt && e.2.target == rg)

/-- A region command fails or succeeds with an outcome; BUSY stays until REGION_COMMAND_DONE. -/
def State.rgDone (s : State) (t err : Nat) : State := s.modTen t (fun x => { x with rgErr := err, rgCmd := 0 })

/-- Is region command `op` (1 REGISTER, 2 COEF, 3 RETIRE) of a region in progress? -/
def State.rgPending (s : State) (t op rg : Nat) : Bool := (s.ten t).rgBusy && (s.ten t).rgCmd == op && (s.ten t).rgLrg == rg

/-- A write of RGCMD (R232): LOST while BUSY; else accepted, and RETIRE of a region that no merge group targets then stops the sequencer at once (R233). -/
def State.writeRgcmd (s : State) (t : Nat) (v : DWord) : State :=
  let op := bits v.toNat 8 2
  let rg := bits v.toNat 0 8
  if op = 3 then s
  else if (s.ten t).rgBusy then s.modTen t (fun x => { x with rgLost := true })
  else
    let s := s.modTen t (fun x => { x with rgBusy := true, rgLost := false, rgLrg := rg, rgCmd := op + 1 })
    if op = 2 ∧ s.regionTargeted t rg = false then s.modRegion t rg (fun r => { r with retiring := true }) else s

/-- What a region command reads or writes of its descriptor: it waits for the descriptor's home, and a fault is ERR 1. -/
def rgRead {α : Type} (x : Eff α) (ten rg : Nat) (s0 : State) (f : α → State → Out) : Out :=
  match x with
  | .ok a s => f a s
  | .wait _ s => .next (s0.waiting s)
  | .fault _ s => .next ({ s with reqs := Map.del s.reqs (descReq ten rg) }.rgDone ten 1)

/-- The requester of the zeroing of a region's cells. -/
def zeroReq (t rg : Nat) : Nat := descReq t rg + 2 ^ 13

/-- REGION_REGISTER (R233). Pages that mismatch are found before a region that is registered already (notes/assumptions/62.md). -/
def execRegionRegister (ten rg : Nat) (s0 : State) : Out :=
  if !s0.rgPending ten 1 rg then .next s0
  else
    rgRead ((s0.getVa (descReq ten rg) ten ((s0.ten ten).descVa rg) 64).keep s0) ten rg s0 (fun bs s =>
      let fin := fun (s : State) (err : Nat) => Host.Outcome.next (({ s with reqs := Map.del s.reqs (descReq ten rg) } : State).rgDone ten err)
      match parseDesc bs with
      | none => fin s 1
      | some r =>
        match ((s.walks (descReq ten rg) ten r.units64).patient).endWalk (descReq ten rg) with
        | .wait _ s => .next (s0.waiting s)
        | .fault _ s => fin s 2
        | .ok _ s =>
        match s.regionUnits ten rg r with
        | none => fin s 2
        | some us =>
          if (Map.find? (s.ten ten).regs rg).isSome then fin s 3
          else
            let r := { r with units := us }
            match s.zeroWaits (zeroReq ten rg) ten us with
            | some s => .next (s0.waiting s)
            | none =>
            rgRead ((((s.zeroCells r).modTen ten (fun x => { x with regs := Map.put x.regs rg r })).rewriteDesc ten rg).ends (descReq ten rg)) ten rg s0 (fun _ s =>
              .next (s.rgDone ten 0)))

/-- REGION_COEF (R233): only B0 to A2 are read. -/
def execRegionCoef (ten rg : Nat) (s0 : State) : Out :=
  if !s0.rgPending ten 2 rg then .next s0
  else
    match Map.find? (s0.ten ten).regs rg with
    | none => .next (s0.rgDone ten 4)
    | some r =>
      rgRead (s0.getVa (descReq ten rg) ten ((s0.ten ten).descVa rg + 0x18) 20) ten rg s0 (fun bs s =>
        let w := fun (o : Nat) => (BitVec.ofNat 32 (leVal ((bs.drop o).take 4)) : Word)
        let co : Coef := ⟨w 0, w 4, w 8, w 12, w 16⟩
        let fin := fun (c : Word) => bits c.toNat 23 8 != 255
        if (r.ord || (co.b2 == 0 && co.a2 == 0)) && (!r.fp || (fin co.b0 && fin co.b1 && fin co.b2 && fin co.a1 && fin co.a2)) then
          .next ((s.modRegion ten rg (fun r => { r with coef := co })).rgDone ten 0)
        else .next (s.rgDone ten 1))

/-- Clear VLD of a descriptor. -/
def State.clearVld (s : State) (t rg : Nat) : Eff Unit :=
  let a := (s.ten t).descVa rg
  (((s.getVa (descReq t rg) t a 1).keep s).bind (fun bs s => s.putVa (descReq t rg) t a [(bs.headD 0) &&& 0xFE])).dropped

/-- Is something sequenced or held for a region not complete? -/
def State.regionBusy (s : State) (ten rg : Nat) : Bool :=
  s.pkg.chanQ.any (fun e => e.2.any (fun x => x.ten == ten && x.rg == rg)) || s.pkg.samples.any (fun e => e.1 == ten && e.2.1 == rg)
    || s.parts.any (fun e => s.tenOf (coreOf e.1) == ten && e.2.flight.any (fun f => f.2.pages.any (fun p => p.cl == 3 && p.rgn == rg)))

/-- REGION_RETIRE (R233): no further tick is sequenced; once every sequenced tick has completed, VLD is cleared and the region is no more; an
AUTO region's SATN is rewritten once more (R231). One that a merge group targeted as the command was accepted fails. -/
def execRegionRetire (ten rg : Nat) (s : State) : Out :=
  if !s.rgPending ten 3 rg then .next s
  else
    match Map.find? (s.ten ten).regs rg with
    | none => .next (s.rgDone ten 4)
    | some r =>
      if !r.retiring then .next (s.rgDone ten 3)
      else if s.regionBusy ten rg then .next s
      else
        rgRead (((if r.auto then s.rewriteDesc ten rg else .ok () s).bind (fun _ s => s.clearVld ten rg)).ends (descReq ten rg)) ten rg s (fun _ s =>
          .next ((s.modTen ten (fun x => { x with regs := Map.del x.regs rg })).rgDone ten 0))

/-- REGION_COMMAND_DONE: BUSY clears once the command has taken effect (R232). -/
def execRegionCommandDone (ten : Nat) (s : State) : Out :=
  if (s.ten ten).rgBusy && (s.ten ten).rgCmd == 0 then .next (s.modTen ten (fun x => { x with rgBusy := false })) else .next s

end Sys2Proof.Machine
end

