-- ==== Sys2Proof/Machine/Access.lean ====
section
/-! DEFINITION. The access unit A (R111 to R134): loads, store addresses, handles, streams, paddocks, full/empty control, tokens,
address arithmetic and control registers. -/
namespace Sys2Proof.Machine

/-! ### Checks of R112 -/

/-- The tenant whose strand is in execution. -/
def State.cten (s : State) : Nat := s.tenOf (coreOf s.ctx.k)

/-- The bytes of an access on a page: on class F, those of the cells it names. -/
def State.spanOf (s : State) (t : Nat) (p : PageInfo) (sz : Size) : Nat :=
  match s.regionOf t p, szCells sz with
  | some r, some n => n * r.csz
  | _, _ => szBytes sz

/-- Steps 2 to 6 of R112 for one address, in order. An access to a class-F page whose region is not registered has no cell size:
its first byte must lie on the page. -/
def State.accessCheck (s : State) (k : Nat) (h : Nat) (p : PageInfo) (sz : Size) (tap : Nat) (store sys : Bool) (ea : Nat) : Option FInfo :=
  let t := s.tenOf (coreOf k)
  let n := szBytes sz
  let when_ := fun (b : Bool) (f : FInfo) => if b then some f else none
  let scope := when_ (sys && !s.sysOk t) (.of cScope 6)
  if p.ps = 3 then
    firstFault [when_ (!inSpad (isU k) ea n) (.at cHandleRange ea h), when_ (ea % szAlign sz != 0) (.at cMisaligned ea 0),
      if store then s.padStoreCheck t (coreOf k) ea n 1
      else firstFault ((((s.core (coreOf k)).padParts ea n).filter PadPart.needsFill).map (s.fillCheck t)),
      when_ (tap != 0) (.at cFilter ea 0xFFFF), scope]
  else if p.cl = 3 then
    let bad : FInfo := .at cFilter ea p.rgn
    match s.regionOf t p with
    | none => firstFault [when_ (!p.has ea 1) (.at cHandleRange ea h), when_ (store && !p.w) (.at cProtection ea 1), some bad]
    | some r =>
      firstFault [when_ (!p.has ea (s.spanOf t p sz)) (.at cHandleRange ea h),
        when_ ((szCells sz).isNone || (ea % r.csz != 0)) bad, when_ (store && !p.w) (.at cProtection ea 1),
        when_ (!tapOk r tap || (r.cellAt ea).isNone || (r.cellAt (ea + s.spanOf t p sz - r.csz)).isNone) bad, scope]
  else
    firstFault [when_ (!p.has ea n) (.at cHandleRange ea h), when_ (ea % szAlign sz != 0) (.at cMisaligned ea 0),
      when_ (store && !p.w) (.at cProtection ea 1), when_ (tap != 0) (.at cFilter ea 0xFFFF), scope]

/-- The checks of every lane: the lowest failing lane decides. -/
def State.lanesCheck (s : State) (k h : Nat) (p : PageInfo) (sz : Size) (tap : Nat) (store sys : Bool) (eas : List Nat) : Option FInfo :=
  firstFault ((upto eas.length).map (fun i =>
    (s.accessCheck k h p sz tap store sys (eas.getD i 0)).map (fun f => { f with lane := i })))

/-! ### Performing a load -/

/-- Has an access of unit u begun, so that its checks are made? -/
def State.begun (s : State) (k u : Nat) : Bool := (Map.find? (s.part k).flight u).isSome

/-- The table reads that an access through h0 needs for the paddocks in its ranges, before its checks (R120, R128, R339). -/
def State.h0Walks (s : State) (k u : Nat) (p : PageInfo) (xs : List (Nat × Nat)) : Eff Unit :=
  if p.ps != 3 || s.begun k u then .ok () s
  else xs.foldl (fun r x => r.bind (fun _ s => s.padWalks (k * 8 + u) (s.tenOf (coreOf k)) (coreOf k) x.1 x.2)) (.ok () s)

/-- A piece of a read: its lane, address and bytes. -/
abbrev Piece := Nat × Nat × Nat

/-- The pieces of memory in which an access is cut (R215): a granule of scratchpad, a block of a filter channel (R236), a line. -/
def PageInfo.unit (p : PageInfo) : Nat := if p.ps = 3 then 16 else if p.cl = 3 then 1024 else 64

/-- The unit of memory at an address, in which an access is indivisible (R215): a granule of scratchpad, or the global line of a paddock; a filter channel; a
line. -/
def State.unitAt (s : State) (k : Nat) (p : PageInfo) (a : Nat) : Nat :=
  if p.ps = 3 then
    match (s.core (coreOf k)).padAt a with
    | some (_, q) => 2 * ((q.glob + (a - q.spad)) / 64) + 1
    | none => 2 * (a / 16)
  else if p.cl = 3 then s.chanOf (p.pa a)
  else a / 64

/-- Things by their unit, in the order of its first (R118, R215). -/
def groupBy {α : Type} (unit : α → Nat) (xs : List α) : List (List α) :=
  ((xs.map unit).eraseDups).map (fun g => xs.filter (fun x => unit x == g))

/-- The indivisible accesses of a read in pieces. -/
def State.groupPieces (s : State) (k : Nat) (p : PageInfo) (xs : List Piece) : List (List Piece) := groupBy (fun x => s.unitAt k p x.2.1) xs

/-- The lane in which a place was accessed. -/
def laneOf (xs : List Piece) (a : Nat) : Nat :=
  match xs.find? (fun x => decide (x.2.1 ≤ a) && decide (a < x.2.1 + x.2.2)) with
  | some x => x.1
  | none => 0

/-- A fault at a place names its lane. -/
def Eff.laneBy {α : Type} (x : Eff α) (xs : List Piece) : Eff α :=
  match x with
  | .fault f s => .fault { f with lane := laneOf xs f.addr } s
  | y => y

/-- Everything a read needs before it is performed: fills of the paddock lines it touches, or the exchange with its home. -/
def State.prepareRead (s : State) (who k : Nat) (p : PageInfo) (na : Bool) (xs : List Piece) : Eff Unit :=
  let t := s.tenOf (coreOf k)
  if p.ps = 3 then
    xs.foldl (fun r x => r.bind (fun _ s => (s.padFill who t (coreOf k) x.2.1 x.2.2).lane x.1)) (.ok () s)
  else (s.gate who t (xs.map (fun x => ⟨p, x.2.1, x.2.2⟩)) [] na).eff.laneBy xs

/-- The bytes a prepared read returns for a piece: on class F those of the tap of each cell. -/
def State.loadBytes (s : State) (k : Nat) (p : PageInfo) (tap a n : Nat) : List Byte :=
  if p.ps = 3 then s.bytesAt (.spad (coreOf k)) a n
  else
    match s.regionOf (s.tenOf (coreOf k)) p with
    | some r =>
      ((upto (n / r.csz)).map (fun i =>
        match r.cellAt (a + i * r.csz) with
        | some c => leBytes 4 ((s.cell r c).tap tap).toNat
        | none => leBytes 4 0)).flatten
    | none => if p.hh then (upto n).map (fun i => s.hostByte k (p.pa a + i)) else s.bytesAt .dev (p.pa a) n

/-- What a read of a piece does besides returning its bytes. -/
def State.loadSide (s : State) (k : Nat) (p : PageInfo) (na : Bool) (a n : Nat) : State :=
  let t := s.tenOf (coreOf k)
  if p.ps = 3 then s.padTouch t (coreOf k) a n
  else
    let x : Stretch := ⟨p, a, n⟩
    ((s.readSide t x (.strand (coreOf k))).leaseL1 k t x false na).usedUp k p.hh x.pa n

/-- One indivisible read at its place in S: the bytes of its pieces. -/
def State.readPieces (s : State) (who k : Nat) (p : PageInfo) (tap : Nat) (na : Bool) (xs : List Piece) : Eff (List Byte) :=
  (s.prepareRead who k p na xs).bind (fun _ s =>
    let s := s.stampLoad k (if p.ps = 3 then [] else xs.map (fun x => ⟨p, x.2.1, x.2.2⟩))
    .ok ((xs.map (fun x => s.loadBytes k p tap x.2.1 x.2.2)).flatten) (xs.foldl (fun s x => s.loadSide k p na x.2.1 x.2.2) s))

/-- The next part of an access of unit u that is performed in parts, one in a step, and what follows its last. -/
def nextPart (k u : Nat) (pages : List PageInfo) (xs : List Stretch) (total : Nat) (part : Nat → State → Eff (List Byte))
    (fin : List Byte → State → Res) (s : State) : Res :=
  let t := s.tenOf (coreOf k)
  let f := Map.get ⟨pages, 0, []⟩ (s.part k).flight u
  match part f.done s with
  | .wait w s => (Res.wait w s).fly k u t f xs
  | .fault i s => .fault i s
  | .ok bs s =>
    if total ≤ f.done + 1 then fin (f.data ++ bs) s
    else .wait 7 (s.modPart k (fun p => { p with flight := Map.put p.flight u ⟨pages, f.done + 1, f.data ++ bs⟩ }))

/-- Perform a load whose pieces are these: whole, or in parts; then `fin` gets the bytes of the pieces in the order of `groups`. -/
def loadPieces (k : Nat) (p : PageInfo) (tap : Nat) (na : Bool) (groups : List (List Piece)) (split : Bool) (fin : List Byte → State → Res)
    (s : State) : Res :=
  let xs : List Stretch := if p.ps = 3 then [] else (groups.flatten).map (fun x => ⟨p, x.2.1, x.2.2⟩)
  let gs := if split && s.inParts groups.length then groups else [groups.flatten]
  nextPart k 1 [p] xs gs.length (fun i s => s.readPieces (k * 8 + 1) k p tap na (gs.getD i [])) fin s

/-- Are all granules full that a load with FW names (R114)? -/
def State.fullAt (s : State) (k : Nat) (sz : Size) (eas : List Nat) : Bool :=
  eas.all (fun ea => (s.core (coreOf k)).allFull ea (szBytes sz))

/-- FC: set the granules of a load empty (R22). -/
def State.emptyAt (s : State) (k : Nat) (sz : Size) (eas : List Nat) : State :=
  s.modCore (coreOf k) (fun c => eas.foldl (fun c ea => c.setEmpty ea (szBytes sz)) c)

/-- The groups of the pieces of an LD: one for each unit of memory it touches, in address order; where a unit comes twice, all at once. -/
def State.ldGroups (s : State) (k : Nat) (p : PageInfo) (a n : Nat) : List (List Piece) :=
  let xs : List Piece := (cutAt p.unit a n).map (fun e => (0, e.1, e.2))
  let gs := s.groupPieces k p xs
  if gs.flatten = xs then gs else [xs]

/-- LD (R114): the checks of R112, the waits, the read at its place in S, then the delivery. A load performed ahead of its turn (R226) only delivers. -/
def ldBody (o : LdArgs) (s : State) : Res :=
  let k := s.ctx.k
  let ea := fun (base : Nat) => eaOf base ((s.part k).rdAo o.ix) o.sh.val o.off
  match Map.find? (s.part k).early s.ctx.seq with
  | some bs =>
    if !(s.part k).roomA o.dst then .wait 2 s
    else .done (s.modPart k (fun p => { p.deliver o.dst (vecOfBytes bs) with early := Map.del p.early s.ctx.seq }))
  | none =>
    ((s.pageOf k 1 o.h 0 ea).run (fun pg s =>
      let a := ea pg.vbase
      let n := s.spanOf s.cten pg o.sz
      (s.h0Walks k 1 pg [(a, n)]).run (fun _ s =>
      match (if s.begun k 1 then none else s.accessCheck k o.h.val pg o.sz o.tap.val false o.sys a) with
      | some f => .fault f s
      | none =>
        if !(s.part k).roomA o.dst then .wait 2 s
        else if !s.mayPlain k 1 s.ctx.seq o.sys (pg, [(a, n)]) then .wait 7 s
        else if o.fw && !s.begun k 1 && !s.fullAt k o.sz [a] then .wait 1 s
        else
          let s := if o.sys || o.fw then s.forget k else s
          loadPieces k pg o.tap.val o.na (s.ldGroups k pg a n) (!o.fc) (fun bs s =>
            let s := if o.fc then s.emptyAt k o.sz [a] else s
            .done (s.modPart k (·.deliver o.dst (vecOfBytes bs)))) s))).endWalk (k * 8 + 1)

/-- LD. -/
def execLd (o : LdArgs) (s : State) : Out := routed 1 (.ld o) o.tk (ldBody o) s

/-- The lanes of a gather from the bytes of its pieces, which stand in the order of the groups. -/
def lanesFrom (groups : List (List Piece)) (w : Nat) (bs : List Byte) : Vec :=
  let order := (groups.flatten).map (·.1)
  mkVec (fun i => BitVec.ofNat 32 (leVal ((bs.drop (w * order.idxOf i)).take w)))

/-- LDX (R118): 64 lane reads in ascending order; xa is popped only when every lane passes. -/
def ldxBody (o : LdArgs) (s : State) : Res :=
  let k := s.ctx.k
  match (s.part k).xa with
  | [] => .wait 2 s
  | v :: _ =>
    ((s.pageOf k 1 o.h 0 (fun base => eaOf base ((lane v 0).signExtend 64) o.sh.val o.off)).run (fun pg s =>
      let eas := laneEas pg.vbase v o.sh.val o.off
      (s.h0Walks k 1 pg (eas.map (fun a => (a, szBytes o.sz)))).run (fun _ s =>
      match (if s.begun k 1 then none else s.lanesCheck k o.h.val pg o.sz o.tap.val false o.sys eas) with
      | some f => .fault f s
      | none =>
        let n := s.spanOf s.cten pg o.sz
        let groups := s.groupPieces k pg ((upto 64).map (fun i => (i, eas.getD i 0, n)))
        if !(s.part k).roomA o.dst then .wait 2 s
        else if !s.mayPlain k 1 s.ctx.seq o.sys (pg, eas.map (fun a => (a, n))) then .wait 7 s
        else if o.fw && !s.begun k 1 && !s.fullAt k o.sz eas then .wait 1 s
        else
          let s := if o.sys || o.fw then s.forget k else s
          loadPieces k pg o.tap.val o.na groups (!o.fc) (fun bs s =>
            let s := if o.fc then s.emptyAt k o.sz eas else s
            .done (s.modPart k (fun p => { p.deliver o.dst (lanesFrom groups (if pg.cl = 3 ∧ pg.ps ≠ 3 then 4 else szBytes o.sz) bs) with xa := p.xa.drop 1 }))) s))).endWalk (k * 8 + 1)

/-- LDX. -/
def execLdx (o : LdArgs) (s : State) : Out := routed 1 (.ldx o) o.tk (ldxBody o) s

/-! ### Loads ahead of their turn (R116, R226, R333) -/

/-- A waiting LD of A may be performed ahead of its turn: it is plain, what waits before it in A are plain loads that R226 leaves free to it, S leaves it
free, and its checks pass. -/
def State.mayEarly (s : State) (k : Nat) (r : Routed) : Bool :=
  match r.instr, s.loadSpan k r with
  | .ld o, some (p, [(a, n)]) =>
    p.ps != 3 && (Map.find? (s.part k).early r.seq).isNone
      && s.passes k 1 r.seq (p, [(a, n)]) && s.mayPlain k 1 r.seq false (p, [(a, n)])
      && (s.accessCheck k o.h.val p o.sz o.tap.val false false a).isNone
  | _, _ => false

/-- Perform it: its bytes stand ready for its delivery. An exchange it needs is opened beside those of A. -/
def State.earlyLoad (s : State) (k j : Nat) : State :=
  match (s.part k).pendA[j]? with
  | none => s
  | some r =>
    if !s.mayEarly k r || (s.part k).frozen then s
    else
      match r.instr, s.loadSpan k r with
      | .ld o, some (p, [(a, n)]) =>
        (match s.readPieces (k * 8 + 2) k p o.tap.val o.na [(0, a, n)] with
          | .ok bs s => s.modPart k (fun x => { x with early := Map.put x.early r.seq bs })
          | .wait _ s => s
          | .fault _ s => s)
      | _, _ => s

/-- A running copy reads a line of host memory that a plain load may ask for later: such a load may be performed before anything that does not hold it by one
of the means of R226, also before the instruction is routed (R333). While a FENCE.sys is placed nothing is read ahead. -/
def State.readAhead (s : State) (k va : Nat) : State :=
  let t := s.tenOf (coreOf k)
  let p := s.part k
  if !p.inIter || p.frozen || p.fences.any (fun f => f.sc == .sys && !s.fenceDone k f) then s
  else
    match s.walk1 (aheadReq k) t va with
    | .wait _ s => s
    | .fault _ s => s.endReqs (aheadReq k)
    | .done s =>
      match s.xlate t va with
      | none => s.endReqs (aheadReq k)
      | some g =>
        let x : Stretch := ⟨g, va / 64 * 64, 64⟩
        if !g.hh || g.cl == 3 then s.endReqs (aheadReq k)
        else
          match s.gate (aheadReq k) t [x] [] with
          | .wait _ s => s
          | .fault _ s => s.endReqs (aheadReq k)
          | .done s =>
            let s := (s.endReqs (aheadReq k)).stamp k false []
            (s.loadSide k g false x.va 64).modPart k (fun p => { p with ahead := Map.put p.ahead (x.pa / 64) (s.bytesAt .host x.pa 64) })

/-! ### Streams (R124 to R126) -/

/-- The stretches of a virtual range, or the first byte that is not mapped. -/
def State.mapRange (s : State) (t : Nat) : Nat → Nat → Nat → Except Nat (List Stretch)
  | 0, va, n => if n = 0 then .ok [] else .error va
  | fuel + 1, va, n =>
    if n = 0 then .ok []
    else
      match s.xlate t va with
      | none => .error va
      | some p =>
        let m := min n (p.vbase + pageBytes p.ps - va)
        match s.mapRange t fuel (va + m) (n - m) with
        | .error a => .error a
        | .ok r => .ok (⟨p, va, m⟩ :: r)

/-- The class checks of an element of a stream: on class F only one .w of a cell, read as tap Y (R125). -/
def State.streamCheck (s : State) (t : Nat) (sz : Size) (va : Nat) (xs : List Stretch) : Option FInfo :=
  match xs.find? (fun x => x.page.cl == 3) with
  | none => none
  | some x =>
    match s.regionOf t x.page with
    | some r => if sz == .w && (r.cellAt va).isSome then none else some (.at cFilter va x.page.rgn)
    | none => some (.at cFilter va x.page.rgn)

/-- The stretches of a stream's element: those of its access in flight (R12), else by the stream's own translation. -/
def State.streamRange (s : State) (k t va n : Nat) : Except Nat (List Stretch) :=
  match Map.find? (s.part k).flight 1 with
  | some f =>
    match f.pages with
    | [p, q] => .ok [⟨p, va, p.vbase + pageBytes p.ps - va⟩, ⟨q, q.vbase, n - (p.vbase + pageBytes p.ps - va)⟩]
    | ps => .ok [⟨ps.headD PageInfo.none, va, n⟩]
  | none => s.mapRange t 2 va n

/-- One indivisible read of part of a stream's element. -/
def State.readStretches (s : State) (who k : Nat) (xs : List Stretch) : Eff (List Byte) :=
  let t := s.tenOf (coreOf k)
  (s.gate who t xs []).eff.bind (fun _ s =>
    let s := s.stampLoad k xs
    .ok ((xs.map (fun x => s.loadBytes k x.page 0 x.va x.n)).flatten) (xs.foldl (fun s x => s.loadSide k x.page false x.va x.n) s))

/-- The indivisible parts of the stretches of an element. -/
def lineStretches (xs : List Stretch) : List (List Stretch) :=
  (xs.map (fun x => (cutAt x.page.unit x.va x.n).map (fun e => [⟨x.page, e.1, e.2⟩]))).flatten

/-- The stretches of an element on its pages: a cell on class F. -/
def State.elemStretches (s : State) (t : Nat) (xs : List Stretch) : List Stretch :=
  xs.map (fun x => match s.regionOf t x.page with | some r => { x with n := r.csz } | none => x)

/-- May the element of a stream be read now: as a plain load, where it lies on one page. -/
def State.mayElem (s : State) (k : Nat) (xs : List Stretch) : Bool :=
  match xs with
  | [x] => s.mayPlain k 1 s.ctx.seq false (x.page, [(x.va, x.n)])
  | _ => s.mayAccess k 1 s.ctx.seq

/-- LDS (R125): the stream advances only when the element is delivered. -/
def ldsBody (dst : ADst) (sn : Fin 8) (s : State) : Res :=
  let k := s.ctx.k
  let t := s.cten
  let st := (s.part k).rdStrm sn.val
  if !st.bnd || st.left == 0 then .fault (.of cQueue 1) s
  else if st.esz.isVec && dst.scalar then .fault (.of cQueue 1) s
  else
    ((if s.begun k 1 then .ok () s else s.walks (k * 8 + 1) t (walkVas st.addr.toNat (szBytes st.esz)) : Eff Unit).run (fun _ s =>
    match s.streamRange k t st.addr.toNat (szBytes st.esz) with
    | .error va => .fault (.at cTranslation va 0) s
    | .ok xs =>
      match s.streamCheck t st.esz st.addr.toNat xs with
      | some f => .fault f s
      | none =>
        if !(s.part k).roomA dst then .wait 2 s
        else if !s.mayElem k xs then .wait 7 s
        else
          let xs := s.elemStretches t xs
          let gs := if s.inParts (lineStretches xs).length then lineStretches xs else [xs]
          nextPart k 1 (xs.map (·.page)) xs gs.length (fun i s => s.readStretches (k * 8 + 1) k (gs.getD i []))
            (fun bs s =>
              .done (s.modPart k (fun p =>
                (p.deliver dst (vecOfBytes bs)).wrStrm sn.val
                  { st with addr := st.addr + st.stride.signExtend 52, left := st.left - 1 }))) s)).endWalk (k * 8 + 1)

/-- LDS. -/
def execLds (tk : Tk) (dst : ADst) (sn : Fin 8) (s : State) : Out := routed 1 (.lds tk dst sn) tk (ldsBody dst sn) s

/-- A count, immediate or in an address register. -/
def Part.count (p : Part) : Cnt → Word
  | .imm v => v.setWidth 32
  | .reg r => (p.rdA r.val).setWidth 32

/-- SBIND (R124). -/
def sbindBody (sn : Fin 8) (ra : Fin 16) (rs : Option (Fin 16)) (cnt : Cnt) (sz : Size) (s : State) : Res :=
  let k := s.ctx.k
  let p := s.part k
  let addr : VAddr := (p.rdA ra.val).setWidth 52
  let stride : Word := match rs with
    | some r => (p.rdA r.val).setWidth 32
    | none => BitVec.ofNat 32 (szBytes sz)
  if addr.toNat % szAlign sz ≠ 0 ∨ stride.toNat % szAlign sz ≠ 0 then .fault (.at cMisaligned addr.toNat 0) s
  else .done (s.setPart k (p.wrStrm sn.val ⟨true, addr, stride, p.count cnt, sz⟩))

/-- SBIND. -/
def execSbind (tk : Tk) (sn : Fin 8) (ra : Fin 16) (rs : Option (Fin 16)) (cnt : Cnt) (sz : Size) (s : State) : Out :=
  routed 1 (.sbind tk sn ra rs cnt sz) tk (sbindBody sn ra rs cnt sz) s

/-- SSKIP (R126): advance by min(n, LEFT) elements. -/
def sskipBody (sn : Fin 8) (cnt : Cnt) (s : State) : Res :=
  let k := s.ctx.k
  let p := s.part k
  let st := p.rdStrm sn.val
  if !st.bnd then .fault (.of cQueue 1) s
  else
    let j : Word := if (p.count cnt).toNat ≤ st.left.toNat then p.count cnt else st.left
    .done (s.setPart k (p.wrStrm sn.val { st with addr := st.addr + j.setWidth 52 * st.stride.signExtend 52, left := st.left - j }))

/-- SSKIP. -/
def execSskip (tk : Tk) (sn : Fin 8) (cnt : Cnt) (s : State) : Out := routed 1 (.sskip tk sn cnt) tk (sskipBody sn cnt) s

/-- SFREE (R126): unbound, with every field zero. -/
def sfreeBody (sn : Fin 8) (s : State) : Res := .done (s.modPart s.ctx.k (·.wrStrm sn.val Strm.unbound))

/-- SFREE. -/
def execSfree (tk : Tk) (sn : Fin 8) (s : State) : Out := routed 1 (.sfree tk sn) tk (sfreeBody sn) s

/-! ### Store addresses (R119, R120) -/

/-- SA: the checks, then one plain entry of aq. -/
def saBody (o : SaArgs) (s : State) : Res :=
  let k := s.ctx.k
  let ea := fun (base : Nat) => eaOf base ((s.part k).rdAo o.ix) o.sh.val o.off
  ((useHandle k o.h 1 ea s).run (fun pg s =>
    let a := ea pg.vbase
    (s.h0Walks k 1 pg [(a, szBytes o.sz)]).run (fun _ s =>
    match s.accessCheck k o.h.val pg o.sz 0 true o.sys a with
    | some f => .fault f s
    | none =>
      if 64 ≤ (s.part k).aq.length then .wait 2 s
      else
        let g := if pg.ps = 3 then s.padPages s.cten (coreOf k) a (szBytes o.sz) else []
        .done (s.modPart k (fun p => { p with aq := p.aq ++ [⟨false, [a], o.h, pg, g, o.sz, o.na, o.sys⟩] }))))).endWalk (k * 8 + 1)

/-- SA. -/
def execSa (o : SaArgs) (s : State) : Out := routed 1 (.sa o) o.tk (saBody o) s

/-- SAX: one scatter entry of the 64 lane addresses; xa is popped only when every lane passes. -/
def saxBody (o : SaArgs) (s : State) : Res :=
  let k := s.ctx.k
  match (s.part k).xa with
  | [] => .wait 2 s
  | v :: _ =>
    ((useHandle k o.h 1 (fun base => eaOf base ((lane v 0).signExtend 64) o.sh.val o.off) s).run (fun pg s =>
      let eas := laneEas pg.vbase v o.sh.val o.off
      (s.h0Walks k 1 pg (eas.map (fun a => (a, szBytes o.sz)))).run (fun _ s =>
      match s.lanesCheck k o.h.val pg o.sz 0 true o.sys eas with
      | some f => .fault f s
      | none =>
        if 64 ≤ (s.part k).aq.length then .wait 2 s
        else
          let g := if pg.ps = 3 then
              eas.foldl (fun m a => (s.padPages s.cten (coreOf k) a (szBytes o.sz)).foldl (fun m e => Map.put m e.1 e.2) m) []
            else []
          .done (s.modPart k (fun p => { p with aq := p.aq ++ [⟨true, eas, o.h, pg, g, o.sz, o.na, o.sys⟩], xa := p.xa.drop 1 }))))).endWalk (k * 8 + 1)

/-- SAX. -/
def execSax (o : SaArgs) (s : State) : Out := routed 1 (.sax o) o.tk (saxBody o) s

/-! ### Prefetch (R121) -/

/-- One line of a paddock is filled for a prefetch, once its home has it; not while its range is being reclassed (R260). -/
def State.prefetchPad (s : State) (k : Nat) (x : PadPart) : Eff Unit :=
  let t := s.tenOf (coreOf k)
  match s.xlate t x.glob with
  | none => .ok () s
  | some p =>
    let y := { x.lineStretch p with page := { p with ps := 3 } }
    if s.heldBack t (x.lineStretch p) then .wait 7 s
    else ((s.gate (pftReq k) t [y] [] (pad := true)).eff.keep s).bind (fun _ s => .ok () (s.fillLine t (coreOf k) x p true))

/-- A prefetch of a range: through h0 it fills the absent paddock lines it covers; else it leaves copies in the L1D (R121). -/
def State.prefetch (s : State) (k : Nat) (p : PageInfo) (a n : Nat) : Eff Unit :=
  let t := s.tenOf (coreOf k)
  if p.ps = 3 then
    ((s.padWalks (pftReq k) t (coreOf k) a n).bind (fun _ s =>
      let xs := (((s.core (coreOf k)).padParts a n).filter (fun x => !(x.pad.line x.j).present)).filter (fun x => (s.fillCheck t x).isNone)
      xs.foldl (fun (r : Eff Unit) x => r.bind (fun _ s => s.prefetchPad k x)) (.ok () s))).ends (pftReq k)
  else
    let x : Stretch := ⟨{ p with ps := 3 }, a, n⟩
    if s.heldBack t ⟨p, a, n⟩ then .wait 7 s
    else (s.gate (pftReq k) t [x] []).eff.bind (fun _ s =>
      .ok () ((s.prefetchSide t x (.strand (coreOf k))).leaseL1 k t x false false))

/-- A prefetch goes as far as it can: what waits for a home goes on beside A, and one that cannot be made is dropped. -/
def State.startPft (s : State) (k : Nat) (p : PageInfo) (a n : Nat) : State :=
  match s.prefetch k p a n with
  | .ok _ s => s
  | .wait _ s => s.modPart k (fun x => { x with pfts := x.pfts ++ [(p, a, n)] })
  | .fault _ s => s.endReqs (pftReq k)

/-- The oldest prefetch of a copy goes on. -/
def State.goOnPft (s : State) (k : Nat) : State :=
  match (s.part k).pfts with
  | [] => s
  | (p, a, n) :: rest =>
    match s.prefetch k p a n with
    | .ok _ s => s.modPart k (fun x => { x with pfts := rest })
    | .wait _ s => s
    | .fault _ s => (s.modPart k (fun x => { x with pfts := rest })).endReqs (pftReq k)

/-- A stream reads its element i places on ahead of the LDS that takes it, as a prefetch (R121, R125). It is dropped where its page is not mapped, or of class U or F;
what is dropped for a page is not made up for (R319). -/
def State.readStream (s : State) (k sn i : Nat) : State :=
  let p := s.part k
  let x := p.rdStrm sn
  let a := wrap 52 ((x.addr.toNat : Int) + i * sext 32 x.stride.toNat)
  let n := szBytes x.esz
  if !p.inIter || p.frozen || !x.bnd || decide (x.left.toNat ≤ i) || a % szAlign x.esz != 0 then s
  else
    match s.xlate (s.tenOf (coreOf k)) a with
    | none => s
    | some g => if !g.has a n || decide (2 ≤ g.cl) then s else s.modPart k (fun p => { p with pfts := p.pfts ++ [(g, a, n)] })

/-- PFT: takes no place in S, never delays A and never faults. Dropped where its handle is not VALID, its range or alignment fails, or its page is
of class U or F. -/
def pftBody (o : PftArgs) (s : State) : Res :=
  let k := s.ctx.k
  let hd := (s.part k).rdH o.h.val
  let a := eaOf hd.base ((s.part k).rdAo o.ix) o.sh.val o.off
  let n := szBytes o.sz
  if hd.st ≠ .valid ∨ a % szAlign o.sz ≠ 0 then .done s
  else if (if o.h.val = 0 then !inSpad (isU k) a n else !hd.page.has a n || decide (2 ≤ hd.page.cl)) then .done s
  else if (s.part k).pfts.isEmpty then .done (s.startPft k hd.page a n)
  else .done (s.modPart k (fun x => { x with pfts := x.pfts ++ [(hd.page, a, n)] }))

/-- PFT. -/
def execPft (o : PftArgs) (s : State) : Out := routed 1 (.pft o) o.tk (pftBody o) s

/-! ### Handles (R122, R123) -/

/-- A handle whose translation of an address starts now. -/
def pendingHandle (va due : Nat) : Handle := ⟨.pending, va, PageInfo.none, due, false⟩

/-- XLT (R122). -/
def xltBody (h : Fin 32) (ra : Fin 16) (s : State) : Res :=
  .done (s.modPart s.ctx.k (fun p => p.wrH h.val (pendingHandle (p.rdA ra.val).toNat (s.cycle + Config.xltCycles))))

/-- XLT. -/
def execXlt (tk : Tk) (h : Fin 32) (ra : Fin 16) (s : State) : Out := routed 1 (.xlt tk h ra) tk (xltBody h ra) s

/-- HDROP (R123). -/
def hdropBody (h : Fin 32) (s : State) : Res := .done (s.modPart s.ctx.k (·.wrH h.val Handle.empty))

/-- HDROP. -/
def execHdrop (tk : Tk) (h : Fin 32) (s : State) : Out := routed 1 (.hdrop tk h) tk (hdropBody h) s

/-- The descriptor that HQRY returns (R10, R123). -/
def handleDesc (h : Nat) (x : Handle) : Nat :=
  let full := fun (st : Nat) => st + x.page.ps * 2 ^ 3 + x.page.cl * 2 ^ 5 + b2n x.page.w * 2 ^ 8 + b2n x.page.hh * 2 ^ 9
    + bits x.page.vbase 16 36 * 2 ^ 16 + x.page.rgn * 2 ^ 52
  if h = 0 then 2 + 3 * 2 ^ 3
  else
    match x.st with
    | .empty => 0
    | .pending => 1 + bits x.va 16 36 * 2 ^ 16
    | .valid => full 2
    | .absent => 3 + bits x.va 16 36 * 2 ^ 16
    | .stale => full 4

/-- HQRY. -/
def hqryBody (dst : ADst) (h : Fin 32) (s : State) : Res :=
  let k := s.ctx.k
  if !(s.part k).roomA dst then .wait 2 s
  else .done (s.modPart k (fun p => p.deliver dst (vecOf64 (BitVec.ofNat 64 (handleDesc h.val (p.rdH h.val))))))

/-- HQRY. -/
def execHqry (tk : Tk) (dst : ADst) (h : Fin 32) (s : State) : Out := routed 1 (.hqry tk dst h) tk (hqryBody dst h) s

/-! ### Paddocks (R127, R129, R130) -/

/-- Are the entries of a partition those of an index (R8)? -/
def pdInPart (u : Bool) (i : Nat) : Bool := if u then decide (Config.paddockU ≤ i) else decide (i < Config.paddockU)

/-- Does a scratchpad range overlap an engine ring that the resident plane of either partition of a core fixes (R26, R295)? -/
def State.overRings (s : State) (core off n : Nat) : Bool :=
  (s.core core).plane.any (fun e => (upto 16).any (fun r =>
    let w := s.planeVal core (e.1 == 1) (0x70 + 4 * r) 4
    bits w 22 4 != 15 && overlaps off n (bits w 0 22) (2 ^ (8 + bits w 22 4))))

/-- Does a scratchpad range overlap the command pool of the running drove, as its plane names it? -/
def State.overPool (s : State) (core : Nat) (u : Bool) (off n : Nat) : Bool :=
  let len := s.planeVal core u 0x24 4 % 2 ^ 17
  len != 0 && overlaps off n (s.planeVal core u 0x20 4 % 2 ^ 22) len

/-- The checks of PDBIND, in the order of R127. ADDR of PADDOCK_CONFLICT is the global base for an overlap, and 0 for a wrong or bound entry (DESIGN CHOICE,
notes/assumptions/32.md). -/
def State.bindCheck (s : State) (core : Nat) (u : Bool) (i spad glob lines : Nat) : Option FInfo :=
  let c := s.core core
  let n := 64 * lines
  let when_ := fun (b : Bool) (f : FInfo) => if b then some f else none
  firstFault [when_ (!pdInPart u i || (Map.find? c.pd i).isSome) (.at cPaddock 0 i),
    when_ (spad % 64 != 0) (.at cMisaligned spad 0), when_ (glob % 64 != 0) (.at cMisaligned glob 0),
    when_ (!inSpad u spad n) (.at cHandleRange spad 0), when_ (decide (2 ^ 52 < glob + n)) (.at cHandleRange glob 0),
    when_ (c.pd.any (fun e => overlaps spad n e.2.spad (64 * e.2.lines) || overlaps glob n e.2.glob (64 * e.2.lines))
      || s.overRings core spad n || s.overPool core u spad n) (.at cPaddock glob i)]

/-- Bind an entry: every present and dirty bit clear, every granule full. -/
def Core.bindPd (c : Core) (i spad glob lines : Nat) : Core :=
  ({ c with pd := Map.put c.pd i ⟨spad, glob, lines, []⟩ }).setFull spad (64 * lines)

/-- PDBIND: at its place among the strand's accesses. -/
def pdbindBody (pd : Fin 64) (rs rg : Fin 16) (lines : BitVec 28) (s : State) : Res :=
  let k := s.ctx.k
  let p := s.part k
  let spad := (p.rdA rs.val).toNat % 2 ^ 22
  let glob := (p.rdA rg.val).toNat
  if (s.part k).olderAccess 3 s.ctx.seq || s.fenced k s.ctx.seq then .wait 7 s
  else
  match s.bindCheck (coreOf k) (isU k) pd.val spad glob lines.toNat with
  | some f => .fault f s
  | none => .done (s.modCore (coreOf k) (·.bindPd pd.val spad glob lines.toNat))

/-- PDBIND. -/
def execPdbind (tk : Tk) (pd : Fin 64) (rs rg : Fin 16) (lines : BitVec 28) (s : State) : Out :=
  routed 1 (.pdbind tk pd rs rg lines) tk (pdbindBody pd rs rg lines) s

/-- The first dirty word of a line. -/
def firstWord (d : BitVec 16) : Nat := ((upto 16).find? (fun w => d.getLsbD w)).getD 0

/-- Write back the dirty words of the lines in ascending order, stopping at the first whose page is not mapped: the lines, and the
global address of the word that could not be written. A write-back changes no byte (R225). -/
def State.flushLines (s : State) (t glob : Nat) : Map PdLine → Map PdLine × Option Nat
  | [] => ([], none)
  | (j, l) :: rest =>
    if l.dirty != 0 && (s.xlate t (glob + 64 * j)).isNone then ((j, l) :: rest, some (glob + 64 * j + 4 * firstWord l.dirty))
    else
      let (r, f) := s.flushLines t glob rest
      ((j, { l with dirty := 0, old := [] }) :: r, f)

/-- PDFLUSH and PDUNBIND (R129, R130): wait for older stores and fences, write back, and clear the entry when `unbind`. ADDR is 0
for an entry of the other partition (notes/assumptions/32.md). -/
def pdflushBody (unbind : Bool) (pd : Fin 64) (s : State) : Res :=
  let k := s.ctx.k
  let core := coreOf k
  if !pdInPart (isU k) pd.val then .fault (.at cPaddock 0 pd.val) s
  else if (s.part k).olderAccess 3 s.ctx.seq || s.fenced k s.ctx.seq then .wait 7 s
  else
    match Map.find? (s.core core).pd pd.val with
    | none => .done s
    | some p =>
      ((s.walks (k * 8 + 1) s.cten ((p.st.filter (fun e => e.2.dirty != 0)).map (fun e => p.glob + 64 * e.1))).run (fun _ s =>
      if p.st.any (fun e => e.2.dirty != 0 && (match s.xlate s.cten (p.glob + 64 * e.1) with
          | some g => s.held (k * 8 + 1) s.cten true ⟨g, p.glob + 64 * e.1, 64⟩
          | none => false)) then .wait 7 s
      else
      let (st, f) := s.flushLines s.cten p.glob p.st
      let s1 := s.modCore core (fun c => { c with pd := Map.put c.pd pd.val { p with st := st } })
      match f with
      | some va => .fault (.at cTranslation va 1) s1
      | none => if unbind then .done (s1.modCore core (fun c => { c with pd := Map.del c.pd pd.val })) else .done s1)).endWalk (k * 8 + 1)

/-- PDFLUSH. -/
def execPdflush (tk : Tk) (pd : Fin 64) (s : State) : Out := routed 1 (.pdflush tk pd) tk (pdflushBody false pd) s
/-- PDUNBIND. -/
def execPdunbind (tk : Tk) (pd : Fin 64) (s : State) : Out := routed 1 (.pdunbind tk pd) tk (pdflushBody true pd) s

/-! ### Full/empty control (R131) -/

/-- The granule offset of FESET, FECLR and FETEST. -/
def Part.feOff (p : Part) (base : Option (Fin 16)) (off : BitVec 28) : Nat := (p.rdAo base + off.setWidth 64).toNat

/-- Its checks, for n granules. -/
def feCheck (u : Bool) (a n : Nat) : Option FInfo :=
  if a % 16 ≠ 0 then some (.at cMisaligned a 0) else if inSpad u a (16 * n) then none else some (.at cHandleRange a 0)

/-- FESET: after every older store of the strand and every older fence; a release. -/
def fesetBody (n : Fin 64) (base : Option (Fin 16)) (off : BitVec 28) (s : State) : Res :=
  let k := s.ctx.k
  let a := (s.part k).feOff base off
  match feCheck (isU k) a (n.val + 1) with
  | some f => .fault f s
  | none =>
    if (s.part k).olderAccess 3 s.ctx.seq || s.fenced k s.ctx.seq then .wait 7 s
    else .done (s.modCore (coreOf k) (·.setFull a (16 * (n.val + 1))))

/-- FESET. -/
def execFeset (tk : Tk) (n : Fin 64) (base : Option (Fin 16)) (off : BitVec 28) (s : State) : Out :=
  routed 1 (.feset tk n base off) tk (fesetBody n base off) s

/-- FECLR. -/
def feclrBody (n : Fin 64) (base : Option (Fin 16)) (off : BitVec 28) (s : State) : Res :=
  let k := s.ctx.k
  let a := (s.part k).feOff base off
  match feCheck (isU k) a (n.val + 1) with
  | some f => .fault f s
  | none =>
    if s.fenced k s.ctx.seq then .wait 7 s
    else .done (s.modCore (coreOf k) (·.setEmpty a (16 * (n.val + 1))))

/-- FECLR. -/
def execFeclr (tk : Tk) (n : Fin 64) (base : Option (Fin 16)) (off : BitVec 28) (s : State) : Out :=
  routed 1 (.feclr tk n base off) tk (feclrBody n base off) s

/-- FETEST: 1 if the granule is full, else 0. -/
def fetestBody (dst : ADst) (base : Option (Fin 16)) (off : BitVec 28) (s : State) : Res :=
  let k := s.ctx.k
  let a := (s.part k).feOff base off
  match feCheck (isU k) a 1 with
  | some f => .fault f s
  | none =>
    if !(s.part k).roomA dst then .wait 2 s
    else if s.fenced k s.ctx.seq then .wait 7 s
    else .done (s.modPart k (·.deliver dst (vecOf64 (BitVec.ofNat 64 (b2n ((s.core (coreOf k)).full (a / 16)))))))

/-- FETEST. -/
def execFetest (tk : Tk) (dst : ADst) (base : Option (Fin 16)) (off : BitVec 28) (s : State) : Out :=
  routed 1 (.fetest tk dst base off) tk (fetestBody dst base off) s

/-! ### Engine tokens (R132) -/

/-- TKW: n tokens that engine E pushed to this strand, together. -/
def tkwBody (e : Fin 4) (n : BitVec 28) (s : State) : Res :=
  let k := s.ctx.k
  let have_ := Map.get 0 (s.part k).engTok e.val
  if have_ < n.toNat then .wait 0 s
  else .done (s.modPart k (fun p => { p with engTok := Map.put p.engTok e.val (have_ - n.toNat), ahead := [] }))

/-- TKW. -/
def execTkw (tk : Tk) (e : Fin 4) (n : BitVec 28) (s : State) : Out := routed 1 (.tkw tk e n) tk (tkwBody e n) s

/-! ### Address arithmetic (R133) -/

/-- An AA instruction: sources in order (R46), the result, its delivery (R45). `f` gets x, y and the old value of an address-register
destination. -/
def aaBody (o : AaArgs) (f : DWord → DWord → DWord → DWord) (s : State) : Res :=
  let k := s.ctx.k
  let p := s.part k
  if p.xa.length < ASrc.pops o.s1 + ASrc.pops o.s2 ∨ p.roomA o.dst = false then .wait 2 s
  else
    let (x, p1) := p.readA o.imm o.s1
    let (y, p2) := p1.readA o.imm o.s2
    let d := match o.dst with
      | .a r => p.rdA r.val
      | _ => 0
    .done (s.setPart k (p2.deliver o.dst (vecOf64 (f x y d))))

/-- The low 32 bits of a source, extended by sign or by zeros. -/
def ext32 (uns : Bool) (x : DWord) : DWord := if uns then (x.setWidth 32).setWidth 64 else (x.setWidth 32).signExtend 64

/-- ADDA. -/
def execAdda (o : AaArgs) (s : State) : Out := routed 1 (.adda o) o.tk (aaBody o (fun x y _ => x + y)) s
/-- SUBA. -/
def execSuba (o : AaArgs) (s : State) : Out := routed 1 (.suba o) o.tk (aaBody o (fun x y _ => x - y)) s
/-- MULA: the exact product of the low words. -/
def execMula (o : AaArgs) (s : State) : Out := routed 1 (.mula o) o.tk (aaBody o (fun x y _ => ext32 o.fn x * ext32 o.fn y)) s
/-- MADA. -/
def execMada (o : AaArgs) (s : State) : Out := routed 1 (.mada o) o.tk (aaBody o (fun x y d => d + x * y)) s
/-- SHLA. -/
def execShla (o : AaArgs) (s : State) : Out := routed 1 (.shla o) o.tk (aaBody o (fun x y _ => x <<< (y.toNat % 64))) s
/-- SHRA: zeros, or sign copies under .ar. -/
def execShra (o : AaArgs) (s : State) : Out :=
  routed 1 (.shra o) o.tk (aaBody o (fun x y _ => if o.fn then x.sshiftRight (y.toNat % 64) else x >>> (y.toNat % 64))) s
/-- ANDA. -/
def execAnda (o : AaArgs) (s : State) : Out := routed 1 (.anda o) o.tk (aaBody o (fun x y _ => x &&& y)) s
/-- ORA. -/
def execOra (o : AaArgs) (s : State) : Out := routed 1 (.ora o) o.tk (aaBody o (fun x y _ => x ||| y)) s
/-- XORA. -/
def execXora (o : AaArgs) (s : State) : Out := routed 1 (.xora o) o.tk (aaBody o (fun x y _ => x ^^^ y)) s
/-- Is x below y, signed or unsigned? -/
def below (uns : Bool) (x y : DWord) : Bool := if uns then x.ult y else x.slt y
/-- MINA. -/
def execMina (o : AaArgs) (s : State) : Out := routed 1 (.mina o) o.tk (aaBody o (fun x y _ => if below o.fn y x then y else x)) s
/-- MAXA. -/
def execMaxa (o : AaArgs) (s : State) : Out := routed 1 (.maxa o) o.tk (aaBody o (fun x y _ => if below o.fn x y then y else x)) s
/-- LIA. -/
def execLia (o : AaArgs) (s : State) : Out := routed 1 (.lia o) o.tk (aaBody o (fun _ _ _ => o.imm.signExtend 64)) s
/-- LIHA. -/
def execLiha (o : AaArgs) (s : State) : Out :=
  routed 1 (.liha o) o.tk (aaBody o (fun _ _ d => (o.imm.setWidth 64 <<< 32) ||| (d.setWidth 32).setWidth 64)) s
/-- MOVA. -/
def execMova (o : AaArgs) (s : State) : Out := routed 1 (.mova o) o.tk (aaBody o (fun x _ _ => x)) s

/-! ### Control registers (R14, R16, R134) -/

/-- A control register, zero-extended (R14). -/
def State.ctl (s : State) (k ix : Nat) : DWord :=
  let p := s.part k
  match ix with
  | 0 => p.fmth.setWidth 64
  | 1 => p.rmode.setWidth 64
  | 2 => (sidOf k).setWidth 64
  | 3 => p.gid.setWidth 64
  | 4 => BitVec.ofNat 64 (s.tenOf (coreOf k))
  | 5 => p.pts.setWidth 64
  | 6 => p.flags.setWidth 64
  | _ => p.lrun.setWidth 64

/-- CTLR: a read of flags waits for every older instruction of X and S (R16). -/
def ctlrBody (dst : ADst) (ix : Fin 8) (s : State) : Res :=
  let k := s.ctx.k
  let p := s.part k
  if ix.val = 6 ∧ (p.older 2 s.ctx.seq = true ∨ p.older 3 s.ctx.seq = true) then .wait 7 s
  else if !p.roomA dst then .wait 2 s
  else .done (s.setPart k (p.deliver dst (vecOf64 (s.ctl k ix.val))))

/-- CTLR. -/
def execCtlr (tk : Tk) (dst : ADst) (ix : Fin 8) (s : State) : Out := routed 1 (.ctlr tk dst ix) tk (ctlrBody dst ix) s

/-- Is an older instruction of S one that the write of a control register must not overtake (R16)? -/
def Part.usesCtl (p : Part) (q ix : Nat) : Bool :=
  match ix with
  | 0 => p.pendS.any (fun r => decide (r.seq < q) && (match r.instr with | .fmtq _ _ => true | _ => false))
  | 1 => p.pendS.any (fun r => decide (r.seq < q) && (match r.instr with | .smp _ => true | _ => false))
  | 6 => p.older 2 q || p.older 3 q
  | _ => false

/-- Write a control register; reserved bits are ignored (R6). -/
def Part.wrCtl (p : Part) (ix : Nat) (v : Word) : Part :=
  match ix with
  | 0 => { p with fmth := v }
  | 1 => { p with rmode := v &&& 3 }
  | 6 => { p with flags := v &&& 0x7F }
  | 7 => { p with lrun := v &&& 0x7F }
  | _ => p

/-- CTLW. -/
def ctlwBody (ix : Fin 8) (src : Option (Fin 16)) (s : State) : Res :=
  let k := s.ctx.k
  let p := s.part k
  if p.usesCtl s.ctx.seq ix.val then .wait 7 s
  else .done (s.setPart k (p.wrCtl ix.val ((p.rdAo src).setWidth 32)))

/-- CTLW. -/
def execCtlw (tk : Tk) (ix : Fin 8) (src : Option (Fin 16)) (s : State) : Out := routed 1 (.ctlw tk ix src) tk (ctlwBody ix src) s

end Sys2Proof.Machine
end

