-- ==== Sys2Proof/Machine/FrontEnd.lean ====
section
/-! DEFINITION. The front end F (R90 to R110, R356): control flow, the end of an iteration, barriers, fences, events, launch, yield and
sleep. -/
namespace Sys2Proof.Machine

/-! ### Control flow (R91 to R94) -/

/-- The address a signed word offset names, modulo 2^52. -/
def branchTo (pc : VAddr) (off : Word) : VAddr := pc + off.signExtend 52 * 8

/-- The operand of an FB instruction and the copy after its pop; none while fq is empty. -/
def Part.fop (p : Part) : FOp → Option (Word × Part)
  | .imm v => some (v, p)
  | .fq =>
    match p.fq with
    | w :: rest => some (w, { p with fq := rest })
    | [] => none

/-- Move pc on by one word. -/
def Part.next (p : Part) : Part := { p with pc := p.pc + 8 }

/-- The front end's copy moves on. -/
def State.nextPc (s : State) : State := s.modPart s.ctx.k Part.next

/-- An FB instruction once its operand is there: `f` gets the value and the copy after the pop. -/
def fbBody (o : FOp) (f : Word → Part → Part) (s : State) : Res :=
  match (s.part s.ctx.k).fop o with
  | none => .wait 2 s
  | some (v, p) => .done (s.setPart s.ctx.k (f v p))

/-- NOP. -/
def execNop (s : State) : Out := front (fun s => .done s.nextPc) s

/-- BR. -/
def execBr (o : FOp) (s : State) : Out := front (fbBody o (fun v p => { p with pc := branchTo p.pc v })) s

/-- BRC: pops one bit of cq. -/
def brcBody (sense : Bool) (o : FOp) (s : State) : Res :=
  match (s.part s.ctx.k).cq with
  | [] => .wait 2 s
  | c :: rest => fbBody o (fun v p => { p with cq := rest, pc := if c = sense then branchTo p.pc v else p.pc + 8 }) s

/-- BRC. -/
def execBrc (sense : Bool) (o : FOp) (s : State) : Out := front (brcBody sense o) s

/-- LOOP: never below zero. -/
def execLoop (lc : Fin 8) (o : FOp) (s : State) : Out :=
  front (fbBody o (fun v p =>
    let c : Word := if p.rdLc lc.val = 0 then 0 else p.rdLc lc.val - 1
    { p.wrLc lc.val c with pc := if c = 0 then p.pc + 8 else branchTo p.pc v })) s

/-- LCSET. -/
def execLcset (lc : Fin 8) (o : FOp) (s : State) : Out := front (fbBody o (fun v p => (p.wrLc lc.val v).next)) s

/-- CALL (R9): eight entries at most; a faulting CALL pops nothing. -/
def callBody (o : FOp) (s : State) : Res :=
  let p := s.part s.ctx.k
  match p.fop o with
  | none => .wait 2 s
  | some (v, p') =>
    if 8 ≤ p.rstack.length then .fault (.of cQueue 0) s
    else .done (s.setPart s.ctx.k { p' with rstack := (p.pc + 8) :: p.rstack, pc := branchTo p.pc v })

/-- CALL. -/
def execCall (o : FOp) (s : State) : Out := front (callBody o) s

/-- RET. -/
def retBody (s : State) : Res :=
  let p := s.part s.ctx.k
  match p.rstack with
  | [] => .fault (.of cQueue 0) s
  | r :: rest => .done (s.setPart s.ctx.k { p with rstack := rest, pc := r })

/-- RET. -/
def execRet (s : State) : Out := front retBody s

/-- JMP: to a word counted from ENTRY. -/
def jmpBody (bias : Word) (s : State) : Res :=
  let p := s.part s.ctx.k
  match p.fq with
  | [] => .wait 2 s
  | w :: rest => .done (s.setPart s.ctx.k { p with fq := rest, pc := p.entry + (w + bias).setWidth 52 * 8 })

/-- JMP. -/
def execJmp (bias : Word) (s : State) : Out := front (jmpBody bias) s

/-! ### Ending an iteration (R21, R95 to R97) -/

/-- Are A, X and S done with every older instruction, tokens pushed? -/
def Part.quiet (p : Part) : Bool :=
  p.pendA == [] && p.pendX == [] && p.pendS == [] && p.owed.all (fun e => e.2 == 0)

/-- Push what the units still owe. -/
def State.payAll (s : State) (k : Nat) : State := s.modPart k (fun p => ((p.payOwed 1).payOwed 2).payOwed 3)

/-- Does END wait for a command: one that pops a format word or returns elements (R95)? -/
def endWaits (e : Nat) (w : DWord) : Bool :=
  let code := bits w.toNat 42 6
  match e with
  | 0 => decide (1 ≤ code) && decide (code ≤ 4)
  | 1 => code == 5 || code == 12
  | 2 => code == 1 && bit w.toNat 32
  | _ => code == 1 && bit w.toNat 0

/-- A dword of memory at a virtual address as it stands; none where it is not mapped. -/
def State.peekVa (s : State) (t va : Nat) : Option DWord :=
  (s.xlate t va).map (fun p => BitVec.ofNat 64 (s.valAt (spaceOf p.hh) (p.pa va) 8))

/-- The word of the command that a RESUME performs: that of the image its record names, or of the one this leads to (R209); 0 where none is there. -/
def State.imageWord (s : State) (t : Nat) : Nat → DWord → DWord
  | 0, _ => 0
  | fuel + 1, rec =>
    match s.peekVa t (bits rec.toNat 0 52 + 0x30) with
    | none => 0
    | some img =>
      match s.peekVa t (bits img.toNat 0 52), s.peekVa t (bits img.toNat 0 52 + 8) with
      | some w, some x => if bits w.toNat 42 6 = 14 then s.imageWord t fuel x else w
      | _, _ => 0

/-- Does END wait for the command of these words: for a RESUME, for what it performs? -/
def State.endFor (s : State) (t e : Nat) (ws : List DWord) : Bool :=
  let w := ws.headD 0
  endWaits e (if (e = 1 ∨ e = 2) ∧ bits w.toNat 42 6 = 14 then s.imageWord t 64 (ws.getD 1 0) else w)

/-- Does END wait for a command that an engine has taken: until a tile command has popped its format word, and until elements are returned? -/
def State.curHolds (s : State) (t e : Nat) (c : Cur) (more : List DWord) : Bool :=
  (match c.latch.drop 1 with
    | [] => s.endFor t e (c.word :: c.ext ++ more)
    | w :: _ => endWaits e (if bits c.word.toNat 42 6 = 14 then w else c.word))
    && (e != 0 || c.fw.isNone || bit c.word.toNat 23)

/-- Does a ring hold END back? A command stopped at a fault does not (R95); those behind it do (R206). -/
def State.ringHolds (s : State) (k e : Nat) : Bool :=
  let g := (s.part k).ring e
  let t := s.tenOf (coreOf k)
  let left := s.unfetched k e
  (g.cur.toList ++ g.more).any (fun c => s.curHolds t e c ((left.take c.need).map (·.2)))
    || (ringCmds e g g.prod (g.prod - g.cons) (left.drop ((g.cmds.map (·.need)).sum))).any (s.endFor t e)

/-- Does any ring? -/
def State.ringsHold (s : State) (k : Nat) : Bool := (upto 4).any (s.ringHolds k)

/-- The check of R21: is some queue or token queue of the strand not empty? -/
def Part.leftover (p : Part) : Bool :=
  p.q.any (fun e => e.2 != []) || p.qs != [] || p.xa != [] || p.cq != [] || p.fq != [] || p.aq != [] || p.sd != []
    || p.o.any (fun e => e.2 != []) || p.fmtq != [] || p.tok.any (fun e => e.2 != 0) || p.engTok.any (fun e => e.2 != 0)

/-- The waits of END and HALT: step 1 and step 2 of R95. The second counts as a wait on a format queue, whichever command it is for
(notes/assumptions/29.md). -/
def endWait (f : State → Res) (s : State) : Res :=
  let s := s.payAll s.ctx.k
  if !(s.part s.ctx.k).quiet then .wait 7 s
  else if s.ringsHold s.ctx.k then .wait 4 s
  else f s

/-- END. -/
def endBody (s : State) : Res :=
  endWait (fun s => if (s.part s.ctx.k).leftover then .fault (.of cQueue 3) s else .done (s.leaveIter s.ctx.k)) s

/-- END. -/
def execEndIter (s : State) : Out := front endBody s

/-- HALT makes the other strands of the gang stop as well (R288): each discards its queues once it is quiet. -/
def State.stopGang (s : State) (k : Nat) : State :=
  let p := s.part k
  { s with
    parts := s.parts.map (fun e =>
      if e.2.inIter && e.2.drove == p.drove && e.2.lin == p.lin && decide (e.1 ≠ k) then (e.1, { e.2 with ending := true }) else e) }

/-- A strand whose gang is stopped leaves the iteration when its waits are over. -/
def State.endStopped (s : State) (k : Nat) : State :=
  let s := s.payAll k
  if (s.part k).quiet && !s.ringsHold k then s.leaveIter k else s

/-- HALT. -/
def haltBody (code : Word) (s : State) : Res :=
  endWait (fun s =>
    let k := s.ctx.k
    .done (((s.modDrove (s.part k).drove (·.halt code)).stopGang k).leaveIter k)) s

/-- HALT. -/
def execHalt (code : Word) (s : State) : Out := front (haltBody code) s

/-- TRAP: after every older instruction, SOFTWARE_TRAP with its code. -/
def trapBody (code : Word) (s : State) : Res :=
  let s := s.payAll s.ctx.k
  if (s.part s.ctx.k).quiet then .fault (.of cTrap code.toNat) s else .wait 7 s

/-- TRAP. -/
def execTrap (code : Word) (s : State) : Out := front (trapBody code) s

/-! ### Barriers (R98 to R102, R310, R340) -/

/-- A barrier object. -/
def State.bar (s : State) (key : Nat) : BarObj := Map.get BarObj.zero s.bars key
/-- Replace a barrier object. -/
def State.setBar (s : State) (key : Nat) (o : BarObj) : State := { s with bars := Map.put s.bars key o }

/-- BARRIER_MISUSE, naming the effective id. -/
def misuse (e : Nat) : FInfo := .of cBarrier e

/-- The package that holds a tenant's pod objects (R340). -/
def State.anchor (s : State) (t : Nat) : Nat := bits (s.ten t).pol.toNat 2 10

/-- The object of a level with effective id e: its key, if a tenant holds it. Level 5 stands for an object at another package. -/
def State.barKeyOf (s : State) (t core : Nat) (sc : Scope) (e : Nat) : Option Nat :=
  let pol := (s.ten t).pol.toNat
  let pick := fun (held level place : Nat) => if e < held then some (barKey level t place e) else none
  match sc with
  | .core => pick 8 0 core
  | .quad => pick 16 1 (quadOf core)
  | .die => pick (bits pol 12 6) 2 (dieOf core)
  | .pkg => pick (bits pol 18 6) 3 0
  | .pod | .ten => if s.anchor t = s.pkg.pkgid.toNat then pick (bits pol 24 7) 4 0 else pick 64 5 (s.anchor t)
  | .sys => none

/-- The effective id of a barrier reference (R98). -/
def Part.barId (p : Part) (r : BarRef) : Nat := r.ob.val + (p.brb + r.id.val) % p.bd

/-- Is a key that of an object at another package? -/
def barRemote (key : Nat) : Bool := decide (key / 65536 / 32 = 5)

/-- Count an arrival of a drove of a package: the phase completes with the last member (R100). -/
def BarObj.arrive (o : BarObj) (src d : Nat) : BarObj :=
  if o.a + 1 = o.c then { o with a := 0, phase := o.phase + 1, drove := [], srcs := [] }
  else { o with a := o.a + 1, drove := Map.put o.drove src d }

/-- Are the pending arrivals of an object another drove's? Those of one package are of one drove, and those of several packages of droves with one entry. -/
def BarObj.others (o : BarObj) (src d : Nat) : Bool :=
  o.a != 0 && o.drove.any (fun e => e.2 / 2 ^ 32 != d / 2 ^ 32 || (e.1 == src && e.2 != d))

/-- Is a key that of a pod object of this package? -/
def barPod (key : Nat) : Bool := decide (key / 65536 / 32 = 4)

/-- What names a drove in an arrival: its number, and at a pod object, whose members lie on several packages, the entry of its record before it
(notes/assumptions/55.md). -/
def droveName (key entry n : Nat) : Nat := if barPod key || barRemote key then entry % 2 ^ 52 * 2 ^ 32 + n % 2 ^ 32 else n

/-- What names the drove of a strand's arrival. -/
def Part.droveId (p : Part) (key : Nat) : Nat := droveName key p.entry.toNat p.drove

/-- A field of n bytes of a record or a plane. -/
def fieldAt (bs : List Byte) (off n : Nat) : Nat := leVal ((bs.drop off).take n)

/-- Code entry of a drove. -/
def Drove.entry (d : Drove) : Nat := fieldAt d.record 0x08 8

/-- What names the drove of a command's arrival. -/
def State.droveIdOf (s : State) (key n : Nat) : Nat :=
  droveName key (match Map.find? s.droves n with | some d => d.entry | none => 0) n

/-- An arrival at an object of this package; where it completes a phase of a pod object, the other packages that wait are told which (R310). -/
def State.arriveAt (s : State) (key t e d src : Nat) : State :=
  let o := s.bar key
  let o := if src = s.pkg.pkgid.toNat then o else { o with srcs := if o.srcs.contains src then o.srcs else o.srcs ++ [src] }
  let s := s.setBar key (o.arrive src d)
  if o.a + 1 = o.c then o.srcs.foldl (fun s p => s.transmit p e (.release t e (o.phase + 1))) s else s

/-- Has a copy an arrival pending at an object? -/
def Part.joinedAt (p : Part) (key phase : Nat) : Bool :=
  match Map.find? p.joined key with
  | some x => x.1 == phase
  | none => false

/-- Are all earlier accesses, reductions and samples of a copy performed but for plain ones of host memory, and its earlier fences satisfied? An arrival that follows a
fence with engine kinds includes that engine work (R101). -/
def State.released (s : State) (k q : Nat) : Bool :=
  !s.olderKept k 1 q && !s.olderKept k 3 q && !s.fenced k q

/-- A message to the anchor package, under a request id (R307, R310). -/
def State.askAnchor (s : State) (who t : Nat) (m : Word → Msg) : Res :=
  let tag := s.pkg.txTag
  let pa := s.anchor t * 2 ^ 50
  let s := ((s.reachTs (s.whoTs who)).sendHome pa (m tag)).modPkg (fun g => { g with txTag := tag + 1 })
  .wait 7 { s with reqs := Map.put s.reqs who ⟨.remote pa, [], 0, false, .done, 0, false, tag, some (m tag), false, []⟩ }

/-- An exchange of a requester with the anchor package: refused is BARRIER_MISUSE, unanswered FABRIC_TIMEOUT; a RETRY sends it again under its id, so that it
is counted once (R310). What goes on gets the phase that the answer names. -/
def anchorExchange (who e : Nat) (m : Word → Msg) (f : Nat → State → Res) (s : State) : Res :=
  match Map.find? s.reqs who with
  | none => s.askAnchor who (s.tenOf (coreOf (who / 8))) m
  | some r =>
    let s1 := { s with reqs := Map.del s.reqs who }
    if r.resend then .wait 7 (s.resend who r)
    else if r.timedOut then .fault (.at cTimeout 0 r.kind.aux) { s with reqs := Map.put s.reqs who { r with timedOut := false, resend := true } }
    else if !r.answered then .wait 7 s
    else if r.st != .done then .fault (misuse e) s1
    else f (leVal ((r.data.headD (0, 0, [])).2.2)) s1

/-- ARRIVE at an object of this package. -/
def arriveLocal (key e : Nat) (s : State) : Res :=
  let k := s.ctx.k
  let p := s.part k
  let o := s.bar key
  if o.c = 0 then .fault (misuse e) s
  else if o.others s.pkg.pkgid.toNat (p.droveId key) then .fault (misuse e) s
  else if o.a ≠ 0 ∧ p.joinedAt key o.phase = true then .wait 5 s
  else if !s.released k s.ctx.seq then .wait 5 s
  else .done ((s.arriveAt key (s.tenOf (coreOf k)) e (p.droveId key) s.pkg.pkgid.toNat).modPart k (fun p => { p with joined := Map.put p.joined key (o.phase, p.iter) }))

/-- ARRIVE at an object of another package: the answer names the phase in which the arrival counts, and it is pending until the completion of that phase is
known here. -/
def arriveRemote (key e : Nat) (s : State) : Res :=
  let k := s.ctx.k
  let p := s.part k
  if (match Map.find? p.joined key with | some x => decide ((s.bar key).phase ≤ x.1) | none => false) then .wait 5 s
  else if !s.released k s.ctx.seq then .wait 5 s
  else
    anchorExchange (k * 8) e (.arrive (s.tenOf (coreOf k)) e s.pkg.pkgid.toNat (p.droveId key)) (fun ph s =>
      .done (s.modPart k (fun p => { p with joined := Map.put p.joined key (ph, p.iter) }))) s

/-- ARRIVE. -/
def arrive (key e : Nat) (s : State) : Res := if barRemote key then arriveRemote key e s else arriveLocal key e s

/-- WAITB: the phase of this iteration's arrival must have completed. -/
def waitb (key e : Nat) (s : State) : Res :=
  let p := s.part s.ctx.k
  let o := s.bar key
  if !barRemote key && o.c == 0 then .fault (misuse e) s
  else
    match Map.find? p.joined key with
    | none => .fault (misuse e) s
    | some (ph, it) => if it ≠ p.iter then .fault (misuse e) s else if ph < o.phase then .done (s.forget s.ctx.k) else .wait 5 s

/-- The object a barrier instruction names, or BARRIER_MISUSE. -/
def withBar (r : BarRef) (f : Nat → Nat → State → Res) (s : State) : Res :=
  let k := s.ctx.k
  let e := (s.part k).barId r
  match s.barKeyOf (s.tenOf (coreOf k)) (coreOf k) r.scope e with
  | none => .fault (misuse e) s
  | some key => f key e s

/-- BAR: the arrival is made once (R110); then the wait. -/
def barBody (key e : Nat) (s : State) : Res :=
  let k := s.ctx.k
  let arrived : Res := match (s.part k).barArrived with
    | some _ => .done s
    | none => (arrive key e s).andThen (fun s => .done (s.modPart k (fun p => { p with barArrived := some key })))
  arrived.andThen (fun s => (waitb key e s).andThen (fun s => .done (s.modPart k (fun p => { p.next with barArrived := none }))))

/-- BAR. -/
def execBar (r : BarRef) (s : State) : Out := front (withBar r barBody) s
/-- BARA. -/
def execBara (r : BarRef) (s : State) : Out := front (withBar r (fun key e s => (arrive key e s).andThen (fun s => .done s.nextPc))) s
/-- BARW. -/
def execBarw (r : BarRef) (s : State) : Out := front (withBar r (fun key e s => (waitb key e s).andThen (fun s => .done s.nextPc))) s

/-- Set a member count (R99); none where it is refused. -/
def BarObj.config (o : BarObj) (count : Nat) : Option BarObj :=
  if count = 0 ∨ 2 ^ 20 < count then none
  else if o.a = 0 then some { o with c := count }
  else if o.c = count then some o
  else none

/-- BARCFG. -/
def barcfgBody (count : Nat) (key e : Nat) (s : State) : Res :=
  if barRemote key then
    if count = 0 ∨ 2 ^ 20 < count then .fault (misuse e) s 
    else anchorExchange (s.ctx.k * 8) e (.barcfg (s.tenOf (coreOf s.ctx.k)) e s.pkg.pkgid.toNat count) (fun _ s => .done s.nextPc) s
  else
    match (s.bar key).config count with
    | none => .fault (misuse e) s
    | some o => .done (s.setBar key o).nextPc

/-- BARCFG. -/
def execBarcfg (r : BarRef) (count : BitVec 21) (s : State) : Out := front (withBar r (barcfgBody count.toNat)) s

/-- BARROT. -/
def execBarrot (st : Word) (s : State) : Out :=
  front (fun s => .done (s.modPart s.ctx.k (fun p => { p.next with brb := (p.brb + st.toNat) % p.bd }))) s

/-! ### Fences and events (R103 to R105) -/

/-- FENCE: placed, and the front end goes on. -/
def fenceBody (sc : Scope) (kinds : BitVec 5) (s : State) : Res :=
  let k := s.ctx.k
  if sc == .sys && !s.sysOk (s.tenOf (coreOf k)) then .fault (.of cScope 6) s
  else
    .done (s.modPart k (fun p =>
      { p.next with
        ahead := if sc == .sys then [] else p.ahead
        fences := p.fences.filter (fun f => !s.fenceDone k f) ++ [⟨s.ctx.seq, kinds, sc, (upto 4).map (fun e => (e, (p.ring e).prod))⟩] }))

/-- FENCE. -/
def execFence (sc : Scope) (kinds : BitVec 5) (s : State) : Out := front (fenceBody sc kinds) s

/-- WAITEV. -/
def waitevBody (ev : Fin 16) (thr : Word) (s : State) : Res :=
  if thr.toNat ≤ ((s.part s.ctx.k).rdEv ev.val).toNat then .done (s.nextPc.forget s.ctx.k) else .wait 6 s

/-- WAITEV. -/
def execWaitev (ev : Fin 16) (thr : Word) (s : State) : Out := front (waitevBody ev thr) s

/-- EVCLR. -/
def execEvclr (ev : Fin 16) (s : State) : Out := front (fun s => .done (s.modPart s.ctx.k (fun p => (p.wrEv ev.val 0).next))) s

/-! ### Launch (R106, R356) -/

/-- A walker accepts a record. -/
def State.submit (s : State) (ten die : Nat) (sc : Scope) (from? : Option (Nat × Nat)) (record : List Byte) : State :=
  { s with
    nextDrove := s.nextDrove + 1
    droves := Map.put s.droves s.nextDrove
      { ten := ten, die := die, sc := sc, from? := from?, record := record, st := .submitted, next := 0, total := 0, live := [], retired := 0
        haltCode := none, status := 0, presetDone := false, reserved := [], plane := [] } }

/-- LAUNCH: after every older access, a copy of 128 bytes of scratchpad goes to the walker of this die. -/
def launchBody (sc : Scope) (off : Word) (s : State) : Res :=
  let k := s.ctx.k
  let core := coreOf k
  let t := s.tenOf core
  let a := off.toNat
  if (s.part k).older 3 s.ctx.seq || (s.part k).olderAccess 1 s.ctx.seq || !s.clear k s.ctx.seq then .wait 7 s
  else if a % 128 ≠ 0 then .fault (.at cMisaligned a 0) s
  else if !inSpad (isU k) a 128 then .fault (.at cHandleRange a 0) s
  else if sc == .sys && !s.sysOk t then .fault (.of cScope 6) s
  else
    let gs := if s.inParts 8 then cutAt 16 a 128 else [(a, 128)]
    nextPart k 0 [h0Page] [] gs.length (fun i s =>
      let g := gs.getD i (a, 0)
      ((s.padWalks (k * 8) t core g.1 g.2).bind (fun _ s =>
        (s.padFill (k * 8) t core g.1 g.2).bind (fun _ s =>
          .ok (s.bytesAt (.spad core) g.1 g.2) ((s.stamp k false []).padTouch t core g.1 g.2)))).endWalk (k * 8))
      (fun bs s => .done ((s.submit t (dieOf core) sc (some (k, (s.part k).iter)) bs).nextPc)) s

/-- LAUNCH. -/
def execLaunch (sc : Scope) (off : Word) (s : State) : Out := front (launchBody sc off) s

/-! ### Yield and sleep (R109) -/

/-- YIELD: a lease held by the strand has no command of its turn left; issue passes for one round. -/
def execYieldTurn (s : State) : Out :=
  front (fun s =>
    let k := s.ctx.k
    .done ((s.modCore (coreOf k) (fun c => if c.holder = some k then { c with turnLeft := 0 } else c)).modPart k (fun p =>
      { p.next with yielded := true }))) s

/-- SLEEP: issue stops until the cycle at which it ends. -/
def execSleep (cycles : Word) (s : State) : Out :=
  front (fun s => .done (s.modPart s.ctx.k (fun p =>
    { p.next with sleeping := if cycles = 0 then none else some (s.cycle + cycles.toNat) }))) s

end Sys2Proof.Machine
end

