-- ==== Sys2Proof/Machine/Store.lean ====
section
/-! DEFINITION. The store unit S (R157 to R172): stores, flagged stores, reductions, samples, ticks and pushes to the engines; and
the read-modify-write of a word that engines share (R164, R165, R188, R189, R254, R255). -/
namespace Sys2Proof.Machine

/-! ### Word updates -/

/-- The operation of RED (R164). -/
def redUpd (op : RedOp) (ty : Ty) : Upd :=
  match op, ty with
  | .add, .f32 => .fadd
  | .min, .f32 => .fmin
  | .max, .f32 => .fmax
  | .min, .u32 => .umin
  | .max, .u32 => .umax
  | .add, _ => .iadd
  | .min, _ => .imin
  | .max, _ => .imax
  | .and, _ => .and
  | .or, _ => .or
  | .xor, _ => .xor

/-! ### Commutative updates in state C (R165, R254) -/

/-- Is a line held in state C under another operation or type? -/
def Core.otherC (c : Core) (line op ty : Nat) : Bool :=
  match Map.find? c.l1d line with
  | some (.c _ o t _) => o != op || t != ty
  | _ => false

/-- A core's copy of a line that is not in state C, when a core takes the line in C: E and M copies of others are recalled, and for class T clean copies
invalidated. -/
def Core.probeForC (c : Core) (line : Nat) (inv own : Bool) : Core :=
  match Map.find? c.l1d line with
  | some (.c _ _ _ _) => c
  | some (.s _) => if inv && !own then { c with l1d := Map.del c.l1d line } else c
  | some _ => if own then c else { c with l1d := Map.del c.l1d line }
  | none => c

/-- Does an L1D or an RDC of the package hold a line in M? -/
def State.anyM (s : State) (line : Nat) : Bool :=
  s.cores.any (fun e => match Map.find? e.2.l1d line with | some (.m _) => true | _ => false)
    || s.pkg.rdc.any (fun e => e.1 % 2 ^ 54 == line && e.1 / 2 ^ 54 % 2 == 0 && e.2.st == .m)

/-- A core asks for a line in state C: a line that someone holds in M, the core itself or its die's RDC too, is written at the home, what others hold of it but
partials is probed, and the directory notes it (R253, R255). Paddocks that hold the word see it as a write. -/
def State.joinC (s : State) (core cl pa : Nat) : State :=
  let line := pa / 64
  let s := if s.anyM line then s.atHome line true else s
  let key := rdcKey (dieOf core) false line
  let s := s.modPkg (fun g => match Map.find? g.rdc key with | some x => { g with rdc := Map.put g.rdc key { x with st := .s } } | none => g)
  { s with
    cores := s.cores.map (fun (e : Nat × Core) =>
      (e.1, (e.2.probePd e.1 false line true (wordMask pa 4 line) .agent).probeForC line (cl == 0) (e.1 == core)))
    pkg := { ((s.markVia line (.strand core) s.pkg).probeRdc false line true true (cl == 0) (some (dieOf core)) (fun _ => false)) with
      lineTs := Map.put s.pkg.lineTs line (s.gts, serialMax (Map.get (0, 0) s.pkg.lineTs line).2 s.gts)
      homeServed := s.pkg.homeServed + 1 } }

/-- The die's RDC holds a line of another die that a core of it holds (R247). -/
def State.rdcHolds (s : State) (core line : Nat) (lease : BitVec 48) : State :=
  if s.homeDie (64 * line) = dieOf core then s else s.putRdc (dieOf core) false line (s.tenOf core) .s lease

/-- One update held as a private partial in state C: memory holds what an ordinary read returns. Partials of another operation or type, whichever core
holds them, are merged first. -/
def State.updC (s : State) (core : Nat) (isu : Bool) (u : Upd) (ty cl pa d : Nat) : State :=
  let line := pa / 64
  let w := pa / 4
  let lease := s.gts + BitVec.ofNat 48 (s.leaseLen core isu)
  let s := ((s.roomL1 core line).rdcHolds core line lease).joinC core cl pa
  let s : State := if s.cores.any (fun e => e.2.otherC line u.code ty) then (s.mergeAll line).atHome line true else s
  let base := s.homeWord w
  let s := s.modPkg (fun g => { g with cbase := Map.put g.cbase w (BitVec.ofNat 32 base) })
  let ps : Map Word := match Map.find? (s.core core).l1d line with
    | some (.c _ _ _ ps) => ps
    | _ => []
  let p := u.partial_ (Map.find? ps (w % 16)) d
  let s : State := s.modCore core (fun c => { c with l1d := Map.put c.l1d line (.c lease u.code ty (Map.put ps (w % 16) (BitVec.ofNat 32 p))) })
  s.putVal .dev pa 4 (s.combined w base)

/-- May an update of a word be held in state C by a core (R164, R247, R256): a device page of class T or V of this package, without NA, which the core's own die homes
or its RDC can hold, with room in its L1D; and the machine chooses to. -/
def State.holdsC (s : State) (core : Nat) (p : PageInfo) (pa : Nat) (na : Bool) : Bool :=
  decide (p.cl ≤ 1) && !p.hh && s.ours pa && !na && Config.holdPartial s.freeCtr
    && (s.homeDie pa == dieOf core || s.rdcTakes (dieOf core) false (pa / 64) (s.tenOf core)) && ((s.roomL1 core (pa / 64)).core core).hasRoomL1 (pa / 64)

/-! ### Accesses to a word wherever it lies -/

/-- The requester of a read-modify-write: the apply unit of the home, or for host memory the RDC of the core's die (R164). -/
def rmwVia (p : PageInfo) (core : Nat) : Via := if p.hh then .engine core else .agent

/-- One read-modify-write of a word of memory at its home (R255). -/
def State.updMem (s : State) (t core : Nat) (u : Upd) (x : Stretch) (d : Nat) : State :=
  let old := s.valAt (spaceOf x.page.hh) x.pa 4
  (s.writeSide t x (rmwVia x.page core)).putVal (spaceOf x.page.hh) x.pa 4 (u.word old d)

/-- The global place of a scratchpad word in a paddock. -/
def PadPart.stretch (x : PadPart) (p : PageInfo) : Stretch := ⟨p, x.glob, x.n⟩

/-! ### Stores (R161 to R163) -/

/-- The page a captured entry gives for a global address of a paddock. A paddock bound since the entry was made has its page now, where that is mapped,
writable and not of class F; none else, and the bytes are plain scratchpad (R120, notes/assumptions/54.md). -/
def AqEntry.padPage (e : AqEntry) (s : State) (t g : Nat) : Option PageInfo :=
  match Map.find? e.gpages (g / 65536) with
  | some p => some p
  | none =>
    match s.xlate t g with
    | some p => if p.w && p.cl != 3 then some p else none
    | none => none

/-- Does an entry name a class-F page, itself or through a paddock (R120)? -/
def AqEntry.onF (e : AqEntry) : Bool := if e.page.ps = 3 then e.gpages.any (fun x => x.2.cl == 3) else e.page.cl == 3

/-- What an access of an entry is made of: its lane, its address, its bytes. -/
abbrev Chunk := Nat × Nat × List Byte

/-- The stretches of memory that runs of an entry reach, with their lanes and bytes. -/
def State.runStretches (s : State) (k : Nat) (e : AqEntry) (runs : List Chunk) : List (Nat × Stretch × List Byte) :=
  if e.h.val = 0 then
    (runs.map (fun r => ((s.core (coreOf k)).padParts r.2.1 r.2.2.length).filterMap (fun x =>
      (e.padPage s (s.tenOf (coreOf k)) x.glob).map (fun g =>
        (r.1, (⟨g, x.glob, x.n⟩ : Stretch), (r.2.2.drop (x.off - r.2.1)).take x.n))))).flatten
  else runs.map (fun r => (r.1, ⟨e.page, r.2.1, r.2.2.length⟩, r.2.2))

/-- The gate of an access of S, which reads what it writes with `read`: the home's answer, and the lane of a fault. `op` is what it does with the bytes of a
stretch at a home outside, `pad` that it is a paddock's. -/
def State.gateRuns (s : State) (who k : Nat) (read pad : Bool) (xs : List (Nat × Stretch × List Byte)) (op : List Byte → MemOp) : Eff Unit :=
  let ws := xs.map (·.2.1)
  ((s.gate who (s.tenOf (coreOf k)) (if read then ws else []) ws false (xs.map (fun x => (x.2.1.pa, op x.2.2))) pad).eff).laneBy
    (xs.map (fun x => (x.1, x.2.1.va, x.2.1.n)))

/-- Store runs at their place in S: through h0 to scratchpad, whose granules become full with `full`, else to the checked page. -/
def State.performRuns (s : State) (k : Nat) (e : AqEntry) (na full : Bool) (runs : List Chunk) : State :=
  let t := s.tenOf (coreOf k)
  let core := coreOf k
  if e.h.val = 0 then
    let s := s.stamp k true []
    let s := runs.foldl (fun s r => (s.padTouch t core r.2.1 r.2.2.length).spadStore t core (e.padPage s t) r.2.1 r.2.2) s
    let s := if runs.any (fun r => (s.core core).padIn r.2.1 r.2.2.length) then s.forget k else s
    if full then s.modCore core (fun c => runs.foldl (fun c r => c.setFull r.2.1 r.2.2.length) c) else s
  else
    let s := s.stamp k true (runs.map (fun r => ⟨e.page, r.2.1, r.2.2.length⟩))
    runs.foldl (fun s r =>
      let x : Stretch := ⟨e.page, r.2.1, r.2.2.length⟩
      (((s.writeSide t x (.strand core)).leaseL1 k t x true na).stretchPut x r.2.2).usedUp k e.page.hh x.pa x.n) s

/-- A run cut at the units of memory. -/
def cutRun (unit : Nat) (r : Chunk) : List Chunk :=
  (cutAt unit r.2.1 r.2.2.length).map (fun c => (r.1, c.1, (r.2.2.drop (c.1 - r.2.1)).take c.2))

/-- Store the runs of an entry: whole, or in parts. Poison of scratchpad lines that the runs cover clears (R352). -/
def storeRuns (e : AqEntry) (na full : Bool) (runs : List Chunk) (s : State) : Res :=
  let k := s.ctx.k
  let who := k * 8 + 3
  let groups := groupBy (fun (r : Chunk) => s.unitAt k e.page r.2.1) ((runs.map (cutRun e.page.unit)).flatten)
  let gs := if s.inParts groups.length then groups else [runs]
  nextPart k 3 [e.page] ((s.runStretches k e runs).map (·.2.1)) gs.length (fun j s =>
    let rs := gs.getD j []
    (s.gateRuns who k false (e.h.val == 0) (s.runStretches k e rs) .write).bind (fun _ s => .ok [] (s.performRuns k e na full rs)))
    (fun _ s => .done (if e.h.val = 0 then runs.foldl (fun s r => s.cleanSpad (coreOf k) r.2.1 r.2.2.length) s else s)) s

/-- Samples delivered by an entry on a class-F page: one per cell it names, each channel's at its own place (R215). -/
def sampleEntry (e : AqEntry) (d : Vec) (conv : Region → Word → Word × Nat) (s : State) : Res :=
  let k := s.ctx.k
  let t := s.cten
  match s.regionOf t e.page with
  | none => .fault (.at cFilter (e.addrs.headD 0) e.page.rgn) s
  | some r =>
    let xs := e.elems r.csz d
    if xs.any (fun x => (r.cellAt x.1).isNone) then .fault (.at cFilter (e.addrs.headD 0) e.page.rgn) s
    else
      let groups := groupBy (fun (x : Nat × Word) => s.unitAt k e.page x.1) xs
      let gs := if s.inParts groups.length then groups else [xs]
      nextPart k 3 [e.page] (xs.map (fun x => ⟨e.page, x.1, r.csz⟩)) gs.length (fun j s =>
        let ys := gs.getD j []
        ((s.gate (k * 8 + 3) t [] (ys.map (fun x => ⟨e.page, x.1, r.csz⟩))).eff.laneBy
            (if e.scatter then (upto xs.length).map (fun i => (i, (xs.getD i (0, 0)).1, r.csz)) else [])).bind (fun _ s =>
          let s := ((s.stamp k true []).touchLeaf e.page true).meterMem t ⟨e.page, e.addrs.headD 0, 4 * ys.length⟩ true
          .ok [] (ys.foldl (fun s x =>
            let (v, fl) := conv r x.2
            let s := s.orFlags k (BitVec.ofNat 32 fl)
            match r.cellAt x.1, s.regionOf t e.page with
            | some c, some r => s.sample t e.page.rgn r c v
            | _, _ => s) s))) (fun _ s => .done s) s

/-- The runs of a plain entry. -/
def plainRuns (e : AqEntry) (d : Vec) : List Chunk := [(0, e.addrs.headD 0, storeBytes e.sz d)]
/-- The runs of a scatter entry: one per lane, ascending. -/
def scatterRuns (e : AqEntry) (d : Vec) : List Chunk :=
  (upto 64).map (fun i => (i, e.addrs.getD i 0, leBytes (szBytes e.sz) (lane d i).toNat))

/-- ST and STX: on a class-F page samples taken unchanged (R163), else the stores. -/
def storeEntry (na full : Bool) (runs : AqEntry → Vec → List Chunk) (e : AqEntry) (d : Vec) (s : State) : Res :=
  if e.page.cl = 3 ∧ e.page.ps ≠ 3 then sampleEntry e d (fun _ w => (w, 0)) s
  else storeRuns e (na || e.na) full (runs e d) s

/-- ST. -/
def execSt (o : StArgs) (s : State) : Out :=
  routed 3 (.st o) o.tk (sAccess true false o.sz o.sys (storeEntry o.na false plainRuns)) s
/-- STX. -/
def execStx (o : StArgs) (s : State) : Out :=
  routed 3 (.stx o) o.tk (sAccess false true o.sz o.sys (storeEntry o.na false scatterRuns)) s

/-- STF: as ST, then every granule it touches through h0 is full (R162); on a class-F page FILTER_ACCESS. -/
def stfEntry (na : Bool) (e : AqEntry) (d : Vec) (s : State) : Res :=
  if e.onF then .fault (.at cFilter (e.addrs.headD 0) e.page.rgn) s
  else storeRuns e (na || e.na) true (plainRuns e d) s
/-- STF. -/
def execStf (o : StArgs) (s : State) : Out := routed 3 (.stf o) o.tk (sAccess true false o.sz o.sys (stfEntry o.na)) s

/-! ### Reductions (R164, R165) -/

/-- One element of a reduction. -/
def redElem (e : AqEntry) (u : Upd) (ty : Nat) (c na : Bool) (a : Nat) (d : Word) (s : State) : State :=
  let t := s.cten
  let core := coreOf s.ctx.k
  if e.h.val = 0 then
    match s.padStretches core (e.padPage s t) a 4 with
    | x :: _ => s.updMem t core u x d.toNat
    | [] => s.putSpad core a (leBytes 4 (u.word (s.valAt (.spad core) a 4) d.toNat))
  else
    let x : Stretch := ⟨e.page, a, 4⟩
    if c && s.holdsC core e.page x.pa na then
      (((s.touchLeaf e.page true).pinTouch x.page.hh x.pa 4).meterMem t x true).updC core (isU s.ctx.k) u ty e.page.cl x.pa d.toNat
    else (s.updMem t core u x d.toNat).usedUp s.ctx.k e.page.hh x.pa 4

/-- A number for an operation in a request to another home, beside those of AMO (R189). -/
def Upd.aop (u : Upd) : Nat := 16 + u.code

/-- The elements of a reduction as runs of its entry, with their lanes. -/
def redRuns (xs : List (Nat × Word)) : List Chunk := (upto xs.length).map (fun i => (i, (xs.getD i (0, 0)).1, leBytes 4 (xs.getD i (0, 0)).2.toNat))

/-- RED on an entry: each element is an access of its own (R164). -/
def redEntry (o : RedArgs) (e : AqEntry) (d : Vec) (s : State) : Res :=
  let k := s.ctx.k
  let core := coreOf k
  if e.onF then .fault (.at cFilter (e.addrs.headD 0) e.page.rgn) s
  else
    let u := redUpd o.op o.ty
    let runs := redRuns (e.elems 4 d)
    let gs := if s.inParts runs.length then runs.map (fun r => [r]) else [runs]
    nextPart k 3 [e.page] ((s.runStretches k e runs).map (·.2.1)) gs.length (fun j s =>
      let rs := gs.getD j []
      match (if e.h.val = 0 then rs.find? (fun r => (s.core core).spadBad r.2.1 4) else none) with
      | some r => .fault { FInfo.of cUncorrectable 0 with lane := if e.scatter then r.1 else 0 } s
      | none =>
        let st := s.runStretches k e rs
        (s.gateRuns (k * 8 + 3) k true false (if e.scatter then st else st.map (fun x => (0, x.2)))
            (fun bs => .update u.aop false (BitVec.ofNat 64 (leVal bs)) 0)).bind (fun _ s =>
          let s := s.stamp k true (st.map (·.2.1))
          .ok [] (rs.foldl (fun s r =>
            redElem e u (Ty.code o.ty) o.c (o.na || e.na) r.2.1 (BitVec.ofNat 32 (leVal r.2.2)) { s with freeCtr := s.freeCtr + 1 }) s)))
      (fun _ s => .done s) s

/-- RED: a scatter entry only with .w (R158). -/
def execRed (o : RedArgs) (s : State) : Out :=
  routed 3 (.red o) o.tk (sAccess true (o.sz == .w) o.sz o.sys (redEntry o)) s

/-! ### Samples and ticks (R166, R167) -/

/-- The sample value of SMP from lane data, with the flags of conversion and squaring. -/
def smpConv (o : SmpArgs) (rm : Rm) (r : Region) (w : Word) : Word × Nat :=
  let d := w.toNat
  let out := fun (x : FR) => ((BitVec.ofNat 32 x.1 : Word), x.2)
  if o.f32 then
    if r.fp then (if o.sq then out (mulV f32 rm (unpack f32 d) (unpack f32 d)) else (w, 0))
    else
      let v : FVal :=
        if o.sq then
          match unpack f32 d with
          | .nan s => .nan s
          | .inf _ => .inf false
          | .fin x => .fin (x.mul x)
        else unpack f32 d
      out (floatToInt true 32 r.f rm v)
  else if r.fp then (if o.sq then out (mulV f32 rm (unpack f32 d) (unpack f32 d)) else (w, 0))
  else if o.sq then
    let z := rndsh (i32 d * i32 d) r.f rm
    out (wrap 32 (sat32 z), if sat32 z != z then fClamp else flagIf ((i32 d * i32 d) % 2 ^ r.f != 0) fNX)
  else (w, 0)

/-- The rounding that rmode names (R14). -/
def rmOf (w : Word) : Rm := Rm.ofCode (w.toNat % 4)

/-- Is an older FLGRD or FLGCLR still waiting in X (R16, R156)? -/
def Part.olderFlagRead (p : Part) (q : Nat) : Bool :=
  p.pendX.any (fun r => decide (r.seq < q) && (match r.instr with | .flgrd _ => true | .flgclr _ => true | _ => false))

/-- SMP on an entry: the page must be of class F. -/
def smpEntry (o : SmpArgs) (e : AqEntry) (d : Vec) (s : State) : Res :=
  let p := s.part s.ctx.k
  if e.page.cl ≠ 3 ∨ e.page.ps = 3 then .fault (.at cFilter (e.addrs.headD 0) 0xFFFF) s
  else if p.olderCtl s.ctx.seq [1, 6] || p.olderFlagRead s.ctx.seq then .wait 7 s
  else sampleEntry e d (smpConv o (rmOf p.rmode)) s

/-- SMP. -/
def execSmp (o : SmpArgs) (s : State) : Out := routed 3 (.smp o) o.tk (sAccess true (o.sz == .w) o.sz false (smpEntry o)) s

/-- TICK (R167): the checks, the waits for earlier accesses and samples and for room at every channel, then the tick is sequenced. -/
def tickBody (ev : Fin 16) (sc : Scope) (rg : BitVec 16) (s : State) : Res :=
  let k := s.ctx.k
  let t := s.cten
  let p := s.part k
  match (if rg.toNat < 256 then Map.find? (s.ten t).regs rg.toNat else none) with
  | none => .fault (.of cFilter rg.toNat) s
  | some r =>
    if r.retiring || r.auto then .fault (.of cFilter rg.toNat) s
    else if sc == .sys && !s.sysOk t then .fault (.of cScope 6) s
    else if !s.mayAccess k 3 s.ctx.seq && (sc == .sys || s.olderKept k 1 s.ctx.seq || !s.clear k s.ctx.seq) || !s.tickRoom r then .wait 7 s
    else .done (((if sc == .sys then s.forget k else s).stamp k true []).sequenceTick t rg.toNat r k p.iter ev.val s.ctx.seq)

/-- TICK. -/
def execTick (tk : Tk) (ev : Fin 16) (sc : Scope) (rg : BitVec 16) (s : State) : Out :=
  routed 3 (.tick tk ev sc rg) tk (tickBody ev sc rg) s

/-! ### Pushes to the engines (R168 to R170) -/

/-- The words for which a ring has room (R26). -/
def Ring.free (g : Ring) : Nat := g.size / 8 - (g.prod - g.cons)

/-- Push words: each goes to the ring's place in scratchpad, and the producer index advances. -/
def State.pushWords (s : State) (k e : Nat) : List DWord → State
  | [] => s
  | w :: rest =>
    let g := (s.part k).ring e
    ((s.putSpad (coreOf k) (g.base + 8 * (g.prod % (g.size / 8))) (leBytes 8 w.toNat)).modRing k e
      (fun g => { g with prod := g.prod + 1 })).pushWords k e rest

/-- Dwords 0 to n - 1 of a vector. -/
def dwordsOf (v : Vec) (n : Nat) : List DWord :=
  (upto n).map (fun i => BitVec.ofNat 64 ((lane v (2 * i)).toNat + 2 ^ 32 * (lane v (2 * i + 1)).toNat))

/-- May a push go: every older access of the strand is performed but for plain ones of host memory, and no fence holds it (R103, R168). -/
def State.mayPush (s : State) (k q : Nat) : Bool := !s.olderKept k 1 q && !s.fenced k q

/-- A fence placed before words were pushed that come before it in program order waits for their commands too (R103). -/
def Part.fencePush (p : Part) (e q : Nat) : Part :=
  { p with fences := p.fences.map (fun f => if q < f.seq then { f with idx := Map.put f.idx e (p.ring e).prod } else f) }

/-- Push the words of an instruction at the head of S in order, as many as have room; `owed` at 9 counts those already pushed, and the
instruction is done, with its element popped, when the last is in (R168). Those pushed stay pushed where WATCHDOG stops it
(notes/assumptions/16.md). -/
def pushBody (e : Nat) (ws : List DWord) (pop : Part → Part) (s : State) : Res :=
  let k := s.ctx.k
  let p := s.part k
  let went := Map.get 0 p.owed 9
  let m := if s.ctx.first ∧ (p.ring e).free < ws.length then 0 else min (ws.length - went) (p.ring e).free
  let s := (s.pushWords k e ((ws.drop went).take m)).modPart k (·.fencePush e s.ctx.seq)
  if ws.length ≤ went + m then .done (s.modPart k (fun p => { pop p with owed := Map.del p.owed 9 }))
  else if m = 0 ∧ went = 0 then .wait 3 s
  else .wait 3 (s.modPart k (fun p => { p with owed := Map.put p.owed 9 (went + m) }))

/-- ENQ. -/
def enqBody (e : Fin 4) (cnt : Fin 32) (s : State) : Res :=
  match (s.part s.ctx.k).sd with
  | [] => .wait 2 s
  | d :: rest =>
    if !s.mayPush s.ctx.k s.ctx.seq then .wait 7 s
    else pushBody e.val (dwordsOf d (cnt.val + 1)) (fun p => { p with sd := rest }) s

/-- ENQ. -/
def execEnq (tk : Tk) (e : Fin 4) (cnt : Fin 32) (s : State) : Out := routed 3 (.enq tk e cnt) tk (enqBody e cnt) s

/-- The dwords of a run of bytes. -/
def dwordsIn (n : Nat) (bs : List Byte) : List DWord := (upto n).map (fun i => BitVec.ofNat 64 (leVal ((bs.drop (8 * i)).take 8)))

/-- The checks of ENQM on its entry, for n dwords (R158, R168). -/
def State.enqmCheck (s : State) (x : AqEntry) (n : Nat) : Option FInfo :=
  let a := x.addrs.headD 0
  if x.scatter || x.sz != .d || x.h != 0 || !inSpad (isU s.ctx.k) a (8 * n) then some (.of cQueue 2)
  else (((s.core (coreOf s.ctx.k)).padParts a (8 * n)).head?).map (fun y => .at cPaddock y.glob y.idx)

/-- ENQM (R29, R168): reads its dwords from scratchpad at its own place in S, a granule at a time where the machine performs accesses in parts; its checks
are made before. Then it pushes them as the ring has room. -/
def enqmBody (e : Fin 4) (cnt : Fin 32) (s : State) : Res :=
  let k := s.ctx.k
  let p := s.part k
  let core := coreOf k
  let n := cnt.val + 1
  match p.aq with
  | [] => .wait 2 s
  | x :: rest =>
    let a := x.addrs.headD 0
    let push := fun (bs : List Byte) (s : State) => pushBody e.val (dwordsIn n bs) (fun p => { p with aq := rest })
      (s.modPart k (fun p => { p with flight := Map.put p.flight 3 ⟨[h0Page], 0, bs⟩ }))
    let all := match Map.find? p.flight 3 with
      | some f => f.data
      | none => []
    if all.length = 8 * n then push all s
    else
      match (if s.begun k 3 then none else s.enqmCheck x n) with
      | some f => .fault f s
      | none =>
        if !s.mayPlain k 3 s.ctx.seq false (h0Page, [(a, 8 * n)]) then .wait 7 s
        else
          let gs := if s.inParts (cutAt 16 a (8 * n)).length then cutAt 16 a (8 * n) else [(a, 8 * n)]
          nextPart k 3 [h0Page] [] gs.length (fun i s =>
            let g := gs.getD i (a, 0)
            if (s.core core).spadBad g.1 g.2 then .fault (.of cUncorrectable 0) s
            else .ok (s.bytesAt (.spad core) g.1 g.2) (s.stamp k false [])) push s

/-- ENQM. -/
def execEnqm (tk : Tk) (e : Fin 4) (cnt : Fin 32) (s : State) : Out := routed 3 (.enqm tk e cnt) tk (enqmBody e cnt) s

/-- FMTQ: the word {fmth, IMM32}, with fmth as the last older CTLW left it (R16, R169). -/
def fmtqBody (imm : Word) (s : State) : Res :=
  let k := s.ctx.k
  let p := s.part k
  if p.olderCtl s.ctx.seq [0] then .wait 7 s
  else if 32 ≤ p.fmtq.length then .wait 4 s
  else .done (s.setPart k { p with fmtq := p.fmtq ++ [BitVec.ofNat 64 (p.fmth.toNat * 2 ^ 32 + imm.toNat)] })

/-- FMTQ. -/
def execFmtq (tk : Tk) (imm : Word) (s : State) : Out := routed 3 (.fmtq tk imm) tk (fmtqBody imm) s

/-- TKS: n tokens towards engine E, one at a time as room appears; `owed` at 8 counts those already pushed. -/
def tksBody (e : Fin 4) (cnt : Fin 32) (s : State) : Res :=
  let k := s.ctx.k
  let p := s.part k
  let went := Map.get 0 p.owed 8
  let have_ := Map.get 0 p.strTok e.val
  let m := if s.ctx.first ∧ Config.engTokDepth < have_ + (cnt.val + 1) then 0 else min (cnt.val + 1 - went) (Config.engTokDepth - have_)
  if !s.mayPush k s.ctx.seq then .wait 7 s
  else
    let p := { p with strTok := Map.put p.strTok e.val (have_ + m) }
    if m = 0 ∧ went = 0 then .wait 0 s
    else if went + m = cnt.val + 1 then .done (s.setPart k { p with owed := Map.del p.owed 8 })
    else .wait 0 (s.setPart k { p with owed := Map.put p.owed 8 (went + m) })

/-- TKS. -/
def execTks (tk : Tk) (e : Fin 4) (cnt : Fin 32) (s : State) : Out := routed 3 (.tks tk e cnt) tk (tksBody e cnt) s

end Sys2Proof.Machine
end

