-- ==== Sys2Proof/Machine/EngineOps.lean ====
section
/-! DEFINITION. What the engines share: address dwords (R175), word accesses (R176, R177), elements with their progress (R208), and
reads of a command's context. -/
namespace Sys2Proof.Machine

/-! ### Address dwords (R175) -/

/-- An engine address: scratchpad of the core, or virtual. -/
structure EA where
  spd : Bool
  a : Nat
  deriving DecidableEq, Repr

/-- The address a dword names. -/
def eaDword (w : DWord) : EA := ⟨bit w.toNat 63, bits w.toNat 0 52⟩

/-- Are the reserved bits of an address dword zero? -/
def dwOk (w : DWord) : Bool := bits w.toNat 52 11 == 0 && (!bit w.toNat 63 || bits w.toNat 22 30 == 0)

/-- May an address dword stand for n bytes: reserved bits zero, and a scratchpad range inside the window? -/
def rangeOk (u : Bool) (w : DWord) (n : Nat) : Bool := dwOk w && (!(eaDword w).spd || n == 0 || inSpad u (eaDword w).a n)

/-- Is it a virtual address dword? -/
def vaOk (w : DWord) : Bool := dwOk w && !bit w.toNat 63

/-- An address further on. -/
def EA.at (x : EA) (off : Nat) : EA := { x with a := x.a + off }

/-! ### Elements -/

/-- The requester of engine e of copy k. -/
def engWho (k e : Nat) : Nat := k * 8 + 4 + e

/-- Has every earlier command of a ring finished, so that the one in execution is the first? -/
def State.ringFirst (s : State) (k e : Nat) : Bool :=
  let g := (s.part k).ring e
  let c := s.curOf k e
  (g.more ++ g.bad).all (fun d => decide (c.iter < d.iter) || (d.iter == c.iter && decide (c.idx < d.idx)))

/-- ENGINE_COMMAND on an operand. -/
def badCmd (s : State) : Res := .fault (.of cEngine 0) s

/-- The count of the accesses of an element starts anew: how many this step may perform. -/
def State.counting (s : State) (room : Option Nat) : State := { s with ctx := { s.ctx with nth := 0, room := room } }

/-- One access of the element in progress, a place of its own in S (R176). One that an earlier step has performed gives what it gave then; where this step may
perform no further one, the element waits. -/
def State.access (s : State) (k e : Nat) (f : State → Eff Nat) : Eff Nat :=
  match (s.curOf k e).seen[s.ctx.nth]? with
  | some v => .ok v { s with ctx := { s.ctx with nth := s.ctx.nth + 1 } }
  | none =>
    match s.ctx.room with
    | none => f s
    | some 0 => .wait 7 s
    | some (n + 1) =>
      (f s).bind (fun v s =>
        .ok v ({ s with ctx := { s.ctx with nth := s.ctx.nth + 1, room := some n } }.modCur k e (fun c => { c with seen := c.seen ++ [v] })))

/-- An element whose accesses are performed one in a step: first all is tried, so that one that faults performs nothing (R208); then each step performs the next.
Where one faults all the same, for what has changed between two steps, those performed stand, and a RETRY goes on after them. -/
def State.fineElement (s : State) (k e : Nat) (f : State → Res) : Res :=
  let who := engWho k e
  match (if ((s.curOf k e).seen).isEmpty then f (s.counting none) else .done s) with
  | .wait w t => .wait w (s.waiting t)
  | .fault i t => .fault i ({ s with reqs := t.reqs }.endWalk who)
  | .done _ =>
    match f (s.counting (some 1)) with
    | .done t => .done (((t.modCur k e (fun c => { c with seen := [] })).counting none).endReqs who)
    | .wait w t => .wait w (t.counting none)
    | .fault i t => .fault i ((t.counting none).endWalk who)

/-- One element of a command: performed whole, or, when it waits or faults, not at all (R208); or access by access. -/
def State.element (s : State) (k e : Nat) (f : State → Res) : Res :=
  let who := engWho k e
  if s.budget = 0 ∨ (s.curOf k e).seen ≠ [] then s.fineElement k e f
  else
    match f s with
    | .done s' => .done (s'.endReqs who)
    | .wait w s' => .wait w (s.waiting s')
    | .fault i s' => .fault i ({ s with reqs := s'.reqs }.endWalk who)

/-- Elements i, i + 1, … below `total` in ascending order, at most `fuel` of them now; `unit` is what one counts in PROG. -/
def elemLoop (k e total unit : Nat) (f : Nat → State → Res) : Nat → Nat → State → Res
  | 0, i, s => if i < total then .wait 7 s else .done s
  | fuel + 1, i, s =>
    if total ≤ i then .done s
    else if (s.curOf k e).ahead.contains i then
      elemLoop k e total unit f fuel (i + 1) (s.modCur k e (fun c => { c with prog := (i + 1) * unit, ahead := c.ahead.erase i }))
    else
      match s.element k e (f i) with
      | .done s' => elemLoop k e total unit f fuel (i + 1) (s'.modCur k e (fun c => { c with prog := (i + 1) * unit }))
      | .wait w s' => .wait w s'
      | .fault g s' => .fault { g with prog := i * unit } s'

/-- The elements of a command from its progress point on. -/
def runElems (e total unit : Nat) (f : Nat → State → Res) (s : State) : Res :=
  let k := s.ctx.k
  let i := (s.curOf k e).prog / unit
  elemLoop k e total unit f (min (max 1 s.budget) (total - i)) i s

/-- A number for the place of a word of an engine's access: scratchpad, device memory or host memory. -/
def State.placeKey (s : State) (k : Nat) (x : EA) : Nat :=
  let core := coreOf k
  let at_ := fun (va : Nat) => match s.xlate (s.tenOf core) va with
    | some p => 3 * p.pa va + (if p.hh then 2 else 1)
    | none => 0
  if x.spd then
    match (s.core core).padAt x.a with
    | some (_, p) => at_ (p.glob + (x.a - p.spad))
    | none => 3 * x.a
  else at_ x.a

/-- The words of a run that an element touches. -/
def State.foot (s : State) (k : Nat) (x : EA) (words : Nat) (write : Bool) : List (Nat × Bool) :=
  (upto words).map (fun j => (s.placeKey k (x.at (4 * j)), write))

/-- A word as it stands, where it is mapped. -/
def State.peekWord (s : State) (k : Nat) (x : EA) : Nat :=
  if x.spd then s.valAt (.spad (coreOf k)) x.a 4
  else
    match s.xlate (s.tenOf (coreOf k)) x.a with
    | some p => s.valAt (spaceOf p.hh) (p.pa x.a) 4
    | none => 0

/-- What an element of a command touches: the place of each word, and whether it writes there. -/
abbrev Foot := Nat → State → List (Nat × Bool)

/-- Must two elements keep their order: do they touch one place, with a write? With `loose`, with two writes, since a copy may read a word before or after it
writes it (R187, R221). -/
def clash (loose : Bool) (x y : List (Nat × Bool)) : Bool :=
  x.any (fun a => y.any (fun b => a.1 == b.1 && (if loose then a.2 && b.2 else a.2 || b.2)))

/-- An element is performed ahead of those before it, if it must not follow one of them and can go at once; else nothing happens. -/
def State.pickElem (s : State) (k e : Nat) (i : Nat) (from_ : Nat) (loose : Bool) (foot : Foot) (f : Nat → State → Res) : Res :=
  let c := s.curOf k e
  let before := (upto (i - from_)).map (fun j => from_ + j)
  if c.ahead.contains i || before.any (fun j => !c.ahead.contains j && clash loose (foot j s) (foot i s)) then .wait 7 s
  else
    match f i s with
    | .done t => .wait 7 ((t.endReqs (engWho k e)).modCur k e (fun c => { c with ahead := c.ahead ++ [i] }))
    | _ => .wait 7 s

/-- The elements of a command whose accesses to different places are unordered (R221). -/
def runFree (e total unit : Nat) (loose : Bool) (foot : Foot) (f : Nat → State → Res) (s : State) : Res :=
  let k := s.ctx.k
  let at_ := (s.curOf k e).prog / unit
  match s.ctx.pick with
  | some i => if at_ < i ∧ i < total then s.pickElem k e i at_ loose foot f else .wait 7 s
  | none => runElems e total unit f s

/-! ### Accesses of an engine (R176) -/

/-- The table reads that an access of an engine needs (R339). -/
def State.engWalks (s : State) (k e : Nat) (x : EA) (n : Nat) : Eff Unit :=
  let t := s.tenOf (coreOf k)
  if x.spd then s.padWalks (engWho k e) t (coreOf k) x.a n else s.walks (engWho k e) t [x.a]

/-- Read n bytes at a translated address at once. -/
def State.engReadOn (s : State) (k e : Nat) (x : EA) (n : Nat) : Eff Nat :=
  let core := coreOf k
  let t := s.tenOf core
  let who := engWho k e
  if x.spd then
    if x.a % n ≠ 0 then .fault (.at cMisaligned x.a 0) s
    else ((s.padFill who t core x.a n).keep s).bind (fun _ s => .ok (s.valAt (.spad core) x.a n) ((s.stampAgent false []).padTouch t core x.a n))
  else
    match s.xlate t x.a with
    | none => if x.a % n ≠ 0 then .fault (.at cMisaligned x.a 0) s else .fault (.at cTranslation x.a 0) s
    | some p =>
      let st : Stretch := ⟨p, x.a, n⟩
      if p.cl = 3 then
        match s.cellFor t n x.a p with
        | none => .fault (.at cFilter x.a p.rgn) s
        | some (r, c) =>
          ((s.gate who t [st] []).eff.keep s).bind (fun _ s =>
            .ok (s.cell r c).y.toNat ((((s.stampAgent false []).touchLeaf p false).pinTouch false st.pa n).meterMem t st false))
      else if x.a % n ≠ 0 then .fault (.at cMisaligned x.a 0) s
      else
        ((s.gate who t [st] []).eff.keep s).bind (fun _ s =>
          .ok (s.valAt (spaceOf p.hh) st.pa n) ((s.stampAgent false [st]).readSide t st (.engine core)))

/-- Read n bytes at an address at once. -/
def State.engReadAt (s : State) (k e : Nat) (x : EA) (n : Nat) : Eff Nat := (s.engWalks k e x n).bind (fun _ s => s.engReadOn k e x n)

/-- Read n bytes, a word or a dword, at an address. -/
def State.engRead (s : State) (k e : Nat) (x : EA) (n : Nat) : Eff Nat :=
  s.access k e (fun s => s.engReadAt k e x n)

/-- Read a run of words as bytes: those that cover [off, off + n - 1] from a base. -/
def State.engBytes (s : State) (k e : Nat) (x : EA) (off n : Nat) : Eff (List Byte) :=
  let first := off / 4
  let words := if n = 0 then [] else (upto ((off + n - 1) / 4 - first + 1)).map (fun j => first + j)
  (words.foldl (fun (r : Eff (List Byte)) w =>
      r.bind (fun bs s => (s.engRead k e (x.at (4 * w)) 4).bind (fun v s => .ok (bs ++ leBytes 4 v) s))) (.ok [] s)).bind
    (fun bs s => .ok ((bs.drop (off % 4)).take n) s)

/-- Bytes of whole words: `count` words from word `first` on from a base. -/
def State.engSpan (s : State) (k e : Nat) (x : EA) (first count : Nat) : Eff (List Byte) :=
  (upto count).foldl (fun (r : Eff (List Byte)) j =>
    r.bind (fun bs s => (s.engRead k e (x.at (4 * (first + j))) 4).bind (fun v s => .ok (bs ++ leBytes 4 v) s))) (.ok [] s)

/-- Write n bytes at a translated address at once; scratchpad granules become full; on a class-F page it is a sample. -/
def State.engWriteOn (s : State) (k e : Nat) (x : EA) (n v : Nat) : Eff Nat :=
  let core := coreOf k
  let t := s.tenOf core
  let who := engWho k e
  let bs := leBytes n v
  if x.spd then
    if x.a % n ≠ 0 then .fault (.at cMisaligned x.a 0) s
    else
      match s.padStoreCheck t core x.a n 1 with
      | some f => .fault f s
      | none =>
        let pg := fun (g : Nat) => s.xlate t g
        let xs := s.padStretches core pg x.a n
        ((s.gate who t [] xs false (xs.map (fun y => (y.pa, .write bs))) true).eff.keep s).bind (fun _ s =>
          .ok 0 ((((s.stampAgent true []).padTouch t core x.a n).spadStore t core pg x.a bs).modCore core (·.setFull x.a n)))
  else
    match s.xlate t x.a with
    | none => if x.a % n ≠ 0 then .fault (.at cMisaligned x.a 0) s else .fault (.at cTranslation x.a 1) s
    | some p =>
      let st : Stretch := ⟨p, x.a, n⟩
      if p.cl != 3 && x.a % n != 0 then .fault (.at cMisaligned x.a 0) s
      else if !p.w then .fault (.at cProtection x.a 1) s
      else if p.cl = 3 then
        match s.cellFor t n x.a p with
        | none => .fault (.at cFilter x.a p.rgn) s
        | some (r, c) =>
          ((s.gate who t [] [st]).eff.keep s).bind (fun _ s =>
            .ok 0 ((((s.stampAgent true []).touchLeaf p true).meterMem t st true).sample t p.rgn r c (BitVec.ofNat 32 v)))
      else
        ((s.gate who t [] [st] false [(st.pa, .write bs)]).eff.keep s).bind (fun _ s =>
          .ok 0 (((s.stampAgent true [st]).writeSide t st (.engine core)).putVal (spaceOf p.hh) st.pa n v))

/-- Write n bytes at an address at once. -/
def State.engWriteAt (s : State) (k e : Nat) (x : EA) (n v : Nat) : Eff Nat := (s.engWalks k e x n).bind (fun _ s => s.engWriteOn k e x n v)

/-- Write n bytes, a word or a dword. -/
def State.engWrite (s : State) (k e : Nat) (x : EA) (n v : Nat) : Res :=
  (s.access k e (fun s => s.engWriteAt k e x n v)).run (fun _ s => .done s)

/-- One indivisible read-modify-write at a translated address: the old value; `op` says it to a home outside. With `c` it may be held as a partial in state C (R165, R188). -/
def State.engRmwOn (s : State) (k e : Nat) (x : EA) (n : Nat) (f : Nat → Nat) (op : MemOp) (c : Option (Upd × Nat × Nat)) : Eff Nat :=
  let core := coreOf k
  let t := s.tenOf core
  let who := engWho k e
  let home := fun (st : Stretch) (s : State) =>
    let old := s.valAt (spaceOf st.page.hh) st.pa n
    Eff.ok old ((s.writeSide t st (rmwVia st.page core)).putVal (spaceOf st.page.hh) st.pa n (f old))
  if x.spd then
    if x.a % n ≠ 0 then .fault (.at cMisaligned x.a 0) s
    else
      match firstFault [s.padStoreCheck t core x.a n 3, s.padNoCell t core x.a n] with
      | some g => .fault g s
      | none =>
        match s.padStretches core (fun g => s.xlate t g) x.a n with
        | [] =>
          if (s.core core).spadBad x.a n then .fault (.of cUncorrectable 0) s
          else
            let old := s.valAt (.spad core) x.a n
            .ok old (((s.stampAgent true []).putSpad core x.a (leBytes n (f old))).modCore core (·.setFull x.a n))
        | st :: more =>
          ((s.gate who t (st :: more) (st :: more) false [(st.pa, op)]).eff.keep s).bind (fun _ s =>
            home st ((s.stampAgent true [st]).modCore core (·.setFull x.a n)))
  else
    match s.xlate t x.a with
    | none => if x.a % n ≠ 0 then .fault (.at cMisaligned x.a 0) s else .fault (.at cTranslation x.a 3) s
    | some p =>
      let st : Stretch := ⟨p, x.a, n⟩
      if p.cl != 3 && x.a % n != 0 then .fault (.at cMisaligned x.a 0) s
      else if !p.w then .fault (.at cProtection x.a 3) s
      else if p.cl = 3 then .fault (.at cFilter x.a p.rgn) s
      else
        ((s.gate who t [st] [st] false [(st.pa, op)]).eff.keep s).bind (fun _ s =>
          let s := s.stampAgent true [st]
          match c with
          | some (u, ty, d) =>
            if s.holdsC core p st.pa false then
              .ok (s.valAt .dev st.pa n) ((((s.touchLeaf p true).pinTouch p.hh st.pa n).meterMem t st true).updC core (isU k) u ty p.cl st.pa d)
            else home st s
          | none => home st s)

/-- The same at an address that is translated first. -/
def State.engRmwAt (s : State) (k e : Nat) (x : EA) (n : Nat) (f : Nat → Nat) (op : MemOp) (c : Option (Upd × Nat × Nat)) : Eff Nat :=
  (s.engWalks k e x n).bind (fun _ s => s.engRmwOn k e x n f op c)

/-- One indivisible read-modify-write: the old value. -/
def State.engRmw (s : State) (k e : Nat) (x : EA) (n : Nat) (f : Nat → Nat) (op : MemOp) (c : Option (Upd × Nat × Nat)) : Eff Nat :=
  s.access k e (fun s => s.engRmwAt k e x n f op c)

/-- Copy n bytes, a multiple of 4, word by word. -/
def State.engMove (s : State) (k e : Nat) (src dst : EA) (n : Nat) : Res :=
  (upto (n / 4)).foldl (fun (r : Res) j =>
    r.andThen (fun s => (s.engRead k e (src.at (4 * j)) 4).run (fun v s => s.engWrite k e (dst.at (4 * j)) 4 v))) (.done s)

/-- Write words at consecutive places. -/
def State.engPutWords (s : State) (k e : Nat) (dst : EA) (ws : List Nat) : Res :=
  ((upto ws.length).foldl (fun (r : Res) j => r.andThen (fun s => s.engWrite k e (dst.at (4 * j)) 4 (ws.getD j 0))) (.done s))

/-- Read n words at consecutive places. -/
def State.engWords (s : State) (k e : Nat) (src : EA) (n : Nat) : Eff (List Nat) :=
  (upto n).foldl (fun (r : Eff (List Nat)) j =>
    r.bind (fun ws s => (s.engRead k e (src.at (4 * j)) 4).bind (fun v s => .ok (ws ++ [v]) s))) (.ok [] s)

end Sys2Proof.Machine
end

