-- ==== Sys2Proof/Machine/Copy.lean ====
section
/-! DEFINITION. The copy engine C (R186 to R190, R192, R261, R262), but for the merge commands and RESUME. -/
namespace Sys2Proof.Machine

/-! ### COPY, COPYN, FILL (R187) -/

/-- Bytes of a COPY, FILL, ACW or PFTT: a multiple of 4, or ENGINE_COMMAND. -/
def lenOk (n : Nat) : Bool := n % 4 == 0

/-- Read a source word of a copy command: one that the command has written itself stands as before that write or as after it (R187). -/
def State.copyRead (s : State) (k i : Nat) (x : EA) : Eff Nat :=
  s.access k 1 (fun s =>
    (s.engReadAt k 1 x 4).bind (fun v s =>
      let c := s.curOf k 1
      match Map.find? c.was (s.placeKey k x) with
      | some w => .ok (if Config.overlapRead k c.iter c.idx i then w.toNat else v) s
      | none => .ok v s))

/-- The word at a place as it stands: of a class-F page tap Y of its cell. -/
def State.wordNow (s : State) (k : Nat) (x : EA) : Nat :=
  let core := coreOf k
  let t := s.tenOf core
  let at_ := fun (va : Nat) (none_ : Nat) =>
    match s.xlate t va with
    | some p =>
      (match s.cellFor t 4 va p with
        | some (r, c) => (s.cell r c).y.toNat
        | none => s.valAt (spaceOf p.hh) (p.pa va) 4)
    | none => none_
  if x.spd then
    let here := s.valAt (.spad core) x.a 4
    match (s.core core).padAt x.a with
    | some (_, p) => at_ (p.glob + (x.a - p.spad)) here
    | none => here
  else at_ x.a 0

/-- Write words of a copy command, noting what stood there before the first write of each: one word, or two of a dword. -/
def State.copyWrite (s : State) (k : Nat) (x : EA) (n v : Nat) : Res :=
  (s.access k 1 (fun s =>
    let was := (upto (n / 4)).map (fun j =>
      let y := x.at (4 * j)
      (s.placeKey k y, s.wordNow k y))
    (s.engWriteAt k 1 x n v).bind (fun r s =>
      .ok r (s.modCur k 1 (fun c => { c with
        was := was.foldl (fun m e => if (Map.find? m e.1).isSome then m else Map.put m e.1 (BitVec.ofNat 32 e.2)) c.was }))))).run
    (fun _ s => .done s)

/-- COPY. -/
def copyBody (len : BitVec 40) (src dst : DWord) (s : State) : Res :=
  let k := s.ctx.k
  let n := len.toNat
  if !lenOk n || !rangeOk (isU k) src n || !rangeOk (isU k) dst n then badCmd s
  else
    runFree 1 (n / 4) 4 true (fun i s => s.foot k ((eaDword src).at (4 * i)) 1 false ++ s.foot k ((eaDword dst).at (4 * i)) 1 true) (fun i s =>
      (s.copyRead k i ((eaDword src).at (4 * i))).run (fun v s => s.copyWrite k ((eaDword dst).at (4 * i)) 4 v)) s

/-- COPY. -/
def execCopy (hd : Hdr) (len : BitVec 40) (src dst : DWord) (s : State) : Out := engineCmd 1 hd (copyBody len src dst) s

/-- Element size of COPYN. -/
def esize (e : Nat) : Nat := if e = 0 then 4 else if e = 1 then 8 else if e = 2 then 16 else 256

/-- The counts of COPYN. -/
def CopynExt.count (x : CopynExt) (d : Nat) : Nat := bits x.counts.toNat (16 * d) 16 + 1

/-- A signed 32-bit field of a pair of dwords. -/
def strideOf (lo hi : DWord) (d : Nat) : Int := sext 32 (bits (if d < 2 then lo.toNat else hi.toNat) (32 * (d % 2)) 32)

/-- Are the counts and strides of unused dimensions zero? -/
def copynDims (x : CopynExt) (ndim : Nat) : Bool :=
  (upto 4).all (fun d => decide (d < ndim)
    || (CopynExt.count x d == 1 && strideOf x.s01 x.s23 d == 0 && strideOf x.d01 x.d23 d == 0))

/-- Index of dimension d in the tuple of position i, dimension 0 fastest. -/
def copynIx (x : CopynExt) (i d : Nat) : Nat :=
  i / ((upto d).foldl (fun n j => n * CopynExt.count x j) 1) % CopynExt.count x d

/-- The byte distance of element i from a base. -/
def copynOff (x : CopynExt) (lo hi : DWord) (i : Nat) : Int :=
  ((upto 4).map (fun d => (copynIx x i d : Int) * strideOf lo hi d)).sum

/-- An address at a signed distance, modulo 2^64. -/
def EA.shift (x : EA) (d : Int) : EA := { x with a := wrap 64 ((x.a : Int) + d) }

/-- The range of all elements from a base lies in the scratchpad window. -/
def copynRange (u : Bool) (w : DWord) (x : CopynExt) (lo hi : DWord) (esz : Nat) : Bool :=
  let far := fun (neg : Bool) => ((upto 4).map (fun d =>
    let y := ((CopynExt.count x d : Int) - 1) * strideOf lo hi d
    if decide (y < 0) == neg then y else 0)).sum
  let low : Int := ((eaDword w).a : Int) + far true
  dwOk w && (!(eaDword w).spd || (decide (0 ≤ low) && inSpad u low.toNat ((far false - far true).toNat + esz)))

/-- Where element i of a COPYN is read and where it is written. -/
def copynFrom (x : CopynExt) (i : Nat) : EA := (eaDword x.src).shift (copynOff x x.s01 x.s23 i)
/-- Where it is written. -/
def copynTo (x : CopynExt) (i : Nat) : EA := (eaDword x.dst).shift (copynOff x x.d01 x.d23 i)
/-- How many elements a COPYN has. -/
def copynTotal (x : CopynExt) : Nat := (upto 4).foldl (fun m d => m * CopynExt.count x d) 1

/-- Read a source dword of a copy command: its words as `copyRead` does. -/
def State.copyRead8 (s : State) (k i : Nat) (x : EA) : Eff Nat :=
  s.access k 1 (fun s =>
    (s.engReadAt k 1 x 8).bind (fun v s =>
      let c := s.curOf k 1
      let old := fun (j w : Nat) => match Map.find? c.was (s.placeKey k (x.at (4 * j))) with
        | some b => if Config.overlapRead k c.iter c.idx i then b.toNat else w
        | none => w
      .ok (old 0 (v % 2 ^ 32) + 2 ^ 32 * old 1 (v / 2 ^ 32)) s))

/-- Move element i: a word, a dword, or a run of words. -/
def copynMove (k esz : Nat) (x : CopynExt) (i : Nat) (s : State) : Res :=
  if esz = 8 then (s.copyRead8 k (64 * i) (copynFrom x i)).run (fun v s => s.copyWrite k (copynTo x i) 8 v)
  else
    (upto (esz / 4)).foldl (fun (r : Res) j =>
      r.andThen (fun s => (s.copyRead k (64 * i + j) ((copynFrom x i).at (4 * j))).run (fun v s => s.copyWrite k ((copynTo x i).at (4 * j)) 4 v)))
      (.done s)

/-- COPYN. -/
def copynBody (esz ndim : Fin 4) (x : CopynExt) (s : State) : Res :=
  let k := s.ctx.k
  let n := esize esz.val
  if !copynDims x (ndim.val + 1) || !copynRange (isU k) x.src x x.s01 x.s23 n || !copynRange (isU k) x.dst x x.d01 x.d23 n then badCmd s
  else
    runFree 1 (copynTotal x) 1 true (fun i s => s.foot k (copynFrom x i) (n / 4) false ++ s.foot k (copynTo x i) (n / 4) true) (copynMove k n x) s

/-- COPYN. -/
def execCopyn (hd : Hdr) (esz ndim : Fin 4) (x : CopynExt) (s : State) : Out := engineCmd 1 hd (copynBody esz ndim x) s

/-- FILL: the low or the high word of the pattern, by address bit 2. -/
def fillBody (len : BitVec 40) (dst pat : DWord) (s : State) : Res :=
  let k := s.ctx.k
  let n := len.toNat
  if !lenOk n || !rangeOk (isU k) dst n then badCmd s
  else
    runFree 1 (n / 4) 4 true (fun i s => s.foot k ((eaDword dst).at (4 * i)) 1 true) (fun i s =>
      let y := (eaDword dst).at (4 * i)
      s.engWrite k 1 y 4 (bits pat.toNat (if bit y.a 2 then 32 else 0) 32)) s

/-- FILL. -/
def execFill (hd : Hdr) (len : BitVec 40) (dst pat : DWord) (s : State) : Out := engineCmd 1 hd (fillBody len dst pat) s

/-! ### ACW and AMO (R188, R189) -/

/-- The operation of ACW. -/
def acwUpd (aop : Nat) : Option Upd :=
  match aop with
  | 0 => some .iadd | 1 => some .fadd | 2 => some .imin | 3 => some .imax | 4 => some .fmin | 5 => some .fmax | 6 => some .and
  | 7 => some .or | 8 => some .xor | _ => none

/-- The element type under which an L1D holds a partial of an operation. -/
def Upd.tyCode (u : Upd) : Nat :=
  match u with
  | .fadd | .fmin | .fmax => Ty.code .f32
  | .umin | .umax => Ty.code .u32
  | _ => Ty.code .i32

/-- ACW. -/
def acwBody (aop : Fin 16) (cs : Bool) (len : BitVec 36) (src dst : DWord) (s : State) : Res :=
  let k := s.ctx.k
  let n := len.toNat
  match acwUpd aop.val with
  | none => badCmd s
  | some u =>
    if !lenOk n || !rangeOk (isU k) src n || !rangeOk (isU k) dst n then badCmd s
    else
      runFree 1 (n / 4) 4 false (fun i s => s.foot k ((eaDword src).at (4 * i)) 1 false ++ s.foot k ((eaDword dst).at (4 * i)) 1 true) (fun i s =>
        (s.engRead k 1 ((eaDword src).at (4 * i)) 4).run (fun v s =>
          (s.engRmw k 1 ((eaDword dst).at (4 * i)) 4 (fun m => u.word m v) (.update u.aop false (BitVec.ofNat 64 v) 0) (if cs then some (u, u.tyCode, v) else none)).run (fun _ s =>
            .done s))) s

/-- ACW. -/
def execAcw (hd : Hdr) (aop : Fin 16) (cs : Bool) (len : BitVec 36) (src dst : DWord) (s : State) : Out :=
  engineCmd 1 hd (acwBody aop cs len src dst) s

/-- AMO on a value of w bits. -/
def amoOp (aop w old x y : Nat) : Nat :=
  match aop with
  | 0 => x
  | 1 => if old = y then x else old
  | 2 => (old + x) % 2 ^ w
  | 3 => (add32 .rne old x).1
  | 4 => old &&& x
  | 5 => old ||| x
  | 6 => old ^^^ x
  | 7 => if sext w x < sext w old then x else old
  | _ => if sext w old < sext w x then x else old

/-- The operand rules of AMO. -/
def amoOk (aop : Nat) (d : Bool) (operand comparand : DWord) : Bool :=
  decide (aop ≤ 8) && !(aop == 3 && d) && (aop == 1 || comparand == 0) && (d || bits operand.toNat 32 32 == 0)
    && (d || bits comparand.toNat 32 32 == 0)

/-- AMO: the old value goes to o0. -/
def amoBody (aop : Fin 16) (d : Bool) (tgt operand comparand : DWord) (s : State) : Res :=
  let k := s.ctx.k
  let n := if d then 8 else 4
  if !amoOk aop.val d operand comparand || !rangeOk (isU k) tgt n then badCmd s
  else
    match s.reserve k 1 1 with
    | none => .wait 7 s
    | some s =>
      s.element k 1 (fun s =>
        (s.engRmw k 1 (eaDword tgt) n (fun old => amoOp aop.val (8 * n) old operand.toNat comparand.toNat) (.update aop.val d operand comparand) none).run (fun old s =>
          .done (s.pushOut k 1 (vecOf64 (BitVec.ofNat 64 old)))))

/-- AMO. -/
def execAmo (hd : Hdr) (aop : Fin 16) (d : Bool) (tgt operand comparand : DWord) (s : State) : Out :=
  engineCmd 1 hd (amoBody aop d tgt operand comparand) s

/-! ### PFTT (R190) -/

/-- The scope of a bound PFTT's barrier: 1 to 5. -/
def pfttScope (n : Nat) : Option Scope :=
  match n with
  | 1 => some .quad | 2 => some .die | 3 => some .pkg | 4 => some .pod | 5 => some .ten | _ => none

/-- One arrival of the engine at an object: it joins no strand's arrivals. -/
def engArrive (key e drove : Nat) (s : State) : Res :=
  let t := s.tenOf (coreOf s.ctx.k)
  let o := s.bar key
  let d := s.droveIdOf key drove
  if barRemote key then anchorExchange (engWho s.ctx.k 1) e (.arrive t e s.pkg.pkgid.toNat d) (fun _ s => .done s) s
  else if o.c = 0 ∨ o.others s.pkg.pkgid.toNat d = true then .fault (misuse e) s
  else .done (s.arriveAt key t e d s.pkg.pkgid.toNat)

/-- A line comes into the MSC of its home on this package for a tenant, unless that holds it; a frozen stack makes it wait: none. -/
def State.intoMsc (s : State) (t line : Nat) : Option State :=
  if (Map.find? s.pkg.msc line).isSome then some s
  else if s.frozenAt (64 * line) then none
  else some (((s.atBank line).takeLine false t line false).meterMem t (physStretch (64 * line) 64 0) false)

/-- A prefetch that cannot be made is dropped: it never faults (R121). -/
def Res.orDrop (r : Res) (f : State → Res) : Res :=
  match r with
  | .done s => f s
  | .wait w s => .wait w s
  | .fault _ s => .done s

/-- One line of a PFTT: mapped, homed on a device and not of class F, it comes into the MSC of its home; any other is dropped. A home on another package is
asked for it. It is no access: no accessed bit, nothing counted but its traffic (R121). -/
def State.bringMsc (s : State) (who t va : Nat) : Res :=
  (s.walk1 who t va).orDrop (fun s =>
    match s.xlate t va with
    | none => .done s
    | some p =>
      let x : Stretch := ⟨{ p with ps := 3 }, va / 64 * 64, 64⟩
      if p.hh || p.cl == 3 then .done s
      else if !s.ours (p.pa va) then
        (s.gate who t [x] [] true [(x.pa, .bring)]).orDrop (fun s => .done (s.meterMem t x false))
      else
        match s.intoMsc t (p.pa va / 64) with
        | some s => .done s
        | none => .wait 7 s)

/-- How many lines [a, a + n - 1] touches. -/
def lineCount (a n : Nat) : Nat := if n = 0 then 0 else (a + n - 1) / 64 - a / 64 + 1

/-- PFTT: its lines come into the MSC one by one; a bound one then arrives at OB + N, without rotation. -/
def pfttBody (len : BitVec 40) (bo : Bool) (addr bar : DWord) (s : State) : Res :=
  let k := s.ctx.k
  let core := coreOf k
  let t := s.tenOf core
  let b := bar.toNat
  let a := (eaDword addr).a
  if !lenOk len.toNat || !vaOk addr || (!bo && bar != 0) || (bo && (bits b 13 51 != 0 || (pfttScope (bits b 4 3)).isNone)) then badCmd s
  else
    (runElems 1 (lineCount a len.toNat) 1 (fun i s => s.bringMsc (engWho k 1) t (64 * (a / 64 + i))) s).andThen (fun s =>
      if !bo then .done s
      else
        let e := bits b 7 6 + bits b 0 4
        match s.barKeyOf t core ((pfttScope (bits b 4 3)).getD .quad) e with
        | none => .fault (misuse e) s
        | some key => engArrive key e (s.curOf k 1).drove s)

/-- PFTT. -/
def execPftt (hd : Hdr) (len : BitVec 40) (bo : Bool) (addr bar : DWord) (s : State) : Out := engineCmd 1 hd (pfttBody len bo addr bar) s

/-! ### Pinned windows (R261 to R263) -/

/-- Ways of a cache in a tenant's mask. -/
def maskWays (m : Nat) : Nat := ((upto 16).filter (fun i => bit m i)).length

/-- PINCAP: units a tenant may pin per die (R263). -/
def Tenant.cap (t : Tenant) : Nat := min t.pinlim (128 * maskWays (bits t.ways.toNat 32 16))

/-- The home die of the unit at a virtual address, where it is mapped. -/
def State.unitDie (s : State) (t va : Nat) : Option Nat := (s.xlate t va).map (fun p => s.homeDie (p.pa va))

/-- Units a tenant's bound windows but w pin on a die. -/
def State.pinnedOn (s : State) (t w die : Nat) : Nat :=
  ((s.ten t).pins.map (fun e =>
    if e.1 ≠ w ∧ e.2.bnd = true then ((upto (e.2.units + 1)).filter (fun j => s.unitDie t (e.2.base + j * 65536) == some die)).length else 0)).sum

/-- PIN: every unit mapped, of this package, and within the capacity of every die. -/
def pinBody (w : Fin 16) (units : BitVec 16) (base : DWord) (s : State) : Res :=
  let t := s.tenOf (coreOf s.ctx.k)
  let n := units.toNat + 1
  let a := (eaDword base).a
  let unit := fun (j : Nat) (s : State) => s.xlate t (a + j * 65536)
  if !vaOk base then badCmd s
  else if a % 65536 ≠ 0 then .fault (.at cMisaligned a 0) s
  else ((s.walks (engWho s.ctx.k 1) t ((upto n).map (fun j => a + j * 65536))).run (fun _ s =>
    match (upto n).find? (fun j => (unit j s).isNone) with
    | some j => .fault (.at cTranslation (a + j * 65536) 0) s
    | none =>
      let ps := (upto n).filterMap (fun j => (unit j s).map (fun p => (p.hh, p.pa (a + j * 65536))))
      if ps.any (fun p => p.1 || p.2 / 2 ^ 50 % 1024 != s.pkg.pkgid.toNat) then badCmd s
      else if (upto 4).any (fun d =>
          let new := (ps.filter (fun p => s.homeDie p.2 == d)).length
          decide (0 < new) && decide ((s.ten t).cap < s.pinnedOn t w.val d + new)) then badCmd s
      else .done (s.modTen t (fun x => { x with pins := Map.put x.pins w.val ⟨true, 255, units.toNat, a⟩ })))).endWalk (engWho s.ctx.k 1)

/-- PIN. -/
def execPin (hd : Hdr) (w : Fin 16) (units : BitVec 16) (base : DWord) (s : State) : Out := engineCmd 1 hd (pinBody w units base) s

/-- Release a window. -/
def Tenant.unpin (t : Tenant) (w : Nat) : Tenant := { t with pins := Map.del t.pins w }

/-- UNPIN. -/
def unpinBody (w : Fin 16) (s : State) : Res := .done (s.modTen (s.tenOf (coreOf s.ctx.k)) (·.unpin w.val))

/-- UNPIN. -/
def execUnpin (hd : Hdr) (w : Fin 16) (s : State) : Out := engineCmd 1 hd (unpinBody w) s

/-! ### FLAG (R192) -/

/-- FLAG: once every earlier command of the ring has finished. -/
def flagBody (d sys : Bool) (tgt val : DWord) (s : State) : Res :=
  let k := s.ctx.k
  let n := if d then 8 else 4
  if !rangeOk (isU k) tgt n then badCmd s
  else if sys && !s.sysOk (s.tenOf (coreOf k)) then .fault (.of cScope 6) s
  else if !s.ringFirst k 1 then .wait 7 s
  else s.element k 1 (fun s => s.engWrite k 1 (eaDword tgt) n (val.toNat % 2 ^ (8 * n)))

/-- FLAG. -/
def execFlag (hd : Hdr) (d sys : Bool) (tgt val : DWord) (s : State) : Out := engineCmd 1 hd (flagBody d sys tgt val) s

end Sys2Proof.Machine
end

