-- ==== Sys2Proof/Machine/Traps.lean ====
section
/-! DEFINITION. Clocks, the watchdog, the fault queue, and replay: the return from a fault (R11, R18, R109, R201 to R212, R217, R218,
R354, R355). Taking a fault is `State.takeFault` of Machine/Ops.lean. -/
namespace Sys2Proof.Machine

/-! ### Decoding faults (R35, R51, R64) -/

/-- A word whose opcode cell is unassigned: ILLEGAL_INSTRUCTION, without being routed, once every older instruction is complete (R65). -/
def execIllegalInstruction (_w : DWord) (s : State) : Out :=
  front (fun s =>
    let s := s.payAll s.ctx.k
    if (s.part s.ctx.k).quiet then .fault (.of cIllegal 0) s else .wait 7 s) s

/-- A FIFO word whose command code is not assigned for its engine: ENGINE_COMMAND on taking the word. -/
def execUnassignedCommandCode (_w : DWord) (s : State) : Out := .next (s.engineFault s.ctx.k s.ctx.eng (.of cEngine 0) true)

/-! ### Clocks and translations -/

/-- Time has come at least to a cycle. -/
def State.reachCycle (s : State) (c : Nat) : State := { s with cycle := max s.cycle c }

/-- TRANSLATION_COMPLETE (R11, R12): 24 cycles after it starts a translation leaves the handle VALID or ABSENT, and STALE if a
revocation came meanwhile. Translations of later handles see the page tables as they stand. The accessed bit is set at the entry's home (R249). -/
def execTranslationComplete (k : Nat) (h : Fin 32) (s : State) : Out :=
  let x := (s.part k).rdH h.val
  if x.st ≠ .pending then .next s
  else
    let who := xltReq k h.val
    let t := s.tenOf (coreOf k)
    let absent := fun (s : State) =>
      let p := { PageInfo.none with vbase := bits x.va 16 36 * 2 ^ 16 }
      Host.Outcome.next ((s.endWalk who).modPart k (·.wrH h.val { x with st := if x.revoked then .stale else .absent, page := p, revoked := false }))
    match ((s.reachCycle x.due).walk1 who t x.va).eff.patient with
    | .wait _ s => .next s
    | .fault _ s => absent s
    | .ok _ s =>
      match s.xlate t x.va with
      | some p =>
        (match s.gate who t [] (if s.leafDue p false then [leafStretch p] else []) false [(p.leaf, .update 5 true 8 0)] with
          | .wait _ s => .next s
          | .fault _ s => .next s
          | .done s =>
            .next (((s.touchLeaf p false).endWalk who).modPart k (·.wrH h.val { x with st := if x.revoked then .stale else .valid, page := p, revoked := false })))
      | none => absent s

/-- SLEEP_EXPIRE. -/
def execSleepExpire (k : Nat) (s : State) : Out :=
  match (s.part k).sleeping with
  | some c => .next ((s.reachCycle c).modPart k (fun p => { p with sleeping := none }))
  | none => .next s

/-- How many of 64 cycles of a running strand are strand-active: none while its front end sleeps and its units have nothing in flight (R109). -/
def State.activeNow (s : State) (k : Nat) : Nat :=
  let p := s.part k
  if p.sleeping.isSome && p.pendA.isEmpty && p.pendX.isEmpty && p.pendS.isEmpty then 0 else (Config.activeCycles s.freeCtr s.pkg.throttle).toNat + 1

/-- PTS_ADVANCE (R217): 64 cycles of a running partition; those that count as strand-active are metered (R342). -/
def execPtsAdvance (k : Nat) (s : State) : Out :=
  let p := s.part k
  if p.inIter && !p.frozen then
    let s := s.reachCycle (s.cycle + 64)
    .next ({ (s.modPart k (fun p => { p with pts := p.pts + 1 })).meter (s.tenOf (coreOf k)) 13 (s.activeNow k)
      with freeCtr := s.freeCtr + 1 })
  else .next s

/-- A clock or timestamp more than 2^45 behind another is raised to 2^45 behind it (R217). -/
def catchUp (clock x : BitVec 48) : BitVec 48 :=
  if 2 ^ 45 < (clock - x).toNat ∧ (clock - x).toNat < 2 ^ 47 then clock - 2 ^ 45 else x

/-- The end of an L1D copy's lease, caught up. -/
def L1St.catchUp (top : BitVec 48) : L1St → L1St
  | .s l => .s (Machine.catchUp top l)
  | .e l => .e (Machine.catchUp top l)
  | .m l => .m (Machine.catchUp top l)
  | .c l op ty ps => .c (Machine.catchUp top l) op ty ps

/-- Is a visit of the clocks due (R217): one comes at least once in every 2^44 units, and so each half of that? -/
def State.catchUpDue (s : State) : Bool := !serialLe (s.parts.foldl (fun m e => serialMax m e.2.pts) s.gts) (s.pkg.caughtUp + 2 ^ 43)

/-- CLOCK_CATCHUP: old write timestamps and leases at the homes and in the caches, and lagging strand clocks, running or frozen. -/
def execClockCatchup (s : State) : Out :=
  let top := s.parts.foldl (fun m e => serialMax m e.2.pts) s.gts
  .next { s with
    parts := s.parts.map (fun e => (e.1, { e.2 with pts := catchUp top e.2.pts }))
    cores := s.cores.map (fun e => (e.1, { e.2 with
      l1d := e.2.l1d.map (fun x => (x.1, x.2.catchUp top)), l1i := e.2.l1i.map (fun x => (x.1, (catchUp top x.2.1, x.2.2))) }))
    pkg := { s.pkg with
      caughtUp := top
      lineTs := s.pkg.lineTs.map (fun e => (e.1, (catchUp top e.2.1, catchUp top e.2.2)))
      awayTs := s.pkg.awayTs.map (fun e => (e.1, (catchUp top e.2.1, e.2.2)))
      rdc := s.pkg.rdc.map (fun e => (e.1, { e.2 with lease := catchUp top e.2.lease })) } }

/-- Has the lease of a copy in a core's caches ended for a strand of the core (R218)? -/
def State.leaseOver (s : State) (core : Nat) (lease : BitVec 48) : Bool :=
  (upto 8).any (fun j => (s.part (core * 8 + j)).inIter && serialLe lease (s.part (core * 8 + j)).pts && lease != (s.part (core * 8 + j)).pts)

/-- READ_LEASE_EXPIRY (R218): a clean copy whose lease has ended must be fetched again, in the L1D and, of another home's line, in the RDC. -/
def execReadLeaseExpiry (core line : Nat) (s : State) : Out :=
  let s : State := match Map.find? (s.core core).l1d line with
    | some (.s lease) => if s.leaseOver core lease then s.modCore core (fun c => { c with l1d := Map.del c.l1d line }) else s
    | _ => s
  match Map.find? s.pkg.rdc (rdcKey (dieOf core) false line) with
  | some x =>
    if x.st = .s ∧ s.leaseOver core x.lease = true then .next (s.modPkg (fun g => { g with rdc := Map.del g.rdc (rdcKey (dieOf core) false line) }))
    else .next s
  | none => .next s

/-! ### The watchdog (R18) -/

/-- The instruction word at an address of a tenant, as it stands now. -/
def State.wordAt (s : State) (t va : Nat) : DWord :=
  match s.xlate t va with
  | some p => BitVec.ofNat 64 (s.valAt (spaceOf p.hh) (p.pa va) 8)
  | none => 0

/-- WATCHDOG: a unit that waits on a queue, a token, a full-wait, a barrier or an event beyond the tenant's period, while its strand
runs and is not stopped at a fault. A unit that cannot push the tokens of a finished instruction stands at that one. -/
def execWatchdog (k : Nat) (u : Fin 4) (s : State) : Out :=
  let p := s.part k
  let t := s.tenOf (coreOf k)
  let wdp := bits (s.ten t).fqctl.toNat 24 5
  match Map.find? p.waits u.val with
  | none => .next s
  | some why =>
    if wdp = 31 ∨ why = 7 ∨ p.inIter = false ∨ p.frozen = true ∨ (upto 4).any (fun j => s.stopped (k * 8 + j)) = true then .next s
    else
      let s := s.reachCycle (s.cycle + 2 ^ wdp * 1024)
      if u = 0 then .next (s.takeFault (k * 8) (.of cWatchdog why) p.pc.toNat (s.wordAt t p.pc.toNat) [] false)
      else
        match (Map.find? p.tail u.val).toList ++ p.pend u.val with
        | r :: _ => .next (s.takeFault (k * 8 + u.val) (.of cWatchdog why) r.pc.toNat r.word [] false)
        | [] => .next s

/-! ### The fault queue (R204) -/

/-- FAULT_RECORD_WRITE: the oldest record of a tenant that waits for a slot is written if it can be. -/
def execFaultRecordWrite (ten : Nat) (s : State) : Out :=
  match s.faults.find? (fun r => r.ten == ten && r.seq.isNone) with
  | some r => .next (s.writeRecord r)
  | none => .next s

/-! ### Replay (R207, R211, R355) -/

/-- A record is no more, and its unit or engine goes on from its place. -/
def State.release (s : State) (id : Nat) : State := { s with faults := s.faults.filter (fun x => x.id != id) }

/-- The command of an engine's record is in execution again. -/
def State.refocus (s : State) (r : FRec) : State := (s.release r.id).modRing (r.who / 8) (r.who % 8 - 4) (·.focus r.loc)

/-- SKIP of an engine record: the command counts as finished; what it reserved and did not produce is pushed as zero vectors, and its
SIGNAL tokens go out. -/
def State.skipCmd (s : State) (r : FRec) : State :=
  let k := r.who / 8
  let e := r.who % 8 - 4
  let s := s.refocus r
  let c := s.curOf k e
  ((upto c.resv).foldl (fun s _ => s.pushOut k e zeroVec) s).finishCmd k e (hdrOf c.word.toNat) c.iter

/-- Perform a replay action on a record (the table of R207). A unit whose iteration has ended by another record has nothing to go on with. -/
def State.replay (s : State) (act : ReplayAct) (r : FRec) : State :=
  let k := r.who / 8
  if r.dead then s.release r.id
  else if r.who % 8 < 4 then
    if r.res && (act == .retry || (act == .skip && r.cause == cTrap)) then
      let s := s.release r.id
      if r.cause = cTrap then s.modPart k (fun p => { p.next with seq := p.seq + 1 }) else s
    else s.kill r
  else
    match act with
    | .retry => if r.res then s.refocus r else s.kill r
    | .skip => if r.atTake then s.kill r else s.skipCmd r
    | .kill => s.kill r

/-- Is a record pending: written, and not yet replayed? -/
def FRec.pending (r : FRec) : Bool := r.seq.isSome && r.act.isNone

/-- Does a replay name a record: SEQ itself, or every one up to it in serial order? -/
def FRec.named (r : FRec) (ten : Nat) (seq : Word) (one : Bool) : Bool :=
  r.ten == ten && r.pending && (match r.seq with
    | some q => if one then q == seq else decide ((seq - q).toNat < 2 ^ 31)
    | none => false)

/-- A write to REPLAY: each named record is acted on, or, in a frozen partition, when that resumes. -/
def State.replayAll (s : State) (ten : Nat) (seq : Word) (one : Bool) (act : ReplayAct) : State :=
  (s.faults.filter (·.named ten seq one)).foldl (fun s r =>
    match s.faults.find? (fun x => x.id == r.id) with
    | none => s
    | some r =>
      if (s.part (r.who / 8)).frozen && !r.dead then
        { s with faults := s.faults.map (fun x => if x.id = r.id then { x with act := some act } else x) }
      else s.replay act r) s

/-- REPLAY with ACT 0. -/
def execReplayRetry (ten : Nat) (seq : Word) (one : Bool) (s : State) : Out := .next (s.replayAll ten seq one .retry)
/-- REPLAY with ACT 1. -/
def execReplaySkip (ten : Nat) (seq : Word) (one : Bool) (s : State) : Out := .next (s.replayAll ten seq one .skip)
/-- REPLAY with ACT 2. -/
def execReplayKill (ten : Nat) (seq : Word) (one : Bool) (s : State) : Out := .next (s.replayAll ten seq one .kill)

/-- A partition resumes: it is no longer frozen, and replays that waited act now. -/
def State.resumePart (s : State) (k : Nat) : State :=
  let s := s.modPart k (fun p => { p with frozen := false })
  (s.faults.filter (fun r => decide (r.who / 8 = k))).foldl (fun s r =>
    match s.faults.find? (fun x => x.id == r.id), r.act with
    | some r, some a => s.replay a r
    | _, _ => s) s

end Sys2Proof.Machine
end

