-- ==== Sys2Proof/Machine/Home.lean ====
section
/-! DEFINITION. Homes and their copies (R251 to R258), reclassing (R259, R260), the fading of pinned windows (R262) and way masks (R263).
None of it changes the value of a byte. -/
namespace Sys2Proof.Machine

/-! ### Requests at a home (R252 to R258) -/

/-- How the requester of a home request reaches it. -/
def agentVia : HomeAgent → Via
  | .l1d c => .strand c
  | .paddock c i j => .paddock c i j
  | _ => .agent

/-- The directory's cluster for a requester, towards a home die; another package's RDC is not recorded (R250, R253). -/
def agentCluster (home : Nat) : HomeAgent → Option Nat
  | .l1d c => some (clusterOf home c)
  | .paddock c _ _ => some (clusterOf home c)
  | .rdc d => if d = home then none else some (8 + (if d < home then d else d - 1))
  | .host => some 11
  | _ => none

/-- Record the requester as one that may hold the line. -/
def State.markAgent (s : State) (r : HomeReq) : State :=
  match agentCluster (s.homeDie (64 * r.line)) r.agent with
  | some c => s.modPkg (·.mark r.line c)
  | none => s

/-- Drop every L1D and RDC copy of a device line in E, M or C: a read-modify-write leaves none (R255). -/
def State.dropOwned (s : State) (line : Nat) : State :=
  { s with
    cores := s.cores.map (fun (e : Nat × Core) =>
      (e.1, match Map.find? e.2.l1d line with
        | some (.s _) => e.2
        | some _ => { e.2 with l1d := Map.del e.2.l1d line }
        | none => e.2))
    pkg := { s.pkg with rdc := s.pkg.rdc.filter (fun e => !(e.1 % 2 ^ 54 == line && e.1 / 2 ^ 54 % 2 == 0 && e.2.st != .s)) } }

/-- The words of a paddock line go home, where memory holds them already, and the line is empty. -/
def PdLine.recalled (l : PdLine) : PdLine := { l with present := false, dirty := 0, old := [] }

/-- A core's L1D and L1I give up a line: partials go home, an M line is written back (R251, R254); not one whose stack is frozen and takes no writes (R282,
R284). -/
def State.evictL1 (s : State) (core line : Nat) : State :=
  let s := s.modCore core (fun c => { c with l1i := Map.del (Map.del c.l1i (2 * line)) (2 * line + 1) })
  match Map.find? (s.core core).l1d line with
  | some (.c _ _ _ _) => if s.stuckAt line then s else s.mergeOwn core line
  | some (.m _) => if s.stuckAt line then s else s.dropL1 core line
  | _ => s.dropL1 core line

/-- An RDC gives up its copies of a line, but for one that cannot be given back (R282, R332). -/
def State.evictRdc (s : State) (die line : Nat) : State :=
  (s.pkg.rdc.filter (fun e => e.1 / 2 ^ 54 / 2 == die && e.1 % 2 ^ 54 == line && !s.keepsRdc e)).foldl (fun s e => s.dropRdc e) s

/-- The L2 or the MSC of a home gives up a line: not a dirty one whose stack is frozen, nor, in the MSC, one of a bound pinned window (R262, R282). -/
def State.evictHome (s : State) (l2 : Bool) (line : Nat) : State :=
  match Map.find? (if l2 then s.pkg.l2 else s.pkg.msc) line with
  | none => s
  | some x =>
    if (x.dirty && s.frozenAt (64 * line)) || (!l2 && s.pinned line) then s
    else (s.writeDown l2 (line, x)).modPkg (fun g => if l2 then { g with l2 := Map.del g.l2 line } else { g with msc := Map.del g.msc line })

/-- A cache gives up a line, by its level: 0 the L1D and L1I of a core, 1 the RDC of a die, 2 an L2, 3 an MSC. -/
def State.evictLine (s : State) (level : Fin 4) (core line : Nat) : State :=
  match level with
  | 0 => s.evictL1 core line
  | 1 => s.evictRdc core line
  | 2 => s.evictHome true line
  | _ => s.evictHome false line

/-- A copy of a line leaves the requester that holds it. -/
def State.leaveAgent (s : State) (a : HomeAgent) (line : Nat) : State :=
  match a with
  | .l1d c => s.evictL1 c line
  | .rdc d => s.evictRdc d line
  | .paddock c i j => s.modCore c (fun x => if ((Map.find? x.pd i).map (fun p => (p.line j).holds false line)).getD false then x.modLine i j PdLine.recalled else x)
  | .host => s.modPkg (fun g => { g with hostLines := Map.del g.hostLines line })
  | _ => s

/-- The requester of an exchange of a home's own for a line. -/
def homeReq (line : Nat) : Nat := 2 ^ 60 + line

/-- An exchange is answered; one of a home's own is over. -/
def State.answered (s : State) (who : Nat) (r : Req) : State :=
  { s with reqs := if 2 ^ 60 ≤ who then Map.del s.reqs who else Map.put s.reqs who { r with answered := true } }

/-- What a home gets from outside before it goes on with an access to some lines, by exchanges of its own, one after another (R258, R325): none when it may go
on. An exchange that is not answered in time is made anew. An access of the host takes back no copy of the host. -/
def State.homeExchange (s : State) (src t pa n : Nat) (write pad host : Bool) : Option State :=
  let need := fun (l : Nat) =>
    (if host then s.padRecall src l write pad (wordMask pa n l) else s.lineNeeds src l write pad (wordMask pa n l)).map (fun k => (l, k))
  match (linesOf pa n).findSome? need with
  | none => none
  | some (l, k) =>
    match Map.find? s.reqs (homeReq l) with
    | none => some (s.asked (homeReq l) t k [] [] (64 * l) false (opFor [] k false []))
    | some r => some (if r.timedOut then { s with reqs := Map.del s.reqs (homeReq l) } else s)

/-- The host may hold a line that it has read: the home records it as one cluster (R253, R325). It is granted E only where the package has never written the line,
and then as the machine chooses; else S (R334). -/
def State.hostHolds (s : State) (line : Nat) : State :=
  let st : Mesi := match Map.find? s.pkg.hostLines line with
    | some .e => .e
    | some .m => .m
    | _ => if (Map.get (0, 0) s.pkg.lineTs line).1 == 0 && Config.hostExclusive s.freeCtr then .e else .s
  s.modPkg (fun g => { g.mark line 11 with hostLines := Map.put g.hostLines line st })

/-- A request's line as a stretch of its class. -/
def reqStretch (r : HomeReq) : Stretch := physStretch (64 * r.line) 64 r.cl.val

/-- What a requester holds once its read or write of a line is served (R250): a line of class T or V in an L1D with what that leaves in its die's RDC, or in an
RDC; at the host, a line of any class but F; nothing else. -/
def State.grantCopy (s : State) (r : HomeReq) (write : Bool) : State :=
  match r.agent with
  | .l1d c => s.leaseL1 (keyOf c 0 false) (s.tenOf c) (reqStretch r) write false
  | .rdc d => if r.cl.val ≤ 1 ∧ !(write && r.cl.val == 1) then s.leaseRdc d false r.line 0 write false (s.gts + 16) else s
  | .host => if write || r.cl.val == 3 then s else s.hostHolds r.line
  | _ => s

/-- Serve a request for a line of this package: copies elsewhere are recalled, merged or invalidated first, as the page's class has it. -/
def State.serveReq (s : State) (r : HomeReq) : State :=
  let v := agentVia r.agent
  let at_ := fun (write inv : Bool) (w : BitVec 16) (v : Via) =>
    let s := (s.settle false r.line write inv w v).homeRange false (64 * r.line) 64 write v
    if r.cl.val = 1 then s else s.markAgent r
  match r.kind with
  | .read w => if r.cl.val = 3 then s else (at_ false false w v).grantCopy r false
  | .write w => if r.cl.val = 3 then s else (at_ true (r.cl.val == 0) w v).grantCopy r true
  | .rmw w => if r.cl.val = 3 then s else ((s.settle false r.line true (r.cl.val == 0) w .agent).homeRange false (64 * r.line) 64 true .agent).dropOwned r.line
  | .evict => s.leaveAgent r.agent r.line
  | .commute =>
    match r.agent with
    | .l1d c =>
      match Map.find? (s.core c).l1d r.line with
      | some (.c _ _ _ _) => s
      | _ =>
        if 2 ≤ r.cl.val || !(s.homeDie (64 * r.line) == dieOf c || s.rdcTakes (dieOf c) false r.line (s.tenOf c)) then s
        else
          let lease := s.gts + BitVec.ofNat 48 (s.leaseLen c false)
          let s := s.roomL1 c r.line
          if !(s.core c).hasRoomL1 r.line then s
          else
            ((s.rdcHolds c r.line lease).joinC c r.cl.val (64 * r.line)).modCore c (fun x => { x with l1d := Map.put x.l1d r.line (.c lease 0 0 []) })
    | _ => s

/-- Requests that wait at the homes of a die behind those being served. -/
def State.queuedOn (s : State) (die : Nat) : Nat :=
  ((s.pkg.homeQ.filter (fun e => s.homeDie (64 * e.1) == die)).map (fun e => e.2.length - 1)).sum

/-- Is a device line in a range that is being reclassed (R260)? -/
def State.reclassing (s : State) (line : Nat) : Bool :=
  s.tens.any (fun e => e.2.rcBusy && (upto (e.2.rcSize / 2 ^ 16)).any (fun j =>
    match s.xlate e.1 (e.2.rcAt + j * 2 ^ 16) with
    | some p => !p.hh && p.pa (e.2.rcAt + j * 2 ^ 16) / 2 ^ 16 == line / 1024
    | none => false))

/-- Does a request write at the home? -/
def kindWrites : HomeKind → Bool
  | .read _ => false
  | .evict => false
  | _ => true

/-- The package of a requester. -/
def State.agentPkg (s : State) : HomeAgent → Nat
  | .pkg id => id
  | _ => s.pkg.pkgid.toNat

/-- What a request waits for at its home: a frozen stack with nothing of the line above it (R282, R284), paddock words of another package, a copy of the host
(R258, R325); none when it is served. -/
def State.reqWaits (s : State) (r : HomeReq) : Option State :=
  if r.kind == .evict || r.cl.val == 3 then none
  else if s.stuckAt r.line then some s
  else
    s.homeExchange (s.agentPkg r.agent) ((s.windowOwner (64 * r.line) 64).getD 0) (64 * r.line) 64 (kindWrites r.kind)
      (match r.agent with | .paddock _ _ _ => true | _ => false) (r.agent == .host)

/-- HOME_REQUEST: one request for a line (R252). The line is busy from then until its service ends; a request for a busy line waits behind it, in the 256-entry
buffer of the slice. One that finds the buffer full, or its line in a range being reclassed, or that must wait before it can be served, stays with its requester,
which tries again. -/
def execHomeRequest (r : HomeReq) (s : State) : Out :=
  if !s.ours (64 * r.line) || s.reclassing r.line then .next s
  else
    match Map.find? s.pkg.homeQ r.line with
    | none =>
      (match s.reqWaits r with
        | some s => .next s
        | none => .next ((s.serveReq r).modPkg (fun g => { g with homeQ := Map.put g.homeQ r.line [r] })))
    | some q =>
      if 256 ≤ s.queuedOn (s.homeDie (64 * r.line)) then .next s
      else .next (s.modPkg (fun g => { g with homeQ := Map.put g.homeQ r.line (q ++ [r]) }))

/-- The service of a line ends: the next request for it is served, in the order in which they came (R252). While that one must wait the line stays busy. -/
def State.homeDone (s : State) (line : Nat) : State :=
  match Map.find? s.pkg.homeQ line with
  | none => s
  | some q =>
    match q.drop 1 with
    | [] => s.modPkg (fun g => { g with homeQ := Map.del g.homeQ line })
    | r :: rest =>
      match s.reqWaits r with
      | some s => s
      | none => (s.serveReq r).modPkg (fun g => { g with homeQ := Map.put g.homeQ line (r :: rest) })

/-! ### Handles after a revocation (R11, R12) -/

/-- Does a handle name a page with a virtual address in [a, a + n - 1]? -/
def Handle.touches (x : Handle) (a n : Nat) : Bool :=
  match x.st with
  | .valid => decide (x.page.vbase < a + n) && decide (a < x.page.vbase + pageBytes x.page.ps)
  | .stale => false
  | .empty => false
  | _ => decide (x.va / 2 ^ 16 * 2 ^ 16 < a + n) && decide (a < x.va / 2 ^ 16 * 2 ^ 16 + 2 ^ 16)

/-- A revocation strikes a handle: a PENDING one becomes STALE when its translation ends. -/
def Handle.revoke (x : Handle) : Handle :=
  match x.st with
  | .valid => { x with st := .stale }
  | .absent => { x with st := .stale }
  | .pending => { x with revoked := true }
  | _ => x

/-- Is a translation in flight whose page reaches into a range? -/
def State.pendingOver (s : State) (t : Nat) (x : Handle) (a n : Nat) : Bool :=
  x.st == .pending && (match s.xlate t x.va with
    | some p => decide (p.vbase < a + n) && decide (a < p.vbase + pageBytes p.ps)
    | none => false)

/-- Every handle of a tenant that names a page in a range becomes STALE. -/
def State.revokeRange (s : State) (t a n : Nat) : State :=
  { s with
    parts := s.parts.map (fun (e : Nat × Part) =>
      if s.tenOf (coreOf e.1) = t then
        (e.1, { e.2 with h := e.2.h.map (fun x => if x.2.touches a n || s.pendingOver t x.2 a n then (x.1, x.2.revoke) else x) })
      else e) }

/-! ### Reclassing (R259, R260) -/

/-- First byte and length of the range of the reclass registers. -/
def Tenant.rcRange (t : Tenant) : Nat × Nat := (bits t.rcaddr.toNat 16 36 * 2 ^ 16, t.rclen.toNat * 2 ^ 16)

/-- The outcome code of a reclass command: 1 a unit unmapped or split by a larger page, 2 class F or CL = 3, else 0. -/
def State.reclassErr (s : State) (ten : Nat) (cl : Nat) : Nat :=
  let (a, n) := (s.ten ten).rcRange
  let us := (upto (n / 2 ^ 16)).map (fun j => s.xlate ten (a + j * 2 ^ 16))
  if us.any (fun u => match u with
      | none => true
      | some p => !(decide (a ≤ p.vbase) && decide (p.vbase + pageBytes p.ps ≤ a + n))) then 1
  else if cl = 3 ∨ us.any (fun u => match u with | some p => p.cl == 3 | none => false) = true then 2
  else 0

/-- The physical stretches of a range, unit by unit. -/
def State.rangeUnits (s : State) (ten a n : Nat) : List (Bool × Nat) :=
  (upto (n / 2 ^ 16)).filterMap (fun j => (s.xlate ten (a + j * 2 ^ 16)).map (fun p => (p.hh, p.pa (a + j * 2 ^ 16) / 2 ^ 16)))

/-- Those of the reclass in progress. -/
def State.rcUnits (s : State) (ten : Nat) : List (Bool × Nat) := s.rangeUnits ten (s.ten ten).rcAt (s.ten ten).rcSize

/-- Does a line lie in one of some 64 KiB units of a kind of memory? -/
def lineIn (us : List (Bool × Nat)) (hh : Bool) (line : Nat) : Bool := us.contains (hh, line / 1024)

/-- A core's copies of the lines that `hit` names are gone: L1D copies, C partials, paddock words, which memory holds already. -/
def Core.flushed (c : Core) (hit : Bool → Nat → Bool) : Core :=
  { c with
    l1d := c.l1d.filter (fun x => !hit false x.1)
    pd := c.pd.map (fun p => (p.1, { p.2 with st := p.2.st.map (fun (l : Nat × PdLine) =>
      match l.2.pa with
      | some a => if hit l.2.hh a then (l.1, l.2.recalled) else l
      | none => l) })) }

/-- Write back and invalidate every copy of the lines that `hit` names (step 2 of R260): L1D and RDC copies, C partials, paddock words. A host line is given
back to the host. A line that cannot go home stays (R282, R284, R332). -/
def State.flushCopies (s : State) (hit : Bool → Nat → Bool) : State :=
  let hit := fun (hh : Bool) (l : Nat) => hit hh l && !(if hh then !s.carries l else s.stuckAt l)
  let dirty := (s.cores.map (fun e => (e.2.l1d.filter (fun x => hit false x.1 && (match x.2 with | .m _ => true | .c _ _ _ _ => true | _ => false))).map (·.1))).flatten
  let s := (s.pkg.rdc.filter (fun e => hit (e.1 / 2 ^ 54 % 2 == 1) (e.1 % 2 ^ 54))).foldl (fun s e => s.dropRdc e) s
  let s := ({ s with
    cores := s.cores.map (fun (e : Nat × Core) => (e.1, e.2.flushed hit))
    pkg := { s.pkg with cbase := s.pkg.cbase.filter (fun e => !hit false (e.1 / 16)) } } : State)
  dirty.foldl (fun s l => s.atHome l true) s

/-- Is a copy of a line that `hit` names left in a core, its paddocks or an RDC? -/
def State.copiesLeft (s : State) (hit : Bool → Nat → Bool) : Bool :=
  s.pkg.rdc.any (fun e => hit (e.1 / 2 ^ 54 % 2 == 1) (e.1 % 2 ^ 54)) || s.cores.any (fun e => e.2.l1d.any (fun x => hit false x.1)
    || e.2.pd.any (fun p => p.2.st.any (fun l => (l.2.present || l.2.dirty != 0) && (match l.2.pa with | some a => hit l.2.hh a | none => false))))

/-- The other packages that the fabric reaches. -/
def State.otherPkgs (s : State) : List Nat :=
  (s.pkg.route.filter (fun e => e.2 != 0 && e.1 != s.pkg.pkgid.toNat)).map (·.1)

/-- The requester of a reclass's demand for the copies of another package. -/
def classReq (t p : Nat) : Nat := 2 ^ 41 + 32 * p + t

/-- Is an exchange one that a tenant's reclass waits for? -/
def ofClass (t who : Nat) : Bool := decide (2 ^ 41 ≤ who) && decide (who < 2 ^ 42) && who % 32 == t

/-- Every other package is asked to give up its copies of some units of device memory (R260). -/
def State.askCopies (s : State) (t : Nat) (us : List (Bool × Nat)) : State :=
  match (us.filter (fun u => !u.1)).map (fun u => (u.2 * 2 ^ 16, 2 ^ 16)) with
  | [] => s
  | r :: rs => s.otherPkgs.foldl (fun s p =>
      s.asked (classReq t p) t (.recall p (r.1 / 64)) [] [] r.1 false (.recall (r :: rs) (BitVec.allOnes 16) true true)) s

/-- RECLASS: the whole range is checked first; then BUSY is set, accesses to the range stall, and copies are flushed, on every package. -/
def execReclass (ten : Nat) (cl : BitVec 2) (s : State) : Out :=
  if (s.ten ten).rcBusy then .next (s.modTen ten (fun t => { t with rcErr := 3 }))
  else
    let err := s.reclassErr ten cl.toNat
    if err ≠ 0 then .next (s.modTen ten (fun t => { t with rcErr := err }))
    else
      let (a, n) := (s.ten ten).rcRange
      let us := s.rangeUnits ten a n
      .next (((s.flushCopies (lineIn us)).askCopies ten us).modTen ten (fun t =>
        { t with rcBusy := true, rcErr := 0, rcClass := cl.toNat, rcAt := a, rcSize := n }))

/-- The difference that a new class makes to the byte of a leaf entry that holds CL. -/
def State.classBits (s : State) (cl : Nat) (p : PageInfo) : Nat :=
  let b := (s.byteAt .dev p.leaf).toNat
  b ^^^ setBits b 5 3 cl

/-- Write CL of a leaf entry at its home. -/
def State.setLeafClass (s : State) (t cl : Nat) (p : PageInfo) : State :=
  let b := s.byteAt .dev p.leaf
  let x := leafStretch p
  (s.writeSide t x .agent).putBytes .dev p.leaf [BitVec.ofNat 8 (b.toNat ^^^ s.classBits cl p)]

/-- A captured translation of a store that waits takes the new class. -/
def PageInfo.reclass (p : PageInfo) (a n cl : Nat) : PageInfo :=
  if p.ps != 3 && decide (a ≤ p.vbase) && decide (p.vbase < a + n) then { p with cl := cl } else p

/-- The accesses of a copy that are translated and not performed see the new class. -/
def Part.reclass (p : Part) (a n cl : Nat) : Part :=
  let f := fun (x : PageInfo) => x.reclass a n cl
  { p with
    aq := p.aq.map (fun x => { x with page := f x.page, gpages := x.gpages.map (fun g => (g.1, f g.2)) })
    flight := p.flight.map (fun e => (e.1, { e.2 with pages := e.2.pages.map f }))
    pfts := p.pfts.map (fun x => (f x.1, x.2)) }

/-- Those of a tenant's strands do. -/
def State.reclassStores (s : State) (t a n cl : Nat) : State :=
  { s with parts := s.parts.map (fun (e : Nat × Part) => if s.tenOf (coreOf e.1) = t then (e.1, e.2.reclass a n cl) else e) }

/-- Invalidate the first host copy among the lines `hit` names, by an exchange of the home's own; none when the host holds none. -/
def State.recallNext (s : State) (hit : Nat → Bool) : Option State :=
  match List.find? (fun e => hit e.1) s.pkg.hostLines with
  | none => none
  | some (l, _) => some ((s.homeExchange s.pkg.pkgid.toNat ((s.windowOwner (64 * l) 64).getD 0) (64 * l) 64 true false false).getD s)

/-- What a tenant's reclass still waits for of other packages: none when every one has answered (R260). A demand that is not answered in time is sent again. -/
def State.classWaits (s : State) (t : Nat) : Option State :=
  match List.find? (fun (e : Nat × Req) => ofClass t e.1) s.reqs with
  | none => none
  | some (w, r) => some (if r.answered then { s with reqs := Map.del s.reqs w } else if r.timedOut then s.resend w { r with timedOut := false } else s)

/-- The pages of a reclass, each once. -/
def State.rcPages (s : State) (t : Nat) : List PageInfo :=
  ((upto ((s.ten t).rcSize / 2 ^ 16)).filterMap (fun j => s.xlate t ((s.ten t).rcAt + j * 2 ^ 16))).eraseDups

/-- The leaf entries of a reclass take the class, handles become STALE, and BUSY clears. The entries are read and written at their homes (R339). -/
def State.classify (s : State) (t : Nat) : State :=
  let a := (s.ten t).rcAt
  let n := (s.ten t).rcSize
  let cl := (s.ten t).rcClass
  let who := ownReq t 3
  let r := ((s.walks who t (walkVas a n)).bind (fun _ s =>
    let ps := s.rcPages t
    (s.gate who t [] (ps.map leafStretch) false (ps.map (fun p => (p.leaf, .update 6 true (BitVec.ofNat 64 (s.classBits cl p)) 0)))).eff.bind (fun _ s =>
      .ok () ((((ps.foldl (fun s p => s.setLeafClass t cl p) s).revokeRange t a n).reclassStores t a n cl).modTen t (fun t => { t with rcBusy := false }))))).patient.ends who
  match r with
  | .ok _ s => s
  | .wait _ s => s
  | .fault _ s => s

/-- RECLASS_COMPLETE: other packages have given up their copies, and the host's are invalidated one by one; then what came back meanwhile is flushed, the leaf
entries take the class, handles become STALE, and BUSY clears. A line that cannot go home holds it up. -/
def execReclassComplete (ten : Nat) (s : State) : Out :=
  if !(s.ten ten).rcBusy then .next s
  else
    let us := s.rcUnits ten
    match s.classWaits ten, s.recallNext (lineIn us false) with
    | some s, _ => .next s
    | none, some s => .next s
    | none, none =>
      let s := (s.flushCopies (lineIn us)).modPkg (fun g => { g with padAway := g.padAway.filter (fun e => !lineIn us false e.1) })
      if s.copiesLeft (lineIn us) then .next s else .next (s.classify ten)

/-! ### Pinned windows (R262) -/

/-- PIN_FADE_PERIOD: CNT of every bound window falls by one; at 0 the window is released. -/
def execPinFadePeriod (ten : Nat) (s : State) : Out :=
  .next (s.modTen ten (fun t =>
    { t with pins := (t.pins.map (fun e => (e.1, { e.2 with cnt := e.2.cnt - 1 }))).filter (fun e => e.2.bnd && e.2.cnt != 0) }))

/-! ### Way masks (R263) -/

/-- Another tenant whose mask shares a way of a cache with a new mask. -/
def State.waysOverlap (s : State) (ten : Nat) (v : DWord) : Option Nat :=
  (upto 17).find? (fun t => t != ten && bits ((s.ten t).ways &&& v).toNat 0 48 != 0)

/-- The lines of a tenant in the ways that a new mask takes from it, of the L2 or the MSC. -/
def State.leaving (s : State) (l2 : Bool) (t mask : Nat) : List (Nat × HomeLine) :=
  (if l2 then s.pkg.l2 else s.pkg.msc).filter (fun e => s.owner false (64 * e.1) 64 == some t && !bit mask e.2.way)

/-- They are written back and invalidated; a dirty one whose stack is frozen stays (R282). -/
def State.emptyWays (s : State) (l2 : Bool) (t mask : Nat) : State :=
  ((s.leaving l2 t mask).filter (fun e => !(e.2.dirty && s.frozenAt (64 * e.1)))).foldl (fun s e =>
    (s.writeDown l2 e).modPkg (fun g => if l2 then { g with l2 := Map.del g.l2 e.1 } else { g with msc := Map.del g.msc e.1 })) s

/-- The lines of a tenant in the ways that a new mask takes from it, of the RDCs. -/
def State.leavingRdc (s : State) (t mask : Nat) : List (Nat × RdcLine) := s.pkg.rdc.filter (fun e => e.2.ten == t && !bit mask e.2.way)

/-- They are given back, but for one that cannot be (R282, R332). -/
def State.emptyRdc (s : State) (t mask : Nat) : State :=
  ((s.leavingRdc t mask).filter (fun e => !s.keepsRdc e)).foldl (fun s e => s.dropRdc e) s

/-- May a pending change take effect: does no line that leaves wait for a frozen stack or a port? -/
def State.waysReady (s : State) : Bool :=
  match s.pkg.waysNew with
  | none => true
  | some (t, v) =>
    (s.leaving true t (bits v.toNat 0 16) ++ s.leaving false t (bits v.toNat 32 16)).all (fun e => !(e.2.dirty && s.frozenAt (64 * e.1)))
      && (s.leavingRdc t (bits v.toNat 16 16)).all (fun e => !s.keepsRdc e)

/-- A pending change of way masks takes effect once the tenant's lines have left the ways it loses (R263). -/
def State.waysApply (s : State) : State :=
  match s.pkg.waysNew with
  | some (t, v) =>
    let s := ((s.emptyRdc t (bits v.toNat 16 16)).emptyWays true t (bits v.toNat 0 16)).emptyWays false t (bits v.toNat 32 16)
    (s.modTen t (fun x => { x with ways := v })).modPkg (fun g => { g with waysNew := none })
  | none => s

/-- WAY_MASK_WRITE: discarded with OVL when it overlaps, else BUSY until the tenant's lines have left the ways it loses. -/
def execWayMaskWrite (ten : Nat) (v : DWord) (s : State) : Out :=
  let s := s.waysApply
  match s.waysOverlap ten v with
  | some t => .next (s.modPkg (fun g => { g with waysOvl := true, waysOt := t }))
  | none => .next (s.modPkg (fun g => { g with waysOvl := false, waysOt := 0, waysNew := some (ten, v &&& 0xFFFFFFFFFFFF) }))

/-- WAY_MASK_COMPLETE. -/
def execWayMaskComplete (s : State) : Out := .next (if s.waysReady then s.waysApply else s)

end Sys2Proof.Machine
end

