-- ==== Sys2Proof/Machine/Merge.lean ====
section
/-! DEFINITION. Bounded-influence merge (R191, R242, R265 to R274): groups, lots, assay bays, deposits and commits. -/
namespace Sys2Proof.Machine

/-! ### Groups and lots -/

/-- A group of a tenant. -/
def Tenant.group (t : Tenant) (g : Nat) : Group := Map.get Group.unset t.groups g
/-- Change a group. -/
def State.modGroup (s : State) (t g : Nat) (f : Group → Group) : State :=
  s.modTen t (fun x => { x with groups := Map.put x.groups g (f (x.group g)) })

/-- The current lot of a copy's C ring. -/
def State.lot (s : State) (k : Nat) : Option Lot := ((s.part k).ring 1).lot
/-- The lot that DEP and CLOSE act on: one that has its bay or has been closed. -/
def State.currentLot (s : State) (k : Nat) : Option Lot := (s.lot k).filter (fun l => l.bay.isSome || l.result.isSome)
/-- The lot of an OPEN that is not done. -/
def State.opening (s : State) (k : Nat) : Option Lot := ((s.part k).ring 1).opening
/-- Replace the current lot. -/
def State.setLot (s : State) (k : Nat) (l : Option Lot) : State := s.modRing k 1 (fun g => { g with lot := l })
/-- Replace the lot of an OPEN. -/
def State.setOpening (s : State) (k : Nat) (l : Option Lot) : State := s.modRing k 1 (fun g => { g with opening := l })

/-- The lots of a copy that hold a bay. -/
def State.bayLots (s : State) (k : Nat) : List Lot := ((s.lot k).toList ++ (s.opening k).toList).filter (fun l => l.bay.isSome)

/-- The copies whose ring holds an open lot of a group: one with a bay. -/
def State.openLots (s : State) (t g : Nat) : List Nat :=
  (s.parts.filter (fun e => s.tenOf (coreOf e.1) == t && (s.bayLots e.1).any (fun l => l.g == g))).map (·.1)

/-- Saturate at 65,535. -/
def satInc (n : Nat) : Nat := min (n + 1) 65535

/-- The identity of a lot (R191). -/
def Lot.ident (l : Lot) : Nat := l.g + l.contrib * 2 ^ 6 + l.seq * 2 ^ 16

/-! ### MRG.SET (R265) -/

/-- Is every page of a range of a tenant mapped, device-homed and of class T, V or U (R265)? -/
def State.plainTarget (s : State) (t va n : Nat) : Bool :=
  match s.mapRange t 65536 va n with
  | .error _ => false
  | .ok xs => xs.all (fun x => !x.page.hh && x.page.cl != 3)

/-- MRG.SET. With TGT = 1 the bits of ext0 above the region's number must be zero (DESIGN CHOICE, notes/assumptions/18.md). -/
def mrgSetBody (g : Fin 64) (tgt : Bool) (target lim counter : DWord) (s : State) : Res :=
  let t := s.tenOf (coreOf s.ctx.k)
  let len := bits lim.toNat 0 17
  let l := bits lim.toNat 32 32
  let limOk := match unpack f32 l with
    | .fin d => d.m != 0 && !d.neg
    | _ => false
  let ta := (eaDword target).a
  let ca := (eaDword counter).a
  let layout := bits lim.toNat 17 15 == 0 && vaOk counter && (if tgt then bits target.toNat 8 56 == 0 else vaOk target)
  if !layout || !limOk || len % 256 != 0 || decide (65536 < len) || s.openLots t g.val != [] || ca % 8 != 0 || (!tgt && ta % 4 != 0) then badCmd s
  else
    ((s.walks (engWho s.ctx.k 1) t ((if tgt then [] else walkVas ta (4 * len)) ++ [ca])).run (fun _ s =>
    let targetOk :=
      if tgt then
        match Map.find? (s.ten t).regs (bits target.toNat 0 8) with
        | some r => decide (len ≤ r.ncell)
        | none => false
      else s.plainTarget t ta (4 * len)
    if !targetOk || !s.plainTarget t ca 8 then badCmd s
    else
      .done (s.modGroup t g.val (fun _ =>
        { Group.unset with
          set := true, tgt := tgt, target := if tgt then bits target.toNat 0 8 else ta, len := len, lim := BitVec.ofNat 32 l, counter := ca })))).endWalk
      (engWho s.ctx.k 1)

/-- MRG.SET. -/
def execMrgSet (hd : Hdr) (g : Fin 64) (tgt : Bool) (target lim counter : DWord) (s : State) : Out :=
  engineCmd 1 hd (mrgSetBody g tgt target lim counter) s

/-! ### Bays (R267) -/

/-- Key of a bay. -/
def bayKey (die bay : Nat) : Nat := die * 64 + bay

/-- Bays of a tenant on a die, by its mask. -/
def Tenant.baysOn (t : Tenant) (die : Nat) : List Nat := (upto 64).filter (fun b => bit t.bays.toNat (8 * die + b / 8))

/-- The first free bay of a tenant on a die. -/
def State.freeBay (s : State) (t die : Nat) : Option Nat :=
  ((s.ten t).baysOn die).find? (fun b => (Map.find? s.pkg.bays (bayKey die b)).isNone)

/-- The stretch of the first element of a group's target: on its home die a lot takes its bay. -/
def State.targetStretch (s : State) (t g : Nat) : Except Nat Stretch :=
  let x := (s.ten t).group g
  if x.tgt then
    match Map.find? (s.ten t).regs x.target with
    | some r => .ok (physStretch (r.cellPa 0) 4 3)
    | none => .error 0
  else
    match s.xlate t x.target with
    | some p => .ok ⟨p, x.target, 4⟩
    | none => .error x.target

/-- The virtual address of a group's target that is translated, if any. -/
def State.targetVas (s : State) (t g : Nat) : List Nat :=
  let x := (s.ten t).group g
  if x.tgt then [] else [x.target]

/-- Is a stretch homed on another package? -/
def State.remoteHome (s : State) (x : Stretch) : Bool := x.pa / 2 ^ 50 % 1024 != s.pkg.pkgid.toNat

/-- Send a request about a bay at another package for which nothing waits. -/
def State.sendBay (s : State) (k t pa : Nat) : State :=
  let m : Msg := .req ⟨s.pkg.pkgid.toNat, engWho k 1, s.pkg.txTag, t, pa, false, .bay false⟩
  (s.sendHome pa m).modPkg (fun g => { g with txTag := g.txTag + 1 })

/-- Die 4 stands for a bay at another package. -/
def remoteDie : Nat := 4

/-- A bay of a lot is free again: here, or at the package that homes the group's target. -/
def State.freeBayOf (s : State) (k : Nat) (l : Lot) : State :=
  match l.bay with
  | none => s.modPkg (fun p => { p with bayWait := p.bayWait.filter (· != .ring k) })
  | some b =>
    if l.die ≠ remoteDie then s.modPkg (fun p => { p with bays := Map.del p.bays (bayKey l.die b) })
    else
      match s.targetStretch l.ten l.g with
      | .ok x => s.sendBay k l.ten x.pa
      | .error _ => s

/-- A lot gives its bay back. -/
def State.freeLot (s : State) (k : Nat) (l : Lot) : State :=
  (s.freeBayOf k l).setLot k (some { l with bay := none, bitmap := [], data := [] })

/-- Another ring of the group holds an open lot of the same identity. -/
def State.sameLot (s : State) (t k : Nat) (l : Lot) : Bool :=
  (s.openLots t l.g).any (fun j => j != k && (s.bayLots j).any (fun m => m.g == l.g && m.contrib == l.contrib && m.seq == l.seq))

/-- The lot of an OPEN is granted a bay, if its identity is its own; one whose identity another open lot has gets none, and its OPEN will fault (R267). -/
def State.grantRing (s : State) (k : Nat) (l : Lot) (b : Nat) : State :=
  let s := s.modPkg (fun p => { p with bayWait := p.bayWait.filter (· != .ring k) })
  if s.sameLot l.ten k l then s.setOpening k (some { l with result := some [] })
  else (s.setOpening k (some { l with bay := some b })).modPkg (fun p => { p with bays := Map.put p.bays (bayKey l.die b) (.ring k) })

/-- A free bay for who waits at a die. -/
def State.bayFor (s : State) (die : Nat) : BayUser → Option Nat
  | .ring k => match s.opening k with
    | some l => if l.bay.isNone && l.result.isNone && l.die == die then s.freeBay l.ten die else none
    | none => none
  | .away r => if s.homeDie r.pa = die then s.freeBay r.ten die else none

/-- BAY_GRANT: the first waiting OPEN of a die for which its tenant has a free bay receives it (R267). One of another package is answered. -/
def execBayGrant (die : Nat) (s : State) : Out :=
  match s.pkg.bayWait.find? (fun u => (s.bayFor die u).isSome) with
  | none => .next s
  | some u =>
    match u, s.bayFor die u with
    | .ring k, some b => (match s.opening k with | some l => .next (s.grantRing k l b) | none => .next s)
    | .away r, some b =>
      .next (((s.modPkg (fun p => { p with bays := Map.put p.bays (bayKey die b) u, bayWait := p.bayWait.filter (· != u) })).record
        (reqId r.src r.unit r.tag) []).respond r .done s.gts [])
    | _, none => .next s

/-- Has every command of a copy's rings that an iteration pushed finished? -/
def Part.iterDone (p : Part) (it : Nat) : Bool :=
  (upto 4).all (fun e => (p.ring e).cmds.all (fun c => c.iter != it) && (p.iter != it || (p.ring e).cons == (p.ring e).prod))

/-- May a lot be abandoned (R273): still open, its iteration retired by every strand of its gang (R288), and every command of its rings finished? -/
def State.mayAbandon (s : State) (k : Nat) (l : Lot) : Bool :=
  l.result.isNone && l.bay.isSome && !s.sameIter k l.iter && (s.part k).iterDone l.iter
    && (match Map.find? s.droves l.drove with | some d => d.live.all (fun e => e.1 != l.lin) | none => true)

/-- A lot is abandoned: its bay and its deposits are gone, and its group counts it. -/
def State.abandonLot (s : State) (k : Nat) (l : Lot) : State :=
  ((s.freeBayOf k l).setLot k none).modGroup l.ten l.g (fun g => { g with abnd := satInc g.abnd, closing := g.closing.filter (· != k) })

/-- Abandon a copy's lot where it may be, and give up the bay of an OPEN that is no more. -/
def State.abandonDue (s : State) (k : Nat) : State :=
  let s := match s.lot k with
    | some l => if s.mayAbandon k l then s.abandonLot k l else s
    | none => s
  match s.opening k with
  | some l => if ((s.part k).ring 1).cmds.isEmpty then (s.freeBayOf k l).setOpening k none else s
  | none => s

/-- The lot of an OPEN becomes the ring's current lot. -/
def openGranted (k : Nat) (l : Lot) (s : State) : Res := .done ((s.setOpening k none).setLot k (some l))

/-- Does the lot of an earlier try belong to this OPEN? -/
def Lot.same (l m : Lot) : Bool := l.ident == m.ident && l.bt == m.bt && l.tiles == m.tiles

/-- MRG.OPEN at another package's home: its bay is asked for there. -/
def openAway (t k : Nat) (l : Lot) (st : Stretch) (s : State) : Res :=
  match s.gate (engWho k 1) t [] [st] false [(st.pa, .bay true)] with
  | .fault f s => if f.cause = cProtection then badCmd s else .fault f s
  | .wait w s => .wait w s
  | .done s => if s.sameLot t k l then badCmd (s.sendBay k t st.pa) else openGranted k { l with bay := some k } s

/-- MRG.OPEN: it blocks its ring while no bay is free. -/
def mrgOpenBody (g : Fin 64) (contrib : BitVec 10) (seq : BitVec 16) (tiles : BitVec 8) (bt : DWord) (s : State) : Res :=
  let k := s.ctx.k
  let t := s.tenOf (coreOf k)
  let n := tiles.toNat + 1
  let b := bits bt.toNat 0 8
  let x := (s.ten t).group g.val
  let c := s.curOf k 1
  let s := s.abandonDue k
  let l : Lot := ⟨g.val, contrib.toNat, seq.toNat, b, n, 0, none, [], [], 0, none, c.iter, t, c.drove, (s.part k).lin, none, 0⟩
  match (s.opening k).filter l.same with
  | some m => if m.result.isSome then badCmd (s.setOpening k none) else if m.bay.isSome then openGranted k m s else .wait 7 s
  | none =>
  if bits bt.toNat 8 56 != 0 || !x.set || decide (x.len / 256 < b + n)
      || (match s.currentLot k with | some l => l.result.isNone | none => false) then badCmd s
  else
    ((s.walks (engWho k 1) t (s.targetVas t g.val)).run (fun _ s =>
    match s.targetStretch t g.val with
    | .error a => .fault (.at cTranslation a 0) s
    | .ok st =>
      if s.remoteHome st then openAway t k { l with die := remoteDie } st s
      else
        let l := { l with die := s.homeDie st.pa }
        if ((s.ten t).baysOn l.die).isEmpty then badCmd s
        else
          let s := ((s.setOpening k (some l)).modPkg (fun p => { p with bayWait := p.bayWait.filter (· != .ring k) ++ [.ring k] }))
          let first := (s.pkg.bayWait.find? (fun u => (s.bayFor l.die u).isSome)) == some (.ring k)
          match (if first then s.freeBay t l.die else none) with
          | none => .wait 7 s
          | some c =>
            let s := s.grantRing k l c
            match s.opening k with
            | some m => if m.result.isSome then badCmd (s.setOpening k none) else openGranted k m s
            | none => .wait 7 s)).endWalk (engWho k 1)

/-- MRG.OPEN. -/
def execMrgOpen (hd : Hdr) (g : Fin 64) (contrib : BitVec 10) (seq : BitVec 16) (tiles : BitVec 8) (bt : DWord) (s : State) : Out :=
  engineCmd 1 hd (mrgOpenBody g contrib seq tiles bt) s

/-! ### MRG.DEP (R269) -/

/-- What a deposit or a close of a lot at another package waits for. -/
def lotGate (t k : Nat) (l : Lot) (s : State) : Res :=
  if l.die ≠ remoteDie then .done s
  else
    (s.walks (engWho k 1) t (s.targetVas t l.g)).run (fun _ s =>
    match s.targetStretch t l.g with
    | .error a => .fault (.at cTranslation a 0) s
    | .ok st => ((s.gate (engWho k 1) t [] [st] false [(st.pa, .write [])]).eff.keep s).run (fun _ s => .done (s.meterMem t st true)))

/-- MRG.DEP: 256 words of scratchpad into the bay; a second deposit of a tile is dropped. -/
def mrgDepBody (tile : BitVec 8) (src : DWord) (s : State) : Res :=
  let k := s.ctx.k
  let t := s.tenOf (coreOf k)
  let n := tile.toNat
  match s.currentLot k with
  | none => badCmd s
  | some l =>
    if l.result.isSome then .fault (.of cMergeLate l.ident) s
    else if n < l.bt || decide (l.bt + l.tiles ≤ n) || !bit src.toNat 63 || !rangeOk (isU k) src 1024 then badCmd s
    else
      s.element k 1 (fun s =>
        (lotGate t k l s).andThen (fun s =>
          (s.engWords k 1 (eaDword src) 256).run (fun ws s =>
            if Map.get false l.bitmap n then
              .done ((s.setLot k (some { l with dup := min (l.dup + 1) 255 })).modGroup t l.g (fun g => { g with dup := satInc g.dup }))
            else
              .done (s.setLot k (some { l with
                bitmap := Map.put l.bitmap n true
                data := (upto 256).foldl (fun m j => Map.put m (256 * n + j) (BitVec.ofNat 32 (ws.getD j 0))) l.data })))))

/-- MRG.DEP. -/
def execMrgDep (hd : Hdr) (tile : BitVec 8) (src : DWord) (s : State) : Out := engineCmd 1 hd (mrgDepBody tile src) s

/-! ### MRG.CLOSE (R268, R270 to R272) -/

/-- Is a lot stale at its place in the group's order (R268)? -/
def Group.stale? (g : Group) (l : Lot) : Bool :=
  match Map.find? g.valid l.contrib with
  | some q => (l.seq + 65536 - q) % 65536 == 0 || decide (32768 ≤ (l.seq + 65536 - q) % 65536)
  | none => false

/-- The elements of the declared tiles, ascending: index and word. -/
def Lot.elems (l : Lot) : List (Nat × Nat) :=
  (upto (256 * l.tiles)).map (fun i => (256 * l.bt + i, (Map.get 0 l.data (256 * l.bt + i) : Word).toNat))

/-- The norm of a lot: the root of the sum of squares, in order. -/
def Lot.norm (l : Lot) : Nat := (sqrtV f32 .rne (unpack f32 (l.elems.foldl (fun a e => (fma32 .rne e.2 e.2 a).1) 0))).1

/-- 1.0. -/
def one32 : Nat := 0x3F800000

/-- The factor of a finite norm under a limit. -/
def factorOf (norm lim : Nat) : Nat :=
  if cmpV (unpack f32 norm) (unpack f32 lim) = 1 then (divV f32 .rne (unpack f32 lim) (unpack f32 norm)).1 else one32

/-- Is a pattern finite? -/
def finite32 (n : Nat) : Bool := bits n 23 8 != 255

/-- Change the current lot of a copy. -/
def State.modLot (s : State) (k : Nat) (f : Lot → Lot) : State := s.modRing k 1 (fun g => { g with lot := g.lot.map f })

/-- The copies whose CLOSEs reached the group before that of copy k and are not concluded (R272). -/
def Group.ahead (g : Group) (k : Nat) : List Nat := g.closing.takeWhile (· != k)

/-- Is a command a CLOSE, or a RESUME that may stand for one? -/
def Cur.closes (c : Cur) : Bool := bits c.word.toNat 42 6 == 12 || bits c.word.toNat 42 6 == 14

/-- Is the lot that a copy closes past an element of the target, by its index? -/
def State.passed (s : State) (j ix : Nat) : Bool :=
  if !((s.part j).ring 1).cmds.any Cur.closes then true
  else
    match s.lot j with
    | none => true
    | some m =>
      match m.verdict with
      | none => false
      | some v => v.1 != 0 || decide (ix < 256 * m.bt + m.done) || decide (256 * (m.bt + m.tiles) ≤ ix)

/-- May a copy's CLOSE update an element: has every lot ahead done so (R272)? While all is tried first nothing is performed. -/
def State.mayCommit (s : State) (k : Nat) (g : Group) (ix : Nat) : Bool := (s.budget == 0 && s.ctx.room.isNone) || (g.ahead k).all (fun j => s.passed j ix)

/-- One update of a commit, at its place in the group's order. -/
def State.commitStep (s : State) (k t lg ix : Nat) (f : State → Eff Nat) : Eff Nat :=
  s.access k 1 (fun s =>
    if !s.mayCommit k ((s.ten t).group lg) ix then .wait 7 s
    else (f s).bind (fun v s => .ok v (s.modLot k (fun l => { l with done := l.done + 1 }))))

/-- Commit one element to an FP32 target: total := FMA32(factor, b, total); OVF when a finite total became infinite. At a home outside it is update 9. -/
def commitWord (k t lg factor target : Nat) (e : Nat × Nat) (s : State) : Eff Bool :=
  let f := fun (m : Nat) => (fma32 .rne factor e.2 m).1
  (s.commitStep k t lg e.1 (fun s =>
      s.engRmwAt k 1 ⟨false, target + 4 * e.1⟩ 4 f (.update 9 false (BitVec.ofNat 64 (e.2 + 2 ^ 32 * factor)) 0) none)).bind
    (fun old s => .ok (finite32 old && f old % 2 ^ 31 == f32.inf) s)

/-- Commit one element as a sample (R242): the exact product converted once; whether it clamped. -/
def commitSample (t k lg rg factor : Nat) (e : Nat × Nat) (s : State) : Eff Bool :=
  (s.commitStep k t lg e.1 (fun s =>
    match Map.find? (s.ten t).regs rg with
    | none => .fault (.of cEngine 0) s
    | some r =>
      let st : Stretch := physStretch (r.cellPa e.1) 4 3
      let (v, fl) : FR :=
        if r.fp then mul32 .rne factor e.2
        else
          match unpack f32 factor, unpack f32 e.2 with
          | .fin a, .fin b => floatToInt true 32 r.f .rne (.fin (a.mul b))
          | _, _ => (0, 0)
      let clamp := b2n (!r.fp && fl &&& fSAT != 0)
      ((s.gate (engWho k 1) t [] [st]).eff.keep s).bind (fun _ s =>
        .ok clamp ((((s.stampAgent true []).meterMem t st true).addSat t rg clamp).sample t rg r e.1 (BitVec.ofNat 32 v))))).bind
    (fun v s => .ok (v == 1) s)

/-- All updates of a lot: whether any flagged. -/
def commitAll (t k lg factor : Nat) (g : Group) (es : List (Nat × Nat)) (s : State) : Eff Bool :=
  es.foldl (fun (r : Eff Bool) e =>
    r.bind (fun b s =>
      (if g.tgt then commitSample t k lg g.target factor e s else commitWord k t lg factor g.target e s).bind (fun c s => .ok (b || c) s)))
    (.ok false s)

/-- What a conclusion comes to: OUT, norm, factor. -/
def Group.judge (g : Group) (l : Lot) : Nat × Nat × Nat :=
  if g.stale? l then (3, 0, 0)
  else if (upto l.tiles).any (fun j => !Map.get false l.bitmap (l.bt + j)) then (2, 0, 0)
  else if finite32 l.norm then (0, l.norm, factorOf l.norm g.lim.toNat)
  else (1, l.norm, 0)

/-- Push the recorded pair and raise the event. -/
def closePush (k : Nat) (ws : List Word) (ev : Fin 16) (even : Bool) (s : State) : State :=
  let c := s.curOf k 1
  let w := fun (j : Nat) => (ws.getD j 0)
  let v := fun (a b : Word) => mkVec (fun i => if i = 0 then a else if i = 1 then b else 0)
  let s := (s.pushOut k 1 (v (w 0) (w 1))).pushOut k 1 (v (w 2) (w 3))
  if even then s.raiseEv k c.iter ev.val else s

/-- The books of a conclusion: last(c), CONCL, REJ, STALE. -/
def Group.conclude (g : Group) (l : Lot) (out : Nat) : Group :=
  if out = 3 then { g with stale := satInc g.stale }
  else { g with valid := Map.put g.valid l.contrib l.seq, concl := g.concl + 1, rej := if out = 0 then g.rej else satInc g.rej }

/-- The counter of the group at a conclusion, once every lot ahead is concluded, a stale one's too (R272). -/
def State.countLot (s : State) (k t lg out : Nat) : Eff Nat :=
  let g := (s.ten t).group lg
  if !(s.budget == 0 && s.ctx.room.isNone) && !(g.ahead k).all (fun j => !((s.part j).ring 1).cmds.any Cur.closes) then .wait 7 s
  else if out = 3 then .ok 0 s
  else s.access k 1 (fun s => s.engRmwAt k 1 ⟨false, g.counter⟩ 8 (fun v => (v + 1) % 2 ^ 64) (.update 2 true 1 0) none)

/-- The last of a conclusion: the books, the bay, the recorded pair. -/
def closeDone (k t : Nat) (l : Lot) (tgt : Bool) (v : Nat × Nat × Nat) (flag : Bool) (ev : Fin 16) (even : Bool) (s : State) : State :=
  let scl := v.1 == 0 && cmpV (unpack f32 v.2.2) (unpack f32 one32) == -1
  let status := v.1 + b2n scl * 2 ^ 3 + b2n (flag && !tgt) * 2 ^ 4 + b2n (flag && tgt) * 2 ^ 5 + l.dup * 2 ^ 8
  let ws : List Word := [BitVec.ofNat 32 v.2.1, BitVec.ofNat 32 v.2.2, BitVec.ofNat 32 status, BitVec.ofNat 32 l.ident]
  let s := (s.modGroup t l.g (fun g => { g.conclude l v.1 with closing := g.closing.filter (· != k) })).meter t 12 (if v.1 = 0 then 256 * l.tiles else 0)
  closePush k ws ev even (s.freeLot k { l with result := some ws })

/-- The conclusion of a lot whose outcome is settled: its updates, the counter, the books. One that faults has concluded nothing, and loses its place in the
group's order; where some of its updates are made, they stand, and a RETRY goes on after them. -/
def concludeLot (k t : Nat) (l : Lot) (v : Nat × Nat × Nat) (ev : Fin 16) (even : Bool) (s : State) : Res :=
  let g := (s.ten t).group l.g
  match s.element k 1 (fun s =>
    (lotGate t k l s).andThen (fun s =>
      (if v.1 = 0 then commitAll t k l.g v.2.2 g l.elems s else .ok false s).run (fun flag s =>
        (s.countLot k t l.g v.1).run (fun _ s => .done (closeDone k t l g.tgt v flag ev even s))))) with
  | .fault f s =>
    if !(s.curOf k 1).seen.isEmpty then .fault f s
    else .fault f ((s.modLot k (fun l => { l with verdict := none, done := 0 })).modGroup t l.g (fun g => { g with closing := g.closing.filter (· != k) }))
  | r => r

/-- MRG.CLOSE: the first takes its place in the group's order, measures, commits and counts; a repeated one pushes the recorded pair again. The outcome is
settled once no lot of the same contributor is ahead. -/
def mrgCloseBody (ev : Fin 16) (even : Bool) (s : State) : Res :=
  let k := s.ctx.k
  let t := s.tenOf (coreOf k)
  match s.currentLot k with
  | none => badCmd s
  | some l =>
    match s.reserve k 1 2 with
    | none => .wait 7 s
    | some s =>
      match l.result with
      | some ws => .done (closePush k ws ev even s)
      | none =>
        let s := s.modGroup t l.g (fun g => if g.closing.contains k then g else { g with closing := g.closing ++ [k] })
        let g := (s.ten t).group l.g
        match l.verdict with
        | some v => concludeLot k t l v ev even s
        | none =>
          if (g.ahead k).any (fun j => match s.lot j with | some m => m.contrib == l.contrib && m.result.isNone | none => false) then .wait 7 s
          else
            let v := g.judge l
            concludeLot k t { l with verdict := some v } v ev even (s.modLot k (fun l => { l with verdict := some v }))

/-- MRG.CLOSE. -/
def execMrgClose (hd : Hdr) (ev : Fin 16) (even : Bool) (s : State) : Out := engineCmd 1 hd (mrgCloseBody ev even) s

/-! ### LOT_ABANDON (R273) -/

/-- LOT_ABANDON: an open lot whose iteration has retired and whose rings are done loses its bay and its deposits. -/
def execLotAbandon (k : Nat) (s : State) : Out := .next (s.abandonDue k)

end Sys2Proof.Machine
end

