-- ==== Sys2Proof/Machine/Gather.lean ====
section
/-! DEFINITION. The gather engine G (R194, R195), RESUME of both engines (R193, R209), and the commands every engine has: NOTIFY (R198,
R301) and NOP (R199). -/
namespace Sys2Proof.Machine

/-! ### Rows -/

/-- May an address whose place depends on data stand for n bytes? -/
def eaOk (u : Bool) (x : EA) (n : Nat) : Bool := !x.spd || inSpad u x.a n

/-- Row idx of a table: base + idx * stride, in 64 bits. -/
def rowAt (base : DWord) (stride idx : Nat) : EA := { eaDword base with a := ((eaDword base).a + idx * stride) % 2 ^ 64 }

/-- Element j of a list of words. -/
def State.listWord (s : State) (k : Nat) (list : DWord) (j : Nat) : Eff Nat :=
  let x := (eaDword list).at (4 * j)
  if eaOk (isU k) x 4 then s.engRead k 2 x 4 else .fault (.of cEngine 0) s

/-- Row number j of a table through its index list. -/
def State.rowOf (s : State) (k : Nat) (idx base : DWord) (stride words j : Nat) : Eff EA :=
  (s.listWord k idx j).bind (fun v s =>
    let x := rowAt base stride v
    if eaOk (isU k) x (4 * words) then .ok x s else .fault (.of cEngine 0) s)

/-- What row j of a gather command touches: its index, its row of the table, and its row elsewhere. -/
def State.rowFoot (s : State) (k : Nat) (idx base : DWord) (stride w j : Nat) (toTable : Bool) (other : EA) : List (Nat × Bool) :=
  let ix := (eaDword idx).at (4 * j)
  s.foot k ix 1 false ++ s.foot k (rowAt base stride (s.peekWord k ix)) w toTable ++ s.foot k other w (!toTable)

/-- The layout checks common to the gather commands: the stride's high word, and the address dwords. -/
def gatherOk (stride : DWord) (ws : List DWord) : Bool := bits stride.toNat 32 32 == 0 && ws.all dwOk

/-! ### GATH, SCAT, SCATA (R194) -/

/-- GATH: rows to memory, or each row as an element of o2. -/
def gathBody (n rw : BitVec 16) (out : Bool) (idx base stride dst : DWord) (s : State) : Res :=
  let k := s.ctx.k
  let rows := n.toNat + 1
  let w := rw.toNat + 1
  if !gatherOk stride [idx, base, dst] || !rangeOk (isU k) idx (4 * rows) || !(if out then dst == 0 else rangeOk (isU k) dst (4 * w * rows))
      || (out && (w != 64 || decide (32 < rows))) then badCmd s
  else
    match (if out then s.reserve k 2 (rows - (s.curOf k 2).prog) else some s) with
    | none => .wait 7 s
    | some s =>
      (if out then runElems 2 rows 1 else runFree 2 rows 1 false (fun j s =>
          s.rowFoot k idx base (bits stride.toNat 0 32) w j false ((eaDword dst).at (4 * w * j)))) (fun j s =>
        (s.rowOf k idx base (bits stride.toNat 0 32) w j).run (fun x s =>
          if out then (s.engWords k 2 x w).run (fun ws s => .done (s.pushOut k 2 (mkVec (fun i => BitVec.ofNat 32 (ws.getD i 0)))))
          else s.engMove k 2 x ((eaDword dst).at (4 * w * j)) (4 * w))) s

/-- GATH. -/
def execGath (hd : Hdr) (n rw : BitVec 16) (out : Bool) (idx base stride dst : DWord) (s : State) : Out :=
  engineCmd 2 hd (gathBody n rw out idx base stride dst) s

/-- SCAT. -/
def scatBody (n rw : BitVec 16) (idx base stride src : DWord) (s : State) : Res :=
  let k := s.ctx.k
  let rows := n.toNat + 1
  let w := rw.toNat + 1
  if !gatherOk stride [idx, base, src] || !rangeOk (isU k) idx (4 * rows) || !rangeOk (isU k) src (4 * w * rows) then badCmd s
  else
    runFree 2 rows 1 false (fun j s => s.rowFoot k idx base (bits stride.toNat 0 32) w j true ((eaDword src).at (4 * w * j))) (fun j s =>
      (s.rowOf k idx base (bits stride.toNat 0 32) w j).run (fun x s => s.engMove k 2 ((eaDword src).at (4 * w * j)) x (4 * w))) s

/-- SCAT. -/
def execScat (hd : Hdr) (n rw : BitVec 16) (idx base stride src : DWord) (s : State) : Out :=
  engineCmd 2 hd (scatBody n rw idx base stride src) s

/-- The operation of SCATA. -/
def scataUpd (aop : Fin 4) : Upd :=
  match aop.val with
  | 0 => .iadd | 1 => .fadd | 2 => .imax | _ => .fmax

/-- Update a row word by word. -/
def State.engUpdRow (s : State) (k : Nat) (u : Upd) (src dst : EA) (w : Nat) : Res :=
  (upto w).foldl (fun (r : Res) i =>
    r.andThen (fun s => (s.engRead k 2 (src.at (4 * i)) 4).run (fun v s =>
      (s.engRmw k 2 (dst.at (4 * i)) 4 (fun m => u.word m v) (.update u.aop false (BitVec.ofNat 64 v) 0) none).run (fun _ s => .done s)))) (.done s)

/-- SCATA. -/
def scataBody (n rw : BitVec 16) (aop : Fin 4) (idx base stride src : DWord) (s : State) : Res :=
  let k := s.ctx.k
  let rows := n.toNat + 1
  let w := rw.toNat + 1
  if !gatherOk stride [idx, base, src] || !rangeOk (isU k) idx (4 * rows) || !rangeOk (isU k) src (4 * w * rows) then badCmd s
  else
    runFree 2 rows 1 false (fun j s => s.rowFoot k idx base (bits stride.toNat 0 32) w j true ((eaDword src).at (4 * w * j))) (fun j s =>
      (s.rowOf k idx base (bits stride.toNat 0 32) w j).run (fun x s => s.engUpdRow k (scataUpd aop) ((eaDword src).at (4 * w * j)) x w)) s

/-- SCATA. -/
def execScata (hd : Hdr) (n rw : BitVec 16) (aop : Fin 4) (idx base stride src : DWord) (s : State) : Out :=
  engineCmd 2 hd (scataBody n rw aop idx base stride src) s

/-! ### EMBAG (R195) -/

/-- The sum of table rows from index a up to b, word by word, in order. -/
def State.bagSum (s : State) (k : Nat) (idx base : DWord) (stride w a b : Nat) : Eff (List Nat) :=
  (upto (b - a)).foldl (fun (r : Eff (List Nat)) j =>
    r.bind (fun acc s =>
      (s.rowOf k idx base stride w (a + j)).bind (fun x s =>
        (s.engWords k 2 x w).bind (fun ws s => .ok ((acc.zip ws).map (fun p => (add32 .rne p.1 p.2).1)) s)))) (.ok ((upto w).map (fun _ => 0)) s)

/-- EMBAG. -/
def embagBody (nb rw : BitVec 16) (idx base stride offs dst : DWord) (s : State) : Res :=
  let k := s.ctx.k
  let bags := nb.toNat + 1
  let w := rw.toNat + 1
  if !gatherOk stride [idx, base, offs, dst] || !rangeOk (isU k) offs (4 * (bags + 1)) || !rangeOk (isU k) dst (4 * w * bags) then badCmd s
  else
    runElems 2 bags 1 (fun g s =>
      (s.listWord k offs g).run (fun a s => (s.listWord k offs (g + 1)).run (fun b s =>
        (s.bagSum k idx base (bits stride.toNat 0 32) w a b).run (fun ws s => s.engPutWords k 2 ((eaDword dst).at (4 * w * g)) ws)))) s

/-- EMBAG. -/
def execEmbag (hd : Hdr) (nb rw : BitVec 16) (idx base stride offs dst : DWord) (s : State) : Out :=
  engineCmd 2 hd (embagBody nb rw idx base stride offs dst) s

/-! ### RESUME (R193, R209) -/

/-- The body of a command of C or G by its decoding. -/
def imageBody (i : Instr) : Option (State → Res) :=
  match i with
  | .copy _ len src dst => some (copyBody len src dst)
  | .copyn _ esz ndim x => some (copynBody esz ndim x)
  | .fill _ len dst pat => some (fillBody len dst pat)
  | .acw _ aop cs len src dst => some (acwBody aop cs len src dst)
  | .amo _ aop d tgt x y => some (amoBody aop d tgt x y)
  | .pftt _ len bo addr bar => some (pfttBody len bo addr bar)
  | .pin _ w units base => some (pinBody w units base)
  | .unpin _ w => some (unpinBody w)
  | .mrgSet _ g tgt target lim counter => some (mrgSetBody g tgt target lim counter)
  | .mrgOpen _ g c q n bt => some (mrgOpenBody g c q n bt)
  | .mrgDep _ tile src => some (mrgDepBody tile src)
  | .mrgClose _ ev even => some (mrgCloseBody ev even)
  | .flag _ d sys tgt val => some (flagBody d sys tgt val)
  | .gath _ n rw out idx base stride dst => some (gathBody n rw out idx base stride dst)
  | .scat _ n rw idx base stride src => some (scatBody n rw idx base stride src)
  | .scata _ n rw aop idx base stride src => some (scataBody n rw aop idx base stride src)
  | .embag _ nb rw idx base stride offs dst => some (embagBody nb rw idx base stride offs dst)
  | _ => none

/-- Eight dwords from a run of 16 words. -/
def dwordsOfWords (ws : List Nat) : List DWord := (upto 8).map (fun i => BitVec.ofNat 64 (ws.getD (2 * i) 0 + 2 ^ 32 * ws.getD (2 * i + 1) 0))

/-- Does a fault record suit a RESUME of engine e: resumable, of the same engine kind, tenant and partition, with an image? -/
def recordOk (e t : Nat) (u : Bool) (r : List DWord) : Bool :=
  let w := (r.getD 0 0).toNat
  bit w 12 && bits w 8 3 == 4 + e && bits w 26 5 == t && bit w 11 == u && r.getD 6 0 != 0

/-- The command a record names: its progress, then the words of its image; a record of a RESUME that itself faulted leads to the first command. -/
def State.imaged (s : State) (k e : Nat) : Nat → DWord → Option Nat → Eff (Option (List DWord))
  | 0, _, _ => .ok none s
  | fuel + 1, rec, prog =>
    if !vaOk rec then .ok none s
    else
      (s.engWords k e (eaDword rec) 16).bind (fun ws s =>
        let r := dwordsOfWords ws
        if !recordOk e (s.tenOf (coreOf k)) (isU k) r then .ok none s
        else
          (s.engWords k e (eaDword (r.getD 6 0)) 16).bind (fun is s =>
            let im := dwordsOfWords is
            let code := bits (im.getD 0 0).toNat 42 6
            let p := max (prog.getD 0) (bits (r.getD 4 0).toNat 0 48)
            if code = 14 then s.imaged k e fuel (im.getD 1 0) (some p)
            else
              match cmdExt e code with
              | none => .ok none s
              | some n => .ok (some (BitVec.ofNat 64 p :: im.take (n + 1))) s))

/-- The command of an image, from its progress on; what this command has done since counts from there. -/
def imageRun (e : Nat) (ws : List DWord) (s : State) : Res :=
  match decodeCommand e (ws.drop 1) with
  | .error _ => badCmd s
  | .ok i =>
    match imageBody i with
    | none => badCmd s
    | some f => f (s.modCur s.ctx.k e (fun c => { c with prog := max c.prog (ws.headD 0).toNat }))

/-- RESUME: record and image are read once, when it starts (R209); then it performs the imaged command. -/
def resumeBody (rec : DWord) (s : State) : Res :=
  let k := s.ctx.k
  let e := s.ctx.eng
  let latch := (s.curOf k e).latch
  if latch != [] then imageRun e latch s
  else
    (s.element k e (fun s => (s.imaged k e 64 rec none).run (fun x s =>
      match x with
      | none => badCmd s
      | some ws => .done (s.modCur k e (fun c => { c with latch := ws }))))).andThen (fun s => imageRun e (s.curOf k e).latch s)

/-- RESUME. -/
def execResume (hd : Hdr) (rec : DWord) (s : State) : Out := engineCmd s.ctx.eng hd (resumeBody rec) s

/-! ### NOTIFY and the completion combiner (R198, R301) -/

/-- The set of engines is complete: the slot is cleared, the rings go on, and the event is raised. -/
def State.combine (s : State) (k iter ev : Nat) : State :=
  (s.modPart k (fun p =>
    { p with
      slots := Map.del p.slots ev
      rings := p.rings.map (fun e => (e.1, if e.2.hold = some ev then { e.2 with hold := none } else e.2)) })).raiseEv k iter ev

/-- NOTIFY: reached once every command of its ring before it has finished; the ring then takes no further command until the combiner raises its event. One of
an iteration whose strand has been given the next raises nothing. -/
def notifyBody (ev : Fin 16) (part : BitVec 4) (s : State) : Res :=
  let k := s.ctx.k
  let e := s.ctx.eng
  let c := s.curOf k e
  let p := s.part k
  let here : BitVec 4 := BitVec.ofNat 4 (2 ^ e)
  if c.iter ≠ p.iter then .done s
  else if !s.ringFirst k e then .wait 7 s
  else
    let sl : Slot := match Map.find? p.slots ev.val with
      | some x => x
      | none => ⟨part, 0, c.iter⟩
    if part = 0 ∨ part &&& here = 0 ∨ sl.part ≠ part then badCmd s
    else
      let sl : Slot := { sl with reached := sl.reached ||| here }
      let s := (s.modPart k (fun p => { p with slots := Map.put p.slots ev.val sl })).modRing k e (fun g => { g with hold := some ev.val })
      .done (if sl.reached = part then s.combine k c.iter ev.val else s)

/-- NOTIFY. -/
def execNotify (hd : Hdr) (ev : Fin 16) (part : BitVec 4) (s : State) : Out := engineCmd s.ctx.eng hd (notifyBody ev part) s

end Sys2Proof.Machine
end

