-- ==== Sys2Proof/Machine/Shepherd.lean ====
section
/-! DEFINITION. The shepherd engine K (R73, R196, R197, R311 to R315): RUN, its program steps, and collective data. -/
namespace Sys2Proof.Machine

/-! ### The running program -/

/-- Replace the running program of a core. -/
def State.setRun (s : State) (core : Nat) (r : Option Run) : State := s.modCore core (fun c => { c with run := r })

/-- Release a CID: no data are delivered for it any more. -/
def State.releaseCid (s : State) (ten cid : Nat) : State :=
  s.modPkg (fun p => { p with
    cids := p.cids.filter (fun e => !(e.1 == ten && e.2.1 == cid))
    streams := p.streams.filter (fun e => !(e.ten == ten && e.cid == cid)) })

/-- The tenant of a running program. -/
def State.runTen (s : State) (r : Run) : Nat := s.tenOf (coreOf r.k)

/-- A faulting program sends an abort for its CID to every other rank (R315). -/
def State.sendAborts (s : State) (r : Run) : State :=
  let me := s.pkg.pkgid.toNat
  (r.ids.filter (· != me)).foldl (fun s dst =>
    (s.transmit dst r.cid (.abort (s.runTen r) r.cid me)).modPkg (fun p => { p with txAborts := p.txAborts ++ [(s.runTen r, r.cid, me, dst)] })) s

/-- A running program stops at a fault (R315): aborts go out and its registration is released; it leaves the engine once its record is written (R196). -/
def State.stopRun (s : State) (r : Run) (f : FInfo) : State :=
  let s := ((s.sendAborts r).releaseCid (s.runTen r) r.cid).setRun (coreOf r.k) (some { r with faulted := true })
  s.engineFault r.k 3 { f with prog := 0 } false

/-- It stops at a step: AUX of whatever fault the step raises is the step's address (R208; notes/assumptions/33.md). -/
def State.stepFault (s : State) (r : Run) (f : FInfo) : State := s.stopRun r { f with aux := r.pc }

/-- An address dword's value as the step address. -/
def pcDword (pc : Nat) : DWord := BitVec.ofNat 64 pc

/-- Package ids of a rank table from its bytes. -/
def idsOf (bs : List Byte) : List Nat := (upto (bs.length / 2)).map (fun i => leVal ((bs.drop (2 * i)).take 2))

/-! ### RUN (R196, R311) -/

/-- The checks of RUN's operands, before the first step. -/
def runOk (u : Bool) (x : RunExt) : Bool :=
  let g := bits x.ids.toNat 16 16
  dwOk x.prog && (eaDword x.prog).a % 8 == 0 && decide (1 ≤ g) && decide (g ≤ 1024) && decide (bits x.ids.toNat 0 16 < g) && bits x.ids.toNat 48 16 == 0
    && rangeOk u x.ranks (2 * g) && dwOk x.bf0 && dwOk x.bf1 && dwOk x.bf2 && dwOk x.bf3

/-- The rank table of a RUN, read once. Its 16-bit entries are read by words: the spec states no alignment for it, and a table that does not start at a
multiple of 4 raises MISALIGNED (DESIGN CHOICE, notes/assumptions/18.md). -/
def readRanks (g : Nat) (x : RunExt) (s : State) : Res :=
  let k := s.ctx.k
  if (s.curOf k 3).latch != [] then .done s
  else
    s.element k 3 (fun s => (s.engBytes k 3 (eaDword x.ranks) 0 (2 * g)).run (fun bs s =>
      .done (s.modCur k 3 (fun c => { c with latch := (idsOf bs).map (BitVec.ofNat 64) }))))

/-- Start a program: the rank table is checked and the CID registered; a kept abort of the CID
stops it at once, and as a RUN that faults it sends its own aborts (R315). -/
def startRun (out : Bool) (x : RunExt) (s : State) : Res :=
  let k := s.ctx.k
  let core := coreOf k
  let t := s.tenOf core
  let rank := bits x.ids.toNat 0 16
  let g := bits x.ids.toNat 16 16
  let cid := bits x.ids.toNat 32 16
  let c := s.curOf k 3
  if !runOk (isU k) x then badCmd s
  else
    (readRanks g x s).andThen (fun s =>
      let ids := (s.curOf k 3).latch.map (·.toNat)
      let s := s.modCur k 3 (fun c => { c with latch := [] })
      if ids.getD rank 0 != s.pkg.pkgid.toNat || ids.eraseDups.length != g || s.pkg.cids.any (fun e => e.1 == t && e.2.1 == cid) then badCmd s
      else
        let r : Run := { k := k, drove := c.drove, iter := c.iter, out := out, pc := x.prog.toNat, rank := rank, g := g, cid := cid, ids := ids
                         bf := [(0, x.bf0), (1, x.bf1), (2, x.bf2), (3, x.bf3)], kc := [], sendPeer := (rank + 1) % g, recvPeer := (rank + 1) % g
                         sentSeq := [], sentSteps := 0, unreceived := 0, atBarc := false, barcDone := false, fin := false, faulted := false }
        match (s.ten t).aborts.find? (fun a => a.1 == cid) with
        | some a =>
          .fault (.at cTimeout 0 a.2) ((s.modTen t (fun y => { y with aborts := y.aborts.filter (fun b => b.1 != cid) })).sendAborts r)
        | none =>
          .wait 7 (((s.setRun core (some r)).modPkg (fun p => { p with cids := p.cids ++ [(t, cid, core)] })).modTen t (fun y =>
            { y with ended := y.ended.filter (· != cid) })))

/-- RUN: it waits while another program runs on the core; it finishes when its own has ended. -/
def runBody (out : Bool) (x : RunExt) (s : State) : Res :=
  let k := s.ctx.k
  let core := coreOf k
  match (s.core core).run with
  | some r => if r.k = k then (if r.fin then .done (s.setRun core none) else .wait 7 s) else .wait 7 s
  | none =>
    match (if out then s.reserve k 3 1 else some s) with
    | none => .wait 7 s
    | some s => startRun out x s

/-- RUN. -/
def execRun (hd : Hdr) (out : Bool) (x : RunExt) (s : State) : Out := engineCmd 3 hd (runBody out x) s

/-! ### Steps -/

/-- The word of a program step and its extension words. -/
def State.stepWords (s : State) (r : Run) : Eff (List DWord) :=
  let x := fun (j : Nat) => (eaDword (pcDword r.pc)).at (8 * j)
  let rd := fun (j : Nat) (s : State) =>
    if eaOk (isU r.k) (x j) 8 then s.engReadAt r.k 3 (x j) 8 else Eff.fault (FInfo.of cEngine 0) s
  (rd 0 s).bind (fun w s =>
    (upto ((stepExt (bits w 42 6)).getD 0)).foldl (fun (acc : Eff (List DWord)) j =>
      acc.bind (fun ws s => (rd (j + 1) s).bind (fun v s => .ok (ws ++ [BitVec.ofNat 64 v]) s))) (.ok [BitVec.ofNat 64 w] s))

/-- The step that a program stands at, from the words that were read for it. -/
def State.stepOf (s : State) (r : Run) (ws : List DWord) : State × Option Instr :=
  match decodeStep ws with
  | .ok i => (s, some i)
  | .error _ => (s.stepFault r (.of cEngine 0), none)

/-- The next step of a core's shepherd engine: its words are read once. -/
def State.shepherdNext (s : State) (core : Nat) : State × Option Instr :=
  match (s.core core).run with
  | none => (s, none)
  | some r =>
    if r.fin || r.faulted || s.sigStalls (coreOf r.k) 3 then (s, none)
    else
      let s := { s with ctx := ⟨r.k, 0, 0, 0, true, 3, false, 0, none, none⟩ }
      match (s.curOf r.k 3).latch with
      | w :: ws => s.stepOf r (w :: ws)
      | [] =>
        match s.stepWords r with
        | .wait _ t => (s.waiting t, none)
        | .fault f t => (if f.cause = cTimeout then ({ s with reqs := t.reqs } : State).stepFault r f else (s.endReqs (engWho r.k 3)).stepFault r f, none)
        | .ok ws t => ((t.endReqs (engWho r.k 3)).modCur r.k 3 (fun c => { c with latch := ws })).stepOf r ws

/-- Perform a step of the running program of the core in execution: whole, or, when it waits or faults, not at all; or access by access. -/
def stepRun (f : Run → State → Res) (s : State) : Out :=
  match (s.core (coreOf s.ctx.k)).run with
  | none => .next s
  | some r =>
    match s.element r.k 3 (f r) with
    | .done s => .next (s.modCur r.k 3 (fun c => { c with latch := [] }))
    | .wait _ s => .next s
    | .fault i s => .next (s.stepFault r i)

/-- The program goes on past a step with n extension words. -/
def Run.past (r : Run) (n : Nat) : Run := { r with pc := r.pc + 8 * (n + 1) }

/-- OFF, LEN and the effective place of a data step. -/
def StepOp.len (o : StepOp) : Nat := bits o.ext.toNat 32 32
/-- Place of a data step in its buffer. -/
def Run.at (r : Run) (o : StepOp) : EA :=
  (eaDword (Map.get 0 r.bf o.bf.val)).at (bits o.ext.toNat 0 32 + (if o.oi then (Map.get 0 r.kc o.kc.val : Word).toNat * bits o.ext.toNat 32 32 else 0))

/-- A data step: LEN a multiple of 4, its buffer range inside the window (R197). -/
def dataStep (o : StepOp) (f : Run → EA → Nat → State → Res) (r : Run) (s : State) : Res :=
  let n := bits o.ext.toNat 32 32
  let x := r.at o
  if n % 4 != 0 || !eaOk (isU r.k) x n then badCmd s else f r x n s

/-- The words of a run of bytes at an address. -/
def State.runWords (s : State) (r : Run) (x : EA) (n : Nat) : Eff (List Nat) := s.engWords r.k 3 x (n / 4)

/-- Bytes of words. -/
def bytesOfWords (ws : List Nat) : List Byte := (ws.map (leBytes 4)).flatten

/-- Deliver a flit to the stream of a registered RUN (R313): one that was seen is discarded, one ahead of its turn is held, up to 64. -/
def RxStream.take (x : RxStream) (seq : Nat) (data : List Byte) : RxStream :=
  if seq < x.next then x
  else if seq = x.next then
    let ready := x.held.foldl (fun (a : Nat × List Byte) e => if e.1 = a.1 then (a.1 + 1, a.2 ++ e.2) else a) (seq + 1, data)
    { x with next := ready.1, buf := x.buf ++ ready.2, held := x.held.filter (fun e => decide (ready.1 ≤ e.1)) }
  else if x.held.length < 64 then { x with held := Map.put x.held seq data }
  else x

/-- Does the package refuse a flit of a stream at the link (R312, R313): no RUN here has registered its CID, or the stream's hold is full? -/
def State.refuses (s : State) (ten cid src seq : Nat) : Bool :=
  !s.pkg.cids.any (fun e => e.1 == ten && e.2.1 == cid)
    || (match s.pkg.streams.find? (fun x => x.ten == ten && x.cid == cid && x.src == src) with
      | some x => decide (x.next < seq) && decide (64 ≤ x.held.length) && (Map.find? x.held seq).isNone
      | none => false)

/-- Data of a stream arrive at this package and are accepted. -/
def State.deliver (s : State) (ten cid src seq : Nat) (data : List Byte) : State :=
  let is := fun (x : RxStream) => x.ten == ten && x.cid == cid && x.src == src
  let x := (s.pkg.streams.find? is).getD ⟨ten, cid, src, 0, [], []⟩
  s.modPkg (fun p => { p with streams := p.streams.filter (fun y => !is y) ++ [x.take seq data] })

/-- What a flit of a stream carries. -/
def TxFlit.msg (f : TxFlit) : Msg := .data f.ten f.cid f.src f.step f.seq f.data

/-- Must a sending step wait: no port of the route is up, or flits of the stream stand refused (R312, R313)? -/
def State.sendWaits (s : State) (r : Run) : Bool :=
  let dst := r.ids.getD r.sendPeer 0
  dst != s.pkg.pkgid.toNat
    && ((s.upPorts dst).isEmpty || s.pkg.txHeld.any (fun f => f.ten == s.runTen r && f.cid == r.cid && f.dst == dst))

/-- Send one flit of a stream; to this package itself it arrives at once. -/
def State.sendFlit (s : State) (r : Run) (dst seq : Nat) (data : List Byte) : State :=
  let t := s.runTen r
  if dst = s.pkg.pkgid.toNat then s.deliver t r.cid r.rank seq data
  else
    let f : TxFlit := ⟨t, r.cid, r.rank, dst, seq, r.sentSteps, data⟩
    (s.transmit dst r.cid f.msg).modPkg (fun p => { p with txFlits := p.txFlits ++ [f] })

/-- Send the bytes of a step towards the send peer (R312), as the next flits of the stream. -/
def State.sendData (s : State) (r : Run) (data : List Byte) : State × Run :=
  let dst := r.ids.getD r.sendPeer 0
  let seq := Map.get 0 r.sentSeq r.sendPeer
  let n := (data.length + flitBytes - 1) / flitBytes
  let s := (upto n).foldl (fun s j => s.sendFlit r dst (seq + j) ((data.drop (flitBytes * j)).take flitBytes)) s
  (s, { r with sentSeq := Map.put r.sentSeq r.sendPeer (seq + n), sentSteps := r.sentSteps + 1
               unreceived := if dst = s.pkg.pkgid.toNat then r.unreceived else r.unreceived + 1 })

/-- The next n bytes from the receive peer; none while they have not arrived. -/
def State.streamNext (s : State) (r : Run) (n : Nat) : Option (List Byte) :=
  if n = 0 then some []
  else
    match s.pkg.streams.find? (fun x => x.ten == s.runTen r && x.cid == r.cid && x.src == r.recvPeer) with
    | some x => if x.buf.length < n then none else some (x.buf.take n)
    | none => none

/-- They are consumed. -/
def State.dropStream (s : State) (r : Run) (n : Nat) : State :=
  let t := s.runTen r
  s.modPkg (fun p => { p with
    streams := p.streams.map (fun y => if y.ten == t && y.cid == r.cid && y.src == r.recvPeer then { y with buf := y.buf.drop n } else y) })

/-- Go on after a step with the program's new state. -/
def stepDone (r : Run) (n : Nat) (s : State) : Res := .done (s.setRun (coreOf r.k) (some (r.past n)))

/-- A sending step: the link must take what it sends. -/
def sending (r : Run) (n : Nat) (f : State → Res) (s : State) : Res := if n != 0 && s.sendWaits r then .wait 7 s else f s

/-- A sending step ends with its bytes on the link. -/
def sendDone (r : Run) (bs : List Byte) (s : State) : Res :=
  let x := s.sendData r bs
  stepDone x.2 1 x.1

/-- SEND. -/
def execSend (o : StepOp) (s : State) : Out :=
  stepRun (dataStep o (fun r x n s => sending r n (fun s => (s.runWords r x n).run (fun ws s => sendDone r (bytesOfWords ws) s)) s)) s

/-- Wait for n bytes from the receive peer; what uses them consumes them. -/
def received (r : Run) (n : Nat) (f : List Byte → State → Res) (s : State) : Res :=
  match s.streamNext r n with
  | none => .wait 7 s
  | some bs => (f bs s).andThen (fun s => .done (s.dropStream r n))

/-- The words of received bytes. -/
def wordsOf (bs : List Byte) : List Nat := (upto (bs.length / 4)).map (fun i => leVal ((bs.drop (4 * i)).take 4))

/-- RECV. -/
def execRecv (o : StepOp) (s : State) : Out :=
  stepRun (dataStep o (fun r x n s => received r n (fun bs s => (s.engPutWords r.k 3 x (wordsOf bs)).andThen (stepDone r 1)) s)) s

/-- OPR of RRS and RRW: add, max or min of the received and the local word. -/
def rop (op : Nat) (a b : Nat) : Nat :=
  if op = 0 then (add32 .rne a b).1 else if op = 1 then (minmaxV f32 true a b).1 else (minmaxV f32 false a b).1

/-- The combined words of a step: received and local, element by element. -/
def combineStep (op : BitVec 2) (r : Run) (x : EA) (n : Nat) (f : List Nat → State → Res) (s : State) : Res :=
  if op = 3 then badCmd s
  else
    received r n (fun bs s => (s.runWords r x n).run (fun ws s => f (((wordsOf bs).zip ws).map (fun p => rop op.toNat p.1 p.2)) s)) s

/-- RRS. -/
def execRrs (o : StepOp) (op : BitVec 2) (s : State) : Out :=
  stepRun (dataStep o (fun r x n s =>
    if op = 3 then badCmd s else sending r n (combineStep op r x n (fun ws s => sendDone r (bytesOfWords ws) s)) s)) s

/-- The bytes RRW writes: FP32, or 2-byte elements converted once under RM. -/
def narrow (df : Nat) (rm : Rm) (ws : List Nat) : List Byte :=
  if df = 0 then bytesOfWords ws
  else (ws.map (fun w => leBytes 2 (roundVal (if df = 1 then bf16 else f16) rm (unpack f32 w)).1)).flatten

/-- Write a run of bytes: whole words, and the half words at its ends (R197); its elements are aligned. -/
def State.runPut (s : State) (r : Run) (x : EA) (esz : Nat) (bs : List Byte) : Res :=
  if x.a % esz ≠ 0 then .fault (.at cMisaligned x.a 0) s
  else
    (cutAt 4 x.a bs.length).foldl (fun (q : Res) p =>
      q.andThen (fun s => s.engWrite r.k 3 { x with a := p.1 } p.2 (leVal ((bs.drop (p.1 - x.a)).take p.2)))) (.done s)

/-- RRW. -/
def execRrw (o : StepOp) (op : BitVec 2) (dbf : Fin 4) (df : BitVec 4) (rm : Rm) (ext1 : DWord) (s : State) : Out :=
  stepRun (dataStep o (fun r x n s =>
    let m := if df = 0 then n else n / 2
    let y := (eaDword (Map.get 0 r.bf dbf.val)).at (bits ext1.toNat 0 32 + (if o.oi then (Map.get 0 r.kc o.kc.val : Word).toNat * m else 0))
    if 2 < df.toNat ∨ bits ext1.toNat 32 32 ≠ 0 ∨ eaOk (isU r.k) y m = false then badCmd s
    else combineStep op r x n (fun ws s => (s.runPut r y (if df = 0 then 4 else 2) (narrow df.toNat rm ws)).andThen (stepDone r 2)) s)) s

/-- RCPY: written, and the same bytes forwarded. -/
def execRcpy (o : StepOp) (s : State) : Out :=
  stepRun (dataStep o (fun r x n s => sending r n (received r n (fun bs s => (s.engPutWords r.k 3 x (wordsOf bs)).andThen (sendDone r bs))) s)) s

/-- WAIT: until the peers have received every earlier send. -/
def execKWait (s : State) : Out := stepRun (fun r s => if r.unreceived = 0 then stepDone r 0 s else .wait 7 s) s

/-- LOOP. -/
def execKLoop (kc : Fin 4) (ext : DWord) (s : State) : Out :=
  stepRun (fun r s =>
    let count : Word := BitVec.ofNat 32 (bits ext.toNat 32 32)
    if count = 0 then badCmd s
    else
      let c : Word := Map.get 0 r.kc kc.val
      let c : Word := (if c = 0 then count else c) - 1
      let r := { r with kc := Map.put r.kc kc.val c }
      if c = 0 then stepDone r 1 s
      else .done (s.setRun (coreOf r.k) (some { r with pc := wrap 64 ((r.pc : Int) + 8 * sext 32 (bits ext.toNat 0 32)) }))) s

/-- PEER: an exact integer, reduced modulo G. -/
def execPeer (recv sk : Bool) (kc : Fin 4) (delta stride : BitVec 16) (s : State) : Out :=
  stepRun (fun r s =>
    let n : Nat := if sk then (Map.get 0 r.kc kc.val : Word).toNat else stride.toNat
    let p : Nat := (((r.rank : Int) + delta.toInt * n) % (r.g : Int)).toNat
    stepDone (if recv then { r with recvPeer := p } else { r with sendPeer := p }) 0 s) s

/-- BARC: until every rank has reached it. -/
def execBarc (s : State) : Out :=
  stepRun (fun r s =>
    if r.g = 1 ∨ r.barcDone = true then stepDone { r with atBarc := false, barcDone := false } 0 s
    else .done (s.setRun (coreOf r.k) (some { r with atBarc := true }))) s

/-- ENDP: the registration is released; under OUT the dword at bf0 goes to o1. -/
def execEndp (s : State) : Out :=
  stepRun (fun r s =>
    let t := s.runTen r
    let x := eaDword (Map.get 0 r.bf 0)
    let close := fun (s : State) => ((s.releaseCid t r.cid).setRun (coreOf r.k) (some { r with fin := true })).modTen t (fun y =>
      { y with ended := y.ended.filter (· != r.cid) ++ [r.cid] })
    if !r.out then .done (close s)
    else if !eaOk (isU r.k) x 8 then badCmd s
    else (s.engRead r.k 3 x 8).run (fun v s => .done ((close s).pushOut r.k 3 (vecOf64 (BitVec.ofNat 64 v))))) s

/-- NOP: an engine command, or a program step. -/
def execEngineNop (hd : Hdr) (s : State) : Out :=
  if s.ctx.retry then stepRun (fun r s => stepDone r 0 s) s else engineCmd s.ctx.eng hd .done s

/-! ### Collective traffic from other packages -/

/-- SHEPHERD_DATA_FLIT: data that the link has accepted reach their stream; what has come for a CID that is no longer registered is not delivered (R312). -/
def execShepherdDataFlit (ten cid src : Nat) (seq : FlitNo) (data : List Byte) (s : State) : Out :=
  if s.refuses ten cid src seq.no then .next s else .next (s.deliver ten cid src seq.no data)

/-- Keep an abort: at most 16 of a tenant, the oldest displaced. -/
def Tenant.keepAbort (t : Tenant) (cid src : Nat) : Tenant :=
  let l := t.aborts ++ [(cid, src)]
  { t with aborts := l.drop (l.length - 16) }

/-- COLLECTIVE_ABORT (R315): a running RUN stops at its step; one that has passed ENDP ignores it; otherwise it is kept. -/
def execCollectiveAbort (ten cid src : Nat) (s : State) : Out :=
  match s.pkg.cids.find? (fun e => e.1 == ten && e.2.1 == cid) with
  | some e =>
    match (s.core e.2.2).run with
    | some r => if r.fin || r.faulted then .next s else .next (s.stopRun r (.at cTimeout 0 src))
    | none => .next s
  | none => if (s.ten ten).ended.contains cid then .next s else .next (s.modTen ten (·.keepAbort cid src))

end Sys2Proof.Machine
end

