-- ==== Sys2Proof/Machine/Bfp.lean ====
section
/-! DEFINITION. Block floating point (R82, R83, R88): bit packing of mantissas, the values of a block, and the quantiser. -/
namespace Sys2Proof.Machine

/-- The bit string of mantissas of width w as a number: element k at bits [kw + w - 1 : kw] (R82). -/
def packMants (w : Nat) : List Int → Nat
  | [] => 0
  | m :: rest => wrap w m + 2 ^ w * packMants w rest

/-- Mantissa k of a bit string. -/
def mantOf (w n k : Nat) : Int := sext w (bits n (k * w) w)

/-- The exact value of a mantissa under exponent E at width w. -/
def bfpValue (w e : Nat) (m : Int) : Dy := Dy.ofInt m ((e : Int) - 127 - ((w : Int) - 2))

/-- The 32 mantissas of a block under exponent e (R88); an infinite or NaN element counts as 0 here. -/
def quantTry (w : Nat) (rm : Rm) (e : Nat) (xs : List FVal) : List Int :=
  xs.map (fun x =>
    match x with
    | .fin d => ({ d with e := d.e + 127 + (w - 2) - e }.roundInt rm).1
    | _ => 0)

/-- Are all mantissas in range? -/
def inRange (w : Nat) (ms : List Int) : Bool := ms.all (fun m => decide (-(2 ^ (w - 1)) ≤ m) && decide (m ≤ 2 ^ (w - 1) - 1))

/-- The retry loop of R88: from exponent e with `tries` retries left. Answers the exponent and whether a retry was made. An exponent of
0xFE or above is raised no further (notes/assumptions/11.md). -/
def quantLoop (w : Nat) (rm : Rm) (xs : List FVal) : Nat → Nat → Nat × Bool
  | 0, e => (e, false)
  | tries + 1, e =>
    if inRange w (quantTry w rm e xs) || decide (0xFE ≤ e) then (e, false) else ((quantLoop w rm xs tries (e + 1)).1, true)

/-- A quantised block: exponent, mantissas, QR and QS. -/
structure Block where
  e : Nat
  m : List Int
  qr : Bool
  qs : Bool
  deriving DecidableEq, Repr

/-- The quantiser (R88). `prev` is the exponent of the block quantised just before in the same command. -/
def quantise (w dx ql de : Nat) (rm : Rm) (prev : Option Nat) (xs : List FVal) : Block :=
  let de := if de = 0xFF then 0xFE else de
  let e0 : Nat :=
    if dx = 0 then de
    else if dx = 1 then prev.getD de
    else ((upto 0xFF).find? (fun e => inRange w (quantTry w rm e xs))).getD 0xFE
  if xs.any FVal.isNan then ⟨0xFF, xs.map (fun _ => 0), false, false⟩
  else
    let (e, qr) := quantLoop w rm xs ql e0
    let hi : Int := 2 ^ (w - 1) - 1
    let lo : Int := -(2 ^ (w - 1))
    let raw := quantTry w rm e xs
    let ms := (xs.zip raw).map (fun p =>
      match p.1 with
      | .inf n => (if n then lo else hi, true)
      | _ => (clampTo lo hi p.2, clampTo lo hi p.2 != p.2))
    ⟨e, ms.map (·.1), qr, ms.any (·.2)⟩

/-- QR and QS as flags. -/
def Block.flags (b : Block) : Nat := flagIf b.qr fQR ||| flagIf b.qs fQS

end Sys2Proof.Machine
end

