-- ==== Sys2Proof/Machine/Execute.lean ====
section
/-! DEFINITION. The execute unit X (R135 to R156): every instruction takes its sources, predicate and destination through
`xBody` of Machine/Operands.lean and computes its lanes here. -/
namespace Sys2Proof.Machine

/-! ### Floating point (R143 to R145) -/

/-- An element operation on a floating type; other types do not pass decoding. -/
def fElem (o : XArgs) (f : FFmt → Nat → Nat → Nat → FR) (a b c : Nat) : FR :=
  match Ty.fmt o.ty with
  | some ff => f ff a b c
  | none => (0, 0)

/-- A floating instruction, element by element. -/
def fBody (o : XArgs) (f : FFmt → Nat → Nat → Nat → FR) (s : State) : Res := xBody o (elemwise o (fElem o f)) s

/-- FADD. -/
def execFadd (o : XArgs) (s : State) : Out := routed 2 (.fadd o) o.tk (fBody o (fun ff a b _ => addV ff o.rm (unpack ff a) (unpack ff b))) s
/-- FSUB. -/
def execFsub (o : XArgs) (s : State) : Out := routed 2 (.fsub o) o.tk (fBody o (fun ff a b _ => addV ff o.rm (unpack ff a) (unpack ff b).opp)) s
/-- FMUL. -/
def execFmul (o : XArgs) (s : State) : Out := routed 2 (.fmul o) o.tk (fBody o (fun ff a b _ => mulV ff o.rm (unpack ff a) (unpack ff b))) s
/-- FMA. -/
def execFma (o : XArgs) (s : State) : Out :=
  routed 2 (.fma o) o.tk (fBody o (fun ff a b c => fmaV ff o.rm (unpack ff a) (unpack ff b) (unpack ff c))) s
/-- FNMA. -/
def execFnma (o : XArgs) (s : State) : Out :=
  routed 2 (.fnma o) o.tk (fBody o (fun ff a b c => fmaV ff o.rm (unpack ff a).opp (unpack ff b) (unpack ff c))) s
/-- FMIN. -/
def execFmin (o : XArgs) (s : State) : Out := routed 2 (.fmin o) o.tk (fBody o (fun ff a b _ => minmaxV ff false a b)) s
/-- FMAX. -/
def execFmax (o : XArgs) (s : State) : Out := routed 2 (.fmax o) o.tk (fBody o (fun ff a b _ => minmaxV ff true a b)) s

/-- FSGN works on the sign bit alone (R145): IMM16 is 0 .cpy, 1 .neg, 2 .xsg, 3 .abs. -/
def fsgnElem (mode : Nat) (ff : FFmt) (a b : Nat) : FR :=
  let mag := a % ff.signBit
  let sa := bit a (ff.eb + ff.fb)
  let sb := bit b (ff.eb + ff.fb)
  let sg : Bool := match mode with
    | 0 => sb
    | 1 => !sb
    | 2 => sa != sb
    | _ => false
  (withSign ff sg mag, 0)

/-- FSGN. -/
def execFsgn (o : XArgs) (s : State) : Out := routed 2 (.fsgn o) o.tk (fBody o (fun ff a b _ => fsgnElem o.imm.toNat ff a b)) s

/-- A condition on an order: .eq .ne .lt .le .gt .ge. -/
def condHolds (cc : Nat) (c : Int) : Bool :=
  match cc with
  | 0 => c == 0
  | 1 => c != 0
  | 2 => decide (c < 0)
  | 3 => decide (c ≤ 0)
  | 4 => decide (0 < c)
  | _ => decide (0 ≤ c)

/-- FCMP (R145): all ones of the element's width when the condition holds. -/
def fcmpElem (cc : Nat) (ff : FFmt) (na nb : Nat) : FR :=
  let a := unpack ff na
  let b := unpack ff nb
  let un := a.isNan || b.isNan
  let holds : Bool :=
    if cc = 6 then un else if cc = 7 then !un else if un then cc == 1 else condHolds cc (cmpV a b)
  (if holds then 2 ^ (ff.eb + ff.fb + 1) - 1 else 0, flagIf (a.isSnan || b.isSnan) fNV)

/-- FCMP. -/
def execFcmp (o : XArgs) (s : State) : Out := routed 2 (.fcmp o) o.tk (fBody o (fun ff a b _ => fcmpElem o.imm.toNat ff a b)) s
/-- FRCP. -/
def execFrcp (o : XArgs) (s : State) : Out :=
  routed 2 (.frcp o) o.tk (fBody o (fun ff a _ _ => let r := divV ff o.rm (.fin ⟨false, 1, 0⟩) (unpack ff a); r)) s
/-- FRSQ. -/
def execFrsq (o : XArgs) (s : State) : Out := routed 2 (.frsq o) o.tk (fBody o (fun ff a _ _ => rsqrtV ff o.rm (unpack ff a))) s
/-- FSQRT. -/
def execFsqrt (o : XArgs) (s : State) : Out := routed 2 (.fsqrt o) o.tk (fBody o (fun ff a _ _ => sqrtV ff o.rm (unpack ff a))) s
/-- FEXP2. -/
def execFexp2 (o : XArgs) (s : State) : Out := routed 2 (.fexp2 o) o.tk (fBody o (fun ff a _ _ => exp2V ff o.rm (unpack ff a))) s
/-- FLOG2. -/
def execFlog2 (o : XArgs) (s : State) : Out := routed 2 (.flog2 o) o.tk (fBody o (fun ff a _ _ => log2V ff o.rm (unpack ff a))) s
/-- FRND. -/
def execFrnd (o : XArgs) (s : State) : Out := routed 2 (.frnd o) o.tk (fBody o (fun ff a _ _ => rndV ff o.rm a)) s

/-! ### Conversion (R146) -/

/-- Element n of the concatenation S1, S2, S3; zero beyond it. -/
def concatElem (src : Ty) (a b c : Vec) (n : Nat) : Nat :=
  let per := perLane src
  let v := if n < 64 * per then a else if n < 128 * per then b else if n < 192 * per then c else zeroVec
  elemOf src (lane v (n % (64 * per) / per)).toNat (n % per)

/-- FCVT: destination element j is the conversion of element j of the concatenation. -/
def fcvtLanes (o : XArgs) (m : DWord) (a b c : Vec) : Vec × Nat × DWord :=
  let i := o.imm.toNat
  let src := ((Ty.ofCode (bits i 0 4)).getD .f32)
  lanewise o (fun l => mapElems o.ty (fun e =>
    convElem o.ty (bits i 4 5) src (bits i 9 5) o.rm o.sat (concatElem src a b c (l * perLane o.ty + e)))) m a

/-- FCVT. -/
def execFcvt (o : XArgs) (s : State) : Out := routed 2 (.fcvt o) o.tk (xBody o (fcvtLanes o)) s

/-! ### Integers (R147) -/

/-- An exact integer result as an element: clamped with SAT under .sat, else its low bits. -/
def intRes (ty : Ty) (sat : Bool) (z : Int) : FR :=
  let w := Ty.width ty
  let (lo, hi) := intBounds (Ty.signed ty) w
  if sat then (wrap w (clampTo lo hi z), flagIf (clampTo lo hi z != z) fSAT) else (wrap w z, 0)

/-- An integer instruction: the exact result from the elements as integers. -/
def iBody (o : XArgs) (f : Int → Int → Int → Int) (s : State) : Res :=
  xBody o (elemwise o (fun a b c => intRes o.ty o.sat (f (elemInt o.ty a) (elemInt o.ty b) (elemInt o.ty c)))) s

/-- The shift count of an element (R147). -/
def shCount (o : XArgs) (b : Int) : Nat := wrap (if Ty.width o.ty = 32 then 5 else 4) b

/-- IADD. -/
def execIadd (o : XArgs) (s : State) : Out := routed 2 (.iadd o) o.tk (iBody o (fun a b _ => a + b)) s
/-- ISUB. -/
def execIsub (o : XArgs) (s : State) : Out := routed 2 (.isub o) o.tk (iBody o (fun a b _ => a - b)) s
/-- IMUL. -/
def execImul (o : XArgs) (s : State) : Out := routed 2 (.imul o) o.tk (iBody o (fun a b _ => a * b)) s
/-- IMULH: bits [63:32] of the exact product. -/
def execImulh (o : XArgs) (s : State) : Out := routed 2 (.imulh o) o.tk (iBody o (fun a b _ => (a * b) / 2 ^ 32)) s
/-- IMAD. -/
def execImad (o : XArgs) (s : State) : Out := routed 2 (.imad o) o.tk (iBody o (fun a b c => a * b + c)) s
/-- IMIN. -/
def execImin (o : XArgs) (s : State) : Out := routed 2 (.imin o) o.tk (iBody o (fun a b _ => if b < a then b else a)) s
/-- IMAX. -/
def execImax (o : XArgs) (s : State) : Out := routed 2 (.imax o) o.tk (iBody o (fun a b _ => if a < b then b else a)) s
/-- IABS. -/
def execIabs (o : XArgs) (s : State) : Out := routed 2 (.iabs o) o.tk (iBody o (fun a _ _ => if a < 0 then -a else a)) s
/-- ISHL. -/
def execIshl (o : XArgs) (s : State) : Out := routed 2 (.ishl o) o.tk (iBody o (fun a b _ => a * 2 ^ shCount o b)) s
/-- ISHR: sign copies for signed types, zeros for .u32. -/
def execIshr (o : XArgs) (s : State) : Out := routed 2 (.ishr o) o.tk (iBody o (fun a b _ => a / 2 ^ shCount o b)) s

/-- A bitwise instruction on whole lanes. -/
def wBody (o : XArgs) (f : Word → Word → Nat) (s : State) : Res :=
  xBody o (fun m a b _ => lanewise o (fun i => (f (lane a i) (lane b i), 0)) m a) s

/-- AND. -/
def execAnd (o : XArgs) (s : State) : Out := routed 2 (.and o) o.tk (wBody o (fun a b => (a &&& b).toNat)) s
/-- OR. -/
def execOr (o : XArgs) (s : State) : Out := routed 2 (.or o) o.tk (wBody o (fun a b => (a ||| b).toNat)) s
/-- XOR. -/
def execXor (o : XArgs) (s : State) : Out := routed 2 (.xor o) o.tk (wBody o (fun a b => (a ^^^ b).toNat)) s
/-- ANDN. -/
def execAndn (o : XArgs) (s : State) : Out := routed 2 (.andn o) o.tk (wBody o (fun a b => (a &&& ~~~b).toNat)) s
/-- The number of set bits of a lane. -/
def popCount (a : Word) : Nat := ((upto 32).filter (fun i => a.getLsbD i)).length
/-- The leading zero bits of a lane; 32 for 0. -/
def leadZeros (a : Word) : Nat := if a = 0 then 32 else 31 - log2Aux 32 a.toNat
/-- POPC. -/
def execPopc (o : XArgs) (s : State) : Out := routed 2 (.popc o) o.tk (wBody o (fun a _ => popCount a)) s
/-- CLZ. -/
def execClz (o : XArgs) (s : State) : Out := routed 2 (.clz o) o.tk (wBody o (fun a _ => leadZeros a)) s

/-- ICMP: all ones of the element's width when the condition holds. -/
def icmpElem (o : XArgs) (a b : Nat) : FR :=
  (if condHolds o.imm.toNat (elemInt o.ty a - elemInt o.ty b) then 2 ^ Ty.width o.ty - 1 else 0, 0)

/-- ICMP. -/
def execIcmp (o : XArgs) (s : State) : Out := routed 2 (.icmp o) o.tk (xBody o (elemwise o (fun a b _ => icmpElem o a b))) s

/-! ### Fixed point (R148) -/

/-- The rounding and clamping of QMUL and QMAD. -/
def qRes (o : XArgs) (x : Int) : FR :=
  let F := bits o.imm.toNat 0 5
  let r := rndsh x F o.rm
  let nx := flagIf (x % 2 ^ F != 0) fNX
  if o.sat then (wrap 32 (sat32 r), nx ||| flagIf (sat32 r != r) fSAT) else (wrap 32 r, nx)

/-- QMUL. -/
def execQmul (o : XArgs) (s : State) : Out := routed 2 (.qmul o) o.tk (xBody o (elemwise o (fun a b _ => qRes o (i32 a * i32 b)))) s
/-- QMAD. -/
def execQmad (o : XArgs) (s : State) : Out :=
  routed 2 (.qmad o) o.tk (xBody o (elemwise o (fun a b c => qRes o (i32 a * i32 b + i32 c * 2 ^ bits o.imm.toNat 0 5)))) s

/-! ### Block floating point (R149, R150) -/

/-- Lanes of an across-lane instruction, with inactive lanes replaced. -/
def activeLanes (m : DWord) (v : Vec) (ident : Nat) : List Nat :=
  (upto 64).map (fun i => if maskBit m i then (lane v i).toNat else ident)

/-- A vector from a 2048-bit number. -/
def vecOfNat (n : Nat) : Vec := mkVec (fun i => BitVec.ofNat 32 (n / 2 ^ (32 * i)))

/-- BPACK: two blocks quantised, mantissa planes from byte 0, exponents in lane 63. -/
def bpackLanes (o : XArgs) (m : DWord) (a : Vec) : Vec × Nat × DWord :=
  let i := o.imm.toNat
  let w := bits i 0 3 + 2
  let xs := (activeLanes m a 0).map (unpack f32)
  let q := quantise w (bits i 3 2) (bits i 5 2) (bits i 7 8) o.rm
  let b0 := q none (xs.take 32)
  let b1 := q (some b0.e) (xs.drop 32)
  let n := packMants w b0.m + 2 ^ (32 * w) * packMants w b1.m + 2 ^ 2016 * (b0.e + 256 * b1.e)
  (vecOfNat n, b0.flags ||| b1.flags, BitVec.allOnes 64)

/-- BPACK. -/
def execBpack (o : XArgs) (s : State) : Out := routed 2 (.bpack o) o.tk (xBody o (fun m a _ _ => bpackLanes o m a)) s

/-- BUNPK: lane i is element i mod 32 of block i / 32 as FP32; a NaN block gives canonical NaNs; inactive lanes 0. -/
def bunpkLanes (o : XArgs) (m : DWord) (a : Vec) : Vec × Nat × DWord :=
  let w := bits o.imm.toNat 0 3 + 2
  let plane := fun (b : Nat) => leVal (((a.map (fun x => leBytes 4 x.toNat)).flatten.drop (4 * w * b)).take (4 * w))
  let e := fun (b : Nat) => bits (lane a 63).toNat (8 * b) 8
  let p0 := plane 0
  let p1 := plane 1
  let v := mkVec (fun i =>
    if !maskBit m i then 0
    else
      let b := i / 32
      if e b = 0xFF then BitVec.ofNat 32 f32.qnan
      else BitVec.ofNat 32 (roundFP f32 .rne (bfpValue w (e b) (mantOf w (if b = 0 then p0 else p1) (i % 32)))).1)
  (v, 0, BitVec.allOnes 64)

/-- BUNPK. -/
def execBunpk (o : XArgs) (s : State) : Out := routed 2 (.bunpk o) o.tk (xBody o (fun m a _ _ => bunpkLanes o m a)) s

/-! ### Lane moves (R151) -/

/-- A lane move: lane i of the result from the sources. -/
def mvBody (o : XArgs) (f : Vec → Vec → Vec → Nat → Word) (s : State) : Res :=
  xBody o (fun m a b c => lanewise o (fun i => ((f a b c i).toNat, 0)) m a) s

/-- MOV. -/
def execMov (o : XArgs) (s : State) : Out := routed 2 (.mov o) o.tk (mvBody o (fun a _ _ i => lane a i)) s
/-- SEL. -/
def execSel (o : XArgs) (s : State) : Out := routed 2 (.sel o) o.tk (mvBody o (fun a b c i => if lane c i ≠ 0 then lane a i else lane b i)) s
/-- SHFL: IMM16 bit 15 selects .bfly. -/
def execShfl (o : XArgs) (s : State) : Out :=
  routed 2 (.shfl o) o.tk (mvBody o (fun a b _ i =>
    if bit o.imm.toNat 15 then lane a (i ^^^ bits o.imm.toNat 0 6) else lane a ((lane b i).toNat % 64))) s
/-- BCAST. -/
def execBcast (o : XArgs) (s : State) : Out := routed 2 (.bcast o) o.tk (mvBody o (fun a _ _ _ => lane a (bits o.imm.toNat 0 6))) s
/-- SLIDE: IMM16 bit 15 selects .up. -/
def slideLane (n : Nat) (up : Bool) (a b : Vec) (i : Nat) : Word :=
  if up then (if n ≤ i then lane a (i - n) else lane b (i + 64 - n)) else (if i + n < 64 then lane a (i + n) else lane b (i + n - 64))
/-- SLIDE. -/
def execSlide (o : XArgs) (s : State) : Out :=
  routed 2 (.slide o) o.tk (mvBody o (fun a b _ i => slideLane (bits o.imm.toNat 0 6) (bit o.imm.toNat 15) a b i)) s
/-- INS. -/
def execIns (o : XArgs) (s : State) : Out :=
  routed 2 (.ins o) o.tk (mvBody o (fun a b _ i => if i = bits o.imm.toNat 0 6 then lane b 0 else lane a i)) s
/-- EXT. -/
def execExt (o : XArgs) (s : State) : Out :=
  routed 2 (.ext o) o.tk (mvBody o (fun a _ _ i => if i = 0 then lane a (bits o.imm.toNat 0 6) else 0)) s

/-! ### Reductions and scans (R89, R152) -/

/-- Operations of the lane combinations. -/
inductive Comb where
  | add | max | min
  deriving DecidableEq, Repr

/-- The identity (R152). -/
def Comb.ident (c : Comb) (ty : Ty) : Nat :=
  match c, ty with
  | .add, _ => 0
  | .max, .f32 => withSign f32 true f32.inf
  | .max, .u32 => 0
  | .max, _ => 2 ^ 31
  | .min, .f32 => f32.inf
  | .min, .u32 => 2 ^ 32 - 1
  | .min, _ => 2 ^ 31 - 1

/-- OPR of a combination. -/
def Comb.op (c : Comb) (ty : Ty) (rm : Rm) (a b : Nat) : FR :=
  match c, ty with
  | .add, .f32 => add32 rm a b
  | .max, .f32 => minmaxV f32 true a b
  | .min, .f32 => minmaxV f32 false a b
  | .add, _ => ((a + b) % 2 ^ 32, 0)
  | .max, _ => (if elemInt ty a < elemInt ty b then b else a, 0)
  | .min, _ => (if elemInt ty b < elemInt ty a then b else a, 0)

/-- One level of the tree: neighbours combined in pairs. -/
def pairUp (f : Nat → Nat → FR) : List Nat → List Nat × Nat
  | a :: b :: rest =>
    let r := f a b
    let q := pairUp f rest
    (r.1 :: q.1, r.2 ||| q.2)
  | l => (l, 0)

/-- The tree of R89: six levels. -/
def treeFold (f : Nat → Nat → FR) : Nat → List Nat × Nat → FR
  | 0, (l, fl) => (l.headD 0, fl)
  | n + 1, (l, fl) =>
    let q := pairUp f l
    treeFold f n (q.1, fl ||| q.2)

/-- RSUM, RMAX and RMIN. -/
def reduceLanes (o : XArgs) (c : Comb) (m : DWord) (a : Vec) : Vec × Nat × DWord :=
  let r := treeFold (c.op o.ty o.rm) 6 (activeLanes m a (c.ident o.ty), 0)
  (splat (BitVec.ofNat 32 r.1), r.2, BitVec.allOnes 64)

/-- RSUM. -/
def execRsum (o : XArgs) (s : State) : Out := routed 2 (.rsum o) o.tk (xBody o (fun m a _ _ => reduceLanes o .add m a)) s
/-- RMAX. -/
def execRmax (o : XArgs) (s : State) : Out := routed 2 (.rmax o) o.tk (xBody o (fun m a _ _ => reduceLanes o .max m a)) s
/-- RMIN. -/
def execRmin (o : XArgs) (s : State) : Out := routed 2 (.rmin o) o.tk (xBody o (fun m a _ _ => reduceLanes o .min m a)) s

/-- The folds of every non-empty initial part, in order, with their flags; `acc` is the fold so far. -/
def scanFrom (f : Nat → Nat → FR) : Nat → List Nat → List Nat × Nat
  | acc, [] => ([acc], 0)
  | acc, x :: rest =>
    let r := f acc x
    let q := scanFrom f r.1 rest
    (acc :: q.1, r.2 ||| q.2)

/-- The operation of a SCAN. -/
def scanComb (n : Nat) : Comb := if n = 1 then .max else if n = 2 then .min else .add

/-- SCAN (R89, R152): under .excl lane 0 is the identity and the last lane takes no part. -/
def scanLanes (o : XArgs) (m : DWord) (a : Vec) : Vec × Nat × DWord :=
  let c := scanComb (bits o.imm.toNat 0 2)
  let vs := activeLanes m a (c.ident o.ty)
  let excl := bit o.imm.toNat 2
  let used := if excl then vs.take 63 else vs
  let r := scanFrom (c.op o.ty o.rm) (used.headD 0) (used.drop 1)
  let out := if excl then c.ident o.ty :: r.1 else r.1
  (mkVec (fun i => BitVec.ofNat 32 (out.getD i 0)), r.2, BitVec.allOnes 64)

/-- SCAN. -/
def execScan (o : XArgs) (s : State) : Out := routed 2 (.scan o) o.tk (xBody o (fun m a _ _ => scanLanes o m a)) s

/-! ### Predicates (R153) -/

/-- PLOG on bits. -/
def plogBit (op : Nat) (a b : Bool) : Bool :=
  match op with
  | 0 => a && b
  | 1 => a || b
  | 2 => a != b
  | 3 => a && !b
  | _ => !a

/-- The body of PLOG and PSET: lane i is a bit, under the predicate. -/
def predBody (o : XArgs) (f : Part → Nat → Bool) (s : State) : Res :=
  let p := s.part s.ctx.k
  xBody o (fun m a _ _ => lanewise o (fun i => (b2n (f p i), 0)) m a) s

/-- PLOG. -/
def execPlog (o : XArgs) (s : State) : Out :=
  let i := o.imm.toNat
  routed 2 (.plog o) o.tk (predBody o (fun p j =>
    plogBit (bits i 0 3) (maskBit (p.rdP (bits i 6 3)) j) (maskBit (p.rdP (bits i 9 3)) j))) s
/-- PSET: first(n), or an 8-bit pattern repeated. -/
def execPset (o : XArgs) (s : State) : Out :=
  let i := o.imm.toNat
  routed 2 (.pset o) o.tk (predBody o (fun _ j => if bit i 15 then bit i (j % 8) else decide (j < bits i 0 7))) s

/-- PCNT: active lanes with the bit of pK set, the same in every lane. -/
def pcntBody (o : XArgs) (s : State) : Res :=
  let p := s.part s.ctx.k
  xBody o (fun m _ _ _ =>
    (splat (BitVec.ofNat 32 ((upto 64).filter (fun j => maskBit m j && maskBit (p.rdP (bits o.imm.toNat 0 3)) j)).length), 0,
      BitVec.allOnes 64)) s

/-- PCNT. -/
def execPcnt (o : XArgs) (s : State) : Out := routed 2 (.pcnt o) o.tk (pcntBody o) s

/-! ### Accumulator reads (R154) -/

/-- Is a tile of the partition (R8)? -/
def tileInPart (u : Bool) (t : Nat) : Bool := if u then decide (Config.tileU ≤ t) else decide (t < Config.tileU)

/-- A tile of a core. -/
def Core.tile (c : Core) (t : Nat) : Tile := Map.get Tile.zero c.tiles t

/-- Is a tile command in progress on a tile of a core: started, which is the pop of its format word (R180), and not finished? -/
def State.tileBusy (s : State) (core t : Nat) : Bool :=
  (upto 8).any (fun j =>
    match ((s.part (core * 8 + j)).ring 0).cur with
    | some c => c.fw.isSome && decide (1 ≤ bits c.word.toNat 42 6) && decide (bits c.word.toNat 42 6 ≤ 4) && bits c.word.toNat 0 6 == t
    | none => false)

/-- ACCRD: the selector is lane 0 of S1; a version not yet reached waits, one that has passed faults. -/
def accrdBody (o : XArgs) (s : State) : Res :=
  let k := s.ctx.k
  let p := s.part k
  if !p.queuesX o then .wait 2 s
  else if p.olderCtl s.ctx.seq [6] then .wait 7 s
  else
    let (a, _, _, p') := p.readSrcs o
    let sel := (lane a 0).toNat
    let t := bits sel 0 6
    let c := s.core (coreOf k)
    let ver := (c.tile t).ver
    if bits sel 15 17 ≠ 0 then .fault (.of cReserved 0) s
    else if !tileInPart (isU k) t then .fault (.of cEngine 0) s
    else if s.tileBusy (coreOf k) t then .wait 7 s
    else if !bit sel 14 && ver != o.imm then
      (if 32768 ≤ (o.imm - ver).toNat then .fault (.of cQueue 4) s else .wait 7 s)
    else
      let base := 128 * bits sel 6 7 + 64 * bits sel 13 1
      let (v, _, m) := lanewise o (fun i => ((Map.get 0 (c.tile t).data (base + i) : Word).toNat, 0)) (p.rdP o.p.val) a
      .done ((s.setPart k (p'.deliverX o.d m v)).meter (s.tenOf (coreOf k)) 4 (countOnes m))

/-- ACCRD. -/
def execAccrd (o : XArgs) (s : State) : Out := routed 2 (.accrd o) o.tk (accrdBody o) s

/-! ### Flags (R156) -/

/-- FLGRD and FLGCLR: after every older instruction of S, and of A as far as `held` says; the value read, then the named flags cleared. -/
def flagsBody (o : XArgs) (held : Part → Nat → Bool) (clear : Word) (s : State) : Res :=
  let k := s.ctx.k
  let p := s.part k
  if p.older 3 s.ctx.seq then .wait 7 s
  else
    (xBodyOn (held p s.ctx.seq) o (fun m a _ _ => lanewise o (fun _ => (p.flags.toNat, 0)) m a) s).andThen (fun s =>
      .done (s.modPart k (fun p => { p with flags := p.flags &&& ~~~clear })))

/-- FLGRD: it waits for no instruction of A but a write of the register (R16). -/
def execFlgrd (o : XArgs) (s : State) : Out :=
  routed 2 (.flgrd o) o.tk (flagsBody o Part.olderFlagWrite 0) s
/-- FLGCLR. -/
def execFlgclr (o : XArgs) (s : State) : Out :=
  routed 2 (.flgclr o) o.tk (flagsBody o (fun p q => p.olderCtl q [6]) (o.imm.setWidth 32 &&& 0x7F)) s

end Sys2Proof.Machine
end

