-- ==== Sys2Proof/Machine/Matrix.lean ====
section
/-! DEFINITION. The matrix engine M (R178 to R185, R85, R86, R299, R300): tile commands, the weight buffer, and the array lease. -/
namespace Sys2Proof.Machine

/-! ### The format word (R179, R74) -/

/-- Field of a format word. -/
def fwField (w : DWord) (lo len : Nat) : Nat := bits w.toNat lo len

/-- Is a format word free of reserved values? -/
def fwOk (w : DWord) : Bool :=
  let df := fwField w 9 4
  fwField w 0 3 != 7 && fwField w 3 3 != 7 && !(decide (3 ≤ df) && decide (df ≤ 7)) && df != 15 && fwField w 13 2 != 3
    && fwField w 27 5 == 0 && fwField w 40 24 == 0

/-! ### The array lease (R15, R180, R299, R300) -/

/-- LMAX of a partition of a core: 0 acts as 64. -/
def State.leaseMax (s : State) (core : Nat) (u : Bool) : Nat :=
  let v := s.planeByte core u 0x10 % 128
  if v = 0 then 64 else v

/-- Does the command word need the lease: every code of M but NOTIFY and NOP? -/
def needsLease (w : DWord) : Bool := decide (bits w.toNat 42 6 < 0x3E)

/-- Are the tokens of a command word there? -/
def State.tokensThere (s : State) (k e : Nat) (w : DWord) : Bool :=
  let hd := hdrOf w.toNat
  hd.wsrc == 0 || decide (hd.wcnt.toNat ≤ s.waitTokens k e hd.wsrc.toNat)

/-- Is a strand's copy ready at the array: its head command has its extension words and its WAIT tokens, and is not stopped (R299)? -/
def State.arrayReady (s : State) (k : Nat) : Bool :=
  match ((s.part k).ring 0).cur with
  | some c => needsLease c.word && c.need == 0 && c.toks && !s.stopped (engWho k 0)
  | none => false

/-- Will it be, from what its ring holds already: a command that the engine has yet to take, or whose extension words or tokens it has yet to take, also while a
signal of the one before finds no room (R173)? -/
def State.arrayComing (s : State) (k : Nat) : Bool :=
  let g := (s.part k).ring 0
  let able := fun (w : DWord) (need : Nat) (toks : Bool) => needsLease w && decide (need ≤ g.prod - g.cons) && (toks || s.tokensThere k 0 w)
  !s.stopped (engWho k 0) && g.hold.isNone && (match g.cur with
    | some c => able c.word c.need c.toks
    | none =>
      let w := s.ringWord k 0 g.cons
      decide (g.cons < g.prod) && !(s.part k).frozen && able w (1 + (cmdExt 0 (bits w.toNat 42 6)).getD 0) false)

/-- Is it skipped until the version of a tile changes (R300)? -/
def State.arraySkipped (s : State) (k : Nat) : Bool :=
  match (s.part k).skip with
  | some (t, v) => ((s.core (coreOf k)).tile t).ver.toNat == v
  | none => false

/-- The strands of a core in the order of a grant: U rings first, each set from the strand after its last holder. -/
def leaseOrder (core lastU lastP : Nat) : List Nat :=
  (upto 4).map (fun j => keyOf core ((lastU + 1 + j) % 4) true) ++ (upto 4).map (fun j => keyOf core ((lastP + 1 + j) % 4) false)

/-- Has a command begun? -/
def Cur.begun (c : Cur) : Bool := c.prog != 0 || c.fw.isSome || !c.seen.isEmpty

/-- ARRAY_LEASE_TURN: a holder that is ready, or is about to be from what its ring holds, keeps its turn; otherwise the lease goes to the next ready strand. -/
def execArrayLeaseTurn (core : Nat) (s : State) : Out :=
  let c := s.core core
  let keeps := match c.holder with
    | some k => (s.arrayReady k || s.arrayComing k) && !s.arraySkipped k && (c.turnLeft != 0 || (s.curOf k 0).begun)
    | none => false
  if keeps then .next s
  else
    match (leaseOrder core c.lastUrgent c.lastHolder).find? (fun k => s.arrayReady k && !s.arraySkipped k) with
    | none => .next (s.modCore core (fun c => { c with holder := none }))
    | some k =>
      let n := min (max (s.part k).lrun.toNat 1) (s.leaseMax core (isU k))
      .next ((s.modCore core (fun c => { c with
        holder := some k, turnLeft := n
        lastUrgent := if isU k then strOf k else c.lastUrgent
        lastHolder := if isU k then c.lastHolder else strOf k })).modPart k (fun p => { p with skip := none }))

/-- A strand's turn ends. -/
def State.endTurn (s : State) (k : Nat) : State :=
  s.modCore (coreOf k) (fun c => if c.holder = some k then { c with holder := none, turnLeft := 0 } else c)

/-- One command of the turn is done. -/
def State.countTurn (s : State) (k : Nat) : State :=
  s.modCore (coreOf k) (fun c =>
    if c.holder = some k then (if c.turnLeft ≤ 1 then { c with holder := none, turnLeft := 0 } else { c with turnLeft := c.turnLeft - 1 }) else c)

/-- A matrix command under the lease: it waits until its strand holds it, with a command of the turn left; a fault ends the turn. -/
def leased (body : State → Res) (s : State) : Res :=
  let k := s.ctx.k
  if (s.core (coreOf k)).holder ≠ some k ∨ ((s.core (coreOf k)).turnLeft = 0 ∧ (s.curOf k 0).begun = false) then .wait 7 s
  else
    match body s with
    | .done s => .done (s.countTurn k)
    | .wait w s => .wait w s
    | .fault f s => .fault f (s.endTurn k)

/-! ### Tile commands (R180) -/

/-- Change a tile of a core. -/
def State.modTile (s : State) (core t : Nat) (f : Tile → Tile) : State :=
  s.modCore core (fun c => { c with tiles := Map.put c.tiles t (f (c.tile t)) })

/-- The status element of STAT: the new version, the tile and its flags in lane 0, the command code in lane 1. -/
def statusElement (t : Nat) (x : Tile) (code : Nat) : Vec :=
  mkVec (fun i =>
    if i = 0 then BitVec.ofNat 32 (x.ver.toNat + t * 2 ^ 16 + b2n x.of * 2 ^ 22 + b2n x.sat * 2 ^ 23 + b2n x.nv * 2 ^ 24)
    else if i = 1 then BitVec.ofNat 32 code else 0)

/-- A tile command: operands, version, room for its status element, format word, then `perform`; VER then counts it. A version not yet
reached releases the lease with nothing popped. -/
def tileCmd (hd : Hdr) (t : TileOp) (code : Nat) (okOps : State → Bool) (perform : DWord → State → Res) : State → Out :=
  engineCmd 0 hd (leased (fun s =>
    let k := s.ctx.k
    let core := coreOf k
    let n := t.tile.val
    let ver := ((s.core core).tile n).ver
    let popped : Eff DWord :=
      match (s.curOf k 0).fw with
      | some w => .ok w s
      | none =>
        if !tileInPart (isU k) n || !okOps s then .fault (.of cEngine 0) s
        else if t.vc && ver != t.ever then
          (if 32768 ≤ (t.ever - ver).toNat then .fault (.of cEngine 0) s
           else .wait 7 ((s.endTurn k).modPart k (fun p => { p with skip := some (n, ver.toNat) })))
        else
          match (if t.stat then s.reserve k 0 1 else some s) with
          | none => .wait 7 s
          | some s =>
            match (s.part k).fmtq with
            | [] => .fault (.of cFormatUnderflow 0) s
            | w :: rest =>
              let s := s.modPart k (fun p => { p with fmtq := rest })
              if fwOk w then .ok w (s.modCur k 0 (fun c => { c with fw := some w })) else .fault (.of cFormatReserved w.toNat) s
    popped.run (fun w s =>
      (perform w s).andThen (fun s =>
        let s := s.modTile core n (fun x => { x with ver := x.ver + 1 })
        .done (if t.stat then s.pushOut k 0 (statusElement n ((s.core core).tile n) code) else s)))))

/-! ### MMA (R181, R84 to R86) -/

/-- The mantissas of a block from its bytes. -/
def blockMants (w : Nat) (bs : List Byte) : List Int := (upto 32).map (fun k => mantOf w (leVal bs) k)

/-- Bytes of a compressed block from its header, none for a reserved bit (R83). -/
def blockSize (hdr : Nat) : Option Nat :=
  if bits hdr 3 5 ≠ 0 then none else some (if bits hdr 0 3 = 7 then 2 else 2 + 4 * (bits hdr 0 3 + 2))

/-- The compressed blocks of B from an offset of the weight buffer, or none where R84 forbids one. -/
def readBlocks (m : List Host.Cell) (bw lim : Nat) : Nat → Nat → Option (List (Nat × List Int))
  | 0, _ => some []
  | n + 1, off =>
    let hdr := (memRead m (off + 1)).toNat
    match (if off + 2 ≤ lim then blockSize hdr else none) with
    | none => none
    | some size =>
      let tc := bits hdr 0 3
      if lim < off + size ∨ (tc ≠ 7 ∧ bw < tc) then none
      else
        match readBlocks m bw lim n (off + size) with
        | none => none
        | some rest =>
          let ms := if tc = 7 then (upto 32).map (fun _ => 0) else blockMants (tc + 2) (memReadN m (off + 2) (size - 2))
          some (((memRead m off).toNat, ms) :: rest)

/-- Bytes of the compressed blocks from an offset of the weight buffer. -/
def blocksLen (m : List Host.Cell) : Nat → Nat → Nat
  | 0, _ => 0
  | n + 1, off =>
    let size := (blockSize (memRead m (off + 1)).toNat).getD 0
    size + blocksLen m n (off + size)

/-- Does an MMA read a poisoned accumulator or weight (R352)? -/
def State.arrayBad (s : State) (core t kb off : Nat) (zi : Bool) : Bool :=
  let c := s.core core
  (!zi && c.tileBad t) || c.wbufBad off (blocksLen c.wbuf (128 * kb) off)

/-- The exact block sum of R85: an integer times a power of two. -/
def blockSum (wa wb : Nat) (x y : Nat × List Int) : Dy :=
  Dy.ofInt (((x.2.zip y.2).map (fun p => p.1 * p.2)).sum) ((x.1 : Int) + y.1 - 254 - ((wa : Int) - 2) - ((wb : Int) - 2))

/-- ADDF32 of R85: the accumulator, OF and NV. -/
def addBlock (acc : Nat) (v : Dy) : Nat × Bool × Bool :=
  let r := roundFP f32 .rne v
  let big := r.2 &&& fOF != 0
  match unpack f32 acc with
  | .nan _ => (acc, false, false)
  | .inf n => if big && v.neg != n then (f32.qnan, big, true) else (acc, big, false)
  | .fin a =>
    if big then (withSign f32 v.neg f32.inf, true, false)
    else
      let x := roundFP f32 .rne (Dy.add .rne a v)
      (x.1, x.2 &&& fOF != 0, false)

/-- One block of an F32 element. -/
def accF32 (wa wb : Nat) (a : Nat × Bool × Bool) (p : (Nat × List Int) × (Nat × List Int)) : Nat × Bool × Bool :=
  if p.1.1 = 0xFF ∨ p.2.1 = 0xFF then (f32.qnan, a.2.1, a.2.2)
  else
    let r := addBlock a.1 (blockSum wa wb p.1 p.2)
    (r.1, a.2.1 || r.2.1, a.2.2 || r.2.2)

/-- One block of an I32 element (R86): the element, SAT and NV. -/
def accI32 (wa wb ix : Nat) (a : Nat × Bool × Bool) (p : (Nat × List Int) × (Nat × List Int)) : Nat × Bool × Bool :=
  if p.1.1 = 0xFF ∨ p.2.1 = 0xFF then (a.1, a.2.1, true)
  else
    let v := blockSum wa wb p.1 p.2
    let c := ({ v with e := v.e + 127 - (ix : Int) }.roundInt .rne).1
    let x := i32 a.1 + c
    (wrap 32 (sat32 x), a.2.1 || sat32 x != x, a.2.2)

/-- The blocks of row i of A from scratchpad. -/
def State.rowBlocks (s : State) (core wa kb mant exp : Nat) (ta : Bool) (i : Nat) : List (Nat × List Int) :=
  (upto kb).map (fun b =>
    let j := if ta then b * 128 + i else i * kb + b
    ((s.byteAt (.spad core) (exp + j)).toNat, blockMants wa (s.bytesAt (.spad core) (mant + j * 4 * wa) (4 * wa))))

/-- The tile after an MMA. One without ZI computes in the type that the tile has, whatever its AT, and AT is the type of what follows (R23, R181;
notes/assumptions/56.md). -/
def State.mmaTile (s : State) (core t : Nat) (w : DWord) (kb mant exp : Nat) (bs : List (Nat × List Int)) : Tile :=
  let wa := fwField w 0 3 + 2
  let wb := fwField w 3 3 + 2
  let zi := bit w.toNat 7
  let x := (s.core core).tile t
  let int := if zi then bit w.toNat 6 else x.i32
  let x0 : Tile := if zi then { x with data := [], of := false, sat := false, nv := false } else x
  let step := fun (acc : Nat × Bool × Bool) p => if int then accI32 wa wb (fwField w 32 8) acc p else accF32 wa wb acc p
  let start : Tile := { x0 with i32 := bit w.toNat 6 }
  (upto 128).foldl (fun (y : Tile) i =>
    let row := s.rowBlocks core wa kb mant exp (bit w.toNat 8) i
    (upto 128).foldl (fun (y : Tile) j =>
      let col := (upto kb).map (fun b => bs.getD (b * 128 + j) (0, []))
      let r := (row.zip col).foldl step ((Map.get 0 x0.data (128 * i + j) : Word).toNat, false, false)
      { y with
        data := Map.put y.data (128 * i + j) (BitVec.ofNat 32 r.1)
        of := y.of || (!int && r.2.1), sat := y.sat || (int && r.2.1), nv := y.nv || r.2.2 }) y) start

/-- Half a width, rounded up. -/
def halfUp (w : Nat) : Nat := (w + 1) / 2

/-- Meter a completed MMA (R342). -/
def State.meterMma (s : State) (t : Nat) (w : DWord) (kb : Nat) : State :=
  let a := halfUp (fwField w 0 3 + 2)
  let b := halfUp (fwField w 3 3 + 2)
  s.meter t (max a b - 1) (16384 * (32 * kb) * a * b / 16)

/-- Put a thing into a list in the order of a rank. -/
def insertBy (rank : Nat × Nat → Nat) (x : Nat × Nat) : List (Nat × Nat) → List (Nat × Nat)
  | [] => [x]
  | y :: rest => if rank x ≤ rank y then x :: y :: rest else y :: insertBy rank x rest

/-- Read the granules of an MMA's operands, each as an access of its own, in an order that is free: whether a later store is seen is decided for each by
itself (R182). -/
def State.granulesRead (s : State) (k : Nat) (gs : List (Nat × Nat)) : Eff (List (Nat × List Byte)) :=
  let core := coreOf k
  let t := s.tenOf core
  let c := s.curOf k 0
  let order := gs.foldr (insertBy (fun g => Config.granuleRank c.iter c.idx g.1)) []
  order.foldl (fun (r : Eff (List (Nat × List Byte))) g =>
    r.bind (fun xs s =>
      (s.access k 0 (fun s =>
        ((s.padFill (engWho k 0) t core g.1 g.2).keep s).bind (fun _ s =>
          .ok (s.valAt (.spad core) g.1 g.2) ((s.stampAgent false []).padTouch t core g.1 g.2)))).bind (fun v s =>
        .ok ((g.1, leBytes g.2 v) :: xs) s))) (.ok [] s)

/-- The operands of an MMA, as a state whose scratchpad holds them: read at once, or granule by granule. -/
def State.operands (s : State) (k mant n exp m : Nat) : Eff State :=
  let core := coreOf k
  let t := s.tenOf core
  ((s.padWalks (engWho k 0) t core mant n).bind (fun _ s => s.padWalks (engWho k 0) t core exp m)).bind (fun _ s =>
  if s.budget = 0 ∨ (s.curOf k 0).seen ≠ [] then
    (s.granulesRead k (cutAt 16 mant n ++ cutAt 16 exp m)).bind (fun xs s =>
      .ok (xs.foldl (fun (v : State) g => v.putBytes (.spad core) g.1 g.2) s) s)
  else
    ((s.padFill (engWho k 0) t core mant n).keep s).bind (fun _ s =>
      ((s.padFill (engWho k 0) t core exp m).keep s).bind (fun _ s =>
        let s := ((s.stampAgent false []).padTouch t core mant n).padTouch t core exp m
        .ok s s)))

/-- MMA: every block is checked before any element is written. -/
def mmaPerform (t : TileOp) (kb : Nat) (e0 e1 : DWord) (w : DWord) (s : State) : Res :=
  let k := s.ctx.k
  let core := coreOf k
  let wa := fwField w 0 3 + 2
  let mant := bits e0.toNat 0 22
  let exp := bits e0.toNat 22 22
  let lim := if isU k then Config.wbufBytes else Config.wbufU
  if !inSpad (isU k) mant (128 * kb * 4 * wa) || !inSpad (isU k) exp (128 * kb) then badCmd s
  else
    match readBlocks (s.core core).wbuf (fwField w 3 3) lim (128 * kb) (bits e1.toNat 0 21) with
    | none => badCmd s
    | some bs =>
      if s.arrayBad core t.tile.val kb (bits e1.toNat 0 21) (bit w.toNat 7) then .fault (.of cUncorrectable 0) s
      else
      s.element k 0 (fun s =>
        (s.operands k mant (128 * kb * 4 * wa) exp (128 * kb)).run (fun v s =>
          let y := v.mmaTile core t.tile.val w kb mant exp bs
          .done (((s.modTile core t.tile.val (fun _ => y)).cleanTile core t.tile.val).meterMma (s.tenOf core) w kb)))

/-- MMA. -/
def execMma (hd : Hdr) (t : TileOp) (kb : BitVec 8) (e0 e1 : DWord) (s : State) : Out :=
  tileCmd hd t 1 (fun s =>
    bits e0.toNat 44 20 == 0 && bits e1.toNat 21 43 == 0 && (if isU s.ctx.k then decide (Config.wbufU ≤ bits e1.toNat 0 21) else decide (bits e1.toNat 0 21 < Config.wbufU)))
    (mmaPerform t (kb.toNat + 1) e0 e1) s

/-! ### DRAIN (R183) -/

/-- The value of an element of a tile. -/
def Tile.value (x : Tile) (ix i j : Nat) : FVal :=
  let w := (Map.get 0 x.data (128 * i + j) : Word).toNat
  if x.i32 then .fin (Dy.ofInt (sext 32 w) ((ix : Int) - 127)) else unpack f32 w

/-- Element (i, j) in a floating format: the pattern and flags. F32 of an F32 tile is taken as stored. -/
def drainElem (x : Tile) (df : Nat) (rm : Rm) (ix i j : Nat) : FR :=
  if df = 0 then (if x.i32 then roundVal f32 rm (x.value ix i j) else ((Map.get 0 x.data (128 * i + j) : Word).toNat, 0))
  else roundVal (if df = 1 then bf16 else f16) rm (x.value ix i j)

/-- The quantised blocks of rows 0 to n - 1, in ascending (i, c). -/
def drainBlocks (x : Tile) (w : DWord) (n : Nat) : List Block :=
  (upto (4 * n)).foldl (fun (bs : List Block) b =>
    let xs := (upto 32).map (fun j => x.value (fwField w 32 8) (b / 4) (b % 4 * 32 + j))
    bs ++ [quantise (fwField w 9 4 - 6) (fwField w 13 2) (fwField w 15 2) (fwField w 19 8) (Rm.ofCode (fwField w 17 2))
      ((bs.getLast?).map (·.e)) xs]) []

/-- Words from bytes. -/
def wordsOfBytes (bs : List Byte) : List Nat := (upto (bs.length / 4)).map (fun i => leVal ((bs.drop (4 * i)).take 4))

/-- Row i of a DRAIN: the words at ext0, the words at ext1, and the flags of the strand. -/
def drainRow (x : Tile) (w : DWord) (i : Nat) : List Nat × List Nat × Nat :=
  let df := fwField w 9 4
  if 8 ≤ df then
    let bs := (drainBlocks x w (i + 1)).drop (4 * i)
    let width := df - 6
    (wordsOfBytes ((bs.map (fun b => leBytes (4 * width) (packMants width b.m))).flatten), [leVal (bs.map (fun b => (BitVec.ofNat 8 b.e : Byte)))],
      bs.foldl (fun f b => f ||| b.flags) 0)
  else
    let rs := (upto 128).map (fun j => drainElem x df (Rm.ofCode (fwField w 17 2)) (fwField w 32 8) i j)
    (wordsOfBytes ((rs.map (fun r => leBytes (if df = 0 then 4 else 2) r.1)).flatten), [], rs.foldl (fun f r => f ||| r.2) 0)

/-- Bytes of a row by DF. -/
def drainBytes (df : Nat) : Nat := if df = 0 then 512 else if df ≤ 2 then 256 else 16 * (df - 6)

/-- DRAIN: rows in order; ZA then zeroes the tile and its flags. -/
def drainPerform (t : TileOp) (za : Bool) (dst exp : DWord) (w : DWord) (s : State) : Res :=
  let k := s.ctx.k
  let core := coreOf k
  let df := fwField w 9 4
  let x := (s.core core).tile t.tile.val
  if !rangeOk (isU k) dst (128 * drainBytes df) || !(if 8 ≤ df then rangeOk (isU k) exp 512 else exp == 0) then badCmd s
  else if (s.core core).tileBad t.tile.val then .fault { FInfo.of cUncorrectable 0 with prog := (s.curOf k 0).prog } s
  else
    (runElems 0 128 1 (fun i s =>
      let (ws, es, fl) := drainRow x w i
      (s.engPutWords k 0 ((eaDword dst).at (i * drainBytes df)) ws).andThen (fun s =>
        (s.engPutWords k 0 ((eaDword exp).at (4 * i)) es).andThen (fun s => .done (s.orFlags k (BitVec.ofNat 32 fl))))) s).andThen (fun s =>
      .done (if za then s.modTile core t.tile.val (fun x => { x with data := [], of := false, sat := false, nv := false }) else s))

/-- DRAIN. -/
def execDrain (hd : Hdr) (t : TileOp) (za : Bool) (dst exp : DWord) (s : State) : Out :=
  tileCmd hd t 2 (fun _ => dwOk dst && dwOk exp) (drainPerform t za dst exp) s

/-! ### ACCLD, ACCZ, WBLD (R184, R185) -/

/-- ACCLD: all 65,536 bytes are read, then the tile takes them. -/
def accldPerform (t : TileOp) (src : DWord) (w : DWord) (s : State) : Res :=
  let k := s.ctx.k
  s.element k 0 (fun s =>
    (s.engWords k 0 (eaDword src) 16384).run (fun ws s =>
      .done ((s.modTile (coreOf k) t.tile.val (fun x =>
        { x with data := (upto 16384).map (fun i => (i, BitVec.ofNat 32 (ws.getD i 0))), i32 := bit w.toNat 6, of := false, sat := false, nv := false })).cleanTile
          (coreOf k) t.tile.val)))

/-- ACCLD. -/
def execAccld (hd : Hdr) (t : TileOp) (src : DWord) (s : State) : Out :=
  tileCmd hd t 3 (fun s => rangeOk (isU s.ctx.k) src 65536) (accldPerform t src) s

/-- ACCZ. -/
def acczPerform (t : TileOp) (w : DWord) (s : State) : Res :=
  .done ((s.modTile (coreOf s.ctx.k) t.tile.val (fun x => { x with data := [], i32 := bit w.toNat 6, of := false, sat := false, nv := false })).cleanTile
    (coreOf s.ctx.k) t.tile.val)

/-- ACCZ. -/
def execAccz (hd : Hdr) (t : TileOp) (s : State) : Out := tileCmd hd t 4 (fun _ => true) (acczPerform t) s

/-- The blocks of a WBLD from byte `off` of its run on, at most `fuel` of them now: each is read, checked, and written. -/
def wbldLoop (k wboff len : Nat) (src : EA) : Nat → Nat → State → Res
  | 0, off, s => if off < len then .wait 7 s else .done s
  | fuel + 1, off, s =>
    if len ≤ off then .done s
    else
      let r := s.element k 0 (fun s =>
        if len < off + 2 then badCmd s
        else
          let w0 := off / 4
          let w1 := (off + 1) / 4 + 1
          (s.engSpan k 0 src w0 (w1 - w0)).run (fun hdr s =>
            match blockSize (hdr.getD (off % 4 + 1) 0).toNat with
            | none => badCmd s
            | some n =>
              if len < off + n then badCmd s
              else
                (s.engSpan k 0 src w1 ((off + n - 1) / 4 + 1 - w1)).run (fun more s =>
                  let bs := ((hdr ++ more).drop (off % 4)).take n
                  .done ((s.modCore (coreOf k) (fun c => { c with wbuf := memWriteN c.wbuf (wboff + off) bs })).modCur k 0 (fun c =>
                    { c with prog := off + n })))))
      match r with
      | .done s => wbldLoop k wboff len src fuel (s.curOf k 0).prog s
      | .wait w s => .wait w s
      | .fault f s => .fault { f with prog := off } s

/-- WBLD; the lines of the weight buffer that it has written whole are no longer poisoned. -/
def wbldBody (off len : BitVec 21) (src : DWord) (s : State) : Res :=
  let k := s.ctx.k
  let n := len.toNat + 1
  let inPart := if isU k then decide (Config.wbufU ≤ off.toNat) && decide (off.toNat + n ≤ Config.wbufBytes) else decide (off.toNat + n ≤ Config.wbufU)
  if !inPart || !rangeOk (isU k) src n then badCmd s
  else
    (wbldLoop k off.toNat n (eaDword src) (min (max 1 s.budget) n) (s.curOf k 0).prog s).andThen (fun s => .done (s.cleanWbuf (coreOf k) off.toNat n))

/-- WBLD. -/
def execWbld (hd : Hdr) (off : BitVec 21) (len : BitVec 21) (src : DWord) (s : State) : Out :=
  engineCmd 0 hd (leased (wbldBody off len src)) s

end Sys2Proof.Machine
end

