-- ==== Sys2Proof/Machine/Walker.lean ====
section
/-! DEFINITION. Droves and the walker (R106 to R108, R25, R28, R60, R210, R211, R288 to R298, R302): validation of a record and its plane,
hand-out, pre-emption, planes, completion and the activity forecast. -/
namespace Sys2Proof.Machine

/-! ### The launch record (R107) -/

/-- Configuration plane; 0 keeps the resident one. -/
def Drove.planeVa (d : Drove) : Nat := fieldAt d.record 0x10 8
/-- Extent of a dimension. -/
def Drove.extent (d : Drove) (i : Nat) : Nat := fieldAt d.record (0x18 + 4 * i) 4
/-- Product of the extents. -/
def Drove.product (d : Drove) : Nat := d.extent 0 * d.extent 1 * d.extent 2 * d.extent 3
/-- Enumeration order. -/
def Drove.order (d : Drove) : Nat := fieldAt d.record 0x28 1
/-- The k-th fastest dimension of ORDER 1. -/
def Drove.perm (d : Drove) (k : Nat) : Nat := bits (fieldAt d.record 0x29 1) (2 * k) 2
/-- Gang size. -/
def Drove.gang (d : Drove) : Nat := fieldAt d.record 0x2A 1
/-- Priority. -/
def Drove.prio (d : Drove) : Nat := fieldAt d.record 0x2B 1
/-- Does it run in U? -/
def Drove.urgent (d : Drove) : Bool := d.prio == 3
/-- FLAGS[0]. -/
def Drove.resident (d : Drove) : Bool := bit (fieldAt d.record 0x2C 1) 0
/-- FLAGS[1]. -/
def Drove.pinned (d : Drove) : Bool := bit (fieldAt d.record 0x2C 1) 1
/-- Variant index. -/
def Drove.variant (d : Drove) : Nat := fieldAt d.record 0x2D 1

/-- The record is valid (R108). -/
def Drove.recordOk (d : Drove) : Bool :=
  let r := d.record
  bits (fieldAt r 0x2C 1) 2 6 == 0 && fieldAt r 0x2E 2 == 0 && bits (fieldAt r 0x58 8) 5 3 == 0 && bits (fieldAt r 0x58 8) 17 47 == 0
    && decide (d.order ≤ 3) && (d.order != 1 || ([d.perm 0, d.perm 1, d.perm 2, d.perm 3].eraseDups.length == 4))
    && (d.gang == 1 || d.gang == 2 || d.gang == 4 || d.gang == 16) && decide (d.prio ≤ 3) && decide (d.variant ≤ 7)
    && d.entry % 8 == 0 && decide (d.product ≤ 2 ^ 32)

/-! ### The order of enumeration (R289) -/

/-- Mixed-radix digits of a position over dimensions, fastest first. -/
def digits (ext : Nat → Nat) : List Nat → Nat → Map Nat
  | [], _ => []
  | k :: rest, n => Map.put (digits ext rest (n / ext k)) k (n % ext k)

/-- How many points of a square lie within the extents. -/
def mortonCount (e0 e1 x y side : Nat) : Nat := min side (e0 - x) * min side (e1 - y)

/-- The n-th point inside the extents in Morton order, from a square of side 2^level at (x, y). -/
def mortonAt (e0 e1 : Nat) : Nat → Nat → Nat → Nat → Nat × Nat
  | 0, x, y, _ => (x, y)
  | l + 1, x, y, n =>
    let h := 2 ^ l
    let c0 := mortonCount e0 e1 x y h
    let c1 := mortonCount e0 e1 (x + h) y h
    let c2 := mortonCount e0 e1 x (y + h) h
    if n < c0 then mortonAt e0 e1 l x y n
    else if n < c0 + c1 then mortonAt e0 e1 l (x + h) y (n - c0)
    else if n < c0 + c1 + c2 then mortonAt e0 e1 l x (y + h) (n - c0 - c1)
    else mortonAt e0 e1 l (x + h) (y + h) (n - c0 - c1 - c2)

/-- The index of a dimension at a linear iteration number. -/
def Drove.index (d : Drove) (lin i : Nat) : Nat :=
  let lex := digits d.extent [0, 1, 2, 3] lin
  match d.order with
  | 1 => Map.get 0 (digits d.extent [d.perm 0, d.perm 1, d.perm 2, d.perm 3] lin) i
  | 2 => if i = 0 ∧ lin / d.extent 0 % 2 = 1 then d.extent 0 - 1 - Map.get 0 lex 0 else Map.get 0 lex i
  | 3 =>
    let xy := mortonAt (d.extent 0) (d.extent 1) 32 0 0 (lin % (d.extent 0 * d.extent 1))
    if i = 0 then xy.1 else if i = 1 then xy.2
    else Map.get 0 (digits d.extent [2, 3] (lin / (d.extent 0 * d.extent 1))) i
  | _ => Map.get 0 lex i

/-! ### Planes (R295, R296) -/

/-- One bit of the CRC-32C of reflected form. -/
def crcBit (c : Nat) : Nat := if c % 2 = 1 then Nat.xor (c / 2) 0x82F63B78 else c / 2
/-- One byte of it. -/
def crcByte (c : Nat) (b : Byte) : Nat :=
  crcBit (crcBit (crcBit (crcBit (crcBit (crcBit (crcBit (crcBit (Nat.xor c b.toNat))))))))
/-- CRC-32C of a run of bytes (notes/assumptions/41.md). -/
def crc32c (bs : List Byte) : Nat := Nat.xor (bs.foldl crcByte 0xFFFFFFFF) 0xFFFFFFFF

/-- The bytes of a plane as a map that lists the bytes other than 0. -/
def planeMap (bs : List Byte) : Map Byte := (((upto bs.length).zip bs).filter (fun e => e.2 != 0))
/-- The bytes of such a map. -/
def planeBytes (m : Map Byte) : List Byte := (upto 4096).map (fun i => Map.get 0 m i)

/-- RBASE and size in bytes of ring r; size 0 for RSZ = 15. -/
def ringOf (pl : List Byte) (r : Nat) : Nat × Nat :=
  let w := fieldAt pl (0x70 + 4 * r) 4
  let z := bits w 22 4
  (bits w 0 22, if z = 15 then 0 else 2 ^ (8 + z))
/-- POOLOFF and POOLLEN. -/
def poolOf (pl : List Byte) : Nat × Nat := (bits (fieldAt pl 0x20 4) 0 22, bits (fieldAt pl 0x24 4) 0 17)
/-- Member count, scope and object of barrier preset b. -/
def barPreset (pl : List Byte) (b : Nat) : Nat × Nat × Nat :=
  let w := fieldAt pl (0xB0 + 8 * b) 8
  (bits w 0 21, bits w 21 3, bits w 24 6)
/-- Scratchpad base, global base and lines of paddock preset e. -/
def padPreset (pl : List Byte) (e : Nat) : Nat × Nat × Nat :=
  (bits (fieldAt pl (0x108 + 16 * e) 4) 0 22, bits (fieldAt pl (0x100 + 16 * e) 8) 0 52, bits (fieldAt pl (0x10C + 16 * e) 4) 0 17)

/-- A field of n bytes uses only its low `used` bits. -/
def onlyBits (pl : List Byte) (off n used : Nat) : Bool := decide (fieldAt pl off n < 2 ^ used)

/-- Every reserved bit is zero. -/
def planeReservedOk (pl : List Byte) : Bool :=
  onlyBits pl 0x0C 1 2 && onlyBits pl 0x0D 1 7 && onlyBits pl 0x0E 1 5 && onlyBits pl 0x0F 1 7 && onlyBits pl 0x10 1 7
    && onlyBits pl 0x11 7 0 && onlyBits pl 0x18 8 52 && onlyBits pl 0x20 4 22 && onlyBits pl 0x24 4 17
    && (upto 7).all (fun k => onlyBits pl (0x28 + 8 * k) 8 52) && onlyBits pl 0x60 16 0
    && (upto 16).all (fun r => onlyBits pl (0x70 + 4 * r) 4 26) && (upto 8).all (fun b => onlyBits pl (0xB0 + 8 * b) 8 30)
    && onlyBits pl 0xF0 16 0
    && (upto 64).all (fun e => onlyBits pl (0x100 + 16 * e) 8 52 && onlyBits pl (0x108 + 16 * e) 4 22 && onlyBits pl (0x10C + 16 * e) 4 17)
    && (upto 32).all (fun j => onlyBits pl (0x500 + 2 * j) 2 9) && onlyBits pl 0x540 1 3 && onlyBits pl 0x541 0xABF 0

/-- No two of the ranges overlap. -/
def disjoint : List (Nat × Nat) → Bool
  | [] => true
  | x :: rest => rest.all (fun y => !overlaps x.1 x.2 y.1 y.2) && disjoint rest

/-- The paddock presets of a partition that are used. -/
def padsOf (pl : List Byte) (u : Bool) : List (Nat × Nat × Nat × Nat) :=
  ((upto 64).map (fun e => (e, padPreset pl e))).filter (fun x => pdInPart u x.1 && x.2.2.2 != 0)

/-- The number of barrier objects a tenant holds at the level of a scope code (R98, R340). -/
def Tenant.barsHeld (t : Tenant) (sc : Nat) : Nat :=
  let pol := t.pol.toNat
  match sc with
  | 0 => 8 | 1 => 16 | 2 => bits pol 12 6 | 3 => bits pol 18 6 | 4 => bits pol 24 7 | 5 => bits pol 24 7 | _ => 0

/-- Is the pod level held at another package? -/
def State.podAway (s : State) (t : Nat) : Bool := s.anchor t != s.pkg.pkgid.toNat

/-- A barrier preset that R99 would refuse whatever the objects hold. -/
def State.presetOk (s : State) (t : Nat) (x : Nat × Nat × Nat) : Bool :=
  x.1 == 0 || (decide (x.1 ≤ 2 ^ 20) && decide (x.2.1 ≤ 5)
    && (decide (x.2.2 < (s.ten t).barsHeld x.2.1) || (decide (4 ≤ x.2.1) && s.podAway t)))

/-- The plane is valid for a partition (R296). -/
def State.planeOk (s : State) (t : Nat) (u : Bool) (pl : List Byte) : Bool :=
  let rings := ((upto 16).map (ringOf pl)).filter (fun r => r.2 != 0)
  let pool := if (poolOf pl).2 = 0 then [] else [poolOf pl]
  let pads := padsOf pl u
  decide (fieldAt pl 0 4 = crc32c (pl.drop 8)) && planeReservedOk pl
    && decide (1 ≤ fieldAt pl 0x0E 1) && decide (fieldAt pl 0x0E 1 ≤ 16) && decide (fieldAt pl 0x0F 1 ≤ 64) && decide (fieldAt pl 0x10 1 ≤ 64)
    && (upto 16).all (fun r => let z := bits (fieldAt pl (0x70 + 4 * r) 4) 22 4; decide (z ≤ 8) || z == 15)
    && rings.all (fun r => r.1 % r.2 == 0 && inSpad u r.1 r.2)
    && pool.all (fun r => r.1 % 8 == 0 && decide (r.2 ≤ 65536) && inSpad u r.1 r.2)
    && pads.all (fun p => p.2.1 % 64 == 0 && p.2.2.1 % 64 == 0 && decide (p.2.2.2 ≤ 65536) && inSpad u p.2.1 (64 * p.2.2.2)
        && decide (p.2.2.1 + 64 * p.2.2.2 ≤ 2 ^ 52))
    && disjoint (rings ++ pool ++ pads.map (fun p => (p.2.1, 64 * p.2.2.2))) && disjoint (pads.map (fun p => (p.2.2.1, 64 * p.2.2.2)))
    && (upto 8).all (fun b => s.presetOk t (barPreset pl b))

/-- The walker as a requester for a drove. -/
def walkerReq (n : Nat) : Nat := 2 ^ 30 + n

/-- The plane a drove names: its 4 KiB of device memory, aligned (R295); none where they are not all mapped. -/
def State.readPlane (s : State) (n t va : Nat) : Eff (Option (List Byte)) :=
  if va % 4096 ≠ 0 then .ok none s
  else
    ((s.walk1 (walkerReq n) t va).eff.patient).bind (fun _ s =>
      match s.xlate t va with
      | some p =>
        if p.hh then .ok none (s.endReqs (walkerReq n))
        else
          match (s.getVa (walkerReq n) t va 4096).ends (walkerReq n) with
          | .ok bs s => .ok (some bs) s
          | .wait w s => .wait w s
          | .fault _ s' => .ok none { s with reqs := s'.reqs }
      | none => .ok none (s.endReqs (walkerReq n)))

/-! ### Reach and gangs (R288, R291) -/

/-- The physical quad of a die's n-th enabled quad, from the enable map (R14, R347). -/
def physQuad (em : Nat) (die n : Nat) : Nat := ((upto 9).filter (fun q => bit em (9 * die + q))).getD n 9

/-- A core's placement mask for its own die: of the drove's plane, or of the core's resident plane when PLANE = 0 (R298). -/
def State.placeMask (s : State) (d : Drove) (core : Nat) : Nat :=
  let rd := fun (off n : Nat) => if d.planeVa = 0 then s.planeVal core d.urgent off n else fieldAt d.plane off n
  let v := if d.pinned then d.variant else bits (rd 0x540 1) 0 3
  bits (rd (0x500 + 8 * v + 2 * dieOf core) 2) 0 9

/-- Is a core within the scope of a drove's LAUNCH (R106, R356)? -/
def Drove.scopeHas (d : Drove) (core : Nat) : Bool :=
  match d.from? with
  | none => true
  | some (k, _) =>
    match d.sc with
    | .core => core == coreOf k
    | .quad => quadOf core == quadOf (coreOf k)
    | .die => dieOf core == dieOf (coreOf k)
    | _ => true

/-- Does a quad serve a tenant for new iterations (R335, R336)? -/
def State.serves (s : State) (t core : Nat) : Bool := s.tenOf core == t && bit (s.ten t).quads.toNat (quadOf core)

/-- The cores of a drove's reach. -/
def State.reach (s : State) (d : Drove) : List Nat :=
  (upto Config.cores).filter (fun c =>
    d.scopeHas c && s.serves d.ten c && bit (s.placeMask d c) (physQuad s.pkg.em.toNat (dieOf c) (quadOf c % 8)))

/-- The strands of the gang of size g whose first strand is `a`. -/
def gangStrands (a g : Nat) : List Nat := (upto g).map (fun i => a + i)

/-- Is it a permitted gang whose cores all lie among some cores? -/
def gangIn (cores : List Nat) (a g : Nat) : Bool := a % g == 0 && (gangStrands a g).all (fun x => cores.contains (x / 4))

/-- The gangs of a size among some cores, by first strand: strand 0 of every core before strand 1 of any (notes/assumptions/7.md). -/
def gangsOf (cores : List Nat) (g : Nat) : List Nat :=
  (((upto 4).map (fun j => cores.map (fun c => 4 * c + j))).flatten).filter (fun a => gangIn cores a g)

/-! ### Completion (R108) -/

/-- Add 1 to a 64-bit counter of a tenant at its home, indivisibly. -/
def State.countVa (s : State) (who t va : Nat) : Eff Unit :=
  ((s.walks who t (walkVas va 8)).bind (fun _ s =>
    match s.stretches t 64 va 8 with
    | none => .fault (.at cTranslation va 3) s
    | some xs =>
      (s.gate who t xs xs false (xs.map (fun x => (x.pa, .update 2 true 1 0)))).eff.bind (fun _ s =>
        .ok () ((s.stampAgent true xs).putStretches t xs (leBytes 8 ((leVal ((xs.map s.stretchBytes).flatten) + 1) % 2 ^ 64)))))).patient.endWalk who

/-- A step of a report that its home refuses, or that meets poison, is dropped: what came before it stands. -/
def Eff.orElse {α : Type} (x : Eff α) (f : State → Eff α) : Eff α :=
  match x with
  | .fault _ s => f s
  | y => y

/-- The walker's accesses at DONE: the status dword, then the counter; none where its page is not mapped (R108). -/
def State.reportDone (s : State) (n t dn status : Nat) (code : Word) : Eff Unit :=
  if dn = 0 then .ok () s
  else
    let who := walkerReq n
    ((((s.walk1 who t dn).eff.patient).keep s).bind (fun _ s =>
      if (s.xlate t dn).isNone then .ok () s
      else
        (((s.putVa who t (dn + 8) (leBytes 8 (status + 2 ^ 32 * code.toNat))).keep s).orElse (fun _ => .ok () s)).bind (fun _ s =>
          (s.countVa who t dn).orElse (fun _ => .ok () s)))).ends who

/-- Report a drove: status, counter, event, interrupt. While a home must be waited for nothing is reported. -/
def State.report (s : State) (n : Nat) (d : Drove) (status : Nat) : State :=
  let r := d.record
  let t := d.ten
  let code : Word := if status = 3 then d.haltCode.getD 0 else 0
  match s.reportDone n t (fieldAt r 0x50 8) status code with
  | .wait _ s' => s.waiting s'
  | .fault _ s' => s.waiting s'
  | .ok _ s1 =>
    let ev := fieldAt r 0x58 8
    let s2 := match d.from? with
      | some (k, it) => if bit ev 4 then s1.raiseEv k it (bits ev 0 4) else s1
      | none => s1
    let s3 := if bit ev 16 then s2.raiseVec t (bits ev 8 8) else s2
    s3.modDrove n (fun d => { d with st := .done, status := status })

/-! ### Validation and waits (R108) -/

/-- LVAR of a plane, by its byte 0x540. -/
def lvarOf (b : Nat) : Nat := bits b 0 3

/-- Is VAR a variant of the loaded object with the package's signature (R298)? Signatures of an object differ, and the loader has put the matching one into
LVAR (R62), so it is when it is LVAR: of the drove's plane, or of the resident plane of a core in its scope (notes/assumptions/44.md). -/
def State.variantOk (s : State) (d : Drove) : Bool :=
  !d.pinned
    || (if d.planeVa = 0 then
          (upto Config.cores).any (fun c => d.scopeHas c && s.serves d.ten c && lvarOf (s.planeVal c d.urgent 0x540 1) == d.variant)
        else lvarOf (fieldAt d.plane 0x540 1) == d.variant)

/-- A record judged in the order of R108: validity, zero extent, residency. -/
def State.judge (s : State) (n : Nat) (d : Drove) : State :=
  if !d.recordOk then s.report n d 1
  else
    match (if d.planeVa = 0 then Eff.ok (some []) s else s.readPlane n d.ten d.planeVa) with
    | .wait _ s' => s.waiting s'
    | .fault _ s' => s.waiting s'
    | .ok pl s =>
      let d := { d with plane := pl.getD [], total := d.product }
      let ok := match pl with
        | some bs => d.planeVa == 0 || s.planeOk d.ten d.urgent bs
        | none => false
      if !ok || !s.variantOk d then s.report n d 1
      else if d.product = 0 then s.report n d 0
      else
        let gs := gangsOf (s.reach d) d.gang
        if gs.isEmpty || (d.resident && decide (gs.length < d.product)) then s.report n d 2
        else s.modDrove n (fun _ => { d with st := .waiting })

/-- DROVE_VALIDATE. -/
def execDroveValidate (n : Nat) (s : State) : Out :=
  match Map.find? s.droves n with
  | some d => if d.st = .submitted ∧ s.pkg.minMode = false then .next (s.judge n d) else .next s
  | none => .next s

/-- The walker's read of a WAIT counter: is the entry met? One whose page is not mapped counts as below its threshold. -/
def State.readWait (s : State) (n : Nat) (d : Drove) (i : Nat) : Eff Bool :=
  let a := fieldAt d.record (0x30 + 16 * i) 8
  if a = 0 then .ok true s
  else
    match (s.getVa (walkerReq n) d.ten a 8).keep s with
    | .ok bs s => .ok (decide (fieldAt d.record (0x38 + 16 * i) 8 ≤ leVal bs)) s
    | .wait w s => .wait w s
    | .fault _ _ => .ok false s

/-- DROVE_WAIT_MET. -/
def execDroveWaitMet (n : Nat) (s : State) : Out :=
  match Map.find? s.droves n with
  | some d =>
    if d.st = .waiting then
      match ((s.readWait n d 0).bind (fun b s => (s.readWait n d 1).bind (fun c s => .ok (b && c) s))).ends (walkerReq n) with
      | .ok ok s => .next (if ok then s.modDrove n (fun d => { d with st := .eligible }) else s)
      | .wait _ s' => .next (s.waiting s')
      | .fault _ s' => .next (s.waiting s')
    else .next s
  | none => .next s

/-! ### Hand-out (R290 to R294) -/

/-- Has a drove iterations that may still be handed out? -/
def Drove.open? (d : Drove) : Bool := d.st == .eligible && d.status == 0 && d.haltCode.isNone && decide (d.next < d.total)

/-- Is a strand free in a partition? In P neither partition runs or is frozen; in U no U drove runs. What an ended iteration left in A and S is complete. -/
def State.strandFree (s : State) (u : Bool) (a : Nat) : Bool :=
  !(s.part (2 * a + 1)).inIter && (u || (!(s.part (2 * a)).inIter && !(s.part (2 * a)).frozen)) && !(s.part (2 * a + b2n u)).inFlight

/-- Has every engine fetched every word of a copy's rings and started its command (R21, R95)? -/
def State.ringsFetched (s : State) (k : Nat) : Bool :=
  (upto 4).all (fun e =>
    let g := (s.part k).ring e
    g.cons == g.prod && g.cmds.all (fun c => c.need == 0 && (c.toks || s.stopped (k * 8 + 4 + e))))

/-- Is P frozen with every command that its engines have fetched complete (R210, step 3)? One stopped at a fault stays, and one whose extension words are
not pushed is not fetched yet. -/
def State.gaveWay (s : State) (a : Nat) : Bool :=
  let p := s.part (2 * a)
  !p.inIter || (p.frozen && (upto 4).all (fun e => ((p.ring e).cur.toList ++ (p.ring e).more).all (fun c => c.need != 0)))

/-- Is an earlier drove of the same priority still to be handed out? -/
def State.keptBack (s : State) (n : Nat) (d : Drove) : Bool :=
  s.droves.any (fun e => decide (e.1 < n) && e.2.ten == d.ten && e.2.prio == d.prio && e.2.open?)

/-- The resident drove of a tenant that reserves: one that holds gangs, else the earliest accepted (R293). -/
def State.reserver (s : State) (t : Nat) : Option (Nat × Drove) :=
  match List.find? (fun e => e.2.ten == t && e.2.open? && e.2.reserved != []) s.droves with
  | some e => some e
  | none => (List.find? (fun e => e.2.ten == t && e.2.resident && e.2.open?) s.droves).filter (fun e => !s.keptBack e.1 e.2)

/-- Does a reserved gang of another drove hold one of some strands (R293)? -/
def State.heldStrand (s : State) (n : Nat) (xs : List Nat) : Bool :=
  s.droves.any (fun e => e.1 != n && e.2.open? && e.2.reserved.any (fun a => (gangStrands a e.2.gang).any xs.contains))

/-- Is a gang one that the reservation of another drove needs? -/
def State.neededElsewhere (s : State) (n : Nat) (d : Drove) (a : Nat) : Bool :=
  s.heldStrand n (gangStrands a d.gang)
    || (match s.reserver d.ten with
      | some (m, r) => m != n && r.urgent == d.urgent && (gangStrands a d.gang).any (fun x => (s.reach r).contains (x / 4))
      | none => false)

/-- The gang that the walker gives the next U iteration of a drove: whose strands are all idle in P, else the one with the lowest core number (R292). -/
def State.uChoice (s : State) (n : Nat) (d : Drove) : Bool × Option Nat :=
  let gs := (gangsOf (s.reach d) d.gang).filter (fun b =>
    (gangStrands b d.gang).all (s.strandFree true) && !s.heldStrand n (gangStrands b d.gang) && !d.reserved.contains b)
  match gs.filter (fun b => (gangStrands b d.gang).all (fun x => !(s.part (2 * x)).inIter)) with
  | b :: _ => (true, some b)
  | [] => (false, gs.foldl (fun m b => match m with
      | some x => if b / 4 < x / 4 then some b else m
      | none => some b) none)

/-- May a U drove take a gang: one idle in P, or, where there is none, the one that the walker pre-empts? -/
def State.uMayTake (s : State) (n : Nat) (d : Drove) (a : Nat) : Bool :=
  (gangStrands a d.gang).all (fun x => !(s.part (2 * x)).inIter) || s.uChoice n d == (false, some a)

/-- Does a drove of higher priority claim the gang? -/
def State.outranked (s : State) (d : Drove) (a : Nat) : Bool :=
  !d.resident && s.droves.any (fun e =>
    e.2.ten == d.ten && e.2.open? && decide (d.prio < e.2.prio) && e.2.urgent == d.urgent && e.2.gang == d.gang
      && gangIn (s.reach e.2) a d.gang)

/-- Is the plane of a drove the one resident in a core's partition? -/
def State.planeThere (s : State) (d : Drove) (core : Nat) : Bool :=
  d.planeVa == 0 || decide (Map.get [] (s.core core).plane (b2n d.urgent) = planeMap d.plane)

/-- Does no rule between droves keep a gang from one of them (R290, R293)? -/
def State.mayClaim (s : State) (n : Nat) (d : Drove) (a : Nat) : Bool :=
  d.open? && gangIn (s.reach d) a d.gang && (d.reserved != [] || !s.keptBack n d) && !s.outranked d a && !s.neededElsewhere n d a
    && (!d.resident || (s.reserver d.ten).map (·.1) == some n) && !d.reserved.contains a

/-- May a gang have the next iteration of a drove, once its cores hold the drove's plane? -/
def State.mayTake (s : State) (n : Nat) (d : Drove) (a : Nat) : Bool :=
  s.mayClaim n d a && (!d.urgent || s.uMayTake n d a)
    && (gangStrands a d.gang).all (fun x =>
      s.strandFree d.urgent x && s.ringsFetched (2 * x + b2n d.urgent) && (!d.urgent || s.gaveWay x))

/-- May the walker give a gang the next iteration of a drove? -/
def State.mayHand (s : State) (n : Nat) (d : Drove) (a : Nat) : Bool :=
  s.mayTake n d a && (gangStrands a d.gang).all (fun x => s.planeThere d (x / 4))

/-- Is a strand of a core in an iteration of a partition? -/
def State.partBusy (s : State) (core : Nat) (u : Bool) : Bool := (upto 4).any (fun j => (s.part (keyOf core j u)).inIter)

/-- What a drove start does to a core's partition (R25): every granule of the window full, versions and flags of its tiles 0. -/
def Core.droveStart (c : Core) (u : Bool) : Core :=
  { c with
    empties := c.empties.filter (fun e => !inSpad u (16 * e.1) 16)
    tiles := c.tiles.map (fun e =>
      if decide (Config.tileU ≤ e.1) == u then (e.1, { e.2 with ver := 0, of := false, sat := false, nv := false }) else e) }

/-- The bytes of a tenant's address range; a byte of an unmapped page is a free value. -/
def State.poolImage (s : State) (who t va n : Nat) : Eff (List Byte) :=
  ((s.getVa who t va n).keep s).orElse (fun _ => .ok ((upto n).map (fun i => Config.unmappedPool (va + i))) s)

/-- Write a drove's pool at its first iteration on a core's partition (R60). -/
def State.writePool (s : State) (n : Nat) (d : Drove) (core : Nat) : Eff Unit :=
  let u := d.urgent
  let off := s.planeVal core u 0x20 4 % 2 ^ 22
  let len := s.planeVal core u 0x24 4 % 2 ^ 17
  if (s.core core).pools.contains (b2n u, n) then .ok () s
  else
    let s := s.modCore core (fun c => { c with pools := c.pools ++ [(b2n u, n)] })
    if len = 0 then .ok () s
    else
      (s.poolImage (walkerReq n) d.ten (s.planeVal core u 0x18 8 % 2 ^ 52) len).bind (fun bs s =>
        .ok () ((s.putBytes (.spad core) off bs).modCore core (fun c => { c with empties := (granules off len).foldl Map.del c.empties })))

/-- A core's partition is made ready for an iteration: drove start, pool, and, for a drove new to it, no code line kept from before (R264). -/
def State.startCore (s : State) (n : Nat) (d : Drove) (core : Nat) : Eff Unit :=
  let u := d.urgent
  let new := Map.find? (s.core core).lastDrove (b2n u) != some n
  let s := if s.partBusy core u || !new then s else s.modCore core (·.droveStart u)
  (s.modCore core (fun c => { c with lastDrove := Map.put c.lastDrove (b2n u) n, l1i := if new then [] else c.l1i })).writePool n d core

/-- A ring at iteration start: both indices 0; a command that still runs goes on (R26, R95). -/
def State.ringAt (s : State) (core : Nat) (u : Bool) (str e : Nat) (old : Ring) : Ring :=
  let w := s.planeVal core u (0x70 + 4 * (4 * e + str)) 4
  let z := bits w 22 4
  { old with base := bits w 0 22, size := if z = 15 then 0 else 2 ^ (8 + z), prod := 0, cons := 0, hold := none }

/-- The copy of a strand at iteration start (R28). -/
def State.fresh (s : State) (n : Nat) (d : Drove) (lin a rank : Nat) : Part :=
  let u := d.urgent
  let core := a / 4
  let k := 2 * a + b2n u
  let old := s.part k
  let pl := fun (off m : Nat) => s.planeVal core u off m
  { Part.reset with
    inIter := true, iter := s.nextIter, drove := n, lin := lin
    entry := BitVec.ofNat 52 d.entry, pc := BitVec.ofNat 52 d.entry
    joined := old.joined, frozen := false
    bd := pl 0x0E 1 % 32
    fmth := BitVec.ofNat 32 (pl 0x08 4), rmode := BitVec.ofNat 32 (pl 0x0C 1 % 4), lrun := BitVec.ofNat 32 (pl 0x0D 1 % 128)
    gid := BitVec.ofNat 32 (rank + 16 * d.gang)
    pts := serialMax old.pts s.gts + (Config.ptsStartGap s.freeCtr).setWidth 48
    a := [(0, BitVec.ofNat 64 (d.index lin 0)), (1, BitVec.ofNat 64 (d.index lin 1)), (2, BitVec.ofNat 64 (d.index lin 2)),
          (3, BitVec.ofNat 64 (d.index lin 3)), (4, BitVec.ofNat 64 lin), (5, BitVec.ofNat 64 rank),
          (6, BitVec.ofNat 64 (fieldAt d.record 0x60 8)), (7, BitVec.ofNat 64 (fieldAt d.record 0x68 8)),
          (8, BitVec.ofNat 64 (fieldAt d.record 0x70 8)), (9, BitVec.ofNat 64 (fieldAt d.record 0x78 8))]
    h := ((upto 7).filter (fun i => pl (0x28 + 8 * i) 8 % 2 ^ 52 != 0)).map (fun i =>
      (i + 1, ⟨.pending, pl (0x28 + 8 * i) 8 % 2 ^ 52, PageInfo.none, s.cycle + Config.xltCycles, false⟩))
    rings := (upto 4).map (fun e => (e, s.ringAt core u (a % 4) e (old.ring e))) }

/-- A gang receives the next iteration. -/
def State.startGang (s : State) (n : Nat) (a : Nat) : Eff Unit :=
  match Map.find? s.droves n with
  | none => .ok () s
  | some d =>
    let lin := d.next
    (((gangStrands a d.gang).map (· / 4)).eraseDups.foldl (fun (r : Eff Unit) c => r.bind (fun _ s => s.startCore n d c)) (.ok () s)).bind (fun _ s =>
      let s := (gangStrands a d.gang).foldl (fun s x => s.setPart (2 * x + b2n d.urgent) (s.fresh n d lin x (x - a))) s
      .ok () { (s.modDrove n (fun d => { d with next := d.next + 1, live := d.live ++ [(lin, a, d.gang)] })) with
        nextIter := s.nextIter + 1, freeCtr := s.freeCtr + 1 })

/-- The gangs receive their iterations at once, or, while a home must be waited for, none does. -/
def State.startGangs (s : State) (n : Nat) (as : List Nat) : State :=
  match ((as.foldl (fun (r : Eff Unit) a => r.bind (fun _ s => s.startGang n a)) (.ok () s)).ends (walkerReq n)) with
  | .ok _ s => s
  | .wait _ s' => s.waiting s'
  | .fault _ s' => s.waiting s'

/-- The barrier objects that a preset names: those of its level in the reach of the drove (R294). -/
def State.presetKeys (s : State) (d : Drove) (x : Nat × Nat × Nat) : List Nat :=
  let cs := s.reach d
  match x.2.1 with
  | 0 => cs.map (fun c => barKey 0 d.ten c x.2.2)
  | 1 => ((cs.map quadOf).eraseDups).map (fun q => barKey 1 d.ten q x.2.2)
  | 2 => ((cs.map dieOf).eraseDups).map (fun i => barKey 2 d.ten i x.2.2)
  | 3 => [barKey 3 d.ten 0 x.2.2]
  | _ => if s.podAway d.ten then [] else [barKey 4 d.ten 0 x.2.2]

/-- Apply barrier presets as BARCFG would; none where R99 refuses one. -/
def State.applyPresets (s : State) : List (Nat × Nat) → Option State
  | [] => some s
  | (key, count) :: rest =>
    match (s.bar key).config count with
    | none => none
    | some o => (s.setBar key o).applyPresets rest

/-- The barrier presets in use of a drove's plane. -/
def State.presetsOf (s : State) (d : Drove) (core : Nat) : List (Nat × Nat × Nat) :=
  let pl := if d.planeVa = 0 then planeBytes (Map.get [] (s.core core).plane (b2n d.urgent)) else d.plane
  ((upto 8).map (barPreset pl)).filter (fun x => x.1 != 0)

/-- The presets of a drove at the anchor package, one after another, each as a BARCFG there (R294): how it ends, once it has. The exchange holds, in place
of an address, which preset it is for. -/
def State.presetAway (s : State) (n : Nat) (d : Drove) (ys : List (Nat × Nat)) : State × Option Bool :=
  let who := walkerReq n
  let ask := fun (i : Nat) (s : State) =>
    match ys[i]? with
    | none => ({ s with reqs := Map.del s.reqs who }, some true)
    | some (count, obj) =>
      match s.askAnchor who d.ten (.barcfg d.ten obj s.pkg.pkgid.toNat count) with
      | .wait _ s => (({ s with reqs := s.reqs.map (fun e => if e.1 = who then (e.1, { e.2 with va := i }) else e) } : State), none)
      | _ => (s, some false)
  match Map.find? s.reqs who with
  | none => ask 0 s
  | some r =>
    let fin := { s with reqs := Map.del s.reqs who }
    if r.timedOut then (fin, some false)
    else if !r.answered then (s, none)
    else if r.st != .done then (fin, some false)
    else ask (r.va + 1) fin

/-- The start of a drove, before its first iteration: presets applied, those of another package by exchanges with it, or the drove
refused with status 1 (R294). -/
def State.droveBegin (s : State) (n : Nat) (d : Drove) (core : Nat) : State × Bool :=
  let xs := s.presetsOf d core
  let away := if s.podAway d.ten then (xs.filter (fun x => decide (4 ≤ x.2.1))).map (fun x => (x.1, x.2.2)) else []
  let refuse := fun (s : State) => (s.modDrove n (fun d => { d with status := 1 }), false)
  let here := fun (s : State) =>
    match s.applyPresets ((xs.map (fun x => (s.presetKeys d x).map (fun k => (k, x.1)))).flatten) with
    | some s => (s.modDrove n (fun d => { d with presetDone := true }), true)
    | none => refuse s
  if d.presetDone then (s, true)
  else if away = [] then here s
  else
    match s.presetAway n d away with
    | (s, some true) => here s
    | (s, some false) => refuse s
    | (s, none) => (s, false)

/-- Is a gang that a resident drove holds still one that it may have: in its reach, which TPART may have changed (R293, R336), and free? -/
def State.stillHeld (s : State) (d : Drove) (a : Nat) : Bool :=
  gangIn (s.reach d) a d.gang && (gangStrands a d.gang).all (fun x => s.strandFree d.urgent x)

/-- ITERATION_HANDOUT: a gang receives the next iteration; for a resident drove it is reserved, and with the last gang reserved all
iterations start at once (R293). -/
def execIterationHandout (n a : Nat) (s : State) : Out :=
  match Map.find? s.droves n with
  | none => .next s
  | some d =>
    if s.pkg.minMode || !s.mayHand n d a then .next s
    else
      let (s, ok) := s.droveBegin n d (a / 4)
      if !ok then .next s
      else if !d.resident then .next (s.startGangs n [a])
      else
        let held := d.reserved.filter (s.stillHeld d) ++ [a]
        if held.length < d.total then .next (s.modDrove n (fun d => { d with reserved := held })) else .next (s.startGangs n held)

/-! ### Pre-emption (R7, R110, R210, R211, R292) -/

/-- Is the strand's front end at a boundary (R110)? It is not while an instruction waits that R110 does not name: END, HALT, TRAP, LAUNCH, BARA and BARCFG; a
strand stopped at a fault is at one (R211; notes/assumptions/52.md). -/
def State.atBoundary (s : State) (k : Nat) : Bool :=
  let p := s.part k
  (upto 4).any (fun u => s.stopped (k * 8 + u)) || (Map.find? p.waits 0).isNone
    || (match decode (s.wordAt (s.tenOf (coreOf k)) p.pc.toNat) with
        | .ok .endIter => false
        | .ok (.halt _) => false
        | .ok (.trap _) => false
        | .ok (.launch _ _) => false
        | .ok (.bara _) => false
        | .ok (.barcfg _ _) => false
        | _ => true)

/-- Are the routed instructions of A, X and S complete, or waiting in place? -/
def State.settled (s : State) (k : Nat) : Bool :=
  [1, 2, 3].all (fun u => (s.part k).pend u == [] || s.stopped (k * 8 + u) || (Map.find? (s.part k).waits u).isSome)

/-- Does the walker want a strand for its next U iteration: of the gang it takes where none is idle in P, for a drove that may have it (R292)? -/
def State.wantedForU (s : State) (a : Nat) : Bool :=
  s.droves.any (fun e => e.2.ten == s.tenOf (a / 4) && e.2.urgent
    && (let g := a / e.2.gang * e.2.gang; s.mayClaim e.1 e.2 g && s.uChoice e.1 e.2 == (false, some g)))

/-- PREEMPT: P stops issue at a boundary and is frozen; its array turn ends; a sleep counts as ended. -/
def execPreempt (a : Nat) (s : State) : Out :=
  let k := 2 * a
  let p := s.part k
  if p.inIter && !p.frozen && !(s.part (k + 1)).inIter && s.wantedForU a && s.atBoundary k && s.settled k then
    .next ((s.modPart k (fun p => { p with frozen := true, sleeping := none })).modCore (a / 4) (fun c =>
      if c.holder = some k then { c with turnLeft := 0 } else c))
  else .next s

/-- May a PRIO 3 drove with iterations to hand out have the strand? -/
def State.uPending (s : State) (a : Nat) : Bool :=
  s.droves.any (fun e => e.2.ten == s.tenOf (a / 4) && e.2.urgent && s.mayClaim e.1 e.2 (a / e.2.gang * e.2.gang))

/-- PARTITION_RESUME: P goes on once the U drove has ended on the strand. -/
def execPartitionResume (a : Nat) (s : State) : Out :=
  let k := 2 * a
  if (s.part k).frozen && !(s.part (k + 1)).inIter && !s.uPending a then .next (s.resumePart k) else .next s

/-! ### Changing a core's plane (R297) -/

/-- Saturating 32-bit count. -/
def satInc32 (w : Word) : Word := if w = BitVec.allOnes 32 then w else w + 1

/-- Overwrite bytes of a plane. -/
def patchPlane (m : Map Byte) (off : Nat) : List Byte → Map Byte
  | [] => m
  | b :: rest => patchPlane (if b = 0 then Map.del m off else Map.put m off b) (off + 1) rest

/-- The bytes in which a plane differs from another, as runs: offset and new bytes. -/
def planeRuns (m : Map Byte) (new : List Byte) : List (Nat × List Byte) :=
  (((upto new.length).zip new).foldl (fun (rs : List (Nat × List Byte)) e =>
    if Map.get 0 m e.1 = e.2 then rs
    else
      match rs with
      | (o, bs) :: rest => if o + bs.length = e.1 then (o, bs ++ [e.2]) :: rest else (e.1, [e.2]) :: rs
      | [] => [(e.1, [e.2])]) []).reverse

/-- What a core's shadow starts from: the shadow in progress, or the resident plane. -/
def Core.shadowOf (c : Core) (u : Bool) : Map Byte :=
  match Map.find? c.shadow (b2n u) with
  | some m => m
  | none => Map.get [] c.plane (b2n u)

/-- Where a core notes the drove whose last set of records failed the check. -/
def failedKey (u : Bool) : Nat := 2 + b2n u

/-- PLANE_DIFF_RECORD: a record is applied to the shadow; with the last of a set the shadow's CRC is checked against the new plane's. -/
def execPlaneDiffRecord (core : Nat) (u : Bool) (off : Nat) (data : PlanePiece) (n : Nat) (s : State) : Out :=
  match Map.find? s.droves n with
  | none => .next s
  | some d =>
    if d.plane = [] ∨ d.st = .done ∨ u ≠ d.urgent ∨ 4096 < off + data.bytes.length then .next s
    else
      let key := b2n u
      let m := patchPlane ((s.core core).shadowOf u) off data.bytes
      let s := if off = 0 ∧ data.bytes.length = 4096 then s.modTen d.ten (fun t => { t with whole := satInc32 t.whole }) else s
      if !data.last then .next (s.modCore core (fun c => { c with shadow := Map.put c.shadow key m, shadowOk := Map.del c.shadowOk key }))
      else if crc32c ((planeBytes m).drop 8) = fieldAt d.plane 0 4 then
        .next (s.modCore core (fun c => { c with shadow := Map.put c.shadow key m, shadowOk := Map.put (Map.del c.shadowOk (failedKey u)) key n }))
      else
        .next ((s.modCore core (fun c =>
          { c with shadow := Map.del c.shadow key, shadowOk := Map.put (Map.del c.shadowOk key) (failedKey u) n })).modTen d.ten (fun t =>
            { t with rbk := satInc32 t.rbk }))

/-- A dirty paddock word whose page is no longer mapped is discarded: its home keeps what it held. -/
def State.dropLine (s : State) (t glob : Nat) (e : Nat × PdLine) : State :=
  if e.2.dirty != 0 && (s.xlate t (glob + 64 * e.1)).isNone then
    match e.2.pa with
    | some l => e.2.old.foldl (fun s w => s.putVal (spaceOf e.2.hh) (64 * l + 4 * w.1) 4 w.2.toNat) s
    | none => s
  else s

/-- Write back and unbind every entry of a partition's share of the paddock map. -/
def State.unbindShare (s : State) (t core : Nat) (u : Bool) : State :=
  let mine := (s.core core).pd.filter (fun e => pdInPart u e.1)
  let s := mine.foldl (fun s e => e.2.st.foldl (fun s l => s.dropLine t e.2.glob l) s) s
  s.modCore core (fun c => { c with pd := c.pd.filter (fun e => !pdInPart u e.1) })

/-- A preset whose global range overlaps an entry bound in the other partition. -/
def State.presetClash (s : State) (core : Nat) (u : Bool) (pl : List Byte) : Option Nat :=
  ((padsOf pl u).find? (fun p =>
    (s.core core).pd.any (fun e => !pdInPart u e.1 && overlaps p.2.2.1 (64 * p.2.2.2) e.2.glob (64 * e.2.lines)))).map (·.1)

/-- Is a core among the gangs that a resident drove other than n holds? -/
def State.heldFor (s : State) (n core : Nat) (u : Bool) : Bool :=
  s.droves.any (fun e => e.1 != n && e.2.open? && e.2.urgent == u && e.2.reserved.any (fun a => (gangStrands a e.2.gang).any (fun x => x / 4 == core)))

/-- PLANE_SWAP. -/
def execPlaneSwap (core : Nat) (u : Bool) (n : Nat) (s : State) : Out :=
  match Map.find? s.droves n with
  | none => .next s
  | some d =>
    let key := b2n u
    if Map.find? (s.core core).shadowOk key ≠ some n ∨ d.open? = false ∨ s.partBusy core u = true ∨ s.heldFor n core u = true then .next s
    else
      let m := Map.get [] (s.core core).shadow key
      let pl := planeBytes m
      let s := s.modCore core (fun c => { c with shadow := Map.del c.shadow key, shadowOk := Map.del c.shadowOk key })
      match s.presetClash core u pl with
      | some e =>
        .next (s.modDrove n (fun d => if d.next = 0 then { d with status := 1 } else d.halt (BitVec.ofNat 32 (0xFB000000 + e))))
      | none =>
        let s := (s.unbindShare d.ten core u).modCore core (fun c => { c with plane := Map.put c.plane key m })
        .next (s.modCore core (fun c => (padsOf pl u).foldl (fun c p => c.bindPd p.1 p.2.1 p.2.2.1 p.2.2.2) c))

/-! ### The end of a drove (R95, R108) -/

/-- Does a copy still hold a command or an access of a drove? -/
def Part.hasCommands (p : Part) (n : Nat) : Bool :=
  (p.drove == n && p.inFlight) || (upto 4).any (fun e =>
    let g := p.ring e
    g.cmds.any (fun c => c.drove == n) || (p.drove == n && g.cons != g.prod))

/-- Is a drove over: nothing more to hand out, every iteration retired, every command and access complete? -/
def State.droveOver (s : State) (n : Nat) (d : Drove) : Bool :=
  d.st == .eligible && (d.status != 0 || d.haltCode.isSome || decide (d.total ≤ d.next)) && d.live.isEmpty
    && s.parts.all (fun e => !e.2.hasCommands n)

/-- DROVE_COMPLETE. -/
def execDroveComplete (n : Nat) (s : State) : Out :=
  match Map.find? s.droves n with
  | some d => if s.droveOver n d then .next (s.report n d (if d.status ≠ 0 then d.status else if d.haltCode.isSome then 3 else 0)) else .next s
  | none => .next s

/-! ### The activity forecast (R302) -/

/-- R of a die. -/
def State.busyCores (s : State) (die : Nat) : Nat :=
  ((upto 32).filter (fun c => s.partBusy (32 * die + c) false || s.partBusy (32 * die + c) true)).length

/-- Q of a die. -/
def State.queuedCores (s : State) (die : Nat) : Nat :=
  (((s.droves.filter (fun e => e.2.open? && (s.reach e.2).any (fun c => dieOf c == die))).map (fun e => (e.2.total - e.2.next) * e.2.gang)).sum + 3) / 4

/-- FCAST from R and Q. -/
def forecastOf (r q : Nat) : DWord :=
  BitVec.ofNat 64 (r % 256 + 2 ^ 8 * min 32 (r + q) + 2 ^ 16 * min 32 (max q ((r + 1) / 2)) + 2 ^ 24 * min 32 ((q + 1) / 2))

/-- FORECAST_UPDATE. -/
def execForecastUpdate (s : State) : Out :=
  .next (s.modPkg (fun p => { p with fcast := (upto 4).map (fun d => (d, forecastOf (s.busyCores d) (s.queuedCores d))) }))

end Sys2Proof.Machine
end

