-- ==== Sys2Proof/Machine/Fabric.lean ====
section
/-! DEFINITION. The Llyned fabric (R303 to R310): links and ports, requests from and answers of other packages, and pod barriers. -/
namespace Sys2Proof.Machine

/-! ### Links (R303, R304) -/

/-- A port. -/
def State.port (s : State) (p : Nat) : Port := Map.get Port.reset s.pkg.ports p
/-- Replace a port. -/
def State.setPort (s : State) (p : Nat) (x : Port) : State := s.modPkg (fun g => { g with ports := Map.put g.ports p x })

/-- Flits of a stream ahead of their turn, held or arrived and not acted on: does its hold have no room for another (R313)? -/
def State.holdFull (s : State) (ten cid src seq : Nat) : Bool :=
  match s.pkg.streams.find? (fun x => x.ten == ten && x.cid == cid && x.src == src) with
  | some x =>
    let more := s.pkg.rxQ.filterMap (fun p => match p.msg with
      | .data t c r _ n _ => if t = ten ∧ c = cid ∧ r = src ∧ x.next < n ∧ (Map.find? x.held n).isNone then some n else none
      | _ => none)
    decide (x.next < seq) && decide (64 ≤ x.held.length + more.eraseDups.length) && (Map.find? x.held seq).isNone && !more.contains seq
  | none => false

/-- Is a flit refused at the link, by its flow control (R312, R313): data of a collective that no RUN here has registered, or ahead of their turn with the
stream's hold full? -/
def State.linkRefuses (s : State) : Msg → Bool
  | .data ten cid src _ seq _ => s.refuses ten cid src seq || s.holdFull ten cid src seq
  | _ => false

/-- LLYNED_FLIT_RECEIVE: a flit with a bad CRC, which shows nothing, or out of sequence is discarded, and a replay asked for from the first missing one. One in sequence has
arrived, once, and what it carries stands ready to be acted on, and counts for its tenant (R342); one that is refused stays with its sender. -/
def execLlynedFlitReceive (port : Fin 18) (seq : Nat) (m : Option Packet) (s : State) : Out :=
  let x := s.port port.val
  if !x.up then .next s
  else
    match m with
    | none => .next (s.setPort port.val { x with crce := satInc x.crce, asked := some x.rxNext })
    | some p =>
      let x' : Port := { x with rxNext := x.rxNext + 1, asked := none }
      if seq ≠ x.rxNext then .next (s.setPort port.val { x with asked := some x.rxNext })
      else if s.linkRefuses p.msg then .next (s.setPort port.val { x' with refused := x.refused ++ [seq] })
      else .next (((s.setPort port.val x').modPkg (fun g => { g with rxQ := g.rxQ ++ [p] })).meter (msgTen p.msg) 9 (256 * msgFlits p.msg))

/-- LLYNED_REPLAY_REQUEST: the flits from `seq` on are resent from the replay buffer, which keeps them; a replay that is asked for again has failed. -/
def execLlynedReplayRequest (port : Fin 18) (seq : Nat) (s : State) : Out :=
  let x := s.port port.val
  if !x.up then .next s
  else .next (s.setPort port.val { x with
    rpl := satInc x.rpl, failed := if x.replayed = some seq then x.failed + 1 else 0, replayed := some seq })

/-- RLIM: 0 acts as 1. -/
def State.rlim (s : State) : Nat := max 1 (bits s.pkg.fabcfg.toNat 16 4)

/-- PORT_DOWN: after RLIM failed replays; the flits of its replay buffer go to another port of their route. -/
def execPortDown (port : Fin 18) (s : State) : Out :=
  let x := s.port port.val
  if !x.up || decide (x.failed < s.rlim) then .next s
  else
    let s := s.setPort port.val { x with up := false, trn := true, down := satInc x.down, txBuf := [], failed := 0, replayed := none }
    .next ((x.txBuf.foldl (fun s e => s.send e.2) s).raiseVec 0 (bits s.pkg.fabcfg.toNat 8 8))

/-- PORT_UP: a retrained port rejoins the routes; both ends count its flits from 0 again. In minimal mode no Llyned port comes up (R349). -/
def execPortUp (port : Fin 18) (nbr : BitVec 10) (s : State) : Out :=
  if s.pkg.minMode then .next s
  else
    .next (s.setPort port.val { s.port port.val with
      up := true, trn := false, nbr := nbr, rxNext := 0, txNext := 0, txBuf := [], asked := none, replayed := none, refused := [] })

/-! ### Accesses from outside at a home (R227, R307, R308, R325) -/

/-- Is a line of a range held above HBM, in L2 or MSC? -/
def State.aboveHbm (s : State) (line : Nat) : Bool := (Map.find? s.pkg.l2 line).isSome || (Map.find? s.pkg.msc line).isSome

/-- Does an access from outside wait: for a window load, a reclass, a change of ways, a busy line, or a frozen stack? -/
def State.outWaits (s : State) (t pa n : Nat) : Bool :=
  s.pkg.winBusy == some t || s.waysWait t (physStretch pa n 0) || s.lineBusy (physStretch pa n 0)
    || (s.frozenAt pa && !(linesOf pa n).all s.aboveHbm) || (linesOf pa n).any s.reclassing

/-- The bytes an outside read returns, with all that the read does. -/
def State.outRead (s : State) (t pa n : Nat) : List Byte × State :=
  let x := physStretch pa n 0
  (s.bytesAt .dev pa n, ((((s.stampAgent false [x]).serve t x false .agent).pinTouch false pa n).meterMem t x false))

/-- An outside write. -/
def State.outWrite (s : State) (t pa : Nat) (bs : List Byte) : State :=
  let x := physStretch pa bs.length 0
  (((((s.stampAgent true [x]).serve t x true .agent).pinTouch false pa bs.length).meterMem t x true).unpoison false pa bs.length).putBytes .dev pa bs

/-- The length of an access. -/
def opLen : MemOp → Nat
  | .read n => n
  | .write bs => bs.length
  | .update _ d _ _ => if d then 8 else 4
  | .bay _ => 4
  | .bring => 64
  | .recall _ _ _ _ => 0
/-- Does it read what stood there? -/
def opReads : MemOp → Bool
  | .read _ => true
  | .update _ _ _ _ => true
  | _ => false
/-- Does it write? -/
def opWrites : MemOp → Bool
  | .write _ => true
  | .update _ _ _ _ => true
  | _ => false

/-- An update at a home for an agent outside, on the old value: AMO 0 to 8; 9 the commit of a merge element, with b in the low word and the factor in the high
word (R270); from 16 on the operations of RED and ACW. -/
def updApply (aop w old x y : Nat) : Nat :=
  if aop < 9 then amoOp aop w old x y
  else if aop < 16 then (fma32 .rne (x / 2 ^ 32) (x % 2 ^ 32) old).1
  else (Upd.ofCode (aop - 16)).word old x

/-- Perform an access from outside; what it returns. -/
def State.outPerform (s : State) (t pa : Nat) (op : MemOp) : List Byte × State :=
  match op with
  | .read n => s.outRead t pa n
  | .write bs => ([], s.outWrite t pa bs)
  | .update aop d x y =>
    let n := if d then 8 else 4
    let old := s.bytesAt .dev pa n
    (old, s.outWrite t pa (leBytes n (updApply aop (8 * n) (leVal old) x.toNat y.toNat)))
  | .bay _ => ([], s)
  | .bring => ([], s)
  | .recall _ _ _ _ => ([], s)

/-- Answer a request from outside. -/
def State.answer (s : State) (st : ReplySt) (bs : List Byte) : State := s.modPkg (fun g => { g with reply := ⟨st, bs⟩ })

/-- Is a line of a range poisoned? -/
def State.poisonedPa (s : State) (pa n : Nat) : Bool := (linesOf pa n).any (fun l => Map.get false s.pkg.poison l)

/-! ### Requests of other packages (R307, R308) -/

/-- The home's exchanges for some lines are over. -/
def State.endRecall (s : State) (pa n : Nat) : State := { s with reqs := (linesOf pa n).foldl (fun m l => Map.del m (homeReq l)) s.reqs }

/-- A message that cannot be acted on yet stays. -/
def State.keepMsg (s : State) (m : Msg) : State := s.modPkg (fun g => { g with rxQ := g.rxQ ++ [⟨s.gts, m⟩] })

/-- A lease that another package's RDC may have taken on lines of a read: no lease is longer than 64 (R218, R250). -/
def State.leaseTaken (s : State) (pa n : Nat) : State :=
  s.modPkg (fun g => { g with
    lineTs := (linesOf pa n).foldl (fun m l =>
      let old := Map.get (0, 0) m l
      Map.put m l (old.1, serialMax old.2 (s.gts + 64))) g.lineTs })

/-- Record what the paddocks of a package hold of the lines of its access (R258): `was` is what was recorded before. -/
def State.notePad (s : State) (r : RemoteReq) (n : Nat) (was : Map (Nat × BitVec 16)) : State :=
  let mask := fun (l : Nat) => if r.pad && opWrites r.op then wordMask r.pa n l else 0
  s.modPkg (fun g => { g with
    padAway := (linesOf r.pa n).foldl (fun m l =>
      match Map.find? was l with
      | some (p, d) => if p = r.src then Map.put m l (p, d ||| mask l) else if r.pad then Map.put m l (r.src, mask l) else m
      | none => if r.pad then Map.put m l (r.src, mask l) else m) g.padAway })

/-- Another package's home takes back the paddock words of some physical ranges, and in a reclass every copy of them (R258, R260). -/
def State.giveBack (s : State) (ranges : List (Nat × Nat)) (words : BitVec 16) (write copies : Bool) : State :=
  let hit := fun (l : Nat) => ranges.any (fun r => decide (r.1 < 64 * l + 64) && decide (64 * l < r.1 + r.2))
  if copies then s.flushCopies (fun hh l => !hh && hit l)
  else
    { s with
      cores := s.cores.map (fun (e : Nat × Core) => (e.1, { e.2 with
        pd := e.2.pd.map (fun p => (p.1, { p.2 with st := p.2.st.map (fun (l : Nat × PdLine) =>
          match l.2.pa with
          | some a => if !l.2.hh && hit a then (l.1, l.2.probe write words) else l
          | none => l) })) })) }

/-- A request for a bay of the die that homes an address, or the return of one (R267): refused where the tenant has none there; one that finds none free waits
its turn among the OPENs of the die, and is answered when it gets one. -/
def State.bayRequest (s : State) (r : RemoteReq) (take : Bool) : State :=
  let die := s.homeDie r.pa
  let id := reqId r.src r.unit r.tag
  if !take then
    let s := match List.find? (fun (e : Nat × BayUser) => e.1 / 64 == die && (match e.2 with | .away q => q.src == r.src && q.unit == r.unit | .ring _ => false)) s.pkg.bays with
      | some e => s.modPkg (fun g => { g with bays := Map.del g.bays e.1 })
      | none => s
    (s.record id []).respond r .done s.gts []
  else if ((s.ten r.ten).baysOn die).isEmpty then s.respond r .refused s.gts []
  else if s.pkg.bayWait.contains (.away r) then s
  else s.modPkg (fun g => { g with bayWait := g.bayWait ++ [.away r] })

/-- A request is performed at its home, and its response recorded and sent (R307). -/
def State.performReq (s : State) (r : RemoteReq) : State :=
  let n := opLen r.op
  let was := s.pkg.padAway
  let x := (s.endRecall r.pa n).outPerform r.ten r.pa r.op
  let s := if opReads r.op && !opWrites r.op then x.2.leaseTaken r.pa n else x.2
  ((s.notePad r n was).record (reqId r.src r.unit r.tag) x.1).respond r .done s.gts x.1

/-- A request for memory of this package: one that must wait stays; poison that it reads is its answer (R352); a prefetch brings its line into the MSC. -/
def State.memRequest (s : State) (r : RemoteReq) : State :=
  let n := opLen r.op
  if s.outWaits r.ten r.pa n then s.keepMsg (.req r)
  else if opReads r.op && s.poisonedPa r.pa n then s.respond r .poison s.gts []
  else if r.op == .bring then
    (match s.intoMsc r.ten (r.pa / 64) with
      | some s => s.respond r .done s.gts []
      | none => s.keepMsg (.req r))
  else
    match s.homeExchange r.src r.ten r.pa n (opWrites r.op) r.pad false with
    | some s => s.keepMsg (.req r)
    | none => s.performReq r

/-- REMOTE_REQUEST: performed at most once; a request that was performed before gets the recorded response; one outside the tenant's windows
is refused and performs nothing, judged once no load of its windows is in progress (R338). -/
def execRemoteRequest (r : RemoteReq) (s : State) : Out :=
  match s.recorded (reqId r.src r.unit r.tag), r.op with
  | some (ts, bs), _ => .next (s.respond r .done ts bs)
  | none, .recall ranges words write copies => .next ((s.giveBack ranges words write copies).respond r .done s.gts [])
  | none, op =>
    if s.pkg.winBusy == some r.ten then .next (s.keepMsg (.req r))
    else if decide (r.pa / 2 ^ 50 % 1024 ≠ s.pkg.pkgid.toNat) || !s.inWin r.ten false r.pa (opLen op) then .next (s.respond r .refused s.gts [])
    else
      match op with
      | .bay take => .next (s.bayRequest r take)
      | _ => .next (s.memRequest r)

/-- The unit number of the barrier messages of a tenant, which name no unit. -/
def podUnit (ten : Nat) : Nat := 2 ^ 40 + ten

/-- Does an answer for a unit belong to a requester? One to a barrier message names none. -/
def answers (who unit : Nat) : Bool := who == unit || (decide (2 ^ 40 ≤ unit) && decide (unit < 2 ^ 41))

/-- REMOTE_RESPONSE: the answer of another package arrives, with the data of a read or the old value of an update, and the time of what was performed (R217).
A recalled line has no paddock words there any more (R258). One that nothing waits for, by its tag, is dropped; an exchange of a home's own is over. -/
def execRemoteResponse (who : Nat) (a : Answer) (s : State) : Out :=
  match List.find? (fun (e : Nat × Req) => e.2.tag == a.tag && !e.2.answered && answers e.1 who && e.2.kind.target.isSome) s.reqs with
  | none => .next s
  | some (w, r) =>
    let s := s.reachTs a.ts
    let s := match r.kind with
      | .recall _ l => s.modPkg (fun g => { g with padAway := Map.del g.padAway l })
      | _ => s
    let pa := match r.kind with | .remote pa => pa | _ => 0
    .next (s.answered w { r with st := a.st, ts := a.ts, data := if a.data = [] then r.data else r.data ++ [(pa, a.ts, a.data)] })

/-- FABRIC_TIMEOUT: 2^FTO µs without an answer, from another package or from the host. -/
def execFabricTimeout (who : Nat) (s : State) : Out :=
  match Map.find? s.reqs who with
  | some r => if r.answered || r.resend then .next s else .next { s with reqs := Map.put s.reqs who { r with timedOut := true } }
  | none => .next s

/-! ### Pod barriers (R310) -/

/-- An answer to a barrier message of another package. -/
def State.respondBar (s : State) (ten obj src : Nat) (tag : Word) (st : RespSt) (ts : BitVec 48) (bs : List Byte) : State :=
  s.transmit src obj (.resp ten (podUnit ten) tag st ts bs)

/-- Is a pod object held here for a tenant? -/
def State.podHere (s : State) (ten obj : Nat) : Bool := !s.podAway ten && decide (obj < (s.ten ten).barsHeld 4)

/-- POD_BARRIER_ARRIVAL: an arrival from another package reaches the anchor, and counts once; the pending arrivals of another drove refuse it (R100). The answer
names the phase in which it counts. -/
def execPodBarrierArrival (ten obj : Nat) (src : Arriver) (tag : Word) (s : State) : Out :=
  let id := reqId src.pkg (podUnit ten) tag
  let key := barKey 4 ten 0 obj
  let o := s.bar key
  match s.recorded id with
  | some (ts, bs) => .next (s.respondBar ten obj src.pkg tag .done ts bs)
  | none =>
    if !s.podHere ten obj || o.c == 0 || o.others src.pkg src.drove then .next (s.respondBar ten obj src.pkg tag .refused s.gts [])
    else
      let bs := leBytes 8 o.phase
      .next (((s.arriveAt key ten obj src.drove src.pkg).record id bs).respondBar ten obj src.pkg tag .done s.gts bs)

/-- A BARCFG from another package reaches the anchor (R99, R310). -/
def State.podBarcfg (s : State) (ten obj src count : Nat) (tag : Word) : State :=
  let id := reqId src (podUnit ten) tag
  let key := barKey 4 ten 0 obj
  match s.recorded id with
  | some (ts, bs) => s.respondBar ten obj src tag .done ts bs
  | none =>
    if !s.podHere ten obj then s.respondBar ten obj src tag .refused s.gts []
    else
      match (s.bar key).config count with
      | some o => ((s.setBar key o).record id []).respondBar ten obj src tag .done s.gts []
      | none => s.respondBar ten obj src tag .refused s.gts []

/-- POD_BARRIER_RELEASE: the completion of a phase at another package reaches this one: the phases up to that one are over, also when it comes again. -/
def execPodBarrierRelease (ten : Nat) (at_ : PodPhase) (s : State) : Out :=
  if s.podAway ten then
    let key := barKey 5 ten (s.anchor ten) at_.obj
    let o := s.bar key
    .next (s.setBar key { o with phase := max o.phase at_.phase })
  else .next s

end Sys2Proof.Machine
end

