-- ==== Sys2Proof/Machine/Tenancy.lean ====
section
/-! DEFINITION. Tenants (R335 to R346, R353): partitions, policy and barrier objects, memory windows, revocation, meters and their signed
records, and the power cap. -/
namespace Sys2Proof.Machine

/-! ### Partitions and policy (R335, R336, R340, R341) -/

/-- A write to TPART, TPOL or WINCMD is discarded. -/
def State.discardWrite (s : State) (t why : Nat) : State := s.modPkg (fun g => { g with pstatErr := true, pstatTen := t, pstatWhy := why })
/-- It is accepted. -/
def State.acceptWrite (s : State) : State := s.modPkg (fun g => { g with pstatErr := false, pstatTen := 0, pstatWhy := 0 })

/-- Does a U drove run on a quad? -/
def State.quadUrgent (s : State) (q : Nat) : Bool := s.parts.any (fun e => decide (quadOf (coreOf e.1) = q) && isU e.1 && e.2.inIter)

/-- May a tenant be given a quad: no other tenant's TPART names it, and none that lost it still runs there? -/
def State.quadFree (s : State) (t q : Nat) : Bool :=
  (upto 17).all (fun u => u == t || !bit (s.ten u).quads.toNat q) && (Map.get 0 s.pkg.quadOwner q == t || !s.quadBusy q)

/-- The reason a TPART write is discarded; 0 for none. -/
def State.tpartWhy (s : State) (t : Nat) (v : DWord) : Nat :=
  let q := bits v.toNat 0 32
  let b := bits v.toNat 32 32
  let old := (s.ten t).quads.toNat
  if (upto 32).any (fun i => (bit q i && !bit old i && !s.quadFree t i) || (bit q i && !(upto 17).all (fun u => u == t || !bit (s.ten u).quads.toNat i))
      || (bit old i && !bit q i && s.quadUrgent i)) then 1
  else if (upto 17).any (fun u => u != t && (upto 32).any (fun i => bit b i && bit (s.ten u).bays.toNat i)) then 2
  else 0

/-- TPART_WRITE. -/
def execTpartWrite (t : Nat) (v : DWord) (s : State) : Out :=
  if 17 ≤ t then .next s
  else
    let why := s.tpartWhy t v
    if why ≠ 0 then .next (s.discardWrite t why)
    else
      let new := (upto 32).filter (fun q => bit v.toNat q && !bit (s.ten t).quads.toNat q && !s.quadBusy q)
      let s := (s.modTen t (fun x => { x with quads := BitVec.ofNat 32 (bits v.toNat 0 32), bays := BitVec.ofNat 32 (bits v.toNat 32 32) })).acceptWrite
      .next (new.foldl (fun s q => s.passQuad t q) s)

/-- The barrier objects of a tenant that a policy no longer gives it. -/
def State.takenAway (s : State) (t : Nat) (v : DWord) : List Nat :=
  let me := s.pkg.pkgid.toNat
  s.bars.filterMap (fun e =>
    let lvl := e.1 / 65536 / 32
    let gone :=
      if lvl = 2 then decide (bits v.toNat 12 6 ≤ e.1 % 64)
      else if lvl = 3 then decide (bits v.toNat 18 6 ≤ e.1 % 64)
      else if lvl = 4 then decide (bits v.toNat 2 10 ≠ me) || decide (bits v.toNat 24 7 ≤ e.1 % 64)
      else false
    if e.1 / 65536 % 32 = t ∧ gone = true then some e.1 else none)

/-- Has an object a pending arrival or a waiting member? -/
def State.barInUse (s : State) (key : Nat) : Bool :=
  let o := s.bar key
  o.a != 0 || s.parts.any (fun e => e.2.inIter && e.2.joinedAt key o.phase && (Map.find? e.2.waits 0) == some 5)

/-- The sum of a field of TPOL over the tenants, with the new value for tenant t. -/
def State.polSum (s : State) (t : Nat) (v : DWord) (f : DWord → Nat) : Nat :=
  ((upto 17).map (fun u => f (if u = t then v else (s.ten u).pol))).sum

/-- TPOL_WRITE. -/
def execTpolWrite (t : Nat) (v : DWord) (s : State) : Out :=
  if 17 ≤ t then .next s
  else
    let v : DWord := v &&& 0x7FFFFFFD
    let pod := fun (p : DWord) => if bits p.toNat 2 10 = s.pkg.pkgid.toNat then bits p.toNat 24 7 else 0
    let gone := s.takenAway t v
    if 32 < s.polSum t v (fun p => bits p.toNat 12 6) ∨ 32 < s.polSum t v (fun p => bits p.toNat 18 6) ∨ 64 < s.polSum t v pod
        ∨ gone.any s.barInUse = true then .next (s.discardWrite t 3)
    else
      let s := (s.modTen t (fun x => { x with pol := v })).acceptWrite
      .next { s with
        bars := s.bars.filter (fun e => !gone.contains e.1)
        parts := s.parts.map (fun (e : Nat × Part) => (e.1, { e.2 with joined := e.2.joined.filter (fun j => !gone.contains j.1) })) }

/-! ### Memory windows (R337, R338) -/

/-- A window table entry. -/
def windowOf (e : Nat) : Option Window := if bit e 0 then some ⟨bit e 1, bits e 4 30 * 2 ^ 30, bits e 34 30 + 1⟩ else none

/-- Where the entries of a tenant stand in the window table. -/
def State.tableAt (s : State) (t : Nat) : Nat := bits s.pkg.wintab.toNat 12 48 * 4096 + 64 * t

/-- The entries of a tenant in the window table. -/
def State.readWindows (s : State) (t : Nat) : List Window := (upto 8).filterMap (fun w => windowOf (s.valAt .dev (s.tableAt t + 8 * w) 8))

/-- Do two windows of one kind overlap? -/
def Window.meets (a b : Window) : Bool := a.host == b.host && overlaps a.base (a.gib * 2 ^ 30) b.base (b.gib * 2 ^ 30)

/-- Is a load refused: a device window of another package, or one that overlaps another tenant's? -/
def State.windowsBad (s : State) (t : Nat) (ws : List Window) : Bool :=
  ws.any (fun w => (!w.host && decide (w.base / 2 ^ 50 % 1024 ≠ s.pkg.pkgid.toNat))
    || (upto 17).any (fun u => u != t && (s.ten u).wins.any (fun x => x.meets w)))

/-- What the read of the window table waits for: a frozen stack, or a copy of the host (R282, R325); none when it may be made. -/
def State.tableWaits (s : State) (t : Nat) : Option State :=
  let a := s.tableAt t
  if s.stuckAt (a / 64) then some s else s.homeExchange s.pkg.pkgid.toNat 0 a 64 false false false

/-- The window table of a tenant is read, and the load goes on or is discarded. -/
def State.takeWindows (s : State) (t : Nat) : State :=
  let ws := s.readWindows t
  if s.windowsBad t ws then (s.discardWrite t 4).modPkg (fun g => { g with winBusy := none, winDue := false, winNew := [] })
  else s.acceptWrite.modPkg (fun g => { g with winBusy := some t, winDue := false, winNew := ws })

/-- WINDOW_LOAD: the table is read at once, or once its line can be. -/
def execWindowLoad (t : Nat) (s : State) : Out :=
  if 17 ≤ t then .next s
  else if s.pkg.winBusy.isSome then .next (s.discardWrite t 5)
  else
    match s.tableWaits t with
    | some s => .next (s.acceptWrite.modPkg (fun g => { g with winBusy := some t, winDue := true }))
    | none => .next (s.takeWindows t)

/-- Does a set of windows hold a line? -/
def winHas (ws : List Window) (hh : Bool) (line : Nat) : Bool :=
  ws.any (fun w => w.host == hh && decide (w.base ≤ 64 * line) && decide (64 * line < w.base + w.gib * 2 ^ 30))

/-- WINDOW_LOAD_COMPLETE: a table that is not read yet is read; else copies of the lines that leave the windows are flushed, every translation becomes STALE, BUSY clears. A line that cannot go home holds it up. -/
def execWindowLoadComplete (s : State) : Out :=
  match s.pkg.winBusy with
  | none => .next s
  | some t =>
    if s.pkg.winDue then .next ((s.tableWaits t).getD (s.takeWindows t)) else
    let old := (s.ten t).wins
    let new := s.pkg.winNew
    let hit := fun (hh : Bool) (l : Nat) => winHas old hh l && !winHas new hh l
    match s.recallNext (hit false) with
    | some s => .next s
    | none =>
      let s := s.flushCopies hit
      if s.copiesLeft hit then .next s
      else
      .next (((s.modTen t (fun x => { x with wins := new })).revokeRange t 0 (2 ^ 52)).modPkg (fun g =>
        { g with winBusy := none, winNew := [] }))

/-! ### Revocation (R339) -/

/-- The translations that a pending RVK names become STALE. -/
def State.revokeNow (s : State) (t : Nat) : State :=
  match (s.ten t).rvkVa with
  | some a => (s.revokeRange t a 65536).modTen t (fun x => { x with rvkVa := none })
  | none => s

/-- RVK: bit 0 reads 1 until the revocation is done. -/
def execRvk (t : Nat) (va : DWord) (s : State) : Out :=
  .next ((s.revokeNow t).modTen t (fun x => { x with rvkVa := some (bits va.toNat 16 36 * 2 ^ 16) }))

/-- REVOCATION_COMPLETE. -/
def execRevocationComplete (t : Nat) (s : State) : Out := .next (s.revokeNow t)

/-! ### Meters and their records (R342 to R344) -/

/-- Microseconds since cold boot: ACLK runs at 1.3 GHz. -/
def State.micros (s : State) : Nat := s.cycle / 1300

/-- MTR[i]; 14 and 15 read 0. -/
def Tenant.meterAt (t : Tenant) (i : Nat) : DWord := if 14 ≤ i then 0 else Map.get 0 t.mtr i

/-- Bytes 0x000 to 0x0CF of a tenant's next record. -/
def State.recordHead (s : State) (t : Nat) : List Byte :=
  let x := s.ten t
  leBytes 4 (1 + t * 2 ^ 16 + s.pkg.pkgid.toNat * 2 ^ 21) ++ leBytes 4 s.pkg.boots.toNat ++ leBytes 8 x.snpSeq ++ leBytes 8 s.micros
    ++ leBytes 8 0 ++ ((upto 16).map (fun i => leBytes 8 (x.meterAt i).toNat)).flatten ++ (x.snpPrev ++ List.replicate 48 0).take 48

/-- A tenant's next record: 512 bytes. -/
def State.meterRecord (s : State) (t : Nat) : List Byte :=
  let h := s.recordHead t
  h ++ (upto 96).map (Config.signature (sha384 h)) ++ List.replicate 208 0

/-- The record that a tenant's BSC has formed is written to its slot, after which LAST names it; one whose page is not mapped is dropped. Nothing of it is
metered. -/
def State.writeSnap (s : State) (t : Nat) : State :=
  let x := s.ten t
  match x.snpOut with
  | none => s
  | some r =>
    match (s.putVa (ownReq t 2) t (bits x.snpbase.toNat 12 40 * 4096 + 512 * ((x.snpSeq - 1) % 2 ^ x.snpLog)) r).ends (ownReq t 2) with
    | .ok _ s => s.modTen t (fun y => { y with snpLast := BitVec.ofNat 32 (x.snpSeq - 1), mtr := x.mtr, snpOut := none })
    | .wait _ s => s
    | .fault _ s => s.modTen t (fun y => { y with snpOut := none })

/-- Form the next record: it is chained, and, with EN = 1, written. A request that arrives before the latest one is written is served by that. -/
def State.formRecord (s : State) (t : Nat) : State :=
  if (s.ten t).snpOut.isSome then s
  else
    let r := s.meterRecord t
    (s.modTen t (fun x => { x with
      snpSeq := x.snpSeq + 1, snpPrev := sha384 (r.take 0x130), snpOut := if x.snpEn then some r else none })).writeSnap t

/-- The record that serves a request now. -/
def State.recordNow (s : State) (t : Nat) : List Byte := (s.ten t).snpOut.getD (s.meterRecord t)

/-- SNAPSHOT_REQUEST: a write of REQ. -/
def execSnapshotRequest (t : Nat) (s : State) : Out := .next (s.formRecord t)
/-- METER_SNAPSHOT: the record of every millisecond. -/
def execMeterSnapshot (t : Nat) (s : State) : Out := .next (s.formRecord t)

/-- Bytes of the bound pinned windows of a tenant. -/
def Tenant.pinnedBytes (t : Tenant) : Nat := ((t.pins.filter (fun e => e.2.bnd)).map (fun e => (e.2.units + 1) * 65536)).sum

/-- PINB_ACCUMULATE. -/
def execPinbAccumulate (t : Nat) (s : State) : Out := .next (s.meter t 7 (s.ten t).pinnedBytes)

/-- The power cap in watts: a value outside 1,000 to 3,600 acts as 3,600. -/
def Pkg.capWatts (g : Pkg) : Nat := if 1000 ≤ g.pwrcap.toNat ∧ g.pwrcap.toNat ≤ 3600 then g.pwrcap.toNat else 3600

/-- POWER_CAP_THROTTLE: module power as measured over 1 ms. Idle issue slots are inserted while it is above the cap; only ACTV and time are affected. -/
def execPowerCapThrottle (watts : Nat) (s : State) : Out := .next (s.modPkg (fun g => { g with throttle := decide (g.capWatts < watts) }))

end Sys2Proof.Machine
end

