-- ==== Sys2Proof/Machine/Boot.lean ====
section
/-! DEFINITION. Bring-up (R347 to R350), soft errors (R352), and the loss of power (R284). -/
namespace Sys2Proof.Machine

/-! ### The defect map (R347) -/

/-- A valid enable map enables exactly 8 of the 9 quads of each die. -/
def emOk (em : DWord) : Bool :=
  bits em.toNat 36 28 == 0 && (upto 4).all (fun d => ((upto 9).filter (fun q => bit em.toNat (9 * d + q))).length == 8)

/-- The defect-map signature: the first 8 bytes, little-endian, of SHA-384 over the map. -/
def emSignature (em : DWord) : Nat := leVal ((sha384 (leBytes 8 em.toNat)).take 8)

/-! ### Boot (R348 to R350) -/

/-- What the stacks keep through a cold boot while power stays on: a stack at level 3 or above is still that hot, and level 4 is left only when power is
removed (R281). -/
def Pkg.stillHot (g : Pkg) : Map Stack :=
  if g.power then (g.hbm.filter (fun e => decide (3 ≤ e.2.lvl))).map (fun e => (e.1, { Stack.reset with temp := e.2.temp, layer := e.2.layer, lvl := e.2.lvl }))
  else []

/-- HOTSTAT after a boot: the stacks that are still at level 3 (R287). -/
def State.hotTens (s : State) : Map Tenant :=
  let hot := ((s.pkg.stillHot.filter (fun e => e.2.lvl == 3)).map (fun e => 2 ^ e.1)).sum
  if hot = 0 then [] else (upto 17).map (fun t => (t, { Tenant.reset t with hot := BitVec.ofNat 24 hot }))

/-- The machine as power-on leaves it: reset, with what outlives a boot: fuses, straps, the BSC's non-volatile counts, host memory, what still is hot, and the
model's own fields. -/
def State.powerOn (s : State) : State :=
  { State.reset with
    pkg := { Pkg.reset with
      em := s.pkg.em, pkgid := s.pkg.pkgid, fails := s.pkg.fails, reason := s.pkg.reason, boots := s.pkg.boots
      hbm := s.pkg.stillHot, hotstop := s.pkg.power && s.pkg.hotstop }
    tens := s.hotTens
    hostMem := s.hostMem, freeCtr := s.freeCtr, budget := s.budget, agenda := s.agenda, turn := s.turn }

/-- The reason a stage reports. -/
def stageReason (stage : Nat) (hot : Bool) : Nat :=
  match stage with
  | 0 => 1 | 1 => 2 | 2 => 3 | 3 => if hot then 5 else 4 | 4 => 6 | _ => 7

/-- A start fails at a stage: FAILS rises, saturating at 3, and REASON names the cause; a new cold boot follows, and nothing runs before it. -/
def State.failStart (s : State) (done reason : Nat) : State :=
  { s.powerOn with pkg := { s.powerOn.pkg with fails := min 3 (s.pkg.fails + 1), reason := reason, stage := done, minMode := s.pkg.fails == 3, booting := true } }

/-- A port after training at boot. -/
def bootPort (up : Bool) : Port := { Port.reset with up := up, trn := !up }

/-- A start that reaches stage 7: READY, the boot count raised, meters zero. In full mode FAILS is 0; a boot that began with FAILS = 3 runs in
minimal mode, without port 1 and the Llyned ports. -/
def State.bootDone (s : State) (x : BootIn) : State :=
  let min := s.pkg.fails == 3
  { s.powerOn with
    pkg := { s.powerOn.pkg with
      stage := 7, ready := true, minMode := min, fails := if min then 3 else 0, boots := s.pkg.boots + 1
      port1Up := x.port1 && !min
      ports := if min then [] else (upto 18).map (fun p => (p, bootPort (x.llyned.getLsbD p))) } }

/-- A cold boot: the stages in order. Stage 3 fails while a stack is at level 3 or above. -/
def State.boot (s : State) (x : BootIn) : State :=
  let hot := !s.pkg.stillHot.isEmpty
  let fail := match x.fail with
    | some n => if n ≤ 5 ∧ ¬(hot = true ∧ 3 < n) then some n else if hot then some 3 else none
    | none => if hot then some 3 else none
  if x.selfTest then s.failStart 0 8
  else if fail = some 0 then s.failStart 0 1
  else if !emOk s.pkg.em then s.failStart 0 2
  else
    match fail with
    | some n => s.failStart (n - 1) (stageReason n (x.hot || hot))
    | none => s.bootDone x

/-- COLD_BOOT. -/
def execColdBoot (x : BootIn) (s : State) : Out := .next (s.boot x)

/-- BOOT_STAGE_TIMEOUT: a stage of a start in progress exceeds its limit. -/
def execBootStageTimeout (stage : Nat) (s : State) : Out :=
  if s.pkg.ready || decide (5 < stage) then .next s else .next (s.failStart (stage - 1) (stageReason stage (!s.pkg.stillHot.isEmpty)))

/-- BOOT_WATCHDOG: the 2 s of a start in progress are over. -/
def execBootWatchdog (s : State) : Out := if s.pkg.ready then .next s else .next (s.failStart s.pkg.stage 9)

/-- BOOTCTL_RETRY: FAILS is cleared and a cold boot starts; every activity ends. -/
def execBootctlRetry (x : BootIn) (s : State) : Out := .next ((s.modPkg (fun g => { g with fails := 0 })).boot x)

/-- MODULE_POWER_REMOVED: memory contents, queues and meters are lost; FAILS survives. -/
def execModulePowerRemoved (s : State) : Out :=
  let off := (s.modPkg (fun g => { g with power := false })).powerOn
  .next { off with pkg := { off.pkg with power := false } }

/-! ### Soft errors (R352) -/

/-- Saturating count of an error; each increment raises the vector. -/
def State.countUncorr (s : State) : State :=
  if s.pkg.uncorr = BitVec.allOnes 32 then s
  else (s.modPkg (fun g => { g with uncorr := satInc32 g.uncorr })).raiseVec 0 (bits s.pkg.errctl.toNat 0 8)

/-- A soft error in a line of memory: corrected, it is counted; uncorrectable, the line is poisoned. -/
def State.softLine (s : State) (hh : Bool) (line : Nat) (corrected : Bool) : State :=
  if corrected then s.modPkg (fun g => { g with corr := satInc32 g.corr })
  else (s.modPkg (fun g => { g with poison := Map.put g.poison (poisonKey hh line) true, ueloc := BitVec.ofNat 64 (64 * line % 2 ^ 60) })).countUncorr

/-- A soft error in main memory. -/
def State.softMem (s : State) (line : Nat) (corrected : Bool) : State := s.softLine false line corrected

/-- Does a cache hold a line: 0 the L1D of a core, 1 the RDC of a die, 2 an L2, 3 an MSC, else the directory (R253)? -/
def State.cacheHolds (s : State) (level : Nat) (at_ line : Nat) (hh : Bool) : Bool :=
  match level with
  | 0 => !hh && (Map.find? (s.core at_).l1d line).isSome
  | 1 => (Map.find? s.pkg.rdc (rdcKey at_ hh line)).isSome
  | 2 => !hh && (Map.find? s.pkg.l2 line).isSome
  | 3 => !hh && (Map.find? s.pkg.msc line).isSome
  | _ => !hh && (Map.find? s.pkg.dir (line / 8)).isSome

/-- A soft error in a line of a cache or in its directory entry (R351). -/
def State.softCache (s : State) (level : Nat) (at_ line : Nat) (hh corrected : Bool) : State :=
  if s.cacheHolds level at_ line hh then s.softLine hh line corrected else s

/-! A span without a check can change a result silently (R351): a lane of a vector result, a cell that the filter unit has written, received data of a reduction,
data on the way between packages. -/

/-- A word changed by an error. -/
def flip (bs : List Byte) (i : Nat) (x : Byte) : List Byte := bs.set i ((bs.getD i 0) ^^^ x)

/-- The latest result of a strand's vector datapath. -/
def State.silentVec (s : State) (k lane : Nat) (x : Word) : State :=
  s.modPart k (fun p => { p with t := p.t.set 0 ((p.rdT 0).set lane ((p.rdT 0).getD lane 0 ^^^ x)) })

/-- A word of a cell of a registered region. -/
def State.silentCell (s : State) (t rg c i : Nat) (x : Byte) : State :=
  match Map.find? (s.ten t).regs rg with
  | some r => if c < r.ncell ∧ i < r.csz then s.putBytes .dev (r.cellPa c + i) [memRead s.mem (r.cellPa c + i) ^^^ x] else s
  | none => s

/-- A byte in the reduce buffer of a stream. -/
def State.silentReduce (s : State) (j i : Nat) (x : Byte) : State :=
  s.modPkg (fun g => { g with streams := g.streams.modify j (fun y => { y with buf := flip y.buf i x }) })

/-- A byte of the data of a message. -/
def State.silentFlit (s : State) (j i : Nat) (x : Byte) : State :=
  s.modPkg (fun g => { g with rxQ := g.rxQ.modify j (fun p => { p with msg := match p.msg with
    | .req r => .req (match r.op with | .write bs => { r with op := .write (flip bs i x) } | _ => r)
    | .resp t w g st ts bs => .resp t w g st ts (flip bs i x)
    | .data t c r p n bs => .data t c r p n (flip bs i x)
    | m => m }) })

/-- A soft error in a core's scratchpad (R351). -/
def State.softSpad (s : State) (core line : Nat) : State :=
  (s.modCore core (fun c => { c with spoison := Map.put c.spoison line true })).countUncorr

/-- A soft error in a core's accumulator store, by tile, or in a line of its weight buffer (R351). -/
def State.softArray (s : State) (core : Nat) (wbuf : Bool) (i : Nat) : State :=
  (s.modCore core (fun c => { c with mpoison := Map.put c.mpoison (arrayKey wbuf i) true })).countUncorr

/-- Does PROG count something for a command (R208): DRAIN and WBLD; COPY, COPYN, FILL, ACW; the commands of G; and RESUME, for what it resumes? -/
def progCounts (e code : Nat) : Bool :=
  (e == 0 && [2, 5].contains code) || (e == 1 && [1, 2, 3, 4, 14].contains code) || (e == 2 && [1, 2, 3, 4, 14].contains code)

/-- A soft error in a register file or a queue: the unit that consumes it faults with AUX 1 or 2, A, X and S at the instruction that meets it, the front end
at its place, and an engine at the command in execution. -/
def State.softUnit (s : State) (k : Nat) (u : Fin 8) (queue : Bool) : State :=
  let p := s.part k
  let aux := if queue then 2 else 1
  if s.stopped (k * 8 + u.val) || !p.inIter && decide (u.val < 4) then s
  else if u.val = 0 then s.countUncorr.takeFault (k * 8) (.of cUncorrectable aux) p.pc.toNat (s.wordAt (s.tenOf (coreOf k)) p.pc.toNat) [] false
  else if u.val < 4 then
    (if u.val = 3 && !queue then s else s.countUncorr.modPart k (fun p => { p with soft := Map.put p.soft u.val aux }))
  else
    match (p.ring (u.val - 4)).cur with
    | some c =>
      let prog := if progCounts (u.val - 4) (bits c.word.toNat 42 6) then c.prog else 0
      s.countUncorr.engineFault k (u.val - 4) { FInfo.of cUncorrectable aux with prog := prog } false
    | none => s

end Sys2Proof.Machine
end

