-- ==== Sys2Proof/Machine/Hbm.lean ====
section
/-! DEFINITION. Main memory and temperature (R280 to R287): banks and their rows, thermal levels, freezing and shutdown. -/
namespace Sys2Proof.Machine

/-! ### Banks (R280) -/

/-- Close a bank's row. -/
def Pkg.closeRow (g : Pkg) (key : Nat) : Pkg := { g with openRows := Map.del g.openRows key, rowIdle := Map.del g.rowIdle key }

/-- BANK_IDLE_PRECHARGE: the timer of a bank has expired; an access to the open row that is queued skips the precharge and restarts the timer. -/
def execBankIdlePrecharge (chan bank : Nat) (queued : Bool) (s : State) : Out :=
  if !(Map.get false s.pkg.openRows (bankKey chan bank)) || decide (s.cycle < Map.get 0 s.pkg.rowIdle (bankKey chan bank)) then .next s
  else if queued then .next (s.touchBank chan bank true)
  else .next (s.modPkg (·.closeRow (bankKey chan bank)))

/-- REFRESH: every open row of the banks it refreshes is closed. -/
def execRefresh (chan : Nat) (banks : List Nat) (s : State) : Out :=
  .next (s.modPkg (fun g => banks.foldl (fun g b => g.closeRow (bankKey chan b)) g))

/-! ### Thermal levels (R281 to R284) -/

/-- The next level of a stack from its level and its temperature. -/
def nextLevel (cfg : Nat) (lvl θ : Nat) : Nat :=
  let t1 := bits cfg 0 8
  let t2 := bits cfg 8 8
  let t3 := bits cfg 16 8
  let t4 := bits cfg 24 8
  let hys := bits cfg 32 4
  if lvl = 4 ∨ t4 ≤ θ then 4
  else if t3 ≤ θ then 3
  else if lvl = 3 ∧ t2 ≤ θ then 3
  else if t2 ≤ θ ∨ (lvl = 2 ∧ t2 ≤ θ + hys) then 2
  else if t1 ≤ θ ∨ (lvl = 1 ∧ t1 ≤ θ + hys) then 1
  else 0

/-- Set bit n of every tenant's HOTSTAT. -/
def State.setHot (s : State) (n : Nat) (b : Bool) : State :=
  (upto 17).foldl (fun s t => s.modTen t (fun x =>
    { x with hot := if b then x.hot ||| BitVec.ofNat 24 (2 ^ n) else x.hot &&& ~~~(BitVec.ofNat 24 (2 ^ n)) })) s

/-- One stack's sample: temperature, sensor, level, and what a change of level does. -/
def State.sampleStack (s : State) (r : Reading) : State :=
  let x := s.stack r.stack
  let l := nextLevel s.pkg.thcfg.toNat x.lvl r.temp.toNat
  let frz := if l = 3 ∧ x.lvl ≠ 3 ∧ x.frz ≠ BitVec.allOnes 32 then x.frz + 1 else x.frz
  let s := s.modPkg (fun g => { g with
    hbm := Map.put g.hbm r.stack { x with temp := r.temp, layer := r.layer, lvl := l, frz := frz }
    hotstop := g.hotstop || l == 4 })
  if l = x.lvl then s
  else
    let s := if l = 3 then s.setHot r.stack true else if x.lvl = 3 then s.setHot r.stack false else s
    s.raiseVec 0 (bits s.pkg.thcfg.toNat 48 8)

/-- THERMAL_SAMPLE. -/
def execThermalSample (rs : List Reading) (s : State) : Out :=
  .next ((rs.filter (fun r => decide (r.stack < 24))).foldl (fun s r => s.sampleStack r) s)

/-- THCFG_WRITE: discarded as a whole when the thresholds would not be ordered; T4 is fixed. -/
def execThcfgWrite (v : DWord) (s : State) : Out :=
  let t4 := bits s.pkg.thcfg.toNat 24 8
  let t1 := bits v.toNat 0 8
  let t2 := bits v.toNat 8 8
  let t3 := bits v.toNat 16 8
  if t1 < t2 ∧ t2 < t3 ∧ t3 < t4 then
    .next (s.modPkg (fun g => { g with
      thcfg := BitVec.ofNat 64 (t1 + t2 * 2 ^ 8 + t3 * 2 ^ 16 + t4 * 2 ^ 24 + bits v.toNat 32 8 * 2 ^ 32 + bits v.toNat 48 8 * 2 ^ 48) }))
  else .next (s.modPkg (fun g => { g with thcfg := g.thcfg ||| BitVec.ofNat 64 (2 ^ 40) }))

end Sys2Proof.Machine
end

