-- ==== Sys2Proof/Machine/HostPort.lean ====
section
/-! DEFINITION. The host (R322 to R332, R346): its accesses to device memory and the snoops of the homes, host memory in the RDCs, the CXL
ports, DOE, SPDM and IDE, and launch chains. -/
namespace Sys2Proof.Machine

/-! ### Ports (R323, R332) -/

/-- CXL_PORT_DOWN: every request goes to port 0. -/
def execCxlPortDown (s : State) : Out := .next (s.modPkg (fun g => { g with port1Up := false }))
/-- CXL_PORT_UP; in minimal mode port 1 does not operate (R332, R349). -/
def execCxlPortUp (s : State) : Out := .next (s.modPkg (fun g => { g with port1Up := !g.minMode }))

/-! ### Device memory seen by the host (R325, R326) -/

/-- A host read of 64 bytes, performed at the home: the host may hold the line from then on; outside every window it reads all ones. -/
def State.hostRead (s : State) (line : Nat) : State :=
  match s.windowOwner (64 * line) 64 with
  | none => s.answer .refused (List.replicate 64 255)
  | some t =>
    if s.poisonedPa (64 * line) 64 then s.answer .poison []
    else
      let (bs, s) := s.outRead t (64 * line) 64
      ((s.meter t 10 64).hostHolds line).answer .done bs

/-- A host write. -/
def State.hostWrite (s : State) (pa : Nat) (data : List Byte) : State :=
  match s.windowOwner pa data.length with
  | none => s.answer .refused []
  | some t => ((s.outWrite t pa data).meter t 10 data.length).answer .done []

/-- What a host request waits for at the home, with the paddock words that the home takes back from another package (R258); none when it is performed. -/
def State.hostWaits (s : State) (pa n : Nat) (write : Bool) : Option State :=
  match s.windowOwner pa n with
  | none => none
  | some t => if s.outWaits t pa n then some s else s.homeExchange s.pkg.pkgid.toNat t pa n write false true

/-- MEMRD: 64 bytes of device memory. -/
def execMemrd (pa : Nat) (s : State) : Out :=
  if !s.carries (pa / 64) then .next s else .next ((s.hostWaits (pa / 64 * 64) 64 false).getD (s.hostRead (pa / 64)))

/-- MEMWR. -/
def execMemwr (pa : Nat) (data : List Byte) (s : State) : Out :=
  if !s.carries (pa / 64) then .next s else .next ((s.hostWaits pa data.length true).getD (s.hostWrite pa data))

/-- The tenant of a device line; tenant 0 for one outside every window. -/
def State.lineOwner (s : State) (line : Nat) : Nat := (s.windowOwner (64 * line) 64).getD 0

/-- BIRSP: dirty data are written at the home first; the host's copy is invalidated, or downgraded to S; the device access goes on. -/
def execBirsp (who : Nat) (data : Option (List Byte)) (s : State) : Out :=
  match Map.find? s.reqs who with
  | some r =>
    match r.kind with
    | .backInv l inv =>
      if r.answered || !s.carries l then .next s
      else
        let s := match data with
          | some bs => (s.outWrite (s.lineOwner l) (64 * l) (bs.take 64)).meter (s.lineOwner l) 10 64
          | none => s
        .next ((s.modPkg (fun g => { g with hostLines := if inv then Map.del g.hostLines l else Map.put g.hostLines l .s })).answered who r)
    | _ => .next s
  | none => .next s

/-- BICONFLICT: the home performs the host's request for the line before the waiting device access, and acknowledges the conflict; its snoop, sent again,
waits as before. -/
def execBiconflict (who : Nat) (op : MemOp) (s : State) : Out :=
  match Map.find? s.reqs who with
  | some r =>
    match r.kind with
    | .backInv l _ =>
      if r.answered || !s.carries l then .next s
      else
        let s := match op with
          | .write bs => s.hostWrite (64 * l) (bs.take 64)
          | _ => s.hostRead l
        .next (s.modPkg (fun g => { g with cxlOut := g.cxlOut ++ [.biConflictAck l] }))
    | _ => .next s
  | none => .next s

/-! ### Host memory in the package (R327) -/

/-- A host snoop recalls the paddock words of the line; one that invalidates takes the RDC copies, another leaves them shared. -/
def State.snoop (s : State) (line : Nat) (inv : Bool) : State := s.settle true line inv false (BitVec.allOnes 16) .host

/-- The 64 bytes of a host line. -/
def State.hostLine (s : State) (line : Nat) : List Byte := s.bytesAt .host (64 * line) 64

/-- The payload that a snoop of a host line returns counts for its tenant: the line, where an RDC holds it in M (R342). -/
def State.snoopData (s : State) (line : Nat) : State :=
  if (upto 4).any (fun d => match Map.find? s.pkg.rdc (rdcKey d true line) with | some x => x.st == .m | none => false)
  then s.meter ((s.owner true (64 * line) 64).getD 0) 10 64 else s

/-- A snoop returns the line, or poison (R352). -/
def State.snoopAnswer (s : State) (line : Nat) : State :=
  if Map.get false s.pkg.poison (poisonKey true line) then s.answer .poison [] else s.answer .done (s.hostLine line)

/-- SNPDATA: the RDC copies stay shared, and dirty data go back. -/
def execSnpdata (line : Nat) (s : State) : Out :=
  if !s.carries line then .next s else .next (((s.snoopData line).snoop line false).snoopAnswer line)

/-- SNPINV: the RDC copies are gone. -/
def execSnpinv (line : Nat) (s : State) : Out :=
  if !s.carries line then .next s else .next (((s.snoopData line).snoop line true).snoopAnswer line)

/-- The paddock words of a host line are recalled. -/
def State.recallPd (s : State) (line : Nat) : State :=
  { s with cores := s.cores.map (fun (e : Nat × Core) => (e.1, e.2.probePd e.1 true line false (BitVec.allOnes 16) .agent)) }

/-- SNPCUR: the state of the RDC copies does not change. -/
def execSnpcur (line : Nat) (s : State) : Out :=
  if !s.carries line then .next s else .next ((s.recallPd line).snoopAnswer line)

/-- The lease that a requester's copy gets (R218): LL of its strand's plane, 16 for an agent that has none. -/
def State.leaseFor (s : State) (who : Nat) : BitVec 48 :=
  s.gts + BitVec.ofNat 48 (if who < 2 ^ 24 then s.leaseLen (coreOf (who / 8)) (isU (who / 8)) else 16)

/-- What RdShared brings: S, or E when the host grants it. A written copy of another die, whose lease has passed, is given back first. -/
def State.takeShared (s : State) (die line : Nat) (excl : Bool) (lease : BitVec 48) : State :=
  let out := s.pkg.rdc.filter (fun e => e.1 % 2 ^ 54 == line && e.1 / 2 ^ 54 % 2 == 1 && e.2.st == .m)
  (out.foldl (fun s e => s.dropRdc e) s).putRdc die true line 0 (if excl then .e else .s) lease

/-- HOST_CACHE_RESPONSE: RdShared gives S, or E when the host grants it; RdOwn leaves M; a class-U access leaves nothing. The copy is in the RDC of the
requester's die; its payload counts for the tenant of the line (R342). -/
def execHostCacheResponse (who : Nat) (excl : Bool) (s : State) : Out :=
  match Map.find? s.reqs who with
  | some r =>
    let done := fun (l : Nat) (s : State) => (s.meter ((s.owner true (64 * l) 64).getD 0) 10 64).answered who r
    match r.kind with
    | .hostLine l own =>
      if r.answered || !s.carries l then .next s
      else if own then .next (done l (s.putRdc (whoDie who) true l 0 .m (s.leaseFor who)))
      else .next (done l (s.takeShared (whoDie who) l excl (s.leaseFor who)))
    | .hostU l => if r.answered || !s.carries l then .next s else .next (done l s)
    | _ => .next s
  | none => .next s

/-! ### DOE, SPDM and IDE (R331, R332, R346, R350) -/

/-- Does a function's mailbox answer: on its port, which in minimal mode is port 0 (R332, R349)? -/
def State.doeOpen (s : State) (fn : Nat) : Bool := if fn = 17 then s.portOpen 1 && !s.pkg.minMode else s.portOpen 0

/-- A mailbox takes a request unless one is in progress. -/
def State.doeAnswer (s : State) (fn : Nat) (f : State → List Byte × State) : State :=
  match Map.find? s.pkg.doe fn with
  | some _ => s
  | none =>
    let (bs, s) := f s
    s.modPkg (fun g => { g with doe := Map.put g.doe fn bs })

/-- The protocols a function's mailbox answers; 17 is port 1's function. -/
def doeProtocols (fn : Nat) : List Nat := if fn = 0 ∨ fn = 17 then [0, 1, 2] else [0, 1]

/-- DOE_DISCOVERY. -/
def execDoeDiscovery (fn ix : Nat) (s : State) : Out :=
  if 18 ≤ fn || !s.doeOpen fn then .next s
  else
    let l := doeProtocols fn
    .next (s.doeAnswer fn (fun s =>
      (match l[ix]? with
        | some p => leBytes 2 1 ++ leBytes 1 p ++ leBytes 1 (if ix + 1 < l.length then ix + 1 else 0)
        | none => leBytes 4 0xFFFF, s)))

/-- SPDM_REQUEST: its code; from 256 on, one that comes secured, which a virtual function does not answer. -/
def execSpdmRequest (fn code : Nat) (s : State) : Out :=
  if 18 ≤ fn || !s.doeOpen fn || (decide (256 ≤ code) && fn != 0 && fn != 17) then .next s else .next (s.doeAnswer fn (fun s => (Config.spdmAnswer fn code, s)))

/-- BOOTSTAT (R350). -/
def Pkg.bootstat (g : Pkg) : Nat := g.stage + b2n g.ready * 2 ^ 4 + b2n g.minMode * 2 ^ 5 + g.fails * 2 ^ 6 + g.reason * 2 ^ 8

/-- A measurement block of SPDM 1.3, of type raw bit stream: its index, the DMTF specification, its size, the kind with bit 7 set, the size of its value,
the value (R346; notes/assumptions/61.md). -/
def measureBlock (ix : Nat) (v : List Byte) : List Byte :=
  leBytes 1 ix ++ leBytes 1 1 ++ leBytes 2 (v.length + 3) ++ leBytes 1 (128 + (Config.measureKind ix).toNat) ++ leBytes 2 v.length ++ v

/-- The measurement blocks of the indices a function's mailbox may give, with the records formed (R331): the boot status on the physical function's, a meter
record on the physical function's and the tenant's own. -/
def State.measured (s : State) (fn : Nat) (ixs : List Nat) : List (List Byte) × State :=
  ixs.foldl (fun x ix =>
    if 0x80 ≤ ix ∧ ix ≤ 0x90 ∧ (fn = 0 ∨ fn = ix - 0x80) then (x.1 ++ [measureBlock ix (x.2.recordNow (ix - 0x80))], x.2.formRecord (ix - 0x80))
    else if ix = 0x7F ∧ fn = 0 then (x.1 ++ [measureBlock ix (leBytes 4 s.pkg.bootstat ++ leBytes 4 s.pkg.boots.toNat)], x.2)
    else x) ([], s)

/-- A MEASUREMENTS response: its blocks, and after them what the request asks for, the requester's nonce with a signature over the whole (R346;
notes/assumptions/61.md). -/
def State.measureAnswer (s : State) (blocks : List (List Byte)) : List Byte :=
  let bs := blocks.flatten
  let head := leBytes 1 0x13 ++ leBytes 1 0x60 ++ leBytes 2 0 ++ leBytes 1 blocks.length ++ leBytes 3 bs.length ++ bs
  head ++ Config.measureTail s.freeCtr head

/-- GET_MEASUREMENTS: one index, or with 0xFF all that the function gives, the device's firmware measurements first; an index of another tenant is absent. -/
def execGetMeasurements (fn ix : Nat) (s : State) : Out :=
  if 18 ≤ fn || !s.doeOpen fn then .next s
  else
    .next (s.doeAnswer fn (fun s =>
      let x := if 0x7F ≤ ix ∧ ix ≤ 0x90 then s.measured fn [ix] else if ix = 0xFF then s.measured fn ((upto 18).map (0x7F + ·)) else ([], s)
      let own := if 0x7F ≤ ix ∧ ix ≤ 0x90 then [] else Config.firmwareBlocks fn ix
      (s.measureAnswer (own ++ x.1), { x.2 with freeCtr := x.2.freeCtr + 1 })))

/-- The vectors of a function that wait and are not masked are sent. -/
def State.sendPending (s : State) (fn : Nat) : State :=
  if (s.ten fn).msixOff || !s.portOpen 0 then s
  else
    ((s.ten fn).msix.filter (fun e => e.2.pending && !e.2.masked)).foldl (fun s e =>
      (s.modTen fn (fun t => { t with msix := Map.put t.msix e.1 ⟨false, false⟩ })).raiseVec fn e.1) s

/-- IDE_KM: keys for a port's link, which come in a secured message to that port's function, also while the port is insecure (notes/assumptions/61.md). What
waited for the port goes on. -/
def execIdeKm (port : Fin 2) (_key : DWord) (s : State) : Out :=
  let fn := if port = 0 then 0 else 17
  if fn = 17 ∧ s.pkg.minMode = true then .next s
  else .next (s.doeAnswer fn (fun s =>
    (Config.spdmAnswer fn (0xE1 * 256),
      (upto 17).foldl (fun s fn => s.sendPending fn) (s.modPkg (fun g => { g with
        ideKeyed := Map.put g.ideKeyed port.val true, ideSecure := Map.put g.ideSecure port.val true, ideEver := Map.put g.ideEver port.val true })))))

/-- IDE_INTEGRITY_FAIL: the port carries nothing until new keys are installed. -/
def execIdeIntegrityFail (port : Fin 2) (s : State) : Out :=
  if !Map.get false s.pkg.ideKeyed port.val then .next s
  else .next (s.modPkg (fun g => { g with ideSecure := Map.put g.ideSecure port.val false }))

/-! ### Launch chains (R328, R329) -/

/-- A chain of a tenant. -/
def Tenant.chain (t : Tenant) (c : Nat) : Chain := Map.get Chain.reset t.chains c
/-- Change a chain. -/
def State.modChain (s : State) (t c : Nat) (f : Chain → Chain) : State :=
  s.modTen t (fun x => { x with chains := Map.put x.chains c (f (x.chain c)) })

/-- CHAIN_ENABLE: EN rises; the position is the anchor, ERR and ACC clear. A record in progress since before EN fell is still submitted, and the chain goes on from
the anchor then; `fetched`, a multiple of 128, is odd meanwhile. -/
def execChainEnable (t : Nat) (c : Fin 8) (s : State) : Out :=
  if ((s.ten t).chain c.val).en then .next s
  else
    .next (s.modChain t c.val (fun x => { x with
      en := true, err := false, acc := 0, pos := bits x.anch.toNat 3 49 * 8, fetched := if x.fetched = 0 then 0 else x.fetched / 2 * 2 + 1 }))

/-- A chain stops at an unusable pointer. -/
def State.chainStop (s : State) (t c : Nat) : State := s.modChain t c (fun x => { x with err := true, en := false, fetched := 0 })

/-- The requester of a chain's reads. -/
def chainReq (t c : Nat) : Nat := ownReq t (6 + c)

/-- What a chain's read comes to: what follows takes the bytes; it waits; a page that is not mapped, or that its home refuses, stops the chain; after
another fault it is tried again. -/
def State.chainRead (s : State) (t c a n : Nat) (f : List Byte → State → State) : State :=
  match s.getVa (chainReq t c) t a n with
  | .ok bs s => f bs s
  | .wait _ s => s
  | .fault i s => if i.cause = cTranslation ∨ i.cause = cProtection then s.chainStop t c else s

/-- The record that a chain's NEXT field names is read and submitted as a LAUNCH of scope ten. -/
def State.chainSubmit (s : State) (t c : Nat) : State :=
  let f := ((s.ten t).chain c).fetched
  let n := f / 2 * 2
  s.chainRead t c n 128 (fun rec s =>
    (s.submit t ((s.ten t).chain c).die .ten none rec).modChain t c (fun y =>
      { y with acc := satInc32 y.acc, pos := if f = n then n else y.pos, fetched := 0 }))

/-- CHAIN_FOLLOW: the walker reads the NEXT field it stands at; a usable record is read and submitted. A NEXT field once read as non-zero is not read again, and
its record is submitted though EN falls meanwhile. -/
def execChainFollow (t : Nat) (c : Fin 8) (s : State) : Out :=
  let x := (s.ten t).chain c.val
  if s.pkg.minMode then .next s
  else if x.fetched ≠ 0 then .next (s.chainSubmit t c.val)
  else if !x.en then .next s
  else
    .next (s.chainRead t c.val x.pos 8 (fun bs s =>
      let n := leVal bs
      if n = 0 then s
      else if n % 128 ≠ 0 then s.chainStop t c.val
      else (s.modChain t c.val (fun y => { y with fetched := n })).chainSubmit t c.val))

end Sys2Proof.Machine
end

