-- ==== Sys2Proof/Machine/Registers.lean ====
section
/-! DEFINITION. The control pages (R6, R202, R232, R259, R261, R266, R287, R297, R306, R324, R328, R335 to R343, R352, R353): what each
register reads and what a write does. Offsets are those of dwords. -/
namespace Sys2Proof.Machine

/-! ### Reading -/

/-- FQSTAT. -/
def State.fqstat (s : State) (t : Nat) : Nat :=
  (s.faults.filter (fun r => r.ten == t && r.pending)).length % 2 ^ 32
    + b2n (s.fullQueue t && s.faults.any (fun r => r.ten == t && r.seq.isNone)) * 2 ^ 32 + b2n (s.ten t).nomap * 2 ^ 33

/-- BAYFREE. -/
def State.bayFree (s : State) (t : Nat) : Nat :=
  ((upto 4).map (fun d => (((s.ten t).baysOn d).filter (fun b => (Map.find? s.pkg.bays (bayKey d b)).isNone)).length * 2 ^ (8 * d))).sum

/-- A group register: GRPA at the even dword, GRPB at the odd. -/
def State.groupReg (s : State) (t g : Nat) (b : Bool) : Nat :=
  let x := (s.ten t).group g
  if b then x.rej + x.stale * 2 ^ 16 + x.dup * 2 ^ 32 + x.abnd * 2 ^ 48
  else b2n x.set + 2 * b2n x.tgt + (s.openLots t g).length * 2 ^ 8 + x.concl.toNat * 2 ^ 32

/-- A pin register: PINSTA at the even dword, PINSTB at the odd. -/
def Tenant.pinReg (t : Tenant) (w : Nat) (b : Bool) : Nat :=
  match Map.find? t.pins w with
  | none => 0
  | some p => if b then p.base else b2n p.bnd + p.cnt * 2 + p.units * 2 ^ 16

/-- A chain register: CHANCH at the even dword, CHCTL at the odd. -/
def Tenant.chainReg (t : Tenant) (c : Nat) (b : Bool) : Nat :=
  let x := t.chain c
  if b then b2n x.en + x.die * 2 + b2n x.err * 8 + x.acc.toNat * 2 ^ 32 else x.anch.toNat

/-- A tenant register of a function. -/
def State.tenReg (s : State) (t off : Nat) : Nat :=
  let x := s.ten t
  if off < 0x80 then (x.meterAt (off / 8)).toNat
  else if off = 0x100 then x.fqbase.toNat
  else if off = 0x108 then x.fqctl.toNat
  else if off = 0x110 then x.fqprod.toNat
  else if off = 0x118 then x.fqcons.toNat
  else if off = 0x128 then s.fqstat t
  else if off = 0x130 then x.quads.toNat + x.bays.toNat * 2 ^ 32
  else if off = 0x138 then x.ptroot.toNat
  else if off = 0x140 then b2n x.rvkVa.isSome
  else if off = 0x148 then x.snpbase.toNat
  else if off = 0x150 then x.snpLog + b2n x.snpEn * 16 + x.snpLast.toNat * 2 ^ 32
  else if off = 0x180 then x.rtbase.toNat
  else if off = 0x190 then b2n x.rgBusy + x.rgErr * 2 + b2n x.rgLost * 16 + x.rgLrg * 2 ^ 8
  else if off = 0x1A0 then x.rcaddr.toNat
  else if off = 0x1A8 then x.rclen.toNat
  else if off = 0x1B8 then b2n x.rcBusy + x.rcErr * 2
  else if off = 0x1C0 then x.pincfg
  else if off = 0x1C8 then x.cap
  else if off = 0x1D0 then s.bayFree t
  else if off = 0x1E0 then x.hot.toNat
  else if off = 0x1F0 then x.rbk.toNat + x.whole.toNat * 2 ^ 32
  else if 0x200 ≤ off ∧ off < 0x300 then x.pinReg ((off - 0x200) / 16) (bit off 3)
  else if 0x300 ≤ off ∧ off < 0x380 then x.chainReg ((off - 0x300) / 16) (bit off 3)
  else if 0x400 ≤ off ∧ off < 0x800 then s.groupReg t ((off - 0x400) / 16) (bit off 3)
  else 0

/-- LNKSTAT. -/
def Port.reg (x : Port) : Nat := b2n x.up + 2 * b2n x.trn + x.nbr.toNat * 4 + x.rpl * 2 ^ 16 + x.crce * 2 ^ 32 + x.down * 2 ^ 48

/-- THSTAT. -/
def Stack.reg (x : Stack) : Nat := x.temp.toNat + x.layer.toNat * 2 ^ 8 + x.lvl * 2 ^ 13 + x.frz.toNat * 2 ^ 16

/-- A register of the physical function. -/
def State.pfReg (s : State) (off : Nat) : Nat :=
  let g := s.pkg
  let odd := bit off 3
  if 0x800 ≤ off ∧ off < 0x910 then (let x := s.ten ((off - 0x800) / 16); if odd then x.pinlim else x.ways.toNat)
  else if off = 0x910 then b2n g.waysNew.isSome + 2 * b2n g.waysOvl + 4 * g.waysOt
  else if 0xA00 ≤ off ∧ off < 0xAC0 then (s.stack ((off - 0xA00) / 8)).idle
  else if off = 0xAC0 then g.thcfg.toNat
  else if 0xB00 ≤ off ∧ off < 0xBC0 then (s.stack ((off - 0xB00) / 8)).reg
  else if 0xC00 ≤ off ∧ off < 0xC20 then (Map.get 0 g.fcast ((off - 0xC00) / 8) : DWord).toNat
  else if off = 0xC20 then g.wintab.toNat
  else if off = 0xC30 then b2n g.pstatErr + g.pstatTen * 2 + g.pstatWhy * 2 ^ 6 + b2n g.winBusy.isSome * 2 ^ 9
  else if off = 0xC40 then g.corr.toNat + g.uncorr.toNat * 2 ^ 32
  else if off = 0xC48 then g.ueloc.toNat
  else if off = 0xC50 then g.errctl.toNat
  else if off = 0xC58 then g.pwrcap.toNat
  else if 0xD00 ≤ off ∧ off < 0xD90 then (s.port ((off - 0xD00) / 8)).reg
  else if off = 0xD90 then g.pkgid.toNat
  else if off = 0xD98 then g.fabcfg.toNat
  else if 0xE00 ≤ off ∧ off < 0xF10 then
    (let x := s.ten ((off - 0xE00) / 16); if odd then x.pol.toNat else x.quads.toNat + x.bays.toNat * 2 ^ 32)
  else if 0x1000 ≤ off ∧ off < 0x2000 then
    (Map.get 0 g.route ((off - 0x1000) / 4) : BitVec 18).toNat + (Map.get 0 g.route ((off - 0x1000) / 4 + 1) : BitVec 18).toNat * 2 ^ 32
  else 0

/-- A dword of a function's control page; reserved offsets and write-only registers read 0. -/
def State.regRead (s : State) (fn off : Nat) : DWord :=
  BitVec.ofNat 64 (if off < 0x800 then s.tenReg fn off else if fn = 0 then s.pfReg off else 0)

/-! ### Writing -/

/-- The state an event's outcome leads to; every event leads to one. -/
def outState (s : State) (o : Out) : State :=
  match o with
  | .next t => t
  | _ => s

/-- A mask of the bits a write reaches. -/
def keep (v : DWord) (lo len : Nat) : DWord := BitVec.ofNat 64 (bits v.toNat lo len * 2 ^ lo)

/-- A write to FQCTL; NOMAP clears when EN rises. -/
def State.writeFqctl (s : State) (t : Nat) (v : DWord) : State :=
  s.modTen t (fun x => { x with
    fqctl := v &&& 0x1FFFFF1F, nomap := if bit v.toNat 4 && !x.fqEn then false else x.nomap })

/-- A write to REPLAY. -/
def State.writeReplay (s : State) (t : Nat) (v : DWord) : State :=
  let seq : Word := BitVec.ofNat 32 v.toNat
  let one := bit v.toNat 34
  match bits v.toNat 32 2 with
  | 0 => s.replayAll t seq one .retry
  | 1 => s.replayAll t seq one .skip
  | 2 => s.replayAll t seq one .kill
  | _ => s

/-- A write to SNPCTL; REQ forms a record. -/
def State.writeSnpctl (s : State) (t : Nat) (v : DWord) : State :=
  let s := s.modTen t (fun x => { x with snpLog := bits v.toNat 0 4, snpEn := bit v.toNat 4 })
  if bit v.toNat 5 then outState s (execSnapshotRequest t s) else s

/-- A write to CHANCH or CHCTL: discarded fields while EN = 1; EN rising starts the chain. -/
def State.writeChain (s : State) (t : Nat) (c : Fin 8) (b : Bool) (v : DWord) : State :=
  let en := ((s.ten t).chain c.val).en
  if !b then (if en then s else s.modChain t c.val (fun x => { x with anch := keep v 3 49 }))
  else
    let s := if en then s else s.modChain t c.val (fun x => { x with die := bits v.toNat 1 2 })
    if bit v.toNat 0 then outState s (execChainEnable t c s) else s.modChain t c.val (fun x => { x with en := false })

/-- A write to a tenant register of function t. -/
def State.tenWrite (s : State) (t off : Nat) (v : DWord) : State :=
  if off = 0x100 then s.modTen t (fun x => { x with fqbase := keep v 12 40 })
  else if off = 0x108 then s.writeFqctl t v
  else if off = 0x118 then s.modTen t (fun x => { x with fqcons := v.setWidth 32 })
  else if off = 0x120 then s.writeReplay t v
  else if off = 0x138 then s.modTen t (fun x => { x with ptroot := keep v 16 44 })
  else if off = 0x140 then outState s (execRvk t v s)
  else if off = 0x148 then s.modTen t (fun x => { x with snpbase := keep v 12 40 })
  else if off = 0x150 then s.writeSnpctl t v
  else if off = 0x180 then s.modTen t (fun x => { x with rtbase := keep v 14 38 })
  else if off = 0x188 then s.writeRgcmd t v
  else if off = 0x1A0 then s.modTen t (fun x => { x with rcaddr := keep v 16 36 })
  else if off = 0x1A8 then s.modTen t (fun x => { x with rclen := v.setWidth 32 })
  else if off = 0x1B0 then outState s (execReclass t (v.setWidth 2) s)
  else if off = 0x1C0 then s.modTen t (fun x => { x with pincfg := bits v.toNat 0 4 })
  else if h : 0x300 ≤ off ∧ off < 0x380 then s.writeChain t ⟨(off - 0x300) / 16, by omega⟩ (bit off 3) v
  else s

/-- A write to a register of the physical function. -/
def State.pfWrite (s : State) (off : Nat) (v : DWord) : State :=
  let odd := bit off 3
  if 0x800 ≤ off ∧ off < 0x910 then
    (let t := (off - 0x800) / 16
     if odd then s.modTen t (fun x => { x with pinlim := bits v.toNat 0 12 }) else outState s (execWayMaskWrite t v s))
  else if 0xA00 ≤ off ∧ off < 0xAC0 then
    s.modPkg (fun g => { g with hbm := Map.put g.hbm ((off - 0xA00) / 8) { s.stack ((off - 0xA00) / 8) with idle := bits v.toNat 0 10 } })
  else if off = 0xAC0 then outState s (execThcfgWrite v s)
  else if off = 0xC20 then s.modPkg (fun g => { g with wintab := keep v 12 48 })
  else if off = 0xC28 then outState s (execWindowLoad (bits v.toNat 0 5) s)
  else if off = 0xC50 then s.modPkg (fun g => { g with errctl := keep v 0 8 })
  else if off = 0xC58 then s.modPkg (fun g => { g with pwrcap := keep v 0 12 })
  else if off = 0xD98 then s.modPkg (fun g => { g with fabcfg := v &&& 0xFFF1F })
  else if 0xE00 ≤ off ∧ off < 0xF10 then
    (let t := (off - 0xE00) / 16
     if odd then outState s (execTpolWrite t v s) else outState s (execTpartWrite t v s))
  else if 0x1000 ≤ off ∧ off < 0x2000 then
    s.modPkg (fun g => { g with
      route := Map.put (Map.put g.route ((off - 0x1000) / 4) (v.setWidth 18)) ((off - 0x1000) / 4 + 1) ((v >>> 32).setWidth 18) })
  else s

/-- A write to a dword of a function's control page; read-only and reserved offsets ignore it. -/
def State.regWrite (s : State) (fn off : Nat) (v : DWord) : State :=
  if off < 0x800 then s.tenWrite fn off v else if fn = 0 then s.pfWrite off v else s

/-- REGISTER_WRITE: a write that port 0 carries (R332). -/
def execRegisterWrite (fn off : Nat) (v : DWord) (s : State) : Out :=
  if 17 ≤ fn || !s.portOpen 0 then .next s else .next (s.regWrite fn (off / 8 * 8) v)

/-- Bytes of BAR0 of a function (R324). -/
def barBytes (fn : Nat) : Nat := if fn = 0 then 0x2000 else if fn < 17 then 0x1000 else 0

/-- BAR_ACCESS: a naturally aligned access of 4 or 8 bytes; any other completes with no effect and reads all ones. A write of
4 bytes leaves the other half of the register as it reads; one to the reserved half of a command register is ignored. Port 0 must carry it (R332). -/
def execBarAccess (fn off size : Nat) (write : Bool) (v : DWord) (s : State) : Out :=
  if !s.portOpen 0 then .next s
  else if barBytes fn ≤ off then .next (s.answer .unsupported [])
  else if (size ≠ 4 ∧ size ≠ 8) ∨ off % size ≠ 0 then .next (s.answer .done (List.replicate size 255))
  else
    let at_ := off / 8 * 8
    let old := (s.regRead fn at_).toNat
    if write && size == 4 && off % 8 == 4 && [0x188, 0x1B0, 0xC28].contains at_ then .next (s.answer .done [])
    else if write then
      let new := if size = 8 then v.toNat else if off % 8 = 0 then setBits old 0 32 v.toNat else setBits old 32 32 v.toNat
      .next ((s.regWrite fn at_ (BitVec.ofNat 64 new)).answer .done [])
    else .next (s.answer .done (leBytes size (if off % 8 = 0 then old else old / 2 ^ 32)))

end Sys2Proof.Machine
end

