-- ==== Sys2Proof/Machine/Dispatch.lean ====
section
/-! DEFINITION. One arm for every instruction, command, step and event of the opcode table: a direct call of its meaning. -/
namespace Sys2Proof.Machine

/-- The meaning of an instruction. -/
def exec (i : Instr) (s : State) : Host.Outcome State Fault Refusal :=
  match i with
  | .nop => Sys2Proof.Machine.execNop s
  | .br o => Sys2Proof.Machine.execBr o s
  | .brc sense o => Sys2Proof.Machine.execBrc sense o s
  | .loop lc o => Sys2Proof.Machine.execLoop lc o s
  | .lcset lc o => Sys2Proof.Machine.execLcset lc o s
  | .call o => Sys2Proof.Machine.execCall o s
  | .ret => Sys2Proof.Machine.execRet s
  | .jmp bias => Sys2Proof.Machine.execJmp bias s
  | .endIter => Sys2Proof.Machine.execEndIter s
  | .bar r => Sys2Proof.Machine.execBar r s
  | .bara r => Sys2Proof.Machine.execBara r s
  | .barw r => Sys2Proof.Machine.execBarw r s
  | .barcfg r count => Sys2Proof.Machine.execBarcfg r count s
  | .barrot st => Sys2Proof.Machine.execBarrot st s
  | .fence sc kinds => Sys2Proof.Machine.execFence sc kinds s
  | .waitev ev thr => Sys2Proof.Machine.execWaitev ev thr s
  | .evclr ev => Sys2Proof.Machine.execEvclr ev s
  | .launch sc off => Sys2Proof.Machine.execLaunch sc off s
  | .yieldTurn => Sys2Proof.Machine.execYieldTurn s
  | .trap code => Sys2Proof.Machine.execTrap code s
  | .sleep cycles => Sys2Proof.Machine.execSleep cycles s
  | .halt code => Sys2Proof.Machine.execHalt code s
  | .ld o => Sys2Proof.Machine.execLd o s
  | .ldx o => Sys2Proof.Machine.execLdx o s
  | .lds tk dst sn => Sys2Proof.Machine.execLds tk dst sn s
  | .sa o => Sys2Proof.Machine.execSa o s
  | .sax o => Sys2Proof.Machine.execSax o s
  | .pft o => Sys2Proof.Machine.execPft o s
  | .xlt tk h ra => Sys2Proof.Machine.execXlt tk h ra s
  | .hdrop tk h => Sys2Proof.Machine.execHdrop tk h s
  | .hqry tk dst h => Sys2Proof.Machine.execHqry tk dst h s
  | .sbind tk sn ra rs cnt sz => Sys2Proof.Machine.execSbind tk sn ra rs cnt sz s
  | .sskip tk sn cnt => Sys2Proof.Machine.execSskip tk sn cnt s
  | .sfree tk sn => Sys2Proof.Machine.execSfree tk sn s
  | .pdbind tk pd rs rg lines => Sys2Proof.Machine.execPdbind tk pd rs rg lines s
  | .pdflush tk pd => Sys2Proof.Machine.execPdflush tk pd s
  | .pdunbind tk pd => Sys2Proof.Machine.execPdunbind tk pd s
  | .feset tk n base off => Sys2Proof.Machine.execFeset tk n base off s
  | .feclr tk n base off => Sys2Proof.Machine.execFeclr tk n base off s
  | .fetest tk dst base off => Sys2Proof.Machine.execFetest tk dst base off s
  | .tkw tk eng cnt => Sys2Proof.Machine.execTkw tk eng cnt s
  | .adda o => Sys2Proof.Machine.execAdda o s
  | .suba o => Sys2Proof.Machine.execSuba o s
  | .mula o => Sys2Proof.Machine.execMula o s
  | .mada o => Sys2Proof.Machine.execMada o s
  | .shla o => Sys2Proof.Machine.execShla o s
  | .shra o => Sys2Proof.Machine.execShra o s
  | .anda o => Sys2Proof.Machine.execAnda o s
  | .ora o => Sys2Proof.Machine.execOra o s
  | .xora o => Sys2Proof.Machine.execXora o s
  | .mina o => Sys2Proof.Machine.execMina o s
  | .maxa o => Sys2Proof.Machine.execMaxa o s
  | .lia o => Sys2Proof.Machine.execLia o s
  | .liha o => Sys2Proof.Machine.execLiha o s
  | .mova o => Sys2Proof.Machine.execMova o s
  | .ctlr tk dst ix => Sys2Proof.Machine.execCtlr tk dst ix s
  | .ctlw tk ix src => Sys2Proof.Machine.execCtlw tk ix src s
  | .fadd o => Sys2Proof.Machine.execFadd o s
  | .fsub o => Sys2Proof.Machine.execFsub o s
  | .fmul o => Sys2Proof.Machine.execFmul o s
  | .fma o => Sys2Proof.Machine.execFma o s
  | .fnma o => Sys2Proof.Machine.execFnma o s
  | .fmin o => Sys2Proof.Machine.execFmin o s
  | .fmax o => Sys2Proof.Machine.execFmax o s
  | .fsgn o => Sys2Proof.Machine.execFsgn o s
  | .fcmp o => Sys2Proof.Machine.execFcmp o s
  | .frcp o => Sys2Proof.Machine.execFrcp o s
  | .frsq o => Sys2Proof.Machine.execFrsq o s
  | .fsqrt o => Sys2Proof.Machine.execFsqrt o s
  | .fexp2 o => Sys2Proof.Machine.execFexp2 o s
  | .flog2 o => Sys2Proof.Machine.execFlog2 o s
  | .fcvt o => Sys2Proof.Machine.execFcvt o s
  | .frnd o => Sys2Proof.Machine.execFrnd o s
  | .iadd o => Sys2Proof.Machine.execIadd o s
  | .isub o => Sys2Proof.Machine.execIsub o s
  | .imul o => Sys2Proof.Machine.execImul o s
  | .imulh o => Sys2Proof.Machine.execImulh o s
  | .imad o => Sys2Proof.Machine.execImad o s
  | .imin o => Sys2Proof.Machine.execImin o s
  | .imax o => Sys2Proof.Machine.execImax o s
  | .iabs o => Sys2Proof.Machine.execIabs o s
  | .ishl o => Sys2Proof.Machine.execIshl o s
  | .ishr o => Sys2Proof.Machine.execIshr o s
  | .and o => Sys2Proof.Machine.execAnd o s
  | .or o => Sys2Proof.Machine.execOr o s
  | .xor o => Sys2Proof.Machine.execXor o s
  | .andn o => Sys2Proof.Machine.execAndn o s
  | .popc o => Sys2Proof.Machine.execPopc o s
  | .clz o => Sys2Proof.Machine.execClz o s
  | .icmp o => Sys2Proof.Machine.execIcmp o s
  | .qmul o => Sys2Proof.Machine.execQmul o s
  | .qmad o => Sys2Proof.Machine.execQmad o s
  | .bpack o => Sys2Proof.Machine.execBpack o s
  | .bunpk o => Sys2Proof.Machine.execBunpk o s
  | .mov o => Sys2Proof.Machine.execMov o s
  | .sel o => Sys2Proof.Machine.execSel o s
  | .shfl o => Sys2Proof.Machine.execShfl o s
  | .bcast o => Sys2Proof.Machine.execBcast o s
  | .slide o => Sys2Proof.Machine.execSlide o s
  | .ins o => Sys2Proof.Machine.execIns o s
  | .ext o => Sys2Proof.Machine.execExt o s
  | .rsum o => Sys2Proof.Machine.execRsum o s
  | .rmax o => Sys2Proof.Machine.execRmax o s
  | .rmin o => Sys2Proof.Machine.execRmin o s
  | .scan o => Sys2Proof.Machine.execScan o s
  | .plog o => Sys2Proof.Machine.execPlog o s
  | .pset o => Sys2Proof.Machine.execPset o s
  | .pcnt o => Sys2Proof.Machine.execPcnt o s
  | .accrd o => Sys2Proof.Machine.execAccrd o s
  | .flgrd o => Sys2Proof.Machine.execFlgrd o s
  | .flgclr o => Sys2Proof.Machine.execFlgclr o s
  | .st o => Sys2Proof.Machine.execSt o s
  | .stf o => Sys2Proof.Machine.execStf o s
  | .stx o => Sys2Proof.Machine.execStx o s
  | .red o => Sys2Proof.Machine.execRed o s
  | .smp o => Sys2Proof.Machine.execSmp o s
  | .tick tk ev sc rg => Sys2Proof.Machine.execTick tk ev sc rg s
  | .enq tk eng cnt => Sys2Proof.Machine.execEnq tk eng cnt s
  | .enqm tk eng cnt => Sys2Proof.Machine.execEnqm tk eng cnt s
  | .fmtq tk imm => Sys2Proof.Machine.execFmtq tk imm s
  | .tks tk eng cnt => Sys2Proof.Machine.execTks tk eng cnt s
  | .mma hd t kb e0 e1 => Sys2Proof.Machine.execMma hd t kb e0 e1 s
  | .drain hd t za dst exp => Sys2Proof.Machine.execDrain hd t za dst exp s
  | .accld hd t src => Sys2Proof.Machine.execAccld hd t src s
  | .accz hd t => Sys2Proof.Machine.execAccz hd t s
  | .wbld hd off len src => Sys2Proof.Machine.execWbld hd off len src s
  | .copy hd len src dst => Sys2Proof.Machine.execCopy hd len src dst s
  | .copyn hd esz ndim x => Sys2Proof.Machine.execCopyn hd esz ndim x s
  | .fill hd len dst pat => Sys2Proof.Machine.execFill hd len dst pat s
  | .acw hd aop cs len src dst => Sys2Proof.Machine.execAcw hd aop cs len src dst s
  | .amo hd aop d tgt operand comparand => Sys2Proof.Machine.execAmo hd aop d tgt operand comparand s
  | .pftt hd len bo addr bar => Sys2Proof.Machine.execPftt hd len bo addr bar s
  | .pin hd win units base => Sys2Proof.Machine.execPin hd win units base s
  | .unpin hd win => Sys2Proof.Machine.execUnpin hd win s
  | .mrgSet hd g tgt target lim counter => Sys2Proof.Machine.execMrgSet hd g tgt target lim counter s
  | .mrgOpen hd g contrib seq tiles bt => Sys2Proof.Machine.execMrgOpen hd g contrib seq tiles bt s
  | .bayGrant die => Sys2Proof.Machine.execBayGrant die s
  | .mrgDep hd tile src => Sys2Proof.Machine.execMrgDep hd tile src s
  | .mrgClose hd ev even => Sys2Proof.Machine.execMrgClose hd ev even s
  | .lotAbandon k => Sys2Proof.Machine.execLotAbandon k s
  | .flag hd d sys tgt val => Sys2Proof.Machine.execFlag hd d sys tgt val s
  | .resume hd rec => Sys2Proof.Machine.execResume hd rec s
  | .gath hd n rw out idx base stride dst => Sys2Proof.Machine.execGath hd n rw out idx base stride dst s
  | .scat hd n rw idx base stride src => Sys2Proof.Machine.execScat hd n rw idx base stride src s
  | .scata hd n rw aop idx base stride src => Sys2Proof.Machine.execScata hd n rw aop idx base stride src s
  | .embag hd nb rw idx base stride offs dst => Sys2Proof.Machine.execEmbag hd nb rw idx base stride offs dst s
  | .run hd out x => Sys2Proof.Machine.execRun hd out x s
  | .send o => Sys2Proof.Machine.execSend o s
  | .recv o => Sys2Proof.Machine.execRecv o s
  | .rrs o rop => Sys2Proof.Machine.execRrs o rop s
  | .rrw o rop dbf df rm ext1 => Sys2Proof.Machine.execRrw o rop dbf df rm ext1 s
  | .rcpy o => Sys2Proof.Machine.execRcpy o s
  | .kWait => Sys2Proof.Machine.execKWait s
  | .kLoop kc ext => Sys2Proof.Machine.execKLoop kc ext s
  | .peer recv sk kc delta stride => Sys2Proof.Machine.execPeer recv sk kc delta stride s
  | .barc => Sys2Proof.Machine.execBarc s
  | .endp => Sys2Proof.Machine.execEndp s
  | .notify hd ev part => Sys2Proof.Machine.execNotify hd ev part s
  | .engineNop hd => Sys2Proof.Machine.execEngineNop hd s
  | .arrayLeaseTurn core => Sys2Proof.Machine.execArrayLeaseTurn core s
  | .translationComplete k h => Sys2Proof.Machine.execTranslationComplete k h s
  | .sleepExpire k => Sys2Proof.Machine.execSleepExpire k s
  | .watchdog k unit => Sys2Proof.Machine.execWatchdog k unit s
  | .ptsAdvance k => Sys2Proof.Machine.execPtsAdvance k s
  | .clockCatchup => Sys2Proof.Machine.execClockCatchup s
  | .readLeaseExpiry core line => Sys2Proof.Machine.execReadLeaseExpiry core line s
  | .faultRecordWrite ten => Sys2Proof.Machine.execFaultRecordWrite ten s
  | .replayRetry ten seq one => Sys2Proof.Machine.execReplayRetry ten seq one s
  | .replaySkip ten seq one => Sys2Proof.Machine.execReplaySkip ten seq one s
  | .replayKill ten seq one => Sys2Proof.Machine.execReplayKill ten seq one s
  | .droveValidate d => Sys2Proof.Machine.execDroveValidate d s
  | .droveWaitMet d => Sys2Proof.Machine.execDroveWaitMet d s
  | .iterationHandout d strand => Sys2Proof.Machine.execIterationHandout d strand s
  | .preempt strand => Sys2Proof.Machine.execPreempt strand s
  | .partitionResume strand => Sys2Proof.Machine.execPartitionResume strand s
  | .planeDiffRecord core part off data d => Sys2Proof.Machine.execPlaneDiffRecord core part off data d s
  | .planeSwap core part d => Sys2Proof.Machine.execPlaneSwap core part d s
  | .droveComplete d => Sys2Proof.Machine.execDroveComplete d s
  | .chainFollow ten c => Sys2Proof.Machine.execChainFollow ten c s
  | .tickSweep chan => Sys2Proof.Machine.execTickSweep chan s
  | .sampleAccumulate ten rg cell x => Sys2Proof.Machine.execSampleAccumulate ten rg cell x s
  | .autoSatnRewrite ten rg => Sys2Proof.Machine.execAutoSatnRewrite ten rg s
  | .regionRegister ten rg => Sys2Proof.Machine.execRegionRegister ten rg s
  | .regionCoef ten rg => Sys2Proof.Machine.execRegionCoef ten rg s
  | .regionRetire ten rg => Sys2Proof.Machine.execRegionRetire ten rg s
  | .regionCommandDone ten => Sys2Proof.Machine.execRegionCommandDone ten s
  | .homeRequest r => Sys2Proof.Machine.execHomeRequest r s
  | .reclass ten cl => Sys2Proof.Machine.execReclass ten cl s
  | .reclassComplete ten => Sys2Proof.Machine.execReclassComplete ten s
  | .pinFadePeriod ten => Sys2Proof.Machine.execPinFadePeriod ten s
  | .wayMaskWrite ten v => Sys2Proof.Machine.execWayMaskWrite ten v s
  | .wayMaskComplete => Sys2Proof.Machine.execWayMaskComplete s
  | .thermalSample rs => Sys2Proof.Machine.execThermalSample rs s
  | .thcfgWrite v => Sys2Proof.Machine.execThcfgWrite v s
  | .bankIdlePrecharge chan bank queued => Sys2Proof.Machine.execBankIdlePrecharge chan bank queued s
  | .forecastUpdate => Sys2Proof.Machine.execForecastUpdate s
  | .llynedFlitReceive port seq m => Sys2Proof.Machine.execLlynedFlitReceive port seq m s
  | .llynedReplayRequest port seq => Sys2Proof.Machine.execLlynedReplayRequest port seq s
  | .portDown port => Sys2Proof.Machine.execPortDown port s
  | .portUp port nbr => Sys2Proof.Machine.execPortUp port nbr s
  | .remoteRequest r => Sys2Proof.Machine.execRemoteRequest r s
  | .remoteResponse who a => Sys2Proof.Machine.execRemoteResponse who a s
  | .fabricTimeout who => Sys2Proof.Machine.execFabricTimeout who s
  | .podBarrierArrival ten obj src tag => Sys2Proof.Machine.execPodBarrierArrival ten obj src tag s
  | .podBarrierRelease ten obj => Sys2Proof.Machine.execPodBarrierRelease ten obj s
  | .shepherdDataFlit ten cid src seq data => Sys2Proof.Machine.execShepherdDataFlit ten cid src seq data s
  | .collectiveAbort ten cid src => Sys2Proof.Machine.execCollectiveAbort ten cid src s
  | .memrd pa => Sys2Proof.Machine.execMemrd pa s
  | .memwr pa data => Sys2Proof.Machine.execMemwr pa data s
  | .birsp who data => Sys2Proof.Machine.execBirsp who data s
  | .biconflict who op => Sys2Proof.Machine.execBiconflict who op s
  | .snpdata line => Sys2Proof.Machine.execSnpdata line s
  | .snpinv line => Sys2Proof.Machine.execSnpinv line s
  | .snpcur line => Sys2Proof.Machine.execSnpcur line s
  | .hostCacheResponse who excl => Sys2Proof.Machine.execHostCacheResponse who excl s
  | .barAccess fn off size write v => Sys2Proof.Machine.execBarAccess fn off size write v s
  | .doeDiscovery fn ix => Sys2Proof.Machine.execDoeDiscovery fn ix s
  | .spdmRequest fn code => Sys2Proof.Machine.execSpdmRequest fn code s
  | .getMeasurements fn ix => Sys2Proof.Machine.execGetMeasurements fn ix s
  | .ideKm port key => Sys2Proof.Machine.execIdeKm port key s
  | .ideIntegrityFail port => Sys2Proof.Machine.execIdeIntegrityFail port s
  | .tpartWrite t v => Sys2Proof.Machine.execTpartWrite t v s
  | .tpolWrite t v => Sys2Proof.Machine.execTpolWrite t v s
  | .windowLoad t => Sys2Proof.Machine.execWindowLoad t s
  | .windowLoadComplete => Sys2Proof.Machine.execWindowLoadComplete s
  | .rvk ten va => Sys2Proof.Machine.execRvk ten va s
  | .chainEnable ten c => Sys2Proof.Machine.execChainEnable ten c s
  | .snapshotRequest ten => Sys2Proof.Machine.execSnapshotRequest ten s
  | .meterSnapshot ten => Sys2Proof.Machine.execMeterSnapshot ten s
  | .pinbAccumulate ten => Sys2Proof.Machine.execPinbAccumulate ten s
  | .powerCapThrottle watts => Sys2Proof.Machine.execPowerCapThrottle watts s
  | .coldBoot x => Sys2Proof.Machine.execColdBoot x s
  | .bootStageTimeout stage => Sys2Proof.Machine.execBootStageTimeout stage s
  | .bootWatchdog => Sys2Proof.Machine.execBootWatchdog s
  | .bootctlRetry x => Sys2Proof.Machine.execBootctlRetry x s
  | .registerWrite fn off v => Sys2Proof.Machine.execRegisterWrite fn off v s
  | .illegalInstruction w => Sys2Proof.Machine.execIllegalInstruction w s
  | .unassignedCommandCode w => Sys2Proof.Machine.execUnassignedCommandCode w s
  | .cxlPortDown => Sys2Proof.Machine.execCxlPortDown s
  | .cxlPortUp => Sys2Proof.Machine.execCxlPortUp s
  | .refresh chan banks => Sys2Proof.Machine.execRefresh chan banks s
  | .modulePowerRemoved => Sys2Proof.Machine.execModulePowerRemoved s
  | .revocationComplete ten => Sys2Proof.Machine.execRevocationComplete ten s

end Sys2Proof.Machine
end

