-- ==== Sys2Proof/Machine/Issue.lean ====
section
/-! DEFINITION. What brings an instruction to its meaning: the front end's fetch (R33, R65, R91), a unit's next instruction (R18),
and an engine's next command (R30, R51, R173). Each answers the state and the instruction to run in it, if there is one. -/
namespace Sys2Proof.Machine

/-! ### Fetch -/

/-- Does the front end of a copy issue? Its strand is in an iteration, not frozen, not asleep, and no unit of it is stopped (R205). -/
def State.issues (s : State) (k : Nat) : Bool :=
  let p := s.part k
  p.inIter && !p.frozen && p.sleeping.isNone && !(upto 4).any (fun u => s.stopped (k * 8 + u))

/-- A fault of the front end at the instruction's address; where no word could be fetched, INFO is 0 (notes/assumptions/33.md). -/
def State.fetchFault (s : State) (k : Nat) (f : FInfo) (w : DWord) : State :=
  s.takeFault (k * 8) f (s.part k).pc.toNat w [] false

/-- Lines an L1I holds (R2): 64 KiB. -/
def l1iLines : Nat := 1024

/-- Key of a code line in the L1I. -/
def codeKey (hh : Bool) (pa : Nat) : Nat := 2 * (pa / 64) + b2n hh

/-- The word at a physical address that the L1I of a core still holds for a strand, within its lease, and no longer after the fill than a store may take to be
fetched (R218, R264). -/
def State.l1iWord (s : State) (k : Nat) (hh : Bool) (pa : Nat) : Option DWord :=
  let pts := (s.part k).pts
  match Map.find? (s.core (coreOf k)).l1i (codeKey hh pa) with
  | some (lease, at_, bs) =>
    if serialLe pts lease && decide (s.cycle ≤ at_ + 64 * (s.leaseLen (coreOf k) (isU k) + 1)) then
      some (BitVec.ofNat 64 (leVal ((bs.drop (pa % 64)).take 8)))
    else none
  | none => none

/-- The L1I takes a code line under a lease from the reader's clock (R264). -/
def State.takeCode (s : State) (k : Nat) (hh : Bool) (pa : Nat) : State :=
  let lease := (s.part k).pts + BitVec.ofNat 48 (s.leaseLen (coreOf k) (isU k))
  s.modCore (coreOf k) (fun c =>
    let m := if c.l1i.length < l1iLines then c.l1i else c.l1i.drop 1
    { c with l1i := Map.put m (codeKey hh pa) (lease, s.cycle, s.bytesAt (spaceOf hh) (pa / 64 * 64) 64) })

/-- The word at pc: translated, executable, and there (R91, R354), or as the L1I still holds it (R264). Its traffic counts (R342). One in a range being reclassed
stalls, and so does one of a tenant that loads windows (R260, R338). -/
def State.fetchWord (s : State) (k : Nat) : Eff DWord :=
  let t := s.tenOf (coreOf k)
  let va := (s.part k).pc.toNat
  let who := fetchReq k
  ((s.walk1 who t va).eff.bind (fun _ s =>
    match s.xlate t va with
    | none => .fault (.at cTranslation va 2) s
    | some p =>
      let x : Stretch := ⟨p, va, 8⟩
      if s.heldBack t x then .wait 7 s
      else if !p.x then .fault (.at cProtection va 2) s
      else
        match s.l1iWord k p.hh (p.pa va) with
        | some w => .ok w s
        | none =>
          (s.gate who t [x] []).eff.bind (fun _ s =>
            .ok (BitVec.ofNat 64 (s.valAt (spaceOf p.hh) (p.pa va) 8)) (((s.touchLeaf p false).meterMem t x false).takeCode k p.hh (p.pa va))))).endWalk who

/-- The context of an instruction of the front end. -/
def State.atFetch (s : State) (k : Nat) (w : DWord) : State :=
  { s with ctx := ⟨k, (s.part k).seq, (s.part k).pc, w, false, 0, false, 0, none, none⟩ }

/-- The front end's next instruction. A strand whose gang has stopped leaves its iteration; one that has yielded loses this round; a word
with a reserved field is RESERVED_FIELD at its place (R35), and a fault of its fetch is one (R91), once every older instruction is complete (R65). -/
def State.fetchNext (s : State) (k : Nat) : State × Option Instr :=
  if !s.issues k then (s, none)
  else if (s.part k).ending then (s.endStopped k, none)
  else if (s.part k).yielded then (s.modPart k (fun p => { p with yielded := false }), none)
  else
    match s.fetchWord k with
    | .wait _ s => (s, none)
    | .fault f t =>
      let s := s.payAll k
      (if (s.part k).quiet then t.fetchFault k f 0 else s, none)
    | .ok w s =>
      match decode w with
      | .ok i => (s.atFetch k w, some i)
      | .error _ =>
        let s := s.payAll k
        (if (s.part k).quiet then s.fetchFault k (.of cReserved 0) w else s, none)

/-! ### Units -/

/-- The next instruction of a unit of a copy: its oldest routed one. A frozen partition's and a stopped unit's wait in place. -/
def State.unitNext (s : State) (k u : Nat) : State × Option Instr :=
  let p := s.part k
  if u = 0 ∨ p.frozen = true ∨ s.stopped (k * 8 + u) = true then (s, none)
  else
    match p.pend u with
    | [] => (s.modPart k (·.payOwed u), none)
    | r :: rest => ({ s with ctx := ⟨k, r.seq, r.pc, r.word, true, 0, u == 3 && rest.any (fun x => decide (x.seq < r.seq)), 0, none, none⟩ }, some r.instr)

/-- Is nothing begun of what stands at the head of S? -/
def State.restsS (s : State) (k : Nat) : Bool :=
  let p := s.part k
  (Map.find? p.flight 3).isNone && (Map.find? s.reqs (k * 8 + 3)).isNone && p.owed.all (fun e => e.1 == 1 || e.1 == 2 || e.1 == startKey 1 || e.1 == startKey 2 || e.2 == 0)
    && (Map.find? p.tail 3).isNone && (Map.find? p.soft 3).isNone

/-- The unit tokens that an instruction of S pops and pushes (R19). -/
def tokensS : Instr → Nat
  | .st o => o.tk.code | .stf o => o.tk.code | .stx o => o.tk.code | .red o => o.tk.code | .smp o => o.tk.code
  | .enq tk _ _ => tk.code | .enqm tk _ _ => tk.code | .fmtq tk _ => tk.code | .tks tk _ _ => tk.code | .tick tk _ _ _ => tk.code
  | _ => 0

/-- May an instruction of S go before all that wait before it (R226, R230): nothing of them is begun, they are plain accesses of host memory, or the two
touch no byte in common and one of them lies there; it pushes and pops no token, and asks nothing of another package, whose requests keep their ids
(notes/assumptions/17.md). -/
def State.mayPass (s : State) (k : Nat) (r : Routed) : Bool :=
  let x : Option Span := if popsAq r.instr then s.storeSpan k r else some (h0Page, [])
  s.restsS k && !sysOf r.instr && tokensS r.instr == 0
    && (match x with
      | none => false
      | some x => (x.1.ps == 3 || x.1.hh || x.2.all (fun y => s.ours (x.1.pa y.1)))
          && (s.part k).pendS.all (fun y => decide (r.seq ≤ y.seq) || (isAccess y.instr && (match s.storeSpan k y with
            | some z => s.free2 k x z
            | none => false))))

/-- An instruction of S that waits behind others is tried before them. -/
def State.passNext (s : State) (k j : Nat) : State × Option Instr :=
  match (s.part k).pendS[j]? with
  | none => (s, none)
  | some r =>
    if j = 0 ∨ (s.part k).frozen = true ∨ s.stopped (k * 8 + 3) = true ∨ s.mayPass k r = false then (s, none) else (s.modPart k (·.hoist j)).unitNext k 3

/-! ### Engines -/

/-- Is the LEN of a copy-engine word a multiple of 4 (R186)? COPY, FILL and PFTT hold it from bit 0, ACW from bit 6. -/
def lenTaken (e : Nat) (w : DWord) : Bool :=
  let code := bits w.toNat 42 6
  if e ≠ 1 then true
  else if code = 1 ∨ code = 3 ∨ code = 6 then bits w.toNat 0 2 == 0
  else if code = 4 then bits w.toNat 6 2 == 0
  else true

/-- The context of a command. -/
def State.atCmd (s : State) (k e : Nat) (w : DWord) : State := { s with ctx := ⟨k, 0, 0, w, false, e, false, 0, none, none⟩ }

/-- Take a command word: its code, its WAIT and SIGNAL bytes, its reserved bits and its LEN are checked (R51, R186). A fault on taking it records the extension
words that have arrived with it (R203). -/
def State.takeCmd (s : State) (k e : Nat) : State × Option Instr :=
  let g := (s.part k).ring e
  let w := s.ringWord k e g.cons
  let c : Cur := ⟨g.cons, w, 0, [], false, 0, 0, none, (s.part k).drove, (s.part k).iter, [], [], [], []⟩
  let s := s.atCmd k e w
  match cmdExt e (bits w.toNat 42 6) with
  | none => (s.modRing k e (fun g => { g with cons := g.cons + 1, cur := some c }), some (.unassignedCommandCode w))
  | some n =>
    let s := s.modRing k e (fun g => { g with cons := g.cons + 1, cur := some { c with need := n } })
    if cmdHeadOk e w && lenTaken e w then (s, none)
    else
      let xs := ((s.unfetched k e).take n).map (·.2)
      ((s.modCur k e (fun c => { c with ext := xs })).engineFault k e (.of cEngine 0) true, none)

/-- Take extension words that have arrived (R30). -/
def State.takeExt (s : State) (k e : Nat) (c : Cur) : State :=
  let g := (s.part k).ring e
  let n := min c.need (g.prod - g.cons)
  let ws := (upto n).map (fun i => s.ringWord k e (g.cons + i))
  s.modRing k e (fun g => { g with cons := g.cons + n, cur := some { c with need := c.need - n, ext := c.ext ++ ws } })

/-- A ring goes on with another of its commands: the one set aside comes into execution. -/
def Ring.turnTo (g : Ring) (p : Cur → Bool) : Ring :=
  match g.more.find? p with
  | .none => g
  | some d => { g with cur := some d, more := (g.more.filter (fun c => c.idx != d.idx)) ++ g.cur.toList }

/-- The command in execution of a ring: its extension words, then itself. A ring stopped at a fault takes no further word and starts no command (R177). -/
def State.runCur (s : State) (k e : Nat) (c : Cur) : State × Option Instr :=
  if s.stopped (k * 8 + 4 + e) && !c.started then (s.modRing k e (·.turnTo Cur.started), none)
  else if c.need ≠ 0 then (s.takeExt k e c, none)
  else
    let s := s.atCmd k e c.word
    match decodeCommand e (c.word :: c.ext) with
    | .ok i => (s, some i)
    | .error _ => (s.engineFault k e (.of cEngine 0) false, none)

/-- The next thing an engine does for a ring: signal tokens still to push, at which the whole engine stalls (R173); the command in execution, one set aside, or
the next word. One at a reached NOTIFY does nothing, and no new word is fetched from a frozen partition's ring or a stopped one (R177, R198, R210). -/
def State.engineNext (s : State) (k e : Nat) : State × Option Instr :=
  let g := (s.part k).ring e
  match g.sig with
  | some (d, n, it) =>
    let (s, left) := s.pushSig k e d n it
    (s.modRing k e (fun g => { g with sig := if left = 0 then none else some (d, left, it) }), none)
  | none =>
    if g.hold.isSome || s.sigStalls (coreOf k) e then (s, none)
    else
      match g.cur with
      | some c => s.runCur k e c
      | none =>
        if !g.more.isEmpty then (s.modRing k e (·.turnTo (fun c => c.started || !s.stopped (k * 8 + 4 + e))), none)
        else if g.cons < g.prod && !(s.part k).frozen && !s.stopped (k * 8 + 4 + e) then s.takeCmd k e
        else (s, none)

/-- May the command of a ring be set aside while another of the ring goes on (R174)? One of the copy or gather engine with no exchange open, and no signal token of
the engine waits for room (R173). -/
def State.maySwitch (s : State) (k e : Nat) : Bool :=
  (e == 1 || e == 2) && (Map.find? s.reqs (k * 8 + 4 + e)).isNone && !s.stopped (k * 8 + 4 + e)
    && !s.sigStalls (coreOf k) e && ((s.part k).ring e).hold.isNone

/-- May a further word of the ring be taken while this command is set aside? Not behind one that the next may depend on: a merge command, a RESUME or a
NOTIFY. -/
def Cur.letsBy (e : Nat) (c : Cur) : Bool :=
  let code := bits c.word.toNat 42 6
  c.started && !(e == 1 && decide (9 ≤ code) && decide (code ≤ 12)) && code != 14 && decide (code < 0x3E)

/-- An engine sets the command of a ring aside: it takes the ring's next word, where all taken before have started, or goes on with one set aside before. -/
def State.switchNext (s : State) (k e : Nat) (fresh : Bool) : State × Option Instr :=
  let g := (s.part k).ring e
  match g.cur with
  | none => (s, none)
  | some c =>
    if !s.maySwitch k e then (s, none)
    else if fresh then
      if c.letsBy e && g.more.all (Cur.letsBy e) && decide (g.cons < g.prod) && !(s.part k).frozen then
        (s.modRing k e (fun g => { g with cur := none, more := g.more ++ [c] })).takeCmd k e
      else (s, none)
    else (s.modRing k e (·.turnTo (fun _ => true)), none)

/-- The command in execution of a ring performs an element ahead of those before it (R221), where nothing of the element at its turn is begun. -/
def State.pickNext (s : State) (k e i : Nat) : State × Option Instr :=
  match ((s.part k).ring e).cur with
  | none => (s, none)
  | some c =>
    if !s.maySwitch k e || !c.started || !c.seen.isEmpty || s.budget == 0 then (s, none)
    else
      match s.runCur k e c with
      | (s, some x) => ({ s with ctx := { s.ctx with pick := some i } }, some x)
      | x => x

end Sys2Proof.Machine
end

