-- ==== Sys2Proof/Machine/Schedule.lean ====
section
/-! DEFINITION. Who moves next (notes/assumptions/7.md): the agenda, the round of the agents when it is empty, happenings outside, and where an
instruction stands that the next step fetches. -/
namespace Sys2Proof.Machine

/-! ### Happenings outside the opcode table -/

/-- The peers have received what a core's program sent, once none of it stands refused (R312, R313). -/
def State.peersReceived (s : State) (core : Nat) : State :=
  match (s.core core).run with
  | some r =>
    let mine := fun (f : TxFlit) => f.ten == s.runTen r && f.cid == r.cid
    if s.pkg.txHeld.any mine then s
    else (s.setRun core (some { r with unreceived := 0 })).modPkg (fun g => { g with txFlits := g.txFlits.filter (fun f => !mine f) })
  | none => s

/-- A receiver has refused a flit of shepherd data: it stays here (R313). -/
def State.flitRefused (s : State) (i : Nat) : State :=
  match s.pkg.txFlits[i]? with
  | some f => s.modPkg (fun g => { g with txFlits := g.txFlits.eraseIdx i, txHeld := g.txHeld ++ [f] })
  | none => s

/-- There is room again: flits that were refused are sent again, where a port of their route is up (R313). -/
def State.flitRoom (s : State) : State :=
  let go := fun (f : TxFlit) => !(s.upPorts f.dst).isEmpty
  let out := s.pkg.txHeld.filter go
  (out.foldl (fun s f => s.send ⟨f.dst, f.cid, ⟨s.gts, f.msg⟩⟩) s).modPkg (fun g => { g with txFlits := g.txFlits ++ out, txHeld := g.txHeld.filter (fun f => !go f) })

/-- Every rank has reached a program's BARC (R314). -/
def State.peersAtBarc (s : State) (core : Nat) : State :=
  match (s.core core).run with
  | some r => if r.atBarc then s.setRun core (some { r with barcDone := true }) else s
  | none => s

/-- The host writes its own memory (R327): it first takes the line from the RDCs. -/
def State.hostStore (s : State) (pa : Nat) (data : List Byte) : State :=
  if (linesOf pa data.length).any (fun l => (upto 4).any (fun d => (Map.find? s.pkg.rdc (rdcKey d true l)).isSome)) then s
  else ((s.stampAgent true []).unpoison true pa data.length).putBytes .host pa data

/-- System software places a page of the package's memory, whole, on a stack with a channel offset (R236, R278); nothing of it is in a cache then. -/
def State.placePage (s : State) (pa ps : Nat) (p : Place) : State :=
  let n := pageBytes ps
  let base := pa / n * n
  let mine := fun (line : Nat) => decide (base / 64 ≤ line) && decide (line < (base + n) / 64)
  if !s.ours pa || decide (24 ≤ p.stack) || decide (32 ≤ p.c0) then s
  else
    let s := s.flushCopies (fun hh l => !hh && mine l)
    if s.copiesLeft (fun hh l => !hh && mine l) then s
    else
    let s := (s.pkg.l2.filter (fun e => mine e.1)).foldl (fun s e => s.writeDown true e) s
    let s := (s.pkg.msc.filter (fun e => mine e.1)).foldl (fun s e => s.writeDown false e) s
    s.modPkg (fun g => { g with
      l2 := g.l2.filter (fun e => !mine e.1), msc := g.msc.filter (fun e => !mine e.1), dir := g.dir.filter (fun e => !mine (8 * e.1))
      place := (upto (n / 2 ^ 16)).foldl (fun m j => Map.put m (base / 2 ^ 16 + j) p) g.place })

/-- A change of an MSI-X mask: a pending vector is sent when it is unmasked (R330). -/
def State.maskVec (s : State) (fn vec : Nat) (masked : Bool) : State :=
  let i := vec % 64
  let e := Map.get ⟨true, false⟩ (s.ten fn).msix i
  if !masked && e.pending then (s.modTen fn (fun t => { t with msix := Map.put t.msix i ⟨false, false⟩ })).raiseVec fn i
  else s.modTen fn (fun t => { t with msix := Map.put t.msix i ⟨masked, e.pending⟩ })

/-- A function's mask: what waited is sent when it falls. -/
def State.maskFn (s : State) (fn : Nat) (off : Bool) : State :=
  let s := s.modTen fn (fun t => { t with msixOff := off })
  if off then s else s.sendPending fn

/-- A configuration read (R322, R350): the boot registers of the physical function; any other register holds what the spec does not say. -/
def State.configRead (s : State) (fn off : Nat) : State :=
  let sig := emSignature s.pkg.em
  if 18 ≤ fn then s.answer .unsupported []
  else
    s.answer .done (leBytes 4 (
      if fn = 0 ∧ off = 0x40C then s.pkg.bootstat
      else if fn = 0 ∧ off = 0x410 then sig % 2 ^ 32
      else if fn = 0 ∧ off = 0x414 then sig / 2 ^ 32
      else if fn = 0 ∧ off = 0x418 then 0
      else (Config.configSpace fn off s.freeCtr).toNat))

/-- What a happening outside does. A request of the host that uses a feature the ports do not have performs nothing (R322). -/
def State.happen (s : State) : Env → State
  | .softErrorMem line corrected => s.softMem line corrected
  | .softErrorUnit k u queue => s.softUnit k u queue
  | .softErrorSpad core line => s.softSpad core line
  | .softErrorArray core wbuf i => s.softArray core wbuf i
  | .softErrorCache level place line hh corrected => s.softCache level.val place line hh corrected
  | .silentVec k lane x => s.silentVec k lane x
  | .silentCell t rg c i x => s.silentCell t rg c i x
  | .silentReduce j i x => s.silentReduce j i x
  | .silentFlit j i x => s.silentFlit j i x
  | .received core => s.peersReceived core
  | .barcReached core => s.peersAtBarc core
  | .flitRefused i => s.flitRefused i
  | .flitRoom => s.flitRoom
  | .evict level core line => s.evictLine level core line
  | .homeDone line => s.homeDone line
  | .placePage pa ps p => s.placePage pa ps.val p
  | .hostStore pa data => s.hostStore pa data
  | .doeRead fn => s.modPkg (fun g => { g with doe := Map.del g.doe fn })
  | .msixMask fn vec masked => s.maskVec fn vec masked
  | .msixFn fn off => s.maskFn fn off
  | .unsupported mem => if mem then (if s.pkg.minMode then s else s.answer .refused []) else if s.portOpen 0 then s.answer .unsupported [] else s
  | .config fn off => if s.doeOpen fn then s.configRead fn off else s

/-! ### Actions -/

/-- Is a row of the opcode table a message of another package, which comes to the machine in a flit of a link (R303)? -/
def isMessage : Instr → Bool
  | .remoteRequest _ => true
  | .remoteResponse _ _ => true
  | .podBarrierArrival _ _ _ _ => true
  | .podBarrierRelease _ _ => true
  | .shepherdDataFlit _ _ _ _ _ => true
  | .collectiveAbort _ _ _ => true
  | _ => false

/-- Is a row of the opcode table an event of the machine, not an instruction, command, step or message? -/
def isEvent : Instr → Bool
  | .bayGrant _ => true
  | .lotAbandon _ => true
  | .illegalInstruction _ => false
  | .unassignedCommandCode _ => false
  | .arrayLeaseTurn _ => true
  | .translationComplete _ _ => true
  | .sleepExpire _ => true
  | .watchdog _ _ => true
  | .ptsAdvance _ => true
  | .clockCatchup => true
  | .readLeaseExpiry _ _ => true
  | .faultRecordWrite _ => true
  | .replayRetry _ _ _ => true
  | .replaySkip _ _ _ => true
  | .replayKill _ _ _ => true
  | .droveValidate _ => true
  | .droveWaitMet _ => true
  | .iterationHandout _ _ => true
  | .preempt _ => true
  | .partitionResume _ => true
  | .planeDiffRecord _ _ _ _ _ => true
  | .planeSwap _ _ _ => true
  | .droveComplete _ => true
  | .chainFollow _ _ => true
  | .tickSweep _ => true
  | .sampleAccumulate _ _ _ _ => true
  | .autoSatnRewrite _ _ => true
  | .regionRegister _ _ => true
  | .regionCoef _ _ => true
  | .regionRetire _ _ => true
  | .regionCommandDone _ => true
  | .homeRequest _ => true
  | .reclass _ _ => true
  | .reclassComplete _ => true
  | .pinFadePeriod _ => true
  | .wayMaskWrite _ _ => true
  | .wayMaskComplete => true
  | .thermalSample _ => true
  | .thcfgWrite _ => true
  | .bankIdlePrecharge _ _ _ => true
  | .forecastUpdate => true
  | .llynedFlitReceive _ _ _ => true
  | .llynedReplayRequest _ _ => true
  | .portDown _ => true
  | .portUp _ _ => true
  | .fabricTimeout _ => true
  | .memrd _ => true
  | .memwr _ _ => true
  | .birsp _ _ => true
  | .biconflict _ _ => true
  | .snpdata _ => true
  | .snpinv _ => true
  | .snpcur _ => true
  | .hostCacheResponse _ _ => true
  | .barAccess _ _ _ _ _ => true
  | .doeDiscovery _ _ => true
  | .spdmRequest _ _ => true
  | .getMeasurements _ _ => true
  | .ideKm _ _ => true
  | .ideIntegrityFail _ => true
  | .tpartWrite _ _ => true
  | .tpolWrite _ _ => true
  | .windowLoad _ => true
  | .windowLoadComplete => true
  | .rvk _ _ => true
  | .chainEnable _ _ => true
  | .snapshotRequest _ => true
  | .meterSnapshot _ => true
  | .pinbAccumulate _ => true
  | .powerCapThrottle _ => true
  | .coldBoot _ => true
  | .bootStageTimeout _ => true
  | .bootWatchdog => true
  | .bootctlRetry _ => true
  | .registerWrite _ _ _ => true
  | .cxlPortDown => true
  | .cxlPortUp => true
  | .refresh _ _ => true
  | .modulePowerRemoved => true
  | .revocationComplete _ => true
  | _ => false

/-- A message that has arrived is taken: the row that acts on it, or, of a member count for a barrier object here, what it does. What follows has no earlier
timestamp than its sender's clock (R217). -/
def State.msgNext (s : State) (j : Nat) : State × Option Instr :=
  match s.pkg.rxQ[j]? with
  | none => (s, none)
  | some p =>
    let s := (s.modPkg (fun g => { g with rxQ := g.rxQ.eraseIdx j })).reachTs p.ts
    match p.msg with
    | .req r => (s, some (.remoteRequest r))
    | .resp _ who tag st ts data => (s, some (.remoteResponse who ⟨tag, st, ts, data⟩))
    | .arrive ten obj src drove tag => (s, some (.podBarrierArrival ten obj ⟨src, drove⟩ tag))
    | .barcfg ten obj src count tag => (s.podBarcfg ten obj src count tag, none)
    | .release ten obj phase => (s, some (.podBarrierRelease ten ⟨obj, phase⟩))
    | .data ten cid src step seq bytes => (s, some (.shepherdDataFlit ten cid src ⟨step, seq⟩ bytes))
    | .abort ten cid src => (s, some (.collectiveAbort ten cid src))

/-- The instruction an action runs, with the state it runs in; none where the action is over without one. -/
def State.next (s : State) : Action → State × Option Instr
  | .fetch k => s.fetchNext k
  | .unit k u => s.unitNext k u.val
  | .engine k e => s.engineNext k e.val
  | .shepherd core => s.shepherdNext core
  | .event i => (s, if isEvent i then some i else none)
  | .msg j => s.msgNext j
  | .sample => (s.sampleNext, none)
  | .snap t => (s.writeSnap t, none)
  | .env e => (s.happen e, none)
  | .pass k j => s.passNext k j
  | .early k j => (s.earlyLoad k j, none)
  | .ahead k va => (s.readAhead k va, none)
  | .pft k => (s.goOnPft k, none)
  | .stream k sn i => (s.readStream k sn.val i, none)
  | .switch k e fresh => s.switchNext k e.val fresh
  | .pick k e i => s.pickNext k e.val i
  | .grain n => ({ s with budget := n }, none)

/-! ### The round of the agents -/

/-- The first gang that may have the next iteration of a drove once its cores hold the plane, and the first that may have it now. -/
def State.gangsFor (s : State) (n : Nat) (d : Drove) : Option Nat × Option Nat :=
  let gs := gangsOf (s.reach d) d.gang
  (gs.find? (s.mayTake n d), gs.find? (s.mayHand n d))

/-- What the walker does about the plane of a drove on the cores of a gang (R297): difference records to a core that needs it, one at a time, from what its
shadow holds, or the whole plane once the differences have failed the check; then the swap. -/
def State.planeActs (s : State) (n : Nat) (d : Drove) (a : Nat) : List Action :=
  let u := d.urgent
  match ((gangStrands a d.gang).map (· / 4)).find? (fun c => !s.planeThere d c) with
  | none => []
  | some c =>
    let x := s.core c
    if Map.find? x.shadowOk (b2n u) = some n then [.event (.planeSwap c u n)]
    else if Map.find? x.shadowOk (failedKey u) = some n then [.event (.planeDiffRecord c u 0 ⟨d.plane, true⟩ n)]
    else
      match planeRuns (x.shadowOf u) d.plane with
      | [] => [.event (.planeDiffRecord c u 0 ⟨[], true⟩ n)]
      | r :: rest => [.event (.planeDiffRecord c u r.1 ⟨r.2, rest.isEmpty⟩ n)]

/-- What the walker does for a drove with iterations to hand out: the first gang receives the plane and then the iteration; while its swap waits,
a gang that has the plane is served. -/
def State.handActs (s : State) (n : Nat) (d : Drove) : List Action :=
  match s.gangsFor n d with
  | (none, _) => []
  | (some a, b) =>
    let hand := fun (g : Nat) => [Action.event (.iterationHandout n g)]
    if s.mayHand n d a then hand a
    else s.planeActs n d a ++ (if (gangStrands a d.gang).any (fun x => s.partBusy (x / 4) d.urgent) then (match b with | some g => hand g | none => []) else [])

/-- What the walker may do for a drove. -/
def State.walkerActs (s : State) (e : Nat × Drove) : List Action :=
  match e.2.st with
  | .submitted => [.event (.droveValidate e.1)]
  | .waiting => [.event (.droveWaitMet e.1)]
  | .eligible => s.handActs e.1 e.2 ++ [.event (.droveComplete e.1)]
  | .done => []

/-- What a memory order leaves free to the units of a copy (R121, R125, R174, R226). -/
def freeActs (e : Nat × Part) : List Action :=
  (upto (e.2.pendS.length - 1)).map (fun j => .pass e.1 (j + 1))
    ++ (upto (e.2.pendA.length - 1)).map (fun j => .early e.1 (j + 1))
    ++ (if e.2.pfts.isEmpty then (e.2.strm.filter (fun x => x.2.bnd && x.2.left != 0)).map (fun x => .stream e.1 (Fin.ofNat 8 x.1) 0) else [.pft e.1])
    ++ [(1 : Fin 4), 2].filterMap (fun x => if (e.2.ring x.val).cur.isSome then some (.switch e.1 x (e.2.ring x.val).more.isEmpty) else none)

/-- What the agents of a copy may do. -/
def copyActs (e : Nat × Part) : List Action :=
  [.fetch e.1, .unit e.1 1, .unit e.1 2, .unit e.1 3, .engine e.1 0, .engine e.1 1, .engine e.1 2, .engine e.1 3]
    ++ freeActs e
    ++ (e.2.h.filter (fun x => x.2.st == .pending)).map (fun x => .event (.translationComplete e.1 (Fin.ofNat 32 x.1)))
    ++ (if e.2.sleeping.isSome then [Action.event (.sleepExpire e.1)] else [])
    ++ (if isU e.1 then [] else [.event (.preempt (e.1 / 2)), .event (.partitionResume (e.1 / 2))])
    ++ [.event (.lotAbandon e.1)]

/-- What is due for a tenant: records, revocations, reclasses, region commands, rewritten counts, chains. -/
def tenantActs (e : Nat × Tenant) : List Action :=
  [.event (.faultRecordWrite e.1), .event (.revocationComplete e.1), .event (.reclassComplete e.1)]
    ++ (if e.2.snpOut.isSome then [.snap e.1] else [])
    ++ (if e.2.rgBusy then
          [.event (.regionRegister e.1 e.2.rgLrg), .event (.regionCoef e.1 e.2.rgLrg), .event (.regionRetire e.1 e.2.rgLrg),
           .event (.regionCommandDone e.1)] else [])
    ++ (e.2.regs.filter (fun r => r.2.satnDue)).map (fun r => .event (.autoSatnRewrite e.1 r.1))
    ++ (e.2.chains.filter (fun c => c.2.en || c.2.fetched != 0)).map (fun c => .event (.chainFollow e.1 (Fin.ofNat 8 c.1)))

/-- Everything the agents of the package may do by themselves. -/
def State.round (s : State) : List Action :=
  (s.parts.map copyActs).flatten
    ++ (s.cores.map (fun e => [Action.event (.arrayLeaseTurn e.1), .shepherd e.1])).flatten
    ++ (s.droves.map s.walkerActs).flatten
    ++ s.pkg.chanQ.map (fun e => .event (.tickSweep e.1))
    ++ (if s.pkg.samples.isEmpty then [] else [.sample])
    ++ (upto s.pkg.rxQ.length).map .msg
    ++ s.pkg.homeQ.map (fun e => .env (.homeDone e.1))
    ++ [.event (.bayGrant 0), .event (.bayGrant 1), .event (.bayGrant 2), .event (.bayGrant 3), .event .windowLoadComplete, .event .wayMaskComplete]
    ++ (if s.catchUpDue then [.event .clockCatchup] else [])
    ++ (s.tens.map tenantActs).flatten

/-- The action of the next step, and the state that has taken it from the agenda or the round. -/
def State.choose (s : State) : Option Action × State :=
  match s.agenda with
  | a :: rest => (some a, { s with agenda := rest })
  | [] =>
    let l := s.round
    (l[s.turn % max l.length 1]?, { s with turn := s.turn + 1 })

/-- Is an action the power-on that a package without power waits for? -/
def isColdBoot : Option Action → Bool
  | some (.event (.coldBoot _)) => true
  | _ => false

/-- Does an action go on while a new cold boot follows a failed start (R349)? -/
def duringBoot : Action → Bool
  | .event (.coldBoot _) => true
  | .event (.bootctlRetry _) => true
  | .event (.bootStageTimeout _) => true
  | .event .bootWatchdog => true
  | .event .modulePowerRemoved => true
  | .grain _ => true
  | _ => false

/-! ### An instruction at the place of the next fetch -/

/-- Where the package's tables of the placed program stand: root and level 2. -/
def placeTables (s : State) : Nat := s.pkg.pkgid.toNat * 2 ^ 50 + 2 ^ 31

/-- Where the word at a virtual address stands: a 1 GiB page at the package's first byte. -/
def placeWord (s : State) (va : Nat) : Nat := s.pkg.pkgid.toNat * 2 ^ 50 + va % 2 ^ 30

/-- The code page and its tables hold the word at a virtual address. -/
def State.placeCode (s : State) (va w : Nat) : State :=
  let root := placeTables s
  let s1 := s.putVal .dev (root + 8 * bits va 39 13) 8 (1 + (root + 2 ^ 16) + 3 * 2 ^ 60)
  let s2 := s1.putVal .dev (root + 2 ^ 16 + 8 * bits va 30 9) 8 (1 + 4 + s.pkg.pkgid.toNat * 2 ^ 50 + 2 * 2 ^ 60)
  s2.putVal .dev (placeWord s va) 8 w

/-- Copy 0 is in an iteration that issues, its tenant has the page, and nothing holds the fetch back. -/
def State.readyFetch (s : State) : State :=
  let t := s.tenOf 0
  let base := s.pkg.pkgid.toNat * 2 ^ 50
  let p := s.part 0
  let s := s.setPart 0 { p with inIter := true, frozen := false, ending := false, sleeping := none, yielded := false, soft := [] }
  let s := s.modCore 0 (fun c => { c with l1i := [] })
  let s := s.modTen t (fun x => { x with ptroot := BitVec.ofNat 64 (base + 2 ^ 31), wins := [⟨false, base, 4⟩], rcBusy := false })
  { s with
    agenda := [.fetch 0]
    faults := s.faults.filter (fun r => !decide (r.who < 4))
    reqs := Map.del (Map.del s.reqs (fetchReq 0)) (walkReq (fetchReq 0))
    pkg := { s.pkg with booting := false, minMode := false, poison := [], hotstop := false, hbm := [], hostLines := [], homeQ := [], waysNew := none, winBusy := none, winDue := false, power := true } }

end Sys2Proof.Machine
end

