-- ==== Sys2Proof/Machine/Step.lean ====
section
/-! DEFINITION. One step of the machine: the action whose turn it is, and the meaning of the instruction it brings. -/
namespace Sys2Proof.Machine

/-- The state with an instruction word where the next step fetches. -/
def State.withFetchWord (s : State) (_nbits w : Nat) : State := s.readyFetch.placeCode (s.part 0).pc.toNat w

/-- One step. Without power only a cold boot does anything, and after a failed start only the new boot (R349). -/
def step (s : State) : Host.Outcome State Fault Refusal :=
  match s.choose with
  | (none, t) => if s.pkg.power then .next t else .fault .powerOff
  | (some a, t) =>
    if !s.pkg.power && !isColdBoot (some a) then .fault .powerOff
    else if t.pkg.booting && !duringBoot a then .next t
    else
      match t.next a with
      | (u, none) => .next u
      | (u, some i) => exec i u

end Sys2Proof.Machine
end

