-- ==== Sys2Proof/Safety.lean ====
section
/-! DEFINITION. What the claims call a well-kept machine, a safe run, an instruction that may go, and what it leaves alone. -/
namespace Sys2Proof.Machine

/-- Every byte memory is in its canonical form: device memory, host memory, and each core's scratchpad and weight buffer. -/
def State.memOk (s : State) : Bool :=
  memWf s.mem && memWf s.hostMem && s.cores.all (fun e => memWf (s.core e.1).spad && memWf (s.core e.1).wbuf)

/-- A run of n steps stays away from faults and refusals. -/
def SafeFor : Nat → State → Prop
  | 0, _ => True
  | n + 1, s => ∃ t, step s = .next t ∧ SafeFor n t

/-! ### The copy in execution -/

/-- The copy whose instruction is in execution. -/
def State.me (s : State) : Part := s.part s.ctx.k

/-- The core of the copy in execution. -/
def State.myCore (s : State) : Core := s.core (coreOf s.ctx.k)

/-- A copy without what the issue of every instruction moves: its place in program order, its waits, its token queues, the tokens it
owes, its waiting instructions, and what it keeps of accesses and prefetches under way and has read ahead. -/
def Part.bare (p : Part) : Part :=
  { p with seq := 0, waits := [], tok := [], owed := [], tail := [], flight := [], early := [], ahead := [], pfts := [], pendA := [], pendX := [], pendS := [] }

/-- Where pc stands once the instruction in execution has been routed: an instruction that is tried again moved it on before (R33). -/
def State.pcAfter (s : State) : VAddr := if s.ctx.retry then s.me.pc else s.me.pc + 8

/-- `t` is `s` but for the copy in execution, which is `p` up to what the issue of every instruction moves. -/
def State.became (s t : State) (p : Part) : Prop :=
  t = s.setPart s.ctx.k (t.part s.ctx.k) ∧ (t.part s.ctx.k).bare = p.bare

/-- An instruction of unit u may go as far as its unit and its tokens are concerned: its copy runs an iteration, the unit owes no token and
has those the instruction pops, or has popped them as it started (R19), no parity error meets it (R352), and the instruction is either the
unit's oldest, tried again, or new to a unit in which nothing waits and that is not stopped (R18, R205). -/
def State.readyIn (s : State) (u : Nat) (tk : Tk) : Prop :=
  s.me.inIter = true ∧ Map.get 0 s.me.owed u = 0 ∧ (Map.get 0 s.me.owed (startKey u) ≠ 0 ∨ s.me.canPop u tk = true) ∧ Map.find? s.me.soft u = none
    ∧ (s.ctx.retry = true ∨ (s.me.pend u = [] ∧ s.stopped (s.ctx.k * 8 + u) = false))

/-- A copy whose pc stands elsewhere. -/
def Part.at (p : Part) (a : VAddr) : Part := { p with pc := a }

/-! ### What serving an access moves that no program sees -/

/-- A core without its paddock lines' states, its caches and its poison marks. -/
def Core.bare (c : Core) : Core := { c with pd := c.pd.map (fun e => (e.1, { e.2 with st := [] })), l1d := [], l1i := [], spoison := [], mpoison := [] }

/-- A tenant without its meters and the fade counts of its pins. -/
def Tenant.bare (x : Tenant) : Tenant := { x with mtr := [], pins := [] }

/-- The package without its caches, open rows and directories, its record of what other packages' paddocks hold, the values under partials, its timestamps, its
poison marks and what its caches give back. -/
def Pkg.bare (g : Pkg) : Pkg :=
  { g with
    poison := [], dir := [], padAway := [], lineTs := [], cbase := [], homeServed := 0, rdc := [], l2 := [], msc := [], openRows := [], rowIdle := [], cxlOut := [] }

/-- `t` shows a program what `s` does: the two may differ in caches, directories, meters, pin counts, poison and timestamps only. -/
structure SameSeen (s t : State) : Prop where
  parts : t.parts = s.parts
  mem : t.mem = s.mem
  hostMem : t.hostMem = s.hostMem
  cores : ∀ c, (t.core c).bare = (s.core c).bare
  tens : ∀ j, (t.ten j).bare = (s.ten j).bare
  pkg : t.pkg.bare = s.pkg.bare
  droves : t.droves = s.droves
  nextDrove : t.nextDrove = s.nextDrove
  nextIter : t.nextIter = s.nextIter
  bars : t.bars = s.bars
  faults : t.faults = s.faults
  nextRec : t.nextRec = s.nextRec
  reqs : t.reqs = s.reqs
  ctx : t.ctx = s.ctx
  cycle : t.cycle = s.cycle
  budget : t.budget = s.budget
  agenda : t.agenda = s.agenda
  turn : t.turn = s.turn

/-- No other package has paddock words of a device line, and the host holds no copy of it. -/
def State.lineHome (s : State) (l : Nat) : Prop := Map.find? s.pkg.hostLines l = none ∧ Map.find? s.pkg.padAway l = none

/-- A line is at hand: a host line that the RDC of a die holds alone, within its lease; a device line that no one outside holds and that no request keeps
busy at its home. -/
def State.lineAtHand (s : State) (hh : Bool) (l : Nat) : Prop :=
  if hh then ∃ d x, d < 4 ∧ Map.find? s.pkg.rdc (rdcKey d true l) = some x ∧ x.st ≠ .s ∧ serialLe s.gts x.lease = true
  else s.lineHome l ∧ Map.find? s.pkg.homeQ l = none

/-- The leaf entry of a page is marked already, or may be marked at once: it lies on this package, on a stack that is not frozen, and no one outside holds it. -/
def State.leafAtHand (s : State) (p : PageInfo) : Prop :=
  p.ps ≠ 3 → s.leafDue p true = true → s.ours p.leaf = true ∧ s.frozenAt p.leaf = false ∧ s.lineHome (p.leaf / 64)

/-- The table entries that a requester's walk of a virtual address reads are at hand: on this package, on stacks that are not frozen, and held by no one
outside; the tenant loads no windows, and no exchange of the walk is open. -/
def State.tablesAtHand (s : State) (who t va : Nat) : Prop :=
  Map.find? s.reqs (walkReq who) = none ∧ s.pkg.winBusy ≠ some t
    ∧ ∀ a, a ∈ s.walkPath t va → s.ours a = true ∧ s.frozenAt a = false ∧ ∀ l, l ∈ linesOf a 8 → s.lineHome l

/-- So are those of every paddock line that a scratchpad range of a core touches. -/
def State.padTables (s : State) (who t core off n : Nat) : Prop := ∀ x, x ∈ (s.core core).padParts off n → s.tablesAtHand who t x.glob

/-- A stretch is at hand for a tenant's requester: its range is in no change of class or of windows; it is homed on this package, on a stack
that is not frozen, or on the host and of class T or V; its lines and its leaf entry are at hand. -/
def State.atHand (s : State) (t : Nat) (x : Stretch) : Prop :=
  s.heldBack t x = false ∧ (x.page.hh = true → x.page.cl ≤ 1) ∧ (x.page.hh = false → s.frozenAt x.pa = false ∧ s.ours x.pa = true)
    ∧ (∀ l, l ∈ linesOf x.pa x.n → s.lineAtHand x.page.hh l) ∧ s.leafAtHand x.page

/-- Nothing holds an access back (what `State.gate` asks): no exchange of the requester is open, no way mask is changing, all it reads and writes is at
hand and inside the tenant's windows, and nothing it reads is poisoned. -/
def State.unhindered (s : State) (who t : Nat) (rs ws : List Stretch) : Prop :=
  Map.find? s.reqs who = none ∧ Map.find? s.reqs (walkReq who) = none ∧ s.pkg.waysNew = none
    ∧ (∀ x, x ∈ rs ++ ws → s.atHand t x ∧ (x.page.ps ≠ 3 → s.inWin t x.page.hh x.pa x.n = true)) ∧ s.poisonedIn rs = none

/-! ### Words the rules of the front end use -/

/-- `a` is the address `off` words from `pc`, modulo 2^52 (R33, R91). -/
def isTarget (pc : VAddr) (off : Word) (a : VAddr) : Prop := (a.toNat : Int) = ((pc.toNat : Int) + 8 * off.toInt) % 2 ^ 52

/-- The machine once the units of copy k, which leaves its iteration, ask for nothing more: their records are dead (R355), and what its front end
fetches, reads ahead or waits for, its prefetches, its walks, and what a RETRY would send again are dropped. -/
def State.clearUnits (s : State) (k : Nat) : State :=
  { s with
    faults := s.faults.map (fun (r : FRec) => if r.who / 8 = k ∧ r.who % 8 < 4 then { r with dead := true } else r)
    reqs := s.reqs.filter (fun e => !decide (e.1 ∈ [k * 8, k * 8 + 2, fetchReq k, pftReq k, aheadReq k]
      ∨ e.1 ∈ [k * 8, k * 8 + 1, k * 8 + 2, k * 8 + 3, aheadReq k, fetchReq k, pftReq k].map walkReq
      ∨ (e.1 / 8 = k ∧ e.1 % 8 < 4 ∧ e.2.resend = true))) }

/-! ### Words the rules of address arithmetic use (R133) -/

/-- The fields of an AA instruction. -/
def aaArgsOf : Instr → Option AaArgs
  | .adda o | .suba o | .mula o | .mada o | .shla o | .shra o | .anda o | .ora o | .xora o | .mina o | .maxa o | .lia o | .liha o
  | .mova o => some o
  | _ => none

/-- The low word of an integer, unsigned or as two's complement. -/
def lowWord (uns : Bool) (x : Int) : Int := if uns then x % 2 ^ 32 else (x + 2 ^ 31) % 2 ^ 32 - 2 ^ 31

/-- The result of an AA instruction over the integers, before it wraps: x and y are the sources and d the old destination as two's
complement. -/
def aaInt (x y d : Int) : Instr → Option Int
  | .adda _ => some (x + y)
  | .suba _ => some (x - y)
  | .mula o => some (lowWord o.fn x * lowWord o.fn y)
  | .mada _ => some (d + x * y)
  | .shla _ => some (x * 2 ^ (y % 64).toNat)
  | .shra o => some ((if o.fn then x else x % 2 ^ 64) / 2 ^ (y % 64).toNat)
  | .mina o => some (if o.fn then min (x % 2 ^ 64) (y % 2 ^ 64) else min x y)
  | .maxa o => some (if o.fn then max (x % 2 ^ 64) (y % 2 ^ 64) else max x y)
  | .lia o => some o.imm.toInt
  | .liha o => some (o.imm.toInt * 2 ^ 32 + d % 2 ^ 32)
  | .mova _ => some x
  | _ => none

/-- Bit j of the result of a bitwise AA instruction, from bit j of the sources. -/
def aaBit (a b : Bool) : Instr → Option Bool
  | .anda _ => some (a && b)
  | .ora _ => some (a || b)
  | .xora _ => some (a != b)
  | _ => none

/-- The old value of a destination that is an address register. -/
def Part.oldDst (p : Part) : ADst → DWord
  | .a r => p.rdA r.val
  | _ => 0

/-! ### Words the rules of loads and stores use -/

/-- What a read of n bytes of a page needs besides its checks: nothing holds it back, or, through h0, every paddock word it touches is
present or dirty, its tables at hand, and no line it touches is poisoned. -/
def State.readFree (s : State) (pg : PageInfo) (sz : Size) (ea : Nat) : Prop :=
  if pg.ps = 3 then (s.myCore.padParts ea (szBytes sz)).filter PadPart.needsFill = [] ∧ s.myCore.spadBad ea (szBytes sz) = false
    ∧ s.padTables (s.ctx.k * 8 + 1) s.cten (coreOf s.ctx.k) ea (szBytes sz)
    ∧ Map.find? s.reqs (s.ctx.k * 8 + 1) = none ∧ Map.find? s.reqs (walkReq (s.ctx.k * 8 + 1)) = none
  else s.unhindered (s.ctx.k * 8 + 1) s.cten [⟨pg, ea, s.spanOf s.cten pg sz⟩] []

/-- The bytes a load of a page reads at an address (R114, R115): those of scratchpad; those of memory, of a host line that the strand has read ahead what it read
then, unless the load is `fresh` (R226, R333); on class F the tap of each cell. -/
def State.isLoad (s : State) (fresh : Bool) (pg : PageInfo) (sz : Size) (tap ea : Nat) (bs : List Byte) : Prop :=
  (pg.ps = 3 → bs = s.bytesAt (.spad (coreOf s.ctx.k)) ea (szBytes sz))
    ∧ (pg.ps ≠ 3 → pg.cl ≠ 3 → bs.length = szBytes sz ∧ ∀ i, i < szBytes sz → bs.getD i 0
        = if pg.hh = true ∧ fresh = false then s.hostByte s.ctx.k (pg.pa ea + i) else s.byteAt (spaceOf pg.hh) (pg.pa ea + i))
    ∧ (pg.ps ≠ 3 → pg.cl = 3 → ∀ r n, s.regionOf s.cten pg = some r → szCells sz = some n →
        bs.length = 4 * n ∧ ∀ i c, i < n → r.cellAt (ea + i * r.csz) = some c →
          leVal ((bs.drop (4 * i)).take 4) = ((s.cell r c).tap tap).toNat)

/-- FC: the machine with the granules of some loads empty, where they are not in a paddock (R22). -/
def State.clearedFor (s : State) (fc : Bool) (sz : Size) (eas : List Nat) : State :=
  if fc then s.emptyAt s.ctx.k sz eas else s

/-! ### Words the rules of the execute unit use -/

/-- The fields of an X instruction. -/
def xArgsOf : Instr → Option XArgs
  | .fadd o | .fsub o | .fmul o | .fma o | .fnma o | .fmin o | .fmax o | .fsgn o | .fcmp o | .frcp o | .frsq o | .fsqrt o | .fexp2 o
  | .flog2 o | .fcvt o | .frnd o | .iadd o | .isub o | .imul o | .imulh o | .imad o | .imin o | .imax o | .iabs o | .ishl o | .ishr o
  | .and o | .or o | .xor o | .andn o | .popc o | .clz o | .icmp o | .qmul o | .qmad o | .bpack o | .bunpk o | .mov o | .sel o | .shfl o
  | .bcast o | .slide o | .ins o | .ext o | .rsum o | .rmax o | .rmin o | .scan o | .plog o | .pset o | .pcnt o | .accrd o | .flgrd o
  | .flgclr o => some o
  | _ => none

/-- `t` is `s` after an X instruction that delivers v and raises fl (R17, R48, R138): its sources are popped in order, v goes where D
says, cm are the lanes whose OR goes to cq, and the tenant's lane meter counts them. -/
def State.xEnds (s t : State) (o : XArgs) (v : Vec) (cm : DWord) (fl : Word) : Prop :=
  (s.meter (s.tenOf (coreOf s.ctx.k)) 4 (countOnes cm)).became t ((((s.me.readSrcs o).2.2.2.deliverX o.d cm v).orFlags fl).at s.pcAfter)

/-- A lane of the result is active (R136). -/
def State.active (s : State) (o : XArgs) (l : Nat) : Prop := l < 64 ∧ (s.me.rdP o.p.val).getLsbD l = true

/-- The end of a lane-wise X instruction (R136): an inactive lane receives 0 under PZ, else its lane of S1 as read. -/
def State.xLanes (s t : State) (o : XArgs) (v : Vec) (fl : Word) : Prop :=
  s.xEnds t o v (s.me.rdP o.p.val) fl ∧ v.length = 64
    ∧ ∀ l, l < 64 → ¬ s.active o l → lane v l = if o.pz then 0 else lane (s.me.readSrcs o).1 l

/-- Element j of lane l, as an integer of its type. -/
def elemAt (ty : Ty) (v : Vec) (l j : Nat) : Int := elemInt ty (elemOf ty (lane v l).toNat j)

/-- Does an integer lie outside a type's range? -/
def outside (ty : Ty) (z : Int) : Prop :=
  if Ty.signed ty then z < -(2 ^ (Ty.width ty - 1)) ∨ 2 ^ (Ty.width ty - 1) ≤ z else z < 0 ∨ 2 ^ Ty.width ty ≤ z

/-- An exact integer in a type's range: clamped under .sat, else its low bits (R147). -/
def intoRange (ty : Ty) (sat : Bool) (z : Int) : Int :=
  if Ty.signed ty then
    (if sat then max (-(2 ^ (Ty.width ty - 1))) (min (2 ^ (Ty.width ty - 1) - 1) z) else (z + 2 ^ (Ty.width ty - 1)) % 2 ^ Ty.width ty - 2 ^ (Ty.width ty - 1))
  else (if sat then max 0 (min (2 ^ Ty.width ty - 1) z) else z % 2 ^ Ty.width ty)

/-- The exact result of an integer X instruction from its elements (R147); a shift count is the element modulo the width. -/
def intOf (a b c : Int) : Instr → Option Int
  | .iadd _ => some (a + b)
  | .isub _ => some (a - b)
  | .imul _ => some (a * b)
  | .imulh _ => some (a * b / 2 ^ 32)
  | .imad _ => some (a * b + c)
  | .imin _ => some (min a b)
  | .imax _ => some (max a b)
  | .iabs _ => some |a|
  | .ishl o => if Ty.width o.ty < 16 then none else some (a * 2 ^ (b % Ty.width o.ty).toNat)
  | .ishr o => if Ty.width o.ty < 16 then none else some (a / 2 ^ (b % Ty.width o.ty).toNat)
  | _ => none

/-- A bit of the result of a bitwise X instruction. -/
def bitOf (a b : Bool) : Instr → Option Bool
  | .and _ => some (a && b)
  | .or _ => some (a || b)
  | .xor _ => some (a != b)
  | .andn _ => some (a && !b)
  | _ => none

/-- The condition codes .eq .ne .lt .le .gt .ge on integers (R70). -/
def ccHolds (cc : Nat) (a b : Int) : Prop :=
  (cc = 0 ∧ a = b) ∨ (cc = 1 ∧ a ≠ b) ∨ (cc = 2 ∧ a < b) ∨ (cc = 3 ∧ a ≤ b) ∨ (cc = 4 ∧ b < a) ∨ (cc = 5 ∧ b ≤ a)

/-- r is x / 2^k rounded to an integer (R78, R79). -/
def isRndsh (rm : Rm) (x : Int) (k : Nat) (r : Int) : Prop :=
  match rm with
  | .rne => 2 * |r * 2 ^ k - x| ≤ 2 ^ k ∧ (2 * |r * 2 ^ k - x| = 2 ^ k → r % 2 = 0)
  | .rtz => |r * 2 ^ k| ≤ |x| ∧ |r * 2 ^ k - x| < 2 ^ k
  | .rup => x ≤ r * 2 ^ k ∧ r * 2 ^ k < x + 2 ^ k
  | .rdn => r * 2 ^ k ≤ x ∧ x < r * 2 ^ k + 2 ^ k

/-- The result and the flags of a floating-point X instruction on the elements a, b and c of a format (R143 to R145). -/
def fltOf (ff : FFmt) (a b c : Nat) : Instr → Option FR
  | .fadd o => some (addV ff o.rm (unpack ff a) (unpack ff b))
  | .fsub o => some (addV ff o.rm (unpack ff a) (unpack ff b).opp)
  | .fmul o => some (mulV ff o.rm (unpack ff a) (unpack ff b))
  | .fma o => some (fmaV ff o.rm (unpack ff a) (unpack ff b) (unpack ff c))
  | .fnma o => some (fmaV ff o.rm (unpack ff a).opp (unpack ff b) (unpack ff c))
  | .fmin _ => some (minmaxV ff false a b)
  | .fmax _ => some (minmaxV ff true a b)
  | .fsgn o => some (fsgnElem o.imm.toNat ff a b)
  | .fcmp o => some (fcmpElem o.imm.toNat ff a b)
  | .frcp o => some (divV ff o.rm (.fin ⟨false, 1, 0⟩) (unpack ff a))
  | .frsq o => some (rsqrtV ff o.rm (unpack ff a))
  | .fsqrt o => some (sqrtV ff o.rm (unpack ff a))
  | .fexp2 o => some (exp2V ff o.rm (unpack ff a))
  | .flog2 o => some (log2V ff o.rm (unpack ff a))
  | .frnd o => some (rndV ff o.rm a)
  | _ => none

/-- The rational an exact value stands for. -/
def Dy.val (d : Dy) : ℚ := (if d.neg then -1 else 1) * (d.m : ℚ) * (2 : ℚ) ^ d.e

/-- The three formats of R75. -/
def fmts : List FFmt := [f32, bf16, f16]

/-- The pattern n is x correctly rounded among the finite values of a format (R78): no value is nearer on the sides the mode allows, and
a tie goes to the even pattern. -/
def isRounded (f : FFmt) (rm : Rm) (x : ℚ) (n : Nat) : Prop :=
  ∃ y, unpack f n = .fin y ∧
    match rm with
    | .rne => ∀ m z, unpack f m = .fin z → |y.val - x| ≤ |z.val - x| ∧ (z.val ≠ y.val → |z.val - x| = |y.val - x| → n % 2 = 0)
    | .rtz => |y.val| ≤ |x| ∧ 0 ≤ y.val * x ∧ ∀ m z, unpack f m = .fin z → |z.val| ≤ |x| → |z.val| ≤ |y.val|
    | .rup => x ≤ y.val ∧ ∀ m z, unpack f m = .fin z → x ≤ z.val → y.val ≤ z.val
    | .rdn => y.val ≤ x ∧ ∀ m z, unpack f m = .fin z → z.val ≤ x → z.val ≤ y.val

/-- Lane i of a lane move (R151), from the lanes of its sources. -/
def moveOf (a b c : Nat → Word) (i : Nat) : Instr → Option Word
  | .mov _ => some (a i)
  | .sel _ => some (if c i ≠ 0 then a i else b i)
  | .shfl o => some (if o.imm.getLsbD 15 then a (i ^^^ (o.imm.toNat % 64)) else a ((b i).toNat % 64))
  | .bcast o => some (a (o.imm.toNat % 64))
  | .slide o =>
    let n := o.imm.toNat % 64
    some (if o.imm.getLsbD 15 then (if n ≤ i then a (i - n) else b (i + 64 - n)) else (if i + n < 64 then a (i + n) else b (i + n - 64)))
  | .ins o => some (if i = o.imm.toNat % 64 then b 0 else a i)
  | .ext o => some (if i = 0 then a (o.imm.toNat % 64) else 0)
  | _ => none

/-- Entry k of level j of the tree of R89 over the lanes v. -/
def treeAt (opr : Nat → Nat → FR) (v : Nat → Nat) : Nat → Nat → Nat
  | 0, k => v k
  | j + 1, k => (opr (treeAt opr v j (2 * k)) (treeAt opr v j (2 * k + 1))).1

/-- The left-to-right fold of lanes 0 to i (R89). -/
def foldAt (opr : Nat → Nat → FR) (v : Nat → Nat) : Nat → Nat
  | 0 => v 0
  | i + 1 => (opr (foldAt opr v i) (v (i + 1))).1

/-- The combination of RSUM, RMAX, RMIN and SCAN. -/
def combOf : Instr → Option Comb
  | .rsum _ => some .add
  | .rmax _ => some .max
  | .rmin _ => some .min
  | .scan o => if o.imm.toNat % 4 = 0 then some .add else if o.imm.toNat % 4 = 1 then some .max else if o.imm.toNat % 4 = 2 then some .min else none
  | _ => none

/-- Bit i of a PLOG or PSET result (R153). -/
def predBitOf (p : Part) (i : Nat) : Instr → Option Bool
  | .plog o =>
    let a := (p.rdP (o.imm.toNat / 2 ^ 6 % 8)).getLsbD i
    let b := (p.rdP (o.imm.toNat / 2 ^ 9 % 8)).getLsbD i
    match o.imm.toNat % 8 with
    | 0 => some (a && b)
    | 1 => some (a || b)
    | 2 => some (a != b)
    | 3 => some (a && !b)
    | 4 => some (!a)
    | _ => none
  | .pset o => some (if o.imm.getLsbD 15 then o.imm.getLsbD (i % 8) else decide (i < o.imm.toNat % 128))
  | _ => none

/-! ### Words the rules of the store unit use -/

/-- Byte j of a vector, lane 0 lowest. -/
def vecByte (d : Vec) (j : Nat) : Byte := (lane d (j / 4)).extractLsb' (8 * (j % 4)) 8

/-- The runs of bytes a store writes (R159): a plain entry takes the first bytes of the vector at its one address; a scatter entry takes
the low bytes of lane i at address i, in ascending lane order. -/
def storeRunsOf (e : AqEntry) (d : Vec) : List (Nat × List Byte) :=
  if e.scatter then (List.range 64).map (fun i => (e.addrs.getD i 0, (List.range (szBytes e.sz)).map (fun j => vecByte d (4 * i + j))))
  else [(e.addrs.getD 0 0, (List.range (szBytes e.sz)).map (vecByte d))]

/-- The elements a reduction or a sample names (R115, R159): lane i at address i of a scatter entry, else one to 64 lanes `stride` bytes
apart. -/
def elemsOf (e : AqEntry) (stride : Nat) (d : Vec) : List (Nat × Word) :=
  if e.scatter then (List.range 64).map (fun i => (e.addrs.getD i 0, lane d i))
  else (List.range (match e.sz with | .v => 64 | .hv => 32 | _ => 1)).map (fun i => (e.addrs.getD 0 0 + i * stride, lane d i))

/-- The heads of aq and sd are there and S may perform an access for the instruction, at its turn and whole. -/
def State.storeReady (s : State) (tk : Tk) (e : AqEntry) (d : Vec) (ar : List AqEntry) (dr : List Vec) : Prop :=
  s.readyIn 3 tk ∧ s.me.aq = e :: ar ∧ s.me.sd = d :: dr ∧ s.mayAccess s.ctx.k 3 s.ctx.seq = true
    ∧ Map.find? s.me.flight 3 = none ∧ s.budget ≠ 0

/-- The copy after an S instruction that pops aq and sd. -/
def Part.popped (p : Part) (ar : List AqEntry) (dr : List Vec) (ts : BitVec 48) : Part := { p with aq := ar, sd := dr, pts := ts }

/-- The machine after runs of bytes are stored to a page, its leaf entry accessed and dirty. -/
def State.storedTo (s : State) (pg : PageInfo) (runs : List (Nat × List Byte)) : State :=
  runs.foldl (fun s r => (s.touchLeaf pg true).putBytes (spaceOf pg.hh) (pg.pa r.1) r.2) s

/-- OPR of a RED (R164): FP32 additions round RNE, minima and maxima follow R75 or compare as the type says. -/
def redOf (op : RedOp) (ty : Ty) (m d : Word) : Word :=
  match op, ty with
  | .add, .f32 => BitVec.ofNat 32 (add32 .rne m.toNat d.toNat).1
  | .min, .f32 => BitVec.ofNat 32 (minmaxV f32 false m.toNat d.toNat).1
  | .max, .f32 => BitVec.ofNat 32 (minmaxV f32 true m.toNat d.toNat).1
  | .add, _ => m + d
  | .min, .u32 => if d.toNat < m.toNat then d else m
  | .max, .u32 => if m.toNat < d.toNat then d else m
  | .min, _ => if d.toInt < m.toInt then d else m
  | .max, _ => if m.toInt < d.toInt then d else m
  | .and, _ => m &&& d
  | .or, _ => m ||| d
  | .xor, _ => m ^^^ d

/-- The word at an address of a space, replaced by an operation on it. -/
def State.updated (s : State) (sp : Space) (a : Nat) (f : Word → Word) : State :=
  s.putBytes sp a (leBytes 4 (f (BitVec.ofNat 32 (s.valAt sp a 4))).toNat)

/-- The word at an address of a page, replaced by an operation on it, the page's leaf entry accessed and dirty. -/
def State.updatedAt (s : State) (pg : PageInfo) (va : Nat) (f : Word → Word) : State :=
  (s.touchLeaf pg true).putBytes (spaceOf pg.hh) (pg.pa va) (leBytes 4 (f (BitVec.ofNat 32 (s.valAt (spaceOf pg.hh) (pg.pa va) 4))).toNat)

/-- Samples taken in order by a region's cells, with the flags their conversion raises in copy k. -/
def State.sampled (s : State) (k t : Nat) (pg : PageInfo) (r : Region) (conv : Word → Word × Nat) (xs : List (Nat × Word)) : State :=
  xs.foldl (fun s x =>
    let s := s.orFlags k (BitVec.ofNat 32 (conv x.2).2)
    match r.cellAt x.1, s.regionOf t pg with
    | some c, some r => s.sample t pg.rgn r c (conv x.2).1
    | _, _ => s) s

/-- An instruction of unit u stops there with a fault: the state `x` in which the fault is taken has the copy as it was, with the
instruction waiting in its unit. -/
def State.stopsIn (s : State) (u : Nat) (i : Instr) (f : FInfo) : Prop :=
  ∃ x, exec i s = .next (x.takeFault (s.ctx.k * 8 + u) f s.ctx.pc.toNat s.ctx.word [] false) ∧ s.became x (s.me.at s.pcAfter)

/-! ### Words the rules of faults use -/

/-- `t` is `s` after a KILL by a record (R207), which is then no more. The halt code is the first of the drove's; of a strand the iteration of
the whole gang ends with its queues empty, but for what an access in progress still takes (R355); of an engine the command at fault and the words
that have not started are discarded, and started commands go on. A unit whose iteration has ended since has nothing more to end. -/
def State.killedBy (s t : State) (r : FRec) : Prop :=
  ∀ (p : Part) (g : Ring), p = s.part (r.who / 8) → g = p.ring (r.who % 8 - 4) →
    (∀ x, x ∈ t.faults → x.id ≠ r.id) ∧ t.mem = s.mem ∧ t.hostMem = s.hostMem ∧ t.bars = s.bars
    ∧ (r.dead = true → t.parts = s.parts ∧ t.droves = s.droves)
    ∧ (r.dead = false →
      (∀ n d, n = (if r.who % 8 < 4 then p.drove else match g.bad.find? (fun c => c.idx % 2 ^ 32 == r.loc) with | some c => c.drove | none => p.drove) →
          Map.find? s.droves n = some d → ∃ e, Map.find? t.droves n = some e
            ∧ e.haltCode = some (d.haltCode.getD (BitVec.ofNat 32 (0xFA000000 + r.cause * 2 ^ 16 + (r.seq.getD 0).toNat % 2 ^ 16))))
      ∧ (r.who % 8 < 4 → t.stopped r.who = false ∧ (t.part (r.who / 8)).inIter = false
          ∧ (s.inExchange (r.who / 8) 1 = false → s.inExchange (r.who / 8) 3 = false → p.flight = [] → (t.part (r.who / 8)).leftover = false)
          ∧ ∀ j, (s.part j).inIter = true → (s.part j).drove = p.drove → (s.part j).lin = p.lin → (t.part j).inIter = false)
      ∧ (4 ≤ r.who % 8 → (t.part (r.who / 8)).ring (r.who % 8 - 4)
          = { g with
              cur := g.cur.filter (fun c => c.need == 0 && c.toks), more := g.more.filter (fun c => c.need == 0 && c.toks)
              bad := g.bad.filter (fun c => c.idx % 2 ^ 32 != r.loc), cons := g.prod }))

/-- The eight dwords of 64 bytes. -/
def dwordsAre (bs : List Byte) (w : Nat → Nat) : Prop := bs.length = 64 ∧ ∀ j, j < 8 → leVal ((bs.drop (8 * j)).take 8) = w j % 2 ^ 64

/-- The dwords of a fault record (R203). -/
def FRec.dword (r : FRec) (seq img : Nat) : Nat → Nat
  | 0 => r.cause + 2 ^ 8 * (r.who % 8) + 2 ^ 11 * (r.who / 8 % 2) + (if r.res then 2 ^ 12 else 0) + 2 ^ 16 * ((sidOf (r.who / 8)).toNat % 2 ^ 10)
      + 2 ^ 26 * r.ten + 2 ^ 32 * seq
  | 1 => r.loc
  | 2 => r.addr
  | 3 => r.info.toNat
  | 4 => r.prog % 2 ^ 48 + 2 ^ 48 * (r.lane % 2 ^ 8)
  | 5 => r.aux
  | 6 => img
  | _ => r.pts.toNat

/-- The record r goes into slot `slot` of its queue at a, its image at b (R203, R204), through writes m0 and m: PROD counts it, the interrupt comes once
COAL have, and a shepherd's engine is free (R196). -/
def State.recordWritten (s : State) (r : FRec) (a b : Nat) (t : State) : Prop :=
  ∀ (x : Tenant) (bs ib : List Byte) (m0 m u : State) (due : Prop) [Decidable due], x = s.ten r.ten →
    dwordsAre ib (fun j => (r.img.getD j 0).toNat) → (r.who % 8 < 4 → m0 = s) →
    (4 ≤ r.who % 8 → r.img.length ≤ 8 ∧ s.putVa (ownReq r.ten 1) r.ten b ib = .ok () m0) →
    dwordsAre bs (r.dword x.fqprod.toNat (if r.who % 8 < 4 then 0 else b)) → m0.putVa (ownReq r.ten 0) r.ten a bs = .ok () m →
    (due ↔ x.fqctl.toNat / 2 ^ 8 % 2 ^ 8 ≤ x.sinceIrq + 1) →
    u = { (if r.who % 8 = 7 then m.freeRun (r.who / 8) else m).modTen r.ten (fun y =>
          { y with fqprod := x.fqprod + 1, sinceIrq := if due then 0 else x.sinceIrq + 1 }) with
      faults := s.faults.map (fun y => if y.id = r.id then { y with seq := some x.fqprod } else y) } →
    t = if due then u.raiseVec r.ten (x.fqctl.toNat / 2 ^ 16 % 2 ^ 8) else u

/-- What becomes of a record that waits to be written (R202 to R204): with EN = 0 a KILL; while the queue is full it is held; where a page
of the queue or image area is not mapped, its tables at hand, a KILL with NOMAP and VEC; after HOTSTOP nothing (R284); while its home is waited for nothing but
that wait; else it is written. -/
def State.recordGoes (s : State) (r : FRec) (t : State) : Prop :=
  ∀ (x : Tenant) (n slot a b : Nat), x = s.ten r.ten → n = 2 ^ (min (x.fqctl.toNat % 2 ^ 4) 11 + 4) → slot = x.fqprod.toNat % n →
    a = x.fqbase.toNat / 2 ^ 12 % 2 ^ 40 * 2 ^ 12 + 64 * slot → b = a + 64 * n →
    (x.fqctl.getLsbD 4 = false → s.killedBy t r)
    ∧ (x.fqctl.getLsbD 4 = true →
      ((x.fqprod - x.fqcons).toNat = n ∨ s.pkg.hotstop = true → t = s)
      ∧ ((x.fqprod - x.fqcons).toNat ≠ n → s.pkg.hotstop = false →
        ((r.who % 8 < 4 ∧ s.stretches r.ten 64 a 64 = none ∧ ∀ v, v ∈ walkVas a 64 → s.tablesAtHand (ownReq r.ten 0) r.ten v)
            ∨ (4 ≤ r.who % 8 ∧ s.stretches r.ten 64 b 64 = none ∧ ∀ v, v ∈ walkVas b 64 → s.tablesAtHand (ownReq r.ten 1) r.ten v) →
          s.killedBy t r ∧ (t.ten r.ten).nomap = true ∧ (t.ten r.ten).fqprod = x.fqprod)
        ∧ s.recordWritten r a b t))

/-! ### Words the rules of filter regions use -/

/-- Nothing stands in the way of a write that the device makes for a tenant on its own account, within a page whose tables are at hand: the machine is then r.
Where the page is not mapped nothing is written. -/
def State.ownPut (s : State) (who t a : Nat) (bs : List Byte) (r : State) : Prop :=
  (∀ v, v ∈ walkVas a bs.length → s.tablesAtHand who t v) ∧ ((s.xlate t a = none ∧ r = s)
    ∨ ∃ p, s.xlate t a = some p ∧ a + bs.length ≤ p.vbase + pageBytes p.ps ∧ s.unhindered who t [] [⟨p, a, bs.length⟩]
        ∧ r = (s.touchLeaf p true).putBytes (spaceOf p.hh) (p.pa a) bs)

/-- TICKNO and SATN of a region's descriptor are rewritten (R231). -/
def State.descDone (s : State) (t rg : Nat) (tickno satn : Word) (r : State) : Prop :=
  ∃ a m, a = (s.ten t).rtbase.toNat / 2 ^ 14 % 2 ^ 38 * 2 ^ 14 + 64 * rg ∧ s.ownPut (descReq t rg) t (a + 4) (leBytes 4 tickno.toNat) m
    ∧ m.ownPut (descReq t rg) t (a + 0x14) (leBytes 4 satn.toNat) r

/-- Saturation events are counted at a region (R231): `due` says that an AUTO region owes a rewrite. -/
def State.counted (s : State) (t rg n : Nat) : State :=
  if n = 0 then s
  else s.modRegion t rg (fun r => { r with satn := BitVec.ofNat 32 (min (r.satn.toNat + n) 0xFFFFFFFF), satnDue := r.satnDue || r.auto })

/-! ### Words the rules of the engines use -/

/-- The command of ring e has its WAIT tokens: taken before, none asked for, or there (R173); no exchange of the ring is open; and its elements are
performed whole and in their order, the one in progress from its first access on. -/
def State.cmdReady (s : State) (e : Nat) (hd : Hdr) : Prop :=
  ((s.curOf s.ctx.k e).toks = true ∨ hd.wsrc = 0 ∨ hd.wcnt.toNat ≤ s.waitTokens s.ctx.k e hd.wsrc.toNat)
    ∧ Map.find? s.reqs (engWho s.ctx.k e) = none ∧ Map.find? s.reqs (walkReq (engWho s.ctx.k e)) = none ∧ s.budget ≠ 0 ∧ s.ctx.room = none
    ∧ s.ctx.pick = none ∧ (s.curOf s.ctx.k e).seen = [] ∧ (s.curOf s.ctx.k e).ahead = []

/-- A copy without what the finish of a command moves: its rings and its engine tokens. -/
def Part.cmdBare (p : Part) : Part := { p with rings := [], strTok := [], engTok := [] }

/-- The machine `t` is `r` after the command of ring e of the copy in execution has finished, with the copy q: the ring is free for its
next command, and nothing else differs but tokens and what no program sees. -/
def State.cmdEnds (r t : State) (e : Nat) (q : Part) : Prop :=
  t.me.ring e = { q.ring e with cur := none, sig := (t.me.ring e).sig } ∧ (∀ j, j ≠ e → Map.find? t.me.rings j = Map.find? q.rings j)
    ∧ t.me.cmdBare = q.cmdBare ∧ ∃ g, SameSeen ((r.setPart r.ctx.k t.me).modCore (coreOf r.ctx.k) (fun c => { c with engTok := g })) t

/-- n consecutive steps, from number i on, of a relation between machines. -/
def chain (f : Nat → State → State → Prop) : Nat → Nat → State → State → Prop
  | 0, _, s, r => r = s
  | n + 1, i, s, r => ∃ m, f i s m ∧ chain f n (i + 1) m r

/-- Nothing stands in the way of a read by engine e of n bytes at x: the value is v and the machine is then r (R175, R176), which has placed the access in S and
done at its home what a read does. The place is aligned; the tables it needs are at hand; in scratchpad its words are there and not poisoned; in memory it is
mapped, on class F the start of a cell, whose tap Y is read. -/
def State.gets (s : State) (e : Nat) (x : EA) (n v : Nat) (r : State) : Prop :=
  x.a % n = 0 ∧
    ((x.spd = true ∧ (s.myCore.padParts x.a n).filter PadPart.needsFill = [] ∧ s.myCore.spadBad x.a n = false
        ∧ s.padTables (engWho s.ctx.k e) s.cten (coreOf s.ctx.k) x.a n ∧ Map.find? s.reqs (engWho s.ctx.k e) = none
        ∧ v = s.valAt (.spad (coreOf s.ctx.k)) x.a n ∧ r = (s.stampAgent false []).padTouch s.cten (coreOf s.ctx.k) x.a n)
      ∨ (x.spd = false ∧ s.tablesAtHand (engWho s.ctx.k e) s.cten x.a ∧ ∃ p y, s.xlate s.cten x.a = some p ∧ y = (⟨p, x.a, n⟩ : Stretch)
        ∧ s.unhindered (engWho s.ctx.k e) s.cten [y] []
        ∧ ((p.cl ≠ 3 ∧ v = s.valAt (spaceOf p.hh) (p.pa x.a) n ∧ r = (s.stampAgent false [y]).readSide s.cten y (.engine (coreOf s.ctx.k)))
          ∨ (p.cl = 3 ∧ n = 4 ∧ (∃ g c, s.regionOf s.cten p = some g ∧ g.cellAt x.a = some c ∧ v = (s.cell g c).y.toNat)
            ∧ r = (((s.stampAgent false []).touchLeaf p false).pinTouch false (p.pa x.a) n).meterMem s.cten y false))))

/-- The same for a write (R22, R120, R176): granules become full; through a paddock the global words take the value too; on class F the word is a sample. -/
def State.puts (s : State) (e : Nat) (x : EA) (n v : Nat) (r : State) : Prop :=
  x.a % n = 0 ∧
    ((x.spd = true ∧ s.padStoreCheck s.cten (coreOf s.ctx.k) x.a n 1 = none ∧ s.padTables (engWho s.ctx.k e) s.cten (coreOf s.ctx.k) x.a n
        ∧ s.unhindered (engWho s.ctx.k e) s.cten [] (s.padStretches (coreOf s.ctx.k) (s.xlate s.cten) x.a n)
        ∧ r = ((((s.stampAgent true []).padTouch s.cten (coreOf s.ctx.k) x.a n).spadStore s.cten (coreOf s.ctx.k) (s.xlate s.cten) x.a (leBytes n v)).modCore
            (coreOf s.ctx.k) (·.setFull x.a n)))
      ∨ (x.spd = false ∧ s.tablesAtHand (engWho s.ctx.k e) s.cten x.a ∧ ∃ p y, s.xlate s.cten x.a = some p ∧ p.w = true ∧ y = (⟨p, x.a, n⟩ : Stretch)
        ∧ s.unhindered (engWho s.ctx.k e) s.cten [] [y]
        ∧ ((p.cl ≠ 3 ∧ r = ((s.stampAgent true [y]).writeSide s.cten y (.engine (coreOf s.ctx.k))).putBytes (spaceOf p.hh) (p.pa x.a) (leBytes n v))
          ∨ (p.cl = 3 ∧ n = 4 ∧ ∃ g c, s.regionOf s.cten p = some g ∧ g.cellAt x.a = some c
              ∧ r = (((s.stampAgent true []).touchLeaf p true).meterMem s.cten y true).sample s.cten p.rgn g c (BitVec.ofNat 32 v)))))

/-- The same for one indivisible read-modify-write (R188, R189), at the home or, for host memory, in the RDC of the core's die; through a paddock it is made at the
global place. `c` asks for a partial in state C, which a page of class U, host memory and scratchpad do not give. -/
def State.updates (s : State) (e : Nat) (x : EA) (n : Nat) (c : Bool) (f : Nat → Nat) (old : Nat) (r : State) : Prop :=
  x.a % n = 0 ∧
    ((x.spd = true ∧ s.padStoreCheck s.cten (coreOf s.ctx.k) x.a n 3 = none ∧ s.padNoCell s.cten (coreOf s.ctx.k) x.a n = none
        ∧ s.padTables (engWho s.ctx.k e) s.cten (coreOf s.ctx.k) x.a n
        ∧ ((s.padStretches (coreOf s.ctx.k) (s.xlate s.cten) x.a n = [] ∧ s.myCore.spadBad x.a n = false ∧ old = s.valAt (.spad (coreOf s.ctx.k)) x.a n
            ∧ r = ((s.stampAgent true []).putBytes (.spad (coreOf s.ctx.k)) x.a (leBytes n (f old))).modCore (coreOf s.ctx.k) (·.setFull x.a n))
          ∨ ∃ y more, s.padStretches (coreOf s.ctx.k) (s.xlate s.cten) x.a n = y :: more
              ∧ s.unhindered (engWho s.ctx.k e) s.cten (y :: more) (y :: more) ∧ old = s.valAt (spaceOf y.page.hh) y.pa n
              ∧ r = (((s.stampAgent true [y]).modCore (coreOf s.ctx.k) (·.setFull x.a n)).writeSide s.cten y (rmwVia y.page (coreOf s.ctx.k))).putBytes
                  (spaceOf y.page.hh) y.pa (leBytes n (f old))))
      ∨ (x.spd = false ∧ s.tablesAtHand (engWho s.ctx.k e) s.cten x.a ∧ ∃ p y, s.xlate s.cten x.a = some p ∧ p.w = true ∧ p.cl ≠ 3
        ∧ (c = true → p.cl = 2 ∨ p.hh = true) ∧ y = (⟨p, x.a, n⟩ : Stretch) ∧ s.unhindered (engWho s.ctx.k e) s.cten [y] [y]
        ∧ old = s.valAt (spaceOf p.hh) (p.pa x.a) n
        ∧ r = ((s.stampAgent true [y]).writeSide s.cten y (rmwVia p (coreOf s.ctx.k))).putBytes (spaceOf p.hh) (p.pa x.a) (leBytes n (f old))))

/-- Words moved one after the other. -/
def State.moves (s : State) (e : Nat) (src dst : EA) (words : Nat) (r : State) : Prop :=
  chain (fun j s r => ∃ v m, s.gets e (src.at (4 * j)) 4 v m ∧ m.puts e (dst.at (4 * j)) 4 v r) words 0 s r

/-- Words or dwords of n bytes moved one after the other by engine C, from number j on, none read from a place that the command has written before: `ks` are
those places (R187). -/
def State.movesApart (n : Nat) (src dst : Nat → EA) : Nat → Nat → List Nat → State → State → Prop
  | 0, _, _, s, r => r = s
  | m + 1, j, ks, s, r => ∃ v a b, s.gets 1 (src j) n v a ∧ (∀ i, i < n / 4 → a.placeKey a.ctx.k ((src j).at (4 * i)) ∉ ks)
      ∧ a.puts 1 (dst j) n v b
      ∧ State.movesApart n src dst m (j + 1) ((List.range (n / 4)).map (fun i => a.placeKey a.ctx.k ((dst j).at (4 * i))) ++ ks) b r

/-- The places that the command of C's ring has written, as it has noted them. -/
def State.written (s : State) : List Nat := (s.curOf s.ctx.k 1).was.map (·.1)

/-- Words read one after the other. -/
def State.reads (s : State) (e : Nat) (src : EA) (ws : List Nat) (r : State) : Prop :=
  chain (fun j s r => s.gets e (src.at (4 * j)) 4 (ws.getD j 0) r) ws.length 0 s r

/-- Words written one after the other. -/
def State.writes (s : State) (e : Nat) (dst : EA) (ws : List Nat) (r : State) : Prop :=
  chain (fun j s r => s.puts e (dst.at (4 * j)) 4 (ws.getD j 0) r) ws.length 0 s r

/-- A run of n bytes at a distance, read through the words that cover it. -/
def State.readsBytes (s : State) (e : Nat) (src : EA) (off n : Nat) (bs : List Byte) (r : State) : Prop :=
  ∃ ws : List Nat, s.reads e (src.at (4 * (off / 4))) ws r ∧ ws.length = (if n = 0 then 0 else (off + n - 1) / 4 - off / 4 + 1)
    ∧ bs = ((ws.map (leBytes 4)).flatten.drop (off % 4)).take n

/-- Row v of a table (R194): base + v * stride modulo 2^64, its w words inside the window. -/
def State.row (s : State) (base : DWord) (stride : DWord) (w v : Nat) (x : EA) : Prop :=
  x.spd = base.getLsbD 63 ∧ x.a = (base.toNat % 2 ^ 52 + v * (stride.toNat % 2 ^ 32)) % 2 ^ 64
    ∧ (x.spd = true → inSpad (isU s.ctx.k) x.a (4 * w) = true)

/-- Entry j of a list of words, read by engine G; a scratchpad entry lies inside the window. -/
def State.listEntry (s : State) (list : DWord) (j v : Nat) (r : State) : Prop :=
  (list.getLsbD 63 = true → inSpad (isU s.ctx.k) (list.toNat % 2 ^ 52 + 4 * j) 4 = true) ∧ s.gets 2 ((eaDword list).at (4 * j)) 4 v r

/-- Compressed blocks loaded into the weight buffer one after the other, each word of a block read once: those that hold its header, then the rest
(R83, R185). -/
def State.loads (wboff : Nat) (src : EA) : List (List Byte) → Nat → State → State → Prop
  | [], _, s, r => r = s
  | b :: rest, off, s, r => ∃ ws vs m n, ws.length = (off + 1) / 4 + 1 - off / 4 ∧ s.reads 0 (src.at (4 * (off / 4))) ws m
      ∧ blockSize (b.getD 1 0).toNat = some b.length ∧ vs.length = (off + b.length - 1) / 4 - (off + 1) / 4
      ∧ m.reads 0 (src.at (4 * ((off + 1) / 4 + 1))) vs n ∧ b = (((ws ++ vs).map (leBytes 4)).flatten.drop (off % 4)).take b.length
      ∧ State.loads wboff src rest (off + b.length)
          (n.modCore (coreOf s.ctx.k) (fun c => { c with wbuf := memWriteN c.wbuf (wboff + off) b })) r

/-- A tile command may run (R180): its strand holds the array lease with a command of its turn left, its tile is of the partition, its version is met, its status element
has room, the format word w, free of reserved values, is the next of the format queue, and no accumulator or weight is poisoned (R352). -/
def State.tileReady (s : State) (hd : Hdr) (t : TileOp) (w : DWord) (rest : List DWord) : Prop :=
  s.cmdReady 0 hd ∧ s.myCore.holder = some s.ctx.k ∧ (s.myCore.turnLeft ≠ 0 ∨ (s.curOf s.ctx.k 0).begun = true) ∧ (s.curOf s.ctx.k 0).fw = none ∧ tileInPart (isU s.ctx.k) t.tile.val = true
    ∧ (t.vc = true → (s.myCore.tile t.tile.val).ver = t.ever) ∧ (t.stat = true → s.me.roomO 3 (1 + s.reserved s.ctx.k 0) = true)
    ∧ s.sameIter s.ctx.k (s.curOf s.ctx.k 0).iter = true ∧ s.me.fmtq = w :: rest ∧ fwOk w = true ∧ s.myCore.mpoison = []

/-- The machine after a tile command that made of the machine m: its tile is y with its version counted, and one command of the lease
turn is done. -/
def State.tileDone (m : State) (n : Nat) (y : Tile) : State :=
  (m.modTile (coreOf m.ctx.k) n (fun _ => { y with ver := y.ver + 1 })).countTurn m.ctx.k

/-- The copy after a tile command: its format word is popped, and under STAT the status element is pushed to o3. -/
def Part.tileCopy (p : Part) (t : TileOp) (rest : List DWord) (y : Tile) (code : Nat) : Part :=
  let p := { p with fmtq := rest }
  if t.stat then p.wrO 3 (p.rdO 3 ++ [statusElement t.tile.val { y with ver := y.ver + 1 } code]) else p

/-- The shepherd engine may perform a step: no exchange of it is open, and its elements are performed whole. -/
def State.stepReady (s : State) (k : Nat) : Prop :=
  Map.find? s.reqs (engWho k 3) = none ∧ Map.find? s.reqs (walkReq (engWho k 3)) = none ∧ s.budget ≠ 0 ∧ s.ctx.room = none
    ∧ s.ctx.pick = none ∧ (s.curOf k 3).seen = []

/-- The step of the program that runs on the core in execution ends with the program as u: its words are read anew for the next. -/
def State.stepEnds (r t : State) (u : Run) : Prop :=
  SameSeen ((r.setRun (coreOf r.ctx.k) (some u)).modCur r.ctx.k 3 (fun c => { c with latch := [] })) t

/-- A run of bytes written one piece after the other, a piece being a word or what of a word lies in the run (R197). -/
def State.writesBytes (s : State) (e : Nat) (y : EA) (bs : List Byte) (r : State) : Prop :=
  chain (fun j s r => ∃ p, (cutAt 4 y.a bs.length)[j]? = some p ∧ s.puts e { y with a := p.1 } p.2 (leVal ((bs.drop (p.1 - y.a)).take p.2)) r)
    (cutAt 4 y.a bs.length).length 0 s r

/-! ### Words the rules of droves use -/

/-- The walker's accesses at DONE for drove n are performed, and the machine is then m (R108): none where DONE is 0 or, its tables at hand, not mapped; else the status dword
and, by one read-modify-write, the counter. -/
def State.doneAt (s : State) (n t dn status code : Nat) (m : State) : Prop :=
  ((dn = 0 ∨ (s.xlate t dn = none ∧ s.tablesAtHand (walkerReq n) t dn)) ∧ m = s)
    ∨ (dn ≠ 0 ∧ s.xlate t dn ≠ none ∧ s.tablesAtHand (walkerReq n) t dn ∧ ∃ a xs g, s.putVa (walkerReq n) t (dn + 8) (leBytes 8 (status + 2 ^ 32 * code)) = .ok () a
        ∧ a.stretches t 64 dn 8 = some xs
        ∧ ({ a with reqs := s.reqs } : State).gate (walkerReq n) t xs xs false (xs.map (fun x => (x.pa, .update 2 true 1 0))) = .done g
        ∧ m = (g.stampAgent true xs).putStretches t xs (leBytes 8 ((leVal ((xs.map g.stretchBytes).flatten) + 1) % 2 ^ 64)))

/-- `t` is `s` after drove n, whose record is that of d, has been reported with a status (R108), once its accesses at DONE are performed: the event of the
launching strand while its iteration lasts, and the interrupt. -/
def State.reports (s t : State) (n : Nat) (d : Drove) (status : Nat) : Prop :=
  ∀ dn ev code m, dn = leVal ((d.record.drop 0x50).take 8) → ev = leVal ((d.record.drop 0x58).take 8) →
    code = (if status = 3 then (d.haltCode.getD 0).toNat else 0) → s.doneAt n d.ten dn status code m →
    (∀ e, Map.find? s.droves n = some e → Map.find? t.droves n = some { e with st := .done, status := status })
    ∧ t.mem = m.mem ∧ t.hostMem = m.hostMem
    ∧ (∀ k it, d.from? = some (k, it) → t.part k = (if ev.testBit 4 = true ∧ s.sameIter k it = true
          then { (s.part k).wrEv (ev % 2 ^ 4) ((s.part k).rdEv (ev % 2 ^ 4) + 1) with sleeping := none } else s.part k)
        ∧ ∀ j, j ≠ k → t.part j = s.part j)
    ∧ (d.from? = none → t.parts = s.parts) ∧ t.bars = s.bars ∧ t.faults = s.faults
    ∧ (ev.testBit 16 = true → (Map.get ⟨true, false⟩ (s.ten d.ten).msix (ev / 2 ^ 8 % 2 ^ 6)).masked = false → (s.ten d.ten).msixOff = false →
        s.portOpen 0 = true → t.pkg.irqs = s.pkg.irqs ++ [(d.ten, ev / 2 ^ 8 % 2 ^ 6)])
    ∧ (ev.testBit 16 = false → t.pkg.irqs = s.pkg.irqs)

/-- The walker reads the counter at an address for drove n: is its threshold met, and the machine then (R108). One that is not mapped, or whose home
refuses, counts as below its threshold. -/
def State.seesCounter (s : State) (n ten a th : Nat) (met : Bool) (m : State) : Prop :=
  (a = 0 ∧ met = true ∧ m = s) ∨ (a ≠ 0 ∧ (∃ f x, s.getVa (walkerReq n) ten a 8 = .fault f x) ∧ met = false ∧ m = s)
    ∨ (a ≠ 0 ∧ ∃ bs x, s.getVa (walkerReq n) ten a 8 = .ok bs x ∧ met = decide (th ≤ leVal bs) ∧ m = { x with reqs := s.reqs })

/-- The pool image of drove n's plane need not wait at a core (R60): it is written already, empty, or, its tables at hand, not mapped or of device memory at
hand. -/
def State.poolFree (s : State) (n : Nat) (d : Drove) (core : Nat) : Prop :=
  (s.core core).pools.contains (b2n d.urgent, n) = true ∨ s.planeVal core d.urgent 0x24 4 % 2 ^ 17 = 0
    ∨ ∀ va len, va = s.planeVal core d.urgent 0x18 8 % 2 ^ 52 → len = s.planeVal core d.urgent 0x24 4 % 2 ^ 17 →
        (∀ v, v ∈ walkVas va len → s.tablesAtHand (walkerReq n) d.ten v)
        ∧ ∀ xs, s.stretches d.ten 64 va len = some xs → s.unhindered (walkerReq n) d.ten xs [] ∧ ∀ x ∈ xs, x.page.hh = false

/-- A copy at iteration start (R28): what it holds but for its rings, handles and plane fields. -/
def Part.started (p : Part) (d : Drove) (n iter lin rank : Nat) : Prop :=
  p.inIter = true ∧ p.iter = iter ∧ p.drove = n ∧ p.lin = lin ∧ p.pc.toNat = leVal ((d.record.drop 8).take 8) % 2 ^ 52 ∧ p.entry = p.pc
    ∧ (∀ i, i < 16 → p.rdA i = BitVec.ofNat 64 (if i < 4 then d.index lin i else if i = 4 then lin else if i = 5 then rank
        else if i < 10 then leVal ((d.record.drop (0x60 + 8 * (i - 6))).take 8) else 0))
    ∧ (∀ i, 8 ≤ i → p.rdH i = Handle.empty) ∧ (∀ i, p.rdStrm i = Strm.unbound) ∧ (∀ i, p.rdP i = if i = 0 then BitVec.allOnes 64 else 0)
    ∧ p.t = [] ∧ p.n = [] ∧ p.leftover = false ∧ p.tok = [] ∧ p.engTok = [] ∧ p.strTok = [] ∧ p.owed = [] ∧ p.pendA = [] ∧ p.pendX = [] ∧ p.pendS = []
    ∧ p.ev = [] ∧ p.lc = [] ∧ p.brb = 0 ∧ p.rstack = [] ∧ p.flags = 0 ∧ p.fences = [] ∧ p.gid.toNat = (rank + 16 * d.gang) % 2 ^ 32
    ∧ p.sleeping = none ∧ p.frozen = false ∧ p.tail = [] ∧ p.flight = [] ∧ p.early = [] ∧ p.ahead = [] ∧ p.pfts = [] ∧ p.soft = []

/-! ### Words the statements about the whole machine use -/

/-- The next step takes action `a`, and acts in `u`: the first of the agenda, or, when it is empty, the one of the agents whose turn it is. -/
def State.picks (s : State) (a : Action) (u : State) : Prop :=
  (∃ rest, s.agenda = a :: rest ∧ u = { s with agenda := rest })
    ∨ (s.agenda = [] ∧ s.round[s.turn % s.round.length]? = some a ∧ u = { s with turn := s.turn + 1 })

end Sys2Proof.Machine

namespace Sys2Proof
open Machine

/-- Is an instruction a command of engine e, with WAIT and SIGNAL bytes the engine takes (R51, R72)? -/
def Instr.isCommandOf (e : Nat) : Instr → Bool
  | .mma .. => e == 0 | .drain .. => e == 0 | .accld .. => e == 0 | .accz .. => e == 0 | .wbld .. => e == 0
  | .copy .. => e == 1 | .copyn .. => e == 1 | .fill .. => e == 1 | .acw .. => e == 1 | .amo .. => e == 1 | .pftt .. => e == 1
  | .pin .. => e == 1 | .unpin .. => e == 1 | .mrgSet .. => e == 1 | .mrgOpen .. => e == 1 | .mrgDep .. => e == 1 | .mrgClose .. => e == 1
  | .flag .. => e == 1 | .resume hd _ => (e == 1 || e == 2) && hd.wfFor e
  | .gath .. => e == 2 | .scat .. => e == 2 | .scata .. => e == 2 | .embag .. => e == 2 | .run .. => e == 3
  | .notify hd _ _ => decide (e < 4) && hd.wfFor e | .engineNop hd => decide (e < 4) && hd.wfFor e
  | .unassignedCommandCode w => (cmdExt e (bits w.toNat 42 6)).isNone
  | _ => false

/-- Is an instruction a step of a shepherd program (R197)? -/
def Instr.isStep : Instr → Bool
  | .send _ => true | .recv _ => true | .rrs _ _ => true | .rrw .. => true | .rcpy _ => true | .kWait => true | .kLoop _ _ => true
  | .peer .. => true | .barc => true | .endp => true | .engineNop hd => hd == ⟨0, 0, 0, 0⟩
  | _ => false

/-- Is an instruction one 64-bit word of a strand's program (R33)? -/
def Instr.isWord : Instr → Bool
  | .unassignedCommandCode _ => false | .resume .. => false | .notify .. => false | .engineNop _ => false
  | i => !isEvent i && !isMessage i && !i.isStep && !(upto 4).any (fun e => i.isCommandOf e)

end Sys2Proof
end

