-- ==== Sys2Proof/Certificates/Slice0/Obligations.lean ====
section
/-! DEFINITION. The statements for the provers. `s.me` is the copy whose instruction is in execution; `s.became t p` says that the machine
`t` is `s` with that copy replaced by `p` and nothing else changed, but for what the issue of every instruction moves (`Part.bare`);
`SameSeen r t` says that `t` shows a program what `r` does: they may differ in caches, directories, meters and timestamps only. -/
section
open Sys2Proof Sys2Proof.Machine

/-! ### The front end -/

/-- BR, BRC, LOOP, LCSET, CALL, RET and JMP complete with the effects of R92 and R93, with the operand from IMM32 or popped from fq
(`Part.fop`): targets are pc + 8 * offset modulo 2^52, LOOP counts down and never below zero, CALL pushes the return address, RET pops
it, JMP counts words from ENTRY modulo 2^32. Nothing else of the machine changes. -/
def Obligations.ControlFlow : Prop :=
  ∀ (s : State) (o : FOp) (v : Word) (p : Part), s.me.fop o = some (v, p) →
    (∃ t a, exec (.br o) s = .next t ∧ isTarget s.me.pc v a ∧ s.became t (p.at a))
    ∧ (∀ (sense c : Bool) (rest : List Bool), s.me.cq = c :: rest →
        ∃ t a, exec (.brc sense o) s = .next t ∧ isTarget s.me.pc (if c = sense then v else 1) a
          ∧ s.became t ({ p with cq := rest }.at a))
    ∧ (∀ lc : Fin 8, ∃ t a, exec (.loop lc o) s = .next t
        ∧ isTarget s.me.pc (if 2 ≤ (s.me.rdLc lc.val).toNat then v else 1) a
        ∧ s.became t ((p.wrLc lc.val (BitVec.ofNat 32 ((s.me.rdLc lc.val).toNat - 1))).at a))
    ∧ (∀ lc : Fin 8, ∃ t, exec (.lcset lc o) s = .next t ∧ s.became t ((p.wrLc lc.val v).at (s.me.pc + 8)))
    ∧ (s.me.rstack.length < 8 →
        ∃ t a, exec (.call o) s = .next t ∧ isTarget s.me.pc v a
          ∧ s.became t ({ p with rstack := (s.me.pc + 8) :: s.me.rstack }.at a))
    ∧ (∀ r rest, s.me.rstack = r :: rest → ∃ t, exec .ret s = .next t ∧ s.became t ({ s.me with rstack := rest }.at r))
    ∧ (∀ w rest bias, s.me.fq = w :: rest →
        ∃ t a, exec (.jmp bias) s = .next t ∧ a.toNat = (s.me.entry.toNat + 8 * ((w.toNat + bias.toNat) % 2 ^ 32)) % 2 ^ 52
          ∧ s.became t ({ s.me with fq := rest }.at a))

/-- R94: NOP, and SLEEP with IMM32 = 0, change nothing but pc. (A strand that issues is not asleep.) -/
def Obligations.NopChangesOnlyPc : Prop :=
  ∀ s : State, (∃ t, exec .nop s = .next t ∧ s.became t (s.me.at (s.me.pc + 8)))
    ∧ (s.me.sleeping = none → ∃ t, exec (.sleep 0) s = .next t ∧ s.became t (s.me.at (s.me.pc + 8)))

/-- BARROT, EVCLR, WAITEV at its threshold, SLEEP, YIELD and FENCE complete: brb rotates modulo bd (R102), the counter is cleared or
reached (R104), the strand sleeps for IMM32 cycles or loses its round and the rest of its lease turn (R109), and the fence is placed
behind the fences not yet satisfied while the front end goes on (R103). -/
def Obligations.FrontEndRegisters : Prop :=
  ∀ s : State,
    (∀ st, ∃ t, exec (.barrot st) s = .next t
      ∧ s.became t ({ s.me with brb := (s.me.brb + st.toNat) % s.me.bd }.at (s.me.pc + 8)))
    ∧ (∀ ev : Fin 16, ∃ t, exec (.evclr ev) s = .next t ∧ s.became t ((s.me.wrEv ev.val 0).at (s.me.pc + 8)))
    ∧ (∀ (ev : Fin 16) (thr : Word), thr.toNat ≤ (s.me.rdEv ev.val).toNat →
        ∃ t, exec (.waitev ev thr) s = .next t ∧ s.became t (s.me.at (s.me.pc + 8)))
    ∧ (∀ n : Word, n ≠ 0 → ∃ t, exec (.sleep n) s = .next t
        ∧ s.became t ({ s.me with sleeping := some (s.cycle + n.toNat) }.at (s.me.pc + 8)))
    ∧ (∃ t, exec .yieldTurn s = .next t
        ∧ (s.modCore (coreOf s.ctx.k) (fun c => if c.holder = some s.ctx.k then { c with turnLeft := 0 } else c)).became t
            ({ s.me with yielded := true }.at (s.me.pc + 8)))
    ∧ (∀ (sc : Scope) (kinds : BitVec 5), (sc = .sys → s.sysOk s.cten = true) →
        ∃ t x, exec (.fence sc kinds) s = .next t
          ∧ x.seq = s.ctx.seq ∧ x.kinds = kinds ∧ x.sc = sc ∧ (∀ e, e < 4 → Map.get 0 x.idx e = (s.me.ring e).prod)
          ∧ s.became t ({ s.me with fences := s.me.fences.filter (fun f => !s.fenceDone s.ctx.k f) ++ [x] }.at (s.me.pc + 8)))

/-- An instruction of the front end whose operand, bit, event or phase is not there yet leaves everything as it stands, pc too, and is
fetched again (R92, R104, R110): BRC and the FB forms on an empty queue, JMP on an empty fq, WAITEV below its threshold, and TRAP, END
and HALT while an older instruction of A, X or S is not done (R95, R96, R97). -/
def Obligations.WaitsHoldIssue : Prop :=
  ∀ s : State,
    (s.me.fq = [] → ∀ (i : Instr), (i = .br .fq ∨ i = .call .fq ∨ (∃ lc, i = .loop lc .fq ∨ i = .lcset lc .fq) ∨ ∃ b, i = .jmp b) →
        ∃ t, exec i s = .next t ∧ s.became t s.me)
    ∧ (s.me.cq = [] → ∀ (sense : Bool) (o : FOp), ∃ t, exec (.brc sense o) s = .next t ∧ s.became t s.me)
    ∧ (∀ (ev : Fin 16) (thr : Word), (s.me.rdEv ev.val).toNat < thr.toNat → ∃ t, exec (.waitev ev thr) s = .next t ∧ s.became t s.me)
    ∧ ((s.me.pendA ≠ [] ∨ s.me.pendX ≠ [] ∨ s.me.pendS ≠ []) →
        ∀ (i : Instr), (i = .endIter ∨ (∃ c, i = .halt c) ∨ ∃ c, i = .trap c) → ∃ t, exec i s = .next t ∧ s.became t s.me)

/-- The objects of this package: BARA arrives, BARW passes a completed phase, BAR does both, and BARCFG sets the member count (R98 to
R100). `key` is the object the reference names; an arrival needs a configured object without pending arrivals of another drove (what names a drove at a pod
object is the model's choice, notes/assumptions/55.md), no pending arrival of this strand, and every older access performed and every older fence
satisfied. The other packages that a completion at a pod object is sent to are the model's reading of R310 (log entry 28). -/
def Obligations.Barriers : Prop :=
  ∀ (s : State) (r : BarRef) (key : Nat),
    s.barKeyOf s.cten (coreOf s.ctx.k) r.scope (r.ob.val + (s.me.brb + r.id.val) % s.me.bd) = some key → barRemote key = false →
    ((s.bar key).c ≠ 0 → ((s.bar key).a ≠ 0 →
        (s.bar key).others s.pkg.pkgid.toNat (s.me.droveId key) = false ∧ s.me.joinedAt key (s.bar key).phase = false) →
      s.released s.ctx.k s.ctx.seq = true →
      ∃ (o : BarObj) (u : State), o.c = (s.bar key).c
        ∧ ((s.bar key).a + 1 = (s.bar key).c → o.a = 0 ∧ o.phase = (s.bar key).phase + 1 ∧ o.srcs = []
          ∧ u = (s.bar key).srcs.foldl (fun u p => u.transmit p (r.ob.val + (s.me.brb + r.id.val) % s.me.bd) (.release s.cten
              (r.ob.val + (s.me.brb + r.id.val) % s.me.bd) ((s.bar key).phase + 1))) (s.setBar key o))
        ∧ ((s.bar key).a + 1 ≠ (s.bar key).c → o.a = (s.bar key).a + 1 ∧ o.phase = (s.bar key).phase
          ∧ o.drove = Map.put (s.bar key).drove s.pkg.pkgid.toNat (s.me.droveId key) ∧ o.srcs = (s.bar key).srcs ∧ u = s.setBar key o)
        ∧ (∃ t, exec (.bara r) s = .next t ∧ u.became t
            ({ s.me with joined := Map.put s.me.joined key ((s.bar key).phase, s.me.iter) }.at (s.me.pc + 8)))
        ∧ (s.me.barArrived = none → (s.bar key).a + 1 = (s.bar key).c →
            ∃ t, exec (.bar r) s = .next t ∧ u.became t
              ({ s.me with joined := Map.put s.me.joined key ((s.bar key).phase, s.me.iter) }.at (s.me.pc + 8))))
    ∧ (∀ ph, (s.bar key).c ≠ 0 → Map.find? s.me.joined key = some (ph, s.me.iter) → ph < (s.bar key).phase →
        (∃ t, exec (.barw r) s = .next t ∧ s.became t (s.me.at (s.me.pc + 8)))
        ∧ (s.me.barArrived.isSome = true → ∃ t, exec (.bar r) s = .next t ∧ s.became t ({ s.me with barArrived := none }.at (s.me.pc + 8))))
    ∧ (∀ n : BitVec 21, n ≠ 0 → n.toNat ≤ 2 ^ 20 → ((s.bar key).a = 0 ∨ (s.bar key).c = n.toNat) →
        ∃ t, exec (.barcfg r n) s = .next t
          ∧ (s.setBar key { s.bar key with c := n.toNat }).became t (s.me.at (s.me.pc + 8)))

/-- END and HALT end the iteration once the units are quiet and no ring holds them (R95, R96, R288): every queue of the copy is empty
and it is in no iteration, its registers stand, the drove counts the strand out; END asks that no queue was left over (R21), HALT does
not, keeps the first code, and makes the other strands of the gang stop. (Of a quiet copy no access is under way. That the tokens of TKS outlive
END and HALT in the engines is the model's reading of R96 and R355: log entry 29.) LAUNCH with its release met copies the 128 bytes of its record out of scratchpad and hands them to the walker of its die as a new
drove that is still to be validated (R106, R356). The rest of the machine stays, but for the strand's logical clock. -/
def Obligations.EndHaltAndLaunch : Prop :=
  (∀ s : State, s.me.quiet = true → s.ringsHold s.ctx.k = false →
    (∀ u, u = 1 ∨ u = 3 → s.inExchange s.ctx.k u = false ∧ Map.find? s.me.flight u = none) →
    (s.me.leftover = false → ∃ t, exec .endIter s = .next t ∧ t.me.inIter = false ∧ t.me.leftover = false
      ∧ ((s.clearUnits s.ctx.k).modDrove s.me.drove (·.leave s.me.lin)).became t (s.me.discard false false))
    ∧ (∀ code, ∃ t, exec (.halt code) s = .next t ∧ t.me.inIter = false ∧ t.me.leftover = false
      ∧ (∀ d, Map.find? s.droves s.me.drove = some d →
          ∃ d', Map.find? t.droves s.me.drove = some d' ∧ d'.haltCode = some (d.haltCode.getD code) ∧ d'.live = (d.leave s.me.lin).live)
      ∧ ((((s.modDrove s.me.drove (·.halt code)).stopGang s.ctx.k).clearUnits s.ctx.k).modDrove s.me.drove
          (·.leave s.me.lin)).became t (s.me.discard false false)))
  ∧ (∀ (s : State) (sc : Scope) (off : Word),
    s.me.older 3 s.ctx.seq = false → s.me.olderAccess 1 s.ctx.seq = false → s.clear s.ctx.k s.ctx.seq = true → off.toNat % 128 = 0 →
    inSpad (isU s.ctx.k) off.toNat 128 = true → (sc = .sys → s.sysOk s.cten = true) →
    s.myCore.padParts off.toNat 128 = [] → s.myCore.spadBad off.toNat 128 = false → Map.find? s.reqs (s.ctx.k * 8) = none →
    Map.find? s.reqs (walkReq (s.ctx.k * 8)) = none → Map.find? s.me.flight 0 = none → s.inParts 8 = false →
    ∃ t d, exec (.launch sc off) s = .next t ∧ Map.find? t.droves s.nextDrove = some d
      ∧ d.record = s.bytesAt (.spad (coreOf s.ctx.k)) off.toNat 128 ∧ d.st = .submitted ∧ d.sc = sc ∧ d.ten = s.cten
      ∧ d.die = dieOf (coreOf s.ctx.k) ∧ d.from? = some (s.ctx.k, s.me.iter) ∧ d.live = [] ∧ d.haltCode = none
      ∧ t.me.bare = ({ s.me with pts := t.me.pts }.at (s.me.pc + 8)).bare
      ∧ SameSeen ({ s with droves := Map.put s.droves s.nextDrove d, nextDrove := s.nextDrove + 1 }.setPart s.ctx.k t.me) t)

/-! ### The access unit -/

/-- The fourteen AA instructions (R133): sources in order S1, S2 (R46), the result over the integers wrapped to 64 bits or bit by bit,
delivered as R45 fixes. Nothing else of the machine changes. -/
def Obligations.AddressArithmetic : Prop :=
  ∀ (i : Instr) (o : AaArgs) (s : State), aaArgsOf i = some o → s.readyIn 1 o.tk →
    ASrc.pops o.s1 + ASrc.pops o.s2 ≤ s.me.xa.length → s.me.roomA o.dst = true →
    ∃ t x y r, exec i s = .next t
      ∧ x = (s.me.readA o.imm o.s1).1 ∧ y = ((s.me.readA o.imm o.s1).2.readA o.imm o.s2).1
      ∧ (∀ z, aaInt x.toInt y.toInt (s.me.oldDst o.dst).toInt i = some z → r = BitVec.ofInt 64 z)
      ∧ (∀ j b, aaBit (x.getLsbD j) (y.getLsbD j) i = some b → r.getLsbD j = b)
      ∧ s.became t ((((s.me.readA o.imm o.s1).2.readA o.imm o.s2).2.deliver o.dst (vecOf64 r)).at s.pcAfter)

/-- R46: the AA sources a0 to a15, IMM32 sign-extended, lane 0 of an element of xa as a signed word, lanes 0 and 1 of an element as one
64-bit value with lane 0 low, and zero; the codes 0 to 18 and 31 name them and 19 to 30 are reserved; two pops take two elements in
order. -/
def Obligations.AccessSources : Prop :=
  (∀ (p : Part) (imm : Word) (a b : Vec) (rest : List Vec), p.xa = a :: b :: rest →
    (∀ r, p.readA imm (.a r) = (p.rdA r.val, p)) ∧ (p.readA imm .imm).1.toInt = imm.toInt ∧ (p.readA imm .imm).2 = p
    ∧ (p.readA imm .xaWord).1.toInt = (lane a 0).toInt ∧ (p.readA imm .xaWord).2 = { p with xa := b :: rest }
    ∧ (p.readA imm .xaPair).1.toNat = (lane a 0).toNat + 2 ^ 32 * (lane a 1).toNat ∧ (p.readA imm .xaPair).2 = { p with xa := b :: rest }
    ∧ p.readA imm .zero = (0, p)
    ∧ ((p.readA imm .xaWord).2.readA imm .xaPair).1.toNat = (lane b 0).toNat + 2 ^ 32 * (lane b 1).toNat
    ∧ ((p.readA imm .xaPair).2.readA imm .xaWord).1.toInt = (lane b 0).toInt
    ∧ ((p.readA imm .xaPair).2.readA imm .xaWord).2 = { p with xa := rest })
  ∧ (∀ n : Fin 16, ASrc.ofCode n.val = some (.a n)) ∧ ASrc.ofCode 16 = some .imm ∧ ASrc.ofCode 17 = some .xaWord
  ∧ ASrc.ofCode 18 = some .xaPair ∧ (∀ n, 19 ≤ n → n ≤ 30 → ASrc.ofCode n = none) ∧ ASrc.ofCode 31 = some .zero

/-- LD through a VALID handle whose address passes R112 delivers the bytes read (R114, R45): the queue or register takes the element,
FC empties granules, the leaf entry gets ACC, the strand's clock advances, and nothing else changes that a program sees. A load that was performed ahead of
its turn, as R226 lets plain loads of host memory be, delivers what it read then. -/
def Obligations.LoadDelivers : Prop :=
  (∀ (o : LdArgs) (s : State) (bs : List Byte), s.readyIn 1 o.tk → Map.find? s.me.early s.ctx.seq = some bs → s.me.roomA o.dst = true →
    ∃ t, exec (.ld o) s = .next t ∧ s.became t ((s.me.deliver o.dst (vecOfBytes bs)).at s.pcAfter))
  ∧ (∀ (o : LdArgs) (s : State) (pg : PageInfo) (a : Nat), s.readyIn 1 o.tk → Map.find? s.me.early s.ctx.seq = none → Map.find? s.me.flight 1 = none →
    (s.me.rdH o.h.val).st = .valid → (s.me.rdH o.h.val).page = pg → a = eaOf pg.vbase (s.me.rdAo o.ix) o.sh.val o.off →
    s.accessCheck s.ctx.k o.h.val pg o.sz o.tap.val false o.sys a = none → s.me.roomA o.dst = true →
    s.mayPlain s.ctx.k 1 s.ctx.seq o.sys (pg, [(a, s.spanOf s.cten pg o.sz)]) = true →
    (o.fw = true → s.fullAt s.ctx.k o.sz [a] = true) → s.readFree pg o.sz a →
    (o.fc = false → s.inParts (s.ldGroups s.ctx.k pg a (s.spanOf s.cten pg o.sz)).length = false) →
    ∃ t bs, exec (.ld o) s = .next t ∧ s.isLoad (o.sys || o.fw) pg o.sz o.tap.val a bs
      ∧ t.me.bare = ({ s.me.deliver o.dst (vecOfBytes bs) with pts := t.me.pts }.at s.pcAfter).bare
      ∧ SameSeen (((s.touchLeaf pg false).clearedFor o.fc o.sz [a]).setPart s.ctx.k t.me) t)

/-- LDX reads at the 64 lane addresses in the same way, lane i of the result from the address of lane i, and pops its element of xa
(R118). LDS delivers the element at ADDR of a bound stream with elements left, wherever its bytes lie on one or two pages, and the stream
advances by STRIDE and counts down (R125). -/
def Obligations.LaneAndStreamLoadsDeliver : Prop :=
  (∀ (o : LdArgs) (s : State) (pg : PageInfo) (v : Vec) (rest : List Vec) (eas : List Nat), s.readyIn 1 o.tk → s.me.xa = v :: rest →
    (s.me.rdH o.h.val).st = .valid → (s.me.rdH o.h.val).page = pg → eas = laneEas pg.vbase v o.sh.val o.off →
    s.lanesCheck s.ctx.k o.h.val pg o.sz o.tap.val false o.sys eas = none → s.me.roomA o.dst = true →
    s.mayPlain s.ctx.k 1 s.ctx.seq o.sys (pg, eas.map (fun a => (a, s.spanOf s.cten pg o.sz))) = true → Map.find? s.me.flight 1 = none →
    (o.fw = true → s.fullAt s.ctx.k o.sz eas = true) → (o.fc = true ∨ s.budget ≠ 0 ∨ s.ctx.first = true) →
    (if pg.ps = 3 then ∀ a ∈ eas, s.readFree pg o.sz a
      else s.unhindered (s.ctx.k * 8 + 1) s.cten (eas.map (fun a => ⟨pg, a, s.spanOf s.cten pg o.sz⟩)) []) →
    ∃ t w, exec (.ldx o) s = .next t
      ∧ (∀ i, i < 64 → ∃ bs, s.isLoad (o.sys || o.fw) pg o.sz o.tap.val (eas.getD i 0) bs ∧ (lane w i).toNat = leVal bs % 2 ^ 32)
      ∧ t.me.bare = ({ s.me.deliver o.dst w with xa := rest, pts := t.me.pts }.at s.pcAfter).bare
      ∧ SameSeen (((s.touchLeaf pg false).clearedFor o.fc o.sz eas).setPart s.ctx.k t.me) t)
  ∧ (∀ (tk : Tk) (dst : ADst) (sn : Fin 8) (s : State) (st : Strm) (xs : List Stretch), s.readyIn 1 tk → s.me.rdStrm sn.val = st →
    st.bnd = true → st.left ≠ 0 → (st.esz.isVec = true → dst.scalar = false) →
    s.mapRange s.cten 2 st.addr.toNat (szBytes st.esz) = .ok xs → s.streamCheck s.cten st.esz st.addr.toNat xs = none →
    s.me.roomA dst = true → s.mayElem s.ctx.k xs = true → Map.find? s.me.flight 1 = none →
    (∀ v, v ∈ walkVas st.addr.toNat (szBytes st.esz) → s.tablesAtHand (s.ctx.k * 8 + 1) s.cten v) → s.inParts (lineStretches (s.elemStretches s.cten xs)).length = false →
    s.unhindered (s.ctx.k * 8 + 1) s.cten (s.elemStretches s.cten xs) [] →
    ∃ t bs, exec (.lds tk dst sn) s = .next t
      ∧ ((∀ x ∈ xs, x.page.cl ≠ 3 ∧ x.page.ps ≠ 3) → (s.me.ahead = [] ∨ ∀ x ∈ xs, x.page.hh = false) → bs = (xs.map s.stretchBytes).flatten)
      ∧ (∀ x, xs = [x] → s.isLoad false x.page st.esz 0 st.addr.toNat bs)
      ∧ t.me.bare = ({ (s.me.deliver dst (vecOfBytes bs)).wrStrm sn.val
            { st with addr := st.addr + st.stride.signExtend 52, left := st.left - 1 } with pts := t.me.pts }.at s.pcAfter).bare
      ∧ SameSeen ((xs.foldl (fun s x => s.touchLeaf x.page false) s).setPart s.ctx.k t.me) t)

/-- SA and SAX put the checked address, or the 64 lane addresses, with the translation they were checked against at the end of aq; SAX
pops its element of xa (R119, R120). PFT completes whatever its operands (R121, R212): it takes no place in S, moves no register, raises no fault, and leaves every byte of
device and host memory, the accessed bits of its page among them. Through another handle than h0 it moves only copies in caches. Through a handle
that is not VALID, or misaligned, it does nothing. (Of a copy with no prefetch under way no exchange of one is open.) -/
def Obligations.StoreAddressesAndPrefetch : Prop :=
  (∀ (o : SaArgs) (s : State) (pg : PageInfo), s.readyIn 1 o.tk → (s.me.rdH o.h.val).st = .valid → (s.me.rdH o.h.val).page = pg →
    s.me.aq.length < 64 → Map.find? s.reqs (walkReq (s.ctx.k * 8 + 1)) = none →
    (∀ a, a = eaOf pg.vbase (s.me.rdAo o.ix) o.sh.val o.off → s.accessCheck s.ctx.k o.h.val pg o.sz 0 true o.sys a = none →
      (pg.ps = 3 → s.padTables (s.ctx.k * 8 + 1) s.cten (coreOf s.ctx.k) a (szBytes o.sz)) →
      ∃ t e, exec (.sa o) s = .next t ∧ e.scatter = false ∧ e.addrs = [a] ∧ e.h = o.h ∧ e.page = pg ∧ e.sz = o.sz ∧ e.na = o.na
        ∧ e.sys = o.sys ∧ s.became t ({ s.me with aq := s.me.aq ++ [e] }.at s.pcAfter))
    ∧ (∀ v rest, s.me.xa = v :: rest →
      s.lanesCheck s.ctx.k o.h.val pg o.sz 0 true o.sys (laneEas pg.vbase v o.sh.val o.off) = none →
      (pg.ps = 3 → ∀ a, a ∈ laneEas pg.vbase v o.sh.val o.off → s.padTables (s.ctx.k * 8 + 1) s.cten (coreOf s.ctx.k) a (szBytes o.sz)) →
      ∃ t e, exec (.sax o) s = .next t ∧ e.scatter = true
        ∧ (∀ i, i < 64 → e.addrs.getD i 0 = eaOf pg.vbase ((lane v i).signExtend 64) o.sh.val o.off) ∧ e.h = o.h ∧ e.page = pg
        ∧ e.sz = o.sz ∧ e.na = o.na ∧ e.sys = o.sys
        ∧ s.became t ({ s.me with aq := s.me.aq ++ [e], xa := rest }.at s.pcAfter)))
  ∧ (∀ (o : PftArgs) (s : State), s.readyIn 1 o.tk →
    (s.me.pfts = [] → Map.find? s.reqs (pftReq s.ctx.k) = none ∧ Map.find? s.reqs (walkReq (pftReq s.ctx.k)) = none) →
    ∃ t, exec (.pft o) s = .next t ∧ t.me.bare = (s.me.at s.pcAfter).bare ∧ (∀ j, j ≠ s.ctx.k → t.part j = s.part j)
      ∧ t.droves = s.droves ∧ t.bars = s.bars ∧ t.faults = s.faults ∧ t.gts = s.gts ∧ t.mem = s.mem ∧ t.hostMem = s.hostMem
      ∧ (o.h ≠ 0 → ∀ c, (t.core c).bare = (s.core c).bare)
      ∧ (∀ a, a = eaOf (s.me.rdH o.h.val).base (s.me.rdAo o.ix) o.sh.val o.off → o.h ≠ 0 → s.me.pfts = [] →
          s.heldBack s.cten ⟨(s.me.rdH o.h.val).page, a, szBytes o.sz⟩ = false → s.unhindered (pftReq s.ctx.k) s.cten [⟨{ (s.me.rdH o.h.val).page with ps := 3 }, a, szBytes o.sz⟩] [] → SameSeen (s.setPart s.ctx.k t.me) t)
      ∧ ((s.me.rdH o.h.val).st ≠ .valid → s.became t (s.me.at s.pcAfter)))

/-- XLT starts a translation of a[A1] that ends 24 cycles from now, HDROP empties the handle, and HQRY delivers its descriptor without
waiting (R10, R11, R122, R123). h0 does not change and reads VALID with page size 3. SBIND binds a stream to aligned ADDR and STRIDE (R124), SSKIP advances it by min(n, LEFT) elements and SFREE makes it unbound with
zero fields (R126). -/
def Obligations.HandlesAndStreams : Prop :=
  (∀ (s : State) (tk : Tk) (h : Fin 32), s.readyIn 1 tk →
    (∀ ra : Fin 16, ∃ t p, exec (.xlt tk h ra) s = .next t ∧ s.became t (p.at s.pcAfter)
      ∧ (h = 0 → p = s.me)
      ∧ (h ≠ 0 → p = { s.me with h := Map.put s.me.h h.val ⟨.pending, (s.me.rdA ra.val).toNat, PageInfo.none, s.cycle + 24, false⟩ }))
    ∧ (∃ t p, exec (.hdrop tk h) s = .next t ∧ s.became t (p.at s.pcAfter) ∧ (h = 0 → p = s.me)
      ∧ (h ≠ 0 → p = { s.me with h := Map.put s.me.h h.val Handle.empty }))
    ∧ (∀ dst, s.me.roomA dst = true → ∃ t d x, exec (.hqry tk dst h) s = .next t ∧ x = s.me.rdH h.val
      ∧ s.became t ((s.me.deliver dst (vecOf64 (BitVec.ofNat 64 d))).at s.pcAfter)
      ∧ bits d 0 3 = (match x.st with | .empty => 0 | .pending => 1 | .valid => 2 | .absent => 3 | .stale => 4)
      ∧ (h = 0 → d = 2 + 3 * 2 ^ 3) ∧ (x.st = .empty → d = 0)
      ∧ (x.st = .pending ∨ x.st = .absent → bits d 3 13 = 0 ∧ bits d 16 36 = x.va / 2 ^ 16 % 2 ^ 36 ∧ d / 2 ^ 52 = 0)
      ∧ (h ≠ 0 → x.st = .valid ∨ x.st = .stale → x.page.ps < 4 → x.page.cl < 4 → x.page.rgn < 256 →
          bits d 3 2 = x.page.ps ∧ bits d 5 3 = x.page.cl ∧ bits d 8 1 = b2n x.page.w ∧ bits d 9 1 = b2n x.page.hh ∧ bits d 10 6 = 0
          ∧ bits d 16 36 = x.page.vbase / 2 ^ 16 % 2 ^ 36 ∧ d / 2 ^ 52 = x.page.rgn)))
  ∧ (∀ (s : State) (tk : Tk) (sn : Fin 8), s.readyIn 1 tk →
    (∀ (ra : Fin 16) (rs : Option (Fin 16)) (cnt : Cnt) (sz : Size) (stride : Word),
      stride = (match rs with | some r => (s.me.rdA r.val).setWidth 32 | none => BitVec.ofNat 32 (szBytes sz)) →
      (s.me.rdA ra.val).toNat % 2 ^ 52 % szAlign sz = 0 → stride.toNat % szAlign sz = 0 →
      ∃ t, exec (.sbind tk sn ra rs cnt sz) s = .next t
        ∧ s.became t ((s.me.wrStrm sn.val ⟨true, (s.me.rdA ra.val).setWidth 52, stride, s.me.count cnt, sz⟩).at s.pcAfter))
    ∧ (∀ cnt, (s.me.rdStrm sn.val).bnd = true →
      ∃ t j, exec (.sskip tk sn cnt) s = .next t ∧ j = min (s.me.count cnt).toNat (s.me.rdStrm sn.val).left.toNat
        ∧ ∃ st : Strm, s.became t ((s.me.wrStrm sn.val st).at s.pcAfter) ∧ st.bnd = true ∧ st.esz = (s.me.rdStrm sn.val).esz
          ∧ st.stride = (s.me.rdStrm sn.val).stride ∧ st.left.toNat = (s.me.rdStrm sn.val).left.toNat - j
          ∧ (st.addr.toNat : Int) = ((s.me.rdStrm sn.val).addr.toNat + j * (s.me.rdStrm sn.val).stride.toInt) % 2 ^ 52)
    ∧ (∃ t, exec (.sfree tk sn) s = .next t ∧ s.became t ((s.me.wrStrm sn.val ⟨false, 0, 0, 0, .b⟩).at s.pcAfter)))

/-- PDBIND with the checks of R127 passed binds an entry with no line present or dirty and every granule of its range full; PDFLUSH
leaves every line of a bound entry clean and PDUNBIND frees the entry, once older stores are performed and older fences satisfied and where
every dirty line is mapped; on an entry that is not bound both do nothing (R129, R130). No byte changes: a paddock word is the global word (R225). FESET sets and FECLR clears the full/empty bits of its granules, those inside a bound paddock staying full, and FETEST delivers the
bit (R22, R131); an address must be a multiple of 16 and the granules inside the window (R131). -/
def Obligations.PaddocksAndFullBits : Prop :=
  (∀ (s : State) (tk : Tk) (pd : Fin 64), s.readyIn 1 tk →
    (∀ (rs rg : Fin 16) (lines : BitVec 28),
      s.me.olderAccess 3 s.ctx.seq = false → s.fenced s.ctx.k s.ctx.seq = false →
      s.bindCheck (coreOf s.ctx.k) (isU s.ctx.k) pd.val ((s.me.rdA rs.val).toNat % 2 ^ 22) (s.me.rdA rg.val).toNat lines.toNat = none →
      ∃ t e, exec (.pdbind tk pd rs rg lines) s = .next t
        ∧ (s.setCore (coreOf s.ctx.k) { s.myCore with
            pd := Map.put s.myCore.pd pd.val ⟨(s.me.rdA rs.val).toNat % 2 ^ 22, (s.me.rdA rg.val).toNat, lines.toNat, []⟩
            empties := e }).became t (s.me.at s.pcAfter)
        ∧ ∀ g, t.myCore.full g = true ∨ (t.myCore.full g = s.myCore.full g ∧ g ∉ granules ((s.me.rdA rs.val).toNat % 2 ^ 22) (64 * lines.toNat)))
    ∧ (pdInPart (isU s.ctx.k) pd.val = true → s.me.olderAccess 3 s.ctx.seq = false → s.fenced s.ctx.k s.ctx.seq = false →
      Map.find? s.reqs (walkReq (s.ctx.k * 8 + 1)) = none →
      (Map.find? s.myCore.pd pd.val = none →
        (∃ t, exec (.pdflush tk pd) s = .next t ∧ s.became t (s.me.at s.pcAfter))
        ∧ (∃ t, exec (.pdunbind tk pd) s = .next t ∧ s.became t (s.me.at s.pcAfter)))
      ∧ (∀ p, Map.find? s.myCore.pd pd.val = some p →
        (∀ e ∈ p.st, e.2.dirty ≠ 0 → s.tablesAtHand (s.ctx.k * 8 + 1) s.cten (p.glob + 64 * e.1) ∧ ∃ g, s.xlate s.cten (p.glob + 64 * e.1) = some g
          ∧ s.held (s.ctx.k * 8 + 1) s.cten true ⟨g, p.glob + 64 * e.1, 64⟩ = false) →
        (∃ t q, exec (.pdflush tk pd) s = .next t ∧ q.spad = p.spad ∧ q.glob = p.glob ∧ q.lines = p.lines
          ∧ (∀ j, (q.line j).dirty = 0 ∧ (q.line j).present = (p.line j).present)
          ∧ (s.setCore (coreOf s.ctx.k) { s.myCore with pd := Map.put s.myCore.pd pd.val q }).became t (s.me.at s.pcAfter))
        ∧ (∃ t, exec (.pdunbind tk pd) s = .next t ∧ Map.find? t.myCore.pd pd.val = none
          ∧ (∀ j, j ≠ pd.val → Map.find? t.myCore.pd j = Map.find? s.myCore.pd j)
          ∧ (s.setCore (coreOf s.ctx.k) { s.myCore with pd := t.myCore.pd }).became t (s.me.at s.pcAfter)))))
  ∧ (∀ (s : State) (tk : Tk) (n : Fin 64) (base : Option (Fin 16)) (off : BitVec 28), s.readyIn 1 tk →
    s.me.feOff base off % 16 = 0 → s.fenced s.ctx.k s.ctx.seq = false →
    (inSpad (isU s.ctx.k) (s.me.feOff base off) (16 * (n.val + 1)) = true →
      (s.me.olderAccess 3 s.ctx.seq = false → ∃ t e, exec (.feset tk n base off) s = .next t
        ∧ (s.setCore (coreOf s.ctx.k) { s.myCore with empties := e }).became t (s.me.at s.pcAfter)
        ∧ ∀ g, t.myCore.full g = (s.myCore.full g
            || (decide (s.me.feOff base off / 16 ≤ g) && decide (g ≤ s.me.feOff base off / 16 + n.val))))
      ∧ (∃ t e, exec (.feclr tk n base off) s = .next t
        ∧ (s.setCore (coreOf s.ctx.k) { s.myCore with empties := e }).became t (s.me.at s.pcAfter)
        ∧ ∀ g, t.myCore.full g = (s.myCore.padIn (g * 16) 16 || (s.myCore.full g
            && !(decide (s.me.feOff base off / 16 ≤ g) && decide (g ≤ s.me.feOff base off / 16 + n.val))))))
    ∧ (∀ dst, inSpad (isU s.ctx.k) (s.me.feOff base off) 16 = true → s.me.roomA dst = true →
      ∃ t, exec (.fetest tk dst base off) s = .next t
        ∧ s.became t ((s.me.deliver dst (vecOf64 (if s.myCore.full (s.me.feOff base off / 16) then 1 else 0))).at s.pcAfter)))

/-- CTLR delivers the control register of its index, zero-extended, and CTLW writes fmth, rmode, flags or lrun, reserved bits ignored
(R14, R16, R134). TKW takes n tokens that the engine pushed to the strand, together; TKS pushes n towards the engine, where they fit at once (R132,
R170). -/
def Obligations.ControlRegistersAndTokens : Prop :=
  (∀ (s : State) (tk : Tk), s.readyIn 1 tk →
    (∀ (dst : ADst) (ix : Fin 8), s.me.roomA dst = true → (ix = 6 → s.me.older 2 s.ctx.seq = false ∧ s.me.older 3 s.ctx.seq = false) →
      ∃ t v, exec (.ctlr tk dst ix) s = .next t ∧ s.became t ((s.me.deliver dst (vecOf64 v)).at s.pcAfter)
        ∧ v.toNat = (match ix with
            | 0 => s.me.fmth.toNat | 1 => s.me.rmode.toNat | 2 => (sidOf s.ctx.k).toNat | 3 => s.me.gid.toNat | 4 => s.cten % 2 ^ 64
            | 5 => s.me.pts.toNat | 6 => s.me.flags.toNat | 7 => s.me.lrun.toNat))
    ∧ (∀ (ix : Fin 8) (src : Option (Fin 16)), s.me.usesCtl s.ctx.seq ix.val = false →
      ∃ t p, exec (.ctlw tk ix src) s = .next t ∧ s.became t (p.at s.pcAfter)
        ∧ (ix = 0 → p = { s.me with fmth := (s.me.rdAo src).setWidth 32 })
        ∧ (ix = 1 → p = { s.me with rmode := (s.me.rdAo src).setWidth 32 &&& 3 })
        ∧ (ix = 6 → p = { s.me with flags := (s.me.rdAo src).setWidth 32 &&& 0x7F })
        ∧ (ix = 7 → p = { s.me with lrun := (s.me.rdAo src).setWidth 32 &&& 0x7F })))
  ∧ (∀ (s : State) (tk : Tk) (e : Fin 4),
    (∀ n : BitVec 28, s.readyIn 1 tk → n.toNat ≤ Map.get 0 s.me.engTok e.val →
      ∃ t, exec (.tkw tk e n) s = .next t
        ∧ s.became t ({ s.me with engTok := Map.put s.me.engTok e.val (Map.get 0 s.me.engTok e.val - n.toNat) }.at s.pcAfter))
    ∧ (∀ n : Fin 32, s.readyIn 3 tk → s.mayPush s.ctx.k s.ctx.seq = true → Map.get 0 s.me.owed 8 = 0 →
      Map.get 0 s.me.strTok e.val + (n.val + 1) ≤ 32 →
      ∃ t, exec (.tks tk e n) s = .next t
        ∧ s.became t ({ s.me with strTok := Map.put s.me.strTok e.val (Map.get 0 s.me.strTok e.val + (n.val + 1)) }.at s.pcAfter)))

/-! ### The execute unit -/

/-- R17, R47: a result enters t0 and shifts the queue, the old t15 is dropped, and it goes to the named vector, to sd or xa, as one bit to
cq, or as a predicate with bit i for a lane i that is not zero; destination 63 leaves everything, and p0 reads all ones whatever was
written. Sources read the queue as it stood before, pop q0 to q3, qs and o0 to o3, or give the lane ids and the broadcast of IMM16. -/
def Obligations.ResultQueue : Prop :=
  (∀ (p : Part) (d : XDst) (m : DWord) (v : Vec),
    (d = .none → p.deliverX d m v = p)
    ∧ (d ≠ .none → (p.deliverX d m v).rdT 0 = v ∧ (∀ k, k < 15 → (p.deliverX d m v).rdT (k + 1) = p.rdT k)
        ∧ ∀ k, 16 ≤ k → (p.deliverX d m v).rdT k = zeroVec)
    ∧ (∀ k : Fin 16, (p.deliverX d m v).rdN k.val = if d = .n k then v else p.rdN k.val)
    ∧ (p.deliverX d m v).sd = p.sd ++ (if d = .sd then [v] else []) ∧ (p.deliverX d m v).xa = p.xa ++ (if d = .xa then [v] else [])
    ∧ (d ≠ .cq → (p.deliverX d m v).cq = p.cq)
    ∧ (d = .cq → ∃ b, (p.deliverX d m v).cq = p.cq ++ [b] ∧ (b = true ↔ ∃ l, l < 64 ∧ m.getLsbD l = true ∧ lane v l ≠ 0))
    ∧ (∀ (k : Nat) (i : Nat), i < 64 → (((p.deliverX d m v).rdP k).getLsbD i = true ↔
        (k = 0 ∨ ((∃ j : Fin 7, d = .p j ∧ k = j.val + 1) ∧ lane v i ≠ 0)
          ∨ (¬(∃ j : Fin 7, d = .p j ∧ k = j.val + 1) ∧ (p.rdP k).getLsbD i = true)))))
  ∧ (∀ (p0 p : Part) (ty : Ty) (imm : BitVec 16) (v : Vec) (w : Word) (l : List Vec) (ws : List Word),
    (∀ k : Fin 16, p0.readX ty imm (.t k) p = (p0.rdT k.val, p) ∧ p0.readX ty imm (.n k) p = (p0.rdN k.val, p))
    ∧ (∀ k : Fin 4, p.rdQ k.val = v :: l → (p0.readX ty imm (.q k) p).1 = v ∧ (p0.readX ty imm (.q k) p).2 = p.wrQ k.val l)
    ∧ (∀ k : Fin 4, p.rdO k.val = v :: l → (p0.readX ty imm (.o k) p).1 = v ∧ (p0.readX ty imm (.o k) p).2.bare = (p.wrO k.val l).bare)
    ∧ (p.qs = w :: ws → (∀ i, i < 64 → lane (p0.readX ty imm .qs p).1 i = w) ∧ (p0.readX ty imm .qs p).2 = { p with qs := ws })
    ∧ (∀ i, i < 64 → lane (p0.readX ty imm .lane p).1 i = BitVec.ofNat 32 i ∧ lane (p0.readX ty imm .zero p).1 i = 0)
    ∧ (∀ i, i < 64 → lane (p0.readX .f32 imm .imm p).1 i = imm ++ (0 : BitVec 16) ∧ lane (p0.readX .bf16 imm .imm p).1 i = imm ++ imm
        ∧ (lane (p0.readX .i32 imm .imm p).1 i).toInt = imm.toInt ∧ (lane (p0.readX .u32 imm .imm p).1 i).toNat = imm.toNat))

/-- IADD to ISHR complete for every type: each element of an active lane is the exact result over the integers, clamped under .sat and
wrapped otherwise, and SAT is raised exactly when an active element was clamped (R136, R147). -/
def Obligations.IntegerArithmetic : Prop :=
  ∀ (i : Instr) (o : XArgs) (s : State) (a b c : Vec) (q : Part), xArgsOf i = some o → (intOf 0 0 0 i).isSome = true → s.readyIn 2 o.tk →
    s.me.readyX s.ctx.seq o = true → s.me.readSrcs o = (a, b, c, q) →
    ∃ t v fl, exec i s = .next t ∧ s.xLanes t o v fl
      ∧ (∀ l j z, s.active o l → j < perLane o.ty → intOf (elemAt o.ty a l j) (elemAt o.ty b l j) (elemAt o.ty c l j) i = some z →
          elemAt o.ty v l j = intoRange o.ty o.sat z)
      ∧ (fl = 0 ∨ fl = 16)
      ∧ (fl = 16 ↔ o.sat = true ∧ ∃ l j z, s.active o l ∧ j < perLane o.ty
          ∧ intOf (elemAt o.ty a l j) (elemAt o.ty b l j) (elemAt o.ty c l j) i = some z ∧ outside o.ty z)

/-- AND, OR, XOR and ANDN work bit by bit, POPC counts set bits and CLZ leading zeros of a lane, and ICMP writes all ones of the element's
width where its condition holds (R70, R147). None raises a flag. -/
def Obligations.BitsAndComparisons : Prop :=
  ∀ (i : Instr) (o : XArgs) (s : State) (a b c : Vec) (q : Part), xArgsOf i = some o → s.readyIn 2 o.tk →
    s.me.readyX s.ctx.seq o = true → s.me.readSrcs o = (a, b, c, q) →
    ((bitOf true true i).isSome = true → ∃ t v, exec i s = .next t ∧ s.xLanes t o v 0
      ∧ ∀ l j, s.active o l → j < 32 → bitOf ((lane a l).getLsbD j) ((lane b l).getLsbD j) i = some ((lane v l).getLsbD j))
    ∧ (i = .popc o → ∃ t v, exec i s = .next t ∧ s.xLanes t o v 0
      ∧ ∀ l, s.active o l → (lane v l).toNat = (List.range 32).countP (fun j => (lane a l).getLsbD j))
    ∧ (i = .clz o → ∃ t v, exec i s = .next t ∧ s.xLanes t o v 0
      ∧ ∀ l, s.active o l → ∃ n, (lane v l).toNat = n ∧ n ≤ 32 ∧ (∀ j, j < n → (lane a l).getLsbD (31 - j) = false)
          ∧ (n < 32 → (lane a l).getLsbD (31 - n) = true))
    ∧ (i = .icmp o → o.imm.toNat < 6 → ∃ t v, exec i s = .next t ∧ s.xLanes t o v 0
      ∧ ∀ l j, s.active o l → j < perLane o.ty →
          (ccHolds o.imm.toNat (elemAt o.ty a l j) (elemAt o.ty b l j) → elemOf o.ty (lane v l).toNat j = 2 ^ Ty.width o.ty - 1)
          ∧ (¬ ccHolds o.imm.toNat (elemAt o.ty a l j) (elemAt o.ty b l j) → elemOf o.ty (lane v l).toNat j = 0))

/-- R148: QMUL and QMAD form the exact product, or the product plus c * 2^F, round it once by 2^F under RM, and clamp or keep the low
32 bits; NX where an active lane was inexact, SAT where one was clamped. -/
def Obligations.FixedPoint : Prop :=
  ∀ (i : Instr) (o : XArgs) (s : State) (a b c : Vec) (q : Part) (x : Nat → Int), (i = .qmul o ∨ i = .qmad o) → o.ty = .fx →
    s.readyIn 2 o.tk → s.me.readyX s.ctx.seq o = true → s.me.readSrcs o = (a, b, c, q) →
    (∀ l, x l = (lane a l).toInt * (lane b l).toInt + (if i = .qmad o then (lane c l).toInt * 2 ^ (o.imm.toNat % 32) else 0)) →
    ∃ t v fl, exec i s = .next t ∧ s.xLanes t o v fl
      ∧ (∀ l, s.active o l → ∃ r, isRndsh o.rm (x l) (o.imm.toNat % 32) r ∧ (lane v l).toInt = intoRange .fx o.sat r)
      ∧ (fl.getLsbD 3 = true ↔ ∃ l, s.active o l ∧ x l % 2 ^ (o.imm.toNat % 32) ≠ 0)
      ∧ (fl.getLsbD 4 = true ↔ o.sat = true ∧ ∃ l r, s.active o l ∧ isRndsh o.rm (x l) (o.imm.toNat % 32) r ∧ outside .fx r)
      ∧ fl &&& 24 = fl

/-- The fifteen floating-point instructions complete on every type: each element of an active lane is the value of its operation in the
element's own format, and the flags are those of the active elements (R138, R143 to R145). R78: a value no larger than the largest finite one is correctly rounded under each of the four modes, with NX raised exactly where
the result differs and OF never; a value of 2^(bias + 1) or more overflows to the value of R78's table with OF and NX. -/
def Obligations.FloatElementsAreRounded : Prop :=
  (∀ (i : Instr) (o : XArgs) (s : State) (a b c : Vec) (q : Part) (ff : FFmt), xArgsOf i = some o → Ty.fmt o.ty = some ff →
    (fltOf ff 0 0 0 i).isSome = true → s.readyIn 2 o.tk → s.me.readyX s.ctx.seq o = true → s.me.readSrcs o = (a, b, c, q) →
    ∃ (t : State) (v : Vec) (fl : Word) (e : Nat → Nat → FR), exec i s = .next t ∧ s.xLanes t o v fl
      ∧ (∀ l j, fltOf ff (elemOf o.ty (lane a l).toNat j) (elemOf o.ty (lane b l).toNat j) (elemOf o.ty (lane c l).toNat j) i = some (e l j))
      ∧ (∀ l j, s.active o l → j < perLane o.ty → elemOf o.ty (lane v l).toNat j = (e l j).1 % 2 ^ Ty.width o.ty)
      ∧ (∀ k, k < 32 → (fl.getLsbD k = true ↔ ∃ l j, s.active o l ∧ j < perLane o.ty ∧ (e l j).2.testBit k = true)))
  ∧ (∀ f ∈ fmts, ∀ (rm : Rm) (d : Dy), d.m ≠ 0 → d.m < 2 ^ 4096 →
    (∀ w, unpack f f.maxFin = .fin w → |d.val| ≤ w.val → isRounded f rm d.val (roundFP f rm d).1
      ∧ ((roundFP f rm d).2.testBit 3 = true ↔ ∀ y, unpack f (roundFP f rm d).1 = .fin y → y.val ≠ d.val)
      ∧ (roundFP f rm d).2.testBit 1 = false)
    ∧ ((2 : ℚ) ^ (f.bias + 1) ≤ |d.val| → (roundFP f rm d).2 = 10
      ∧ (roundFP f rm d).1 = (match rm, d.neg with
          | .rne, false => f.inf | .rne, true => f.signBit + f.inf | .rtz, false => f.maxFin | .rtz, true => f.signBit + f.maxFin
          | .rup, false => f.inf | .rup, true => f.signBit + f.maxFin | .rdn, false => f.maxFin | .rdn, true => f.signBit + f.inf)))

/-- FADD, FSUB, FMUL, FMA and FNMA round the exact value of their operation once, with the sign of an exact zero as R78 has it; FMIN,
FMAX and FCMP order values with -0 as R75 and R145 say; FSGN works on the sign bit alone. R144: the special operands of FRCP, FRSQ, FSQRT, FEXP2 and FLOG2 give the values of the table; FEXP2 of an integer and FLOG2 of a
power of two are exact with no flag; FRCP of a power of two is exact. -/
def Obligations.FloatAndSpecialFunctions : Prop :=
  (∀ f ∈ fmts, ∀ (rm : Rm) (x y z : Dy),
    (∃ d, addV f rm (.fin x) (.fin y) = roundFP f rm d ∧ d.val = x.val + y.val
      ∧ (d.m = 0 → d.neg = if x.neg = y.neg then x.neg else decide (rm = .rdn)))
    ∧ (∃ d, mulV f rm (.fin x) (.fin y) = roundFP f rm d ∧ d.val = x.val * y.val ∧ d.neg = (x.neg != y.neg))
    ∧ (∃ d, fmaV f rm (.fin x) (.fin y) (.fin z) = roundFP f rm d ∧ d.val = x.val * y.val + z.val)
    ∧ (∃ d, fmaV f rm (FVal.fin x).opp (.fin y) (.fin z) = roundFP f rm d ∧ d.val = z.val - x.val * y.val)
    ∧ (∀ a b : Nat, unpack f a = .fin x → unpack f b = .fin y →
      (x.val < y.val → (minmaxV f false a b).1 = a ∧ (minmaxV f true a b).1 = b)
      ∧ (y.val < x.val → (minmaxV f false a b).1 = b ∧ (minmaxV f true a b).1 = a)
      ∧ (x.m = 0 → y.m = 0 → x.neg = true → y.neg = false → (minmaxV f false a b).1 = a ∧ (minmaxV f true a b).1 = b)
      ∧ (∀ cc, cc < 6 → ((fcmpElem cc f a b).1 ≠ 0 ↔ (cc = 0 ∧ x.val = y.val) ∨ (cc = 1 ∧ x.val ≠ y.val) ∨ (cc = 2 ∧ x.val < y.val)
          ∨ (cc = 3 ∧ x.val ≤ y.val) ∨ (cc = 4 ∧ y.val < x.val) ∨ (cc = 5 ∧ y.val ≤ x.val))))
    ∧ (∀ a b : Nat, a < 2 ^ (f.eb + f.fb + 1) → b < 2 ^ (f.eb + f.fb + 1) → ∀ j, j ≤ f.eb + f.fb → ∀ mode, mode < 4 →
        (fsgnElem mode f a b).1.testBit j = if j < f.eb + f.fb then a.testBit j else
          (match mode with | 0 => b.testBit j | 1 => !b.testBit j | 2 => a.testBit j != b.testBit j | _ => false)))
  ∧ (∀ f ∈ fmts, ∀ (rm : Rm) (neg : Bool) (x : Dy),
    (x.m = 0 → divV f rm (.fin ⟨false, 1, 0⟩) (.fin x) = (withSign f x.neg f.inf, 0) ∧ rsqrtV f rm (.fin x) = (withSign f x.neg f.inf, 0)
      ∧ sqrtV f rm (.fin x) = (withSign f x.neg 0, 0) ∧ log2V f rm (.fin x) = (f.signBit + f.inf, 0)
      ∧ ∃ y, unpack f (exp2V f rm (.fin x)).1 = .fin y ∧ y.val = 1 ∧ (exp2V f rm (.fin x)).2 = 0)
    ∧ divV f rm (.fin ⟨false, 1, 0⟩) (.inf neg) = (withSign f neg 0, 0)
    ∧ rsqrtV f rm (.inf false) = (0, 0) ∧ sqrtV f rm (.inf false) = (f.inf, 0) ∧ exp2V f rm (.inf neg) = (if neg then 0 else f.inf, 0)
    ∧ log2V f rm (.inf false) = (f.inf, 0) ∧ rsqrtV f rm (.inf true) = (f.qnan, fNV) ∧ sqrtV f rm (.inf true) = (f.qnan, fNV)
    ∧ log2V f rm (.inf true) = (f.qnan, fNV)
    ∧ (x.m ≠ 0 → x.neg = true → rsqrtV f rm (.fin x) = (f.qnan, fNV) ∧ sqrtV f rm (.fin x) = (f.qnan, fNV) ∧ log2V f rm (.fin x) = (f.qnan, fNV))
    ∧ (∀ n : Int, (n.natAbs : Nat) < 1024 → f.emin ≤ n → n ≤ f.bias →
        (∀ a, unpack f a = .fin x → x.val = n → ∃ y, unpack f (exp2V f rm (unpack f a)).1 = .fin y ∧ y.val = (2 : ℚ) ^ n ∧ (exp2V f rm (unpack f a)).2 = 0)
        ∧ (∀ a, unpack f a = .fin x → x.val = (2 : ℚ) ^ n →
            (∃ y, unpack f (log2V f rm (unpack f a)).1 = .fin y ∧ y.val = n ∧ (log2V f rm (unpack f a)).2 = 0)
            ∧ (f.emin ≤ -n → ∃ y, unpack f (divV f rm (.fin ⟨false, 1, 0⟩) (unpack f a)).1 = .fin y ∧ y.val = (2 : ℚ) ^ (-n)
                ∧ (divV f rm (.fin ⟨false, 1, 0⟩) (unpack f a)).2 = 0))))

/-- FCVT completes for every pair of types (R146): destination element n of an active lane is the conversion under R81 of element n of
S1 ‖ S2 ‖ S3, elements beyond them being zero, with the fraction counts of IMM16 (R69); flags arise from active lanes only. R81's rows: a float to an integer or fixed-point type rounds its value times 2^F, clamps with SAT and NX, and gives 0 with NV for a
NaN; an integer or fixed-point source to an integer or fixed-point type rounds v * 2^(F2 - F1) and clamps or keeps the low bits; a
float to a float, and an integer to a float, is rounded once. (An integer that a type at least as wide does not hold has no row.) -/
def Obligations.ConversionsAndTheirRows : Prop :=
  (∀ (o : XArgs) (s : State) (a b c : Vec) (q : Part) (src : Ty), Ty.ofCode (o.imm.toNat % 16) = some src → s.readyIn 2 o.tk →
    s.me.readyX s.ctx.seq o = true → s.me.readSrcs o = (a, b, c, q) →
    ∃ (t : State) (v : Vec) (fl : Word) (x : Nat → Nat) (r : Nat → FR), exec (.fcvt o) s = .next t ∧ s.xLanes t o v fl
      ∧ (∀ n, n < 64 * perLane src → x n = elemOf src (lane a (n / perLane src)).toNat (n % perLane src)
          ∧ x (64 * perLane src + n) = elemOf src (lane b (n / perLane src)).toNat (n % perLane src)
          ∧ x (128 * perLane src + n) = elemOf src (lane c (n / perLane src)).toNat (n % perLane src)
          ∧ x (192 * perLane src + n) = 0)
      ∧ (∀ n, r n = convElem o.ty (o.imm.toNat / 2 ^ 4 % 32) src (o.imm.toNat / 2 ^ 9 % 32) o.rm o.sat (x n))
      ∧ (∀ l j, s.active o l → j < perLane o.ty → elemOf o.ty (lane v l).toNat j = (r (l * perLane o.ty + j)).1 % 2 ^ Ty.width o.ty)
      ∧ (∀ k, k < 32 → (fl.getLsbD k = true ↔ ∃ l j, s.active o l ∧ j < perLane o.ty ∧ (r (l * perLane o.ty + j)).2.testBit k = true)))
  ∧ (∀ (dst src : Ty) (fd fs : Nat) (rm : Rm) (sat : Bool) (x : Nat), fd < 32 → fs < 32 →
    (∀ ff, Ty.fmt src = some ff → Ty.fmt dst = none →
      (∀ b, unpack ff x = .nan b → convElem dst fd src fs rm sat x = (0, 1))
      ∧ (∀ b, unpack ff x = .inf b → (convElem dst fd src fs rm sat x).2 = 24
          ∧ elemInt dst (convElem dst fd src fs rm sat x).1 = intoRange dst true (if b then -2 ^ 40 else 2 ^ 40))
      ∧ (∀ d r, unpack ff x = .fin d → (∀ k : Nat, d.e + (if dst = .fx then (fd : Int) else 0) = -(k : Int) →
            isRndsh rm ((if d.neg then -1 else 1) * d.m) k r →
            elemInt dst (convElem dst fd src fs rm sat x).1 = intoRange dst true r
            ∧ (outside dst r → (convElem dst fd src fs rm sat x).2 = 24)
            ∧ (¬ outside dst r → (convElem dst fd src fs rm sat x).2 = if (d.m : Int) % 2 ^ k = 0 then 0 else 8))))
    ∧ (∀ ff gg d, Ty.fmt src = some ff → Ty.fmt dst = some gg → unpack ff x = .fin d → convElem dst fd src fs rm sat x = roundFP gg rm d)
    ∧ (∀ gg, Ty.fmt src = none → Ty.fmt dst = some gg → ∃ d : Dy, convElem dst fd src fs rm sat x = roundFP gg rm d
        ∧ d.val = (elemInt src x : ℚ) * (2 : ℚ) ^ (if src = .fx then -(fs : Int) else 0))
    ∧ (∀ r, Ty.fmt src = none → Ty.fmt dst = none → (src = .fx ∨ dst = .fx ∨ Ty.width dst < Ty.width src ∨ ¬ outside dst r) →
        isRndsh rm (elemInt src x * 2 ^ (if dst = .fx then fd else 0)) (if src = .fx then fs else 0) r →
        elemInt dst (convElem dst fd src fs rm sat x).1 = intoRange dst (sat || (src = .fx && dst ≠ .fx)) r))

/-- BPACK quantises lanes 0 to 31 and 32 to 63 (inactive ones as +0) and lays the two mantissa planes from byte 0 with the exponents in
lane 63; BUNPK gives lane i element i mod 32 of block i / 32, exactly m * 2^(E - 127 - (w - 2)), canonical NaNs for E = 0xFF and zero
in inactive lanes, without a flag (R82, R149, R150). The one value that FP32 does not hold, -2^128, is set aside (log entry 12). R88: a block with a NaN takes E = 0xFF, zero mantissas and no flag; otherwise every mantissa lies in the range of its width, a
finite element in range stands as its rounded value, an infinity is clamped with QS, and E exceeds the starting exponent by at most
QL. -/
def Obligations.BlockFloatingPointAndQuantiser : Prop :=
  (∀ (o : XArgs) (s : State) (a b c : Vec) (q : Part) (w : Nat), w = o.imm.toNat % 8 + 2 → w ≤ 8 → s.readyIn 2 o.tk →
    s.me.readyX s.ctx.seq o = true → s.me.readSrcs o = (a, b, c, q) →
    (∃ (t : State) (v : Vec) (x : Nat → FVal) (b0 b1 : Block), exec (.bpack o) s = .next t
      ∧ s.xEnds t o v (BitVec.allOnes 64) (BitVec.ofNat 32 (b0.flags ||| b1.flags))
      ∧ (∀ l, l < 64 → x l = if (s.me.rdP o.p.val).getLsbD l then unpack f32 (lane a l).toNat else .fin ⟨false, 0, -149⟩)
      ∧ b0 = quantise w (o.imm.toNat / 8 % 4) (o.imm.toNat / 32 % 4) (o.imm.toNat / 128 % 256) o.rm none ((List.range 32).map x)
      ∧ b1 = quantise w (o.imm.toNat / 8 % 4) (o.imm.toNat / 32 % 4) (o.imm.toNat / 128 % 256) o.rm (some b0.e) ((List.range 32).map (fun l => x (32 + l)))
      ∧ (lane v 63).toNat = b0.e + 256 * b1.e
      ∧ (∀ j, j < 32 * w → (lane v (j / 32)).getLsbD (j % 32) = (wrap w (b0.m.getD (j / w) 0)).testBit (j % w)
          ∧ (lane v ((32 * w + j) / 32)).getLsbD ((32 * w + j) % 32) = (wrap w (b1.m.getD (j / w) 0)).testBit (j % w))
      ∧ (∀ l, 2 * w ≤ l → l < 63 → lane v l = 0))
    ∧ (∃ t v, exec (.bunpk o) s = .next t ∧ s.xEnds t o v (BitVec.allOnes 64) 0
      ∧ ∀ l, l < 64 →
        ((s.me.rdP o.p.val).getLsbD l = false → lane v l = 0)
        ∧ ((s.me.rdP o.p.val).getLsbD l = true → ∀ e m, e = (lane a 63).toNat / 256 ^ (l / 32) % 256 →
            (∀ j, j < w → (wrap w m).testBit j = (lane a ((32 * w * (l / 32) + w * (l % 32) + j) / 32)).getLsbD ((32 * w * (l / 32) + w * (l % 32) + j) % 32)) →
            -(2 ^ (w - 1)) ≤ m → m < 2 ^ (w - 1) → ¬(e = 254 ∧ m = -(2 ^ (w - 1))) →
            (e = 255 → lane v l = 0x7FC00000)
            ∧ (e ≠ 255 → ∃ y : Dy, unpack f32 (lane v l).toNat = .fin y ∧ y.val = (m : ℚ) * (2 : ℚ) ^ ((e : Int) - 127 - ((w : Int) - 2))))))
  ∧ (∀ (w ql de : Nat) (rm : Rm) (prev : Option Nat) (xs : List FVal) (dx : Nat) (r : Block), 2 ≤ w → w ≤ 8 → ql < 4 → dx < 3 → de < 255 →
    (∀ e, prev = some e → e < 255) → r = quantise w dx ql de rm prev xs →
    r.m.length = xs.length
    ∧ (xs.any FVal.isNan = true → r.e = 255 ∧ (∀ m ∈ r.m, m = 0) ∧ r.flags = 0)
    ∧ (xs.any FVal.isNan = false → r.e ≤ 254
      ∧ (∀ m ∈ r.m, -(2 ^ (w - 1)) ≤ m ∧ m ≤ 2 ^ (w - 1) - 1)
      ∧ (∀ (k : Nat) (d : Dy) (z : Int), xs[k]? = some (FVal.fin d) → (∀ j : Nat, d.e + 127 + (w - 2) - r.e = -(j : Int) → isRndsh rm ((if d.neg then -1 else 1) * d.m) j z →
          r.m[k]? = some (max (-(2 ^ (w - 1))) (min (2 ^ (w - 1) - 1) z))))
      ∧ (∀ (k : Nat) (b : Bool), xs[k]? = some (FVal.inf b) → r.m[k]? = some (if b then -(2 ^ (w - 1)) else 2 ^ (w - 1) - 1) ∧ r.qs = true)
      ∧ (dx = 0 → de ≤ r.e ∧ r.e ≤ de + ql ∧ (r.qr = true ↔ de < r.e))
      ∧ (dx = 1 → ∀ e, prev = some e → e ≤ r.e ∧ r.e ≤ e + ql)))

/-- R151: MOV, SEL, SHFL, BCAST, SLIDE, INS and EXT move 32-bit lanes unchanged, as the table says, and raise no flag. PLOG and PSET
(R153) give 1 or 0 in a lane from predicates and a pattern. RSUM, RMAX, RMIN and SCAN combine the lanes of S1 along the tree of R89 or from left to right, inactive lanes entering as the identity
of R152; the sum of integers wraps, and the flags are those of the operations performed. PCNT counts the active lanes with the bit of
pK set (R153). A cq destination ORs over all lanes (R137). -/
def Obligations.LaneMovesAndCombinations : Prop :=
  (∀ (i : Instr) (o : XArgs) (s : State) (a b c : Vec) (q : Part), xArgsOf i = some o → s.readyIn 2 o.tk →
    s.me.readyX s.ctx.seq o = true → s.me.readSrcs o = (a, b, c, q) →
    ((moveOf (fun _ => 0) (fun _ => 0) (fun _ => 0) 0 i).isSome = true → ∃ t v, exec i s = .next t ∧ s.xLanes t o v 0
      ∧ ∀ l, s.active o l → moveOf (lane a) (lane b) (lane c) l i = some (lane v l))
    ∧ ((predBitOf s.me 0 i).isSome = true → ∃ t v, exec i s = .next t ∧ s.xLanes t o v 0
      ∧ ∀ l x, s.active o l → predBitOf s.me l i = some x → lane v l = if x then 1 else 0))
  ∧ (∀ (i : Instr) (o : XArgs) (s : State) (a b c : Vec) (q : Part), xArgsOf i = some o → s.readyIn 2 o.tk →
    s.me.readyX s.ctx.seq o = true → s.me.readSrcs o = (a, b, c, q) →
    (∀ cb : Comb, combOf i = some cb → ∀ x : Nat → Nat,
      (∀ l, l < 64 → x l = if (s.me.rdP o.p.val).getLsbD l then (lane a l).toNat else cb.ident o.ty) →
      ∃ t v fl, exec i s = .next t ∧ s.xEnds t o v (BitVec.allOnes 64) fl
        ∧ ((∀ p, i ≠ .scan p) → (∀ l, l < 64 → (lane v l).toNat = treeAt (cb.op o.ty o.rm) x 6 0 % 2 ^ 32)
          ∧ (∀ k, k < 32 → (fl.getLsbD k = true ↔ ∃ j m, j < 6 ∧ m < 32 / 2 ^ j
              ∧ (cb.op o.ty o.rm (treeAt (cb.op o.ty o.rm) x j (2 * m)) (treeAt (cb.op o.ty o.rm) x j (2 * m + 1))).2.testBit k = true)))
        ∧ (i = .scan o → o.imm.getLsbD 2 = false → ∀ l, l < 64 → (lane v l).toNat = foldAt (cb.op o.ty o.rm) x l % 2 ^ 32)
        ∧ (i = .scan o → o.imm.getLsbD 2 = true → (lane v 0).toNat = cb.ident o.ty % 2 ^ 32
          ∧ ∀ l, l < 63 → (lane v (l + 1)).toNat = foldAt (cb.op o.ty o.rm) x l % 2 ^ 32))
    ∧ (i = .pcnt o → ∃ t v, exec i s = .next t ∧ s.xEnds t o v (BitVec.allOnes 64) 0
      ∧ ∀ l, l < 64 → (lane v l).toNat = (List.range 64).countP (fun j =>
          (s.me.rdP o.p.val).getLsbD j && (s.me.rdP (o.imm.toNat % 8)).getLsbD j)))

/-- ACCRD delivers one half row of its tile bit for bit when the version is met or not checked (R154), a version that has passed is
QUEUE_PROTOCOL and a tile outside the partition ENGINE_COMMAND; FLGRD and FLGCLR deliver the flags register as it stands once S has
completed every older instruction, and FLGCLR clears the flags named (R156). -/
def Obligations.AccumulatorAndFlags : Prop :=
  ∀ (o : XArgs) (s : State) (a b c : Vec) (q : Part) (sel : Nat), s.readyIn 2 o.tk →
    s.me.queuesX o = true → s.me.readSrcs o = (a, b, c, q) → sel = (lane a 0).toNat →
    (sel < 2 ^ 15 → s.me.olderCtl s.ctx.seq [6] = false →
      (tileInPart (isU s.ctx.k) (sel % 64) = false → s.stopsIn 2 (.accrd o) (.of cEngine 0))
      ∧ (tileInPart (isU s.ctx.k) (sel % 64) = true → s.tileBusy (coreOf s.ctx.k) (sel % 64) = false →
        ((sel.testBit 14 = true ∨ (s.myCore.tile (sel % 64)).ver = o.imm) →
          ∃ t v, exec (.accrd o) s = .next t ∧ s.xLanes t o v 0
            ∧ ∀ l, s.active o l → lane v l = Map.get 0 (s.myCore.tile (sel % 64)).data (128 * (sel / 64 % 128) + 64 * (sel / 8192 % 2) + l))
        ∧ (sel.testBit 14 = false → ∀ n : Nat, 0 < n → n ≤ 2 ^ 15 →
            (s.myCore.tile (sel % 64)).ver = o.imm + BitVec.ofNat 16 n → s.stopsIn 2 (.accrd o) (.of cQueue 4))))
    ∧ (s.me.older 3 s.ctx.seq = false →
      (s.me.olderFlagWrite s.ctx.seq = false →
        ∃ t v, exec (.flgrd o) s = .next t ∧ s.xLanes t o v 0 ∧ ∀ l, s.active o l → lane v l = s.me.flags)
      ∧ (s.me.olderCtl s.ctx.seq [6] = false →
        ∃ t v, exec (.flgclr o) s = .next t ∧ v.length = 64 ∧ (∀ l, s.active o l → lane v l = s.me.flags)
        ∧ (∀ l, l < 64 → ¬ s.active o l → lane v l = if o.pz then 0 else lane a l)
        ∧ ∃ p : Part, (s.meter s.cten 4 (countOnes (s.me.rdP o.p.val))).became t (p.at s.pcAfter)
          ∧ p.bare = { q.deliverX o.d (s.me.rdP o.p.val) v with flags := q.flags &&& ~~~(o.imm.setWidth 32 &&& 0x7F) }.bare))

/-! ### The store unit -/

/-- ST, STF and STX through a handle whose page is not of class F write the data of R159 at their addresses, in ascending lane order, pop
the two elements, and leave everything else but the leaf entry's ACC and DRT bits (R161, R162). Through h0, outside every paddock, ST and STX write scratchpad and leave the full/empty bits; STF sets full every granule it touches,
a granule touched in part included (R22, R161, R162). Every byte outside the runs stays. -/
def Obligations.StoresPutBytes : Prop :=
  (∀ (i : Instr) (o : StArgs) (s : State) (e : AqEntry) (d : Vec) (ar : List AqEntry) (dr : List Vec), s.storeReady o.tk e d ar dr →
    ((e.scatter = false ∧ (i = .st o ∨ i = .stf o)) ∨ (e.scatter = true ∧ i = .stx o)) → e.sz = o.sz → (e.scatter = true → szBytes e.sz ≤ 4) →
    (o.sys = true → s.sysOk s.cten = true) → e.h ≠ 0 → e.page.ps ≠ 3 → e.page.cl ≠ 3 →
    s.unhindered (s.ctx.k * 8 + 3) s.cten [] ((storeRunsOf e d).map (fun r => ⟨e.page, r.1, r.2.length⟩)) →
    ∃ t, exec i s = .next t ∧ t.me.bare = ((s.me.popped ar dr t.me.pts).at s.pcAfter).bare
      ∧ SameSeen ((s.storedTo e.page (storeRunsOf e d)).setPart s.ctx.k t.me) t)
  ∧ (∀ (i : Instr) (o : StArgs) (s : State) (e : AqEntry) (d : Vec) (ar : List AqEntry) (dr : List Vec), s.storeReady o.tk e d ar dr →
    ((e.scatter = false ∧ (i = .st o ∨ i = .stf o)) ∨ (e.scatter = true ∧ i = .stx o)) → e.sz = o.sz → (e.scatter = true → szBytes e.sz ≤ 4) →
    (o.sys = true → s.sysOk s.cten = true) → e.h = 0 → e.page.ps = 3 → Map.find? s.reqs (s.ctx.k * 8 + 3) = none →
    (∀ r ∈ storeRunsOf e d, s.myCore.padParts r.1 r.2.length = []) →
    ∃ t em, exec i s = .next t ∧ t.me.bare = ((s.me.popped ar dr t.me.pts).at s.pcAfter).bare
      ∧ SameSeen (((storeRunsOf e d).foldl (fun s r => s.putBytes (.spad (coreOf s.ctx.k)) r.1 r.2) s).modCore (coreOf s.ctx.k)
          (fun c => { c with empties := em }) |>.setPart s.ctx.k t.me) t
      ∧ (i ≠ .stf o → em = s.myCore.empties)
      ∧ (i = .stf o → ∀ g, t.myCore.full g = true ↔ (s.myCore.full g = true ∨ ∃ r ∈ storeRunsOf e d, g ∈ granules r.1 r.2.length)))

/-- On a page of class F every store is a sample: ST and STX give the lane's bits unchanged, SMP the value of R166's table under rmode,
with its flags, one per cell the entry names; STF and RED there, SMP on any other page, and an address that is no cell raise
FILTER_ACCESS (R162 to R166). That an address which is no cell raises it is the model's choice (log entry 30). R166's table: what SMP makes of lane data d in an FX region with F fraction bits and in an FP32 region. -/
def Obligations.SamplesAndTheirConversion : Prop :=
  (∀ (i : Instr) (tk : Tk) (s : State) (e : AqEntry) (d : Vec) (ar : List AqEntry) (dr : List Vec), s.storeReady tk e d ar dr →
    (e.page.cl = 3 → e.page.ps ≠ 3 →
      (∀ (r : Region) (conv : Word → Word × Nat), s.regionOf s.cten e.page = some r →
        (∀ x ∈ elemsOf e r.csz d, (r.cellAt x.1).isSome = true) →
        s.unhindered (s.ctx.k * 8 + 3) s.cten [] ((elemsOf e r.csz d).map (fun x => ⟨e.page, x.1, r.csz⟩)) →
        ((∃ o : StArgs, o.tk = tk ∧ o.sz = e.sz ∧ (o.sys = true → s.sysOk s.cten = true) ∧ (∀ w, conv w = (w, 0))
            ∧ ((e.scatter = false ∧ i = .st o) ∨ (e.scatter = true ∧ i = .stx o)))
          ∨ (∃ o : SmpArgs, o.tk = tk ∧ o.sz = e.sz ∧ (e.scatter = true → o.sz = .w) ∧ i = .smp o ∧ conv = smpConv o (rmOf s.me.rmode) r
            ∧ s.me.olderCtl s.ctx.seq [1, 6] = false ∧ s.me.olderFlagRead s.ctx.seq = false)) →
        ∃ t, exec i s = .next t
          ∧ t.me.bare = (((((s.touchLeaf e.page true).sampled s.ctx.k s.cten e.page r conv (elemsOf e r.csz d)).me).popped ar dr t.me.pts).at s.pcAfter).bare
          ∧ SameSeen (((s.touchLeaf e.page true).sampled s.ctx.k s.cten e.page r conv (elemsOf e r.csz d)).setPart s.ctx.k t.me) t)
      ∧ (∀ r : Region, s.regionOf s.cten e.page = some r → (∃ x ∈ elemsOf e r.csz d, r.cellAt x.1 = none) →
        ((∃ o : StArgs, o.tk = tk ∧ o.sz = e.sz ∧ (o.sys = true → s.sysOk s.cten = true)
            ∧ ((e.scatter = false ∧ i = .st o) ∨ (e.scatter = true ∧ i = .stx o)))
          ∨ (∃ o : SmpArgs, o.tk = tk ∧ o.sz = e.sz ∧ (e.scatter = true → o.sz = .w) ∧ i = .smp o
            ∧ s.me.olderCtl s.ctx.seq [1, 6] = false ∧ s.me.olderFlagRead s.ctx.seq = false)) →
        s.stopsIn 3 i (.at cFilter (e.addrs.headD 0) e.page.rgn))
      ∧ (∀ o : StArgs, o.tk = tk → o.sz = e.sz → e.scatter = false → (o.sys = true → s.sysOk s.cten = true) →
          s.stopsIn 3 (.stf o) (.at cFilter (e.addrs.headD 0) e.page.rgn))
      ∧ (∀ o : RedArgs, o.tk = tk → o.sz = e.sz → (e.scatter = true → o.sz = .w) → (o.sys = true → s.sysOk s.cten = true) →
          s.stopsIn 3 (.red o) (.at cFilter (e.addrs.headD 0) e.page.rgn)))
    ∧ (e.page.cl ≠ 3 ∨ e.page.ps = 3 → ∀ o : SmpArgs, o.tk = tk → o.sz = e.sz → (e.scatter = true → o.sz = .w) →
        ∃ aux, s.stopsIn 3 (.smp o) (.at cFilter (e.addrs.headD 0) aux)))
  ∧ (∀ (o : SmpArgs) (rm : Rm) (r : Region) (d : Word),
    (o.f32 = false → o.sq = false → smpConv o rm r d = (d, 0))
    ∧ (o.f32 = true → o.sq = false → r.fp = true → smpConv o rm r d = (d, 0))
    ∧ (o.sq = true → r.fp = true → (smpConv o rm r d).1.toNat = (mulV f32 rm (unpack f32 d.toNat) (unpack f32 d.toNat)).1 % 2 ^ 32
        ∧ (smpConv o rm r d).2 = (mulV f32 rm (unpack f32 d.toNat) (unpack f32 d.toNat)).2)
    ∧ (o.f32 = false → o.sq = true → r.fp = false → ∀ z, isRndsh rm (d.toInt * d.toInt) r.f z →
        (smpConv o rm r d).1.toInt = intoRange .fx true z ∧ (outside .fx z → (smpConv o rm r d).2 = 24)
        ∧ (¬ outside .fx z → (smpConv o rm r d).2 = if d.toInt * d.toInt % 2 ^ r.f = 0 then 0 else 8))
    ∧ (o.f32 = true → r.fp = false →
        (∀ b, unpack f32 d.toNat = .nan b → smpConv o rm r d = (0, 1))
        ∧ (∀ b, unpack f32 d.toNat = .inf b → (smpConv o rm r d).2 = 24
            ∧ (smpConv o rm r d).1.toInt = if b = true ∧ o.sq = false then -2 ^ 31 else 2 ^ 31 - 1)
        ∧ (∀ x z m (k : Nat), unpack f32 d.toNat = .fin x → (if o.sq then 2 * x.e else x.e) + r.f = -(k : Int) →
            m = (if o.sq then ((x.m * x.m : Nat) : Int) else if x.neg then -(x.m : Int) else x.m) → isRndsh rm m k z →
            (smpConv o rm r d).1.toInt = intoRange .fx true z ∧ (outside .fx z → (smpConv o rm r d).2 = 24)
            ∧ (¬ outside .fx z → (smpConv o rm r d).2 = if m % 2 ^ k = 0 then 0 else 8))))

/-- RED performs one read-modify-write per element, in ascending lane order (R164): through a handle at the home, through h0 outside the
paddocks in scratchpad. Under .c (R165), where the home value and a partial add up, everything but the named words and the leaf entry
stays. -/
def Obligations.Reductions : Prop :=
  ∀ (o : RedArgs) (s : State) (e : AqEntry) (d : Vec) (ar : List AqEntry) (dr : List Vec), s.storeReady o.tk e d ar dr →
    e.sz = o.sz → (e.scatter = true → o.sz = .w) → (o.sys = true → s.sysOk s.cten = true) →
    (e.h ≠ 0 → e.page.ps ≠ 3 → e.page.cl ≠ 3 →
      s.unhindered (s.ctx.k * 8 + 3) s.cten ((elemsOf e 4 d).map (fun x => ⟨e.page, x.1, 4⟩)) ((elemsOf e 4 d).map (fun x => ⟨e.page, x.1, 4⟩)) →
      ∃ t, exec (.red o) s = .next t ∧ t.me.bare = ((s.me.popped ar dr t.me.pts).at s.pcAfter).bare
        ∧ (o.c = false → SameSeen (((elemsOf e 4 d).foldl (fun s x =>
            s.updatedAt e.page x.1 (fun m => redOf o.op o.ty m x.2)) s).setPart s.ctx.k t.me) t)
        ∧ (s.memOk = true → ∀ sp a, (∀ x ∈ elemsOf e 4 d, ∀ j, j < 4 → ¬(sp = spaceOf e.page.hh ∧ a = e.page.pa x.1 + j)) →
            ¬(sp = .dev ∧ a = e.page.leaf) → t.byteAt sp a = s.byteAt sp a))
    ∧ (e.h = 0 → e.page.ps = 3 → Map.find? s.reqs (s.ctx.k * 8 + 3) = none →
      (∀ x ∈ elemsOf e 4 d, s.myCore.padParts x.1 4 = [] ∧ s.myCore.spadBad x.1 4 = false) →
      ∃ t, exec (.red o) s = .next t ∧ t.me.bare = ((s.me.popped ar dr t.me.pts).at s.pcAfter).bare
        ∧ SameSeen (((elemsOf e 4 d).foldl (fun s x =>
            s.updated (.spad (coreOf s.ctx.k)) x.1 (fun m => redOf o.op o.ty m x.2)) s).setPart s.ctx.k t.me) t)

/-- R158: an instruction of S that pops aq accepts the entry's kind and size; otherwise S raises QUEUE_PROTOCOL and the instruction pops
nothing: ST and STF take plain entries and STX scatter entries of their own size, RED and SMP either with scatter only under .w, and
ENQM a plain .d entry through h0. TICK takes the region's next number and sends the tick to every channel of the region (R167). ENQ and ENQM put the dwords of the
popped vector, or of scratchpad, at the ring's next places and advance its producer index, which the fences that come after them wait for too; FMTQ appends {fmth, IMM32} (R168, R169). -/
def Obligations.EntriesAndEnginePushes : Prop :=
  (∀ (i : Instr) (tk : Tk) (sz : Size) (plain scatter : Bool) (s : State) (e : AqEntry) (d : Vec) (ar : List AqEntry) (dr : List Vec),
    s.storeReady tk e d ar dr →
    ((∃ o : StArgs, o.tk = tk ∧ o.sz = sz ∧ plain = true ∧ scatter = false ∧ (i = .st o ∨ i = .stf o))
      ∨ (∃ o : StArgs, o.tk = tk ∧ o.sz = sz ∧ plain = false ∧ scatter = true ∧ i = .stx o)
      ∨ (∃ o : RedArgs, o.tk = tk ∧ o.sz = sz ∧ plain = true ∧ (scatter = true ↔ sz = .w) ∧ i = .red o)
      ∨ (∃ o : SmpArgs, o.tk = tk ∧ o.sz = sz ∧ plain = true ∧ (scatter = true ↔ sz = .w) ∧ i = .smp o)
      ∨ (∃ (g : Fin 4) (n : Fin 32), sz = .d ∧ plain = true ∧ scatter = false ∧ i = .enqm tk g n)) →
    (e.sz ≠ sz ∨ (e.scatter = true ∧ scatter = false) ∨ (e.scatter = false ∧ plain = false) ∨ ((∃ g n, i = .enqm tk g n) ∧ e.h ≠ 0)) →
    s.stopsIn 3 i (.of cQueue 2))
  ∧ (∀ (s : State) (tk : Tk), s.readyIn 3 tk → s.memOk = true →
    (∀ (ev : Fin 16) (sc : Scope) (rg : BitVec 16) (r : Region), rg.toNat < 256 → Map.find? (s.ten s.cten).regs rg.toNat = some r →
      r.retiring = false → r.auto = false → (sc = .sys → s.sysOk s.cten = true) → s.mayAccess s.ctx.k 3 s.ctx.seq = true →
      s.tickRoom r = true →
      ∃ t q, exec (.tick tk ev sc rg) s = .next t ∧ t.me.bare = ({ s.me with pts := t.me.pts }.at s.pcAfter).bare
        ∧ SameSeen ((({ s with pkg := { s.pkg with chanQ := q } }).modTen s.cten (fun x =>
            { x with regs := Map.put x.regs rg.toNat { r with sequenced := r.sequenced + 1 } })).setPart s.ctx.k t.me) t
        ∧ ∀ c, Map.get [] q c = s.ticksAt c ++ (if c ∈ s.regionChans r then
            [⟨s.cten, rg.toNat, r.sequenced + 1, r.coef, s.ctx.k, s.me.iter, ev.val, s.ctx.seq, false⟩] else []))
    ∧ (∀ (g : Fin 4) (cnt : Fin 32) (fs : List FenceRec), s.mayPush s.ctx.k s.ctx.seq = true → cnt.val + 1 ≤ (s.me.ring g.val).free →
      Map.get 0 s.me.owed 9 = 0 →
      fs = s.me.fences.map (fun f => if s.ctx.seq < f.seq then
        { f with idx := Map.put f.idx g.val ((s.me.ring g.val).prod + (cnt.val + 1)) } else f) →
      (∀ d rest, s.me.sd = d :: rest → ∃ t rs, exec (.enq tk g cnt) s = .next t
        ∧ (s.setCore (coreOf s.ctx.k) { s.myCore with spad := t.myCore.spad }).became t ({ s.me with sd := rest, rings := rs, fences := fs }.at s.pcAfter)
        ∧ Map.get Ring.none rs g.val = { s.me.ring g.val with prod := (s.me.ring g.val).prod + (cnt.val + 1) }
        ∧ (∀ j, j ≠ g.val → Map.find? rs j = Map.find? s.me.rings j)
        ∧ (∀ j, j ≤ cnt.val → t.valAt (.spad (coreOf s.ctx.k))
            ((s.me.ring g.val).base + 8 * (((s.me.ring g.val).prod + j) % ((s.me.ring g.val).size / 8))) 8
            = (lane d (2 * j)).toNat + 2 ^ 32 * (lane d (2 * j + 1)).toNat)
        ∧ (∀ sp a, (∀ j b, j ≤ cnt.val → b < 8 → ¬(sp = .spad (coreOf s.ctx.k)
            ∧ a = (s.me.ring g.val).base + 8 * (((s.me.ring g.val).prod + j) % ((s.me.ring g.val).size / 8)) + b)) →
            t.byteAt sp a = s.byteAt sp a))
      ∧ (∀ (x : AqEntry) rest a, s.me.aq = x :: rest → x.scatter = false → x.sz = .d → x.h = 0 → a = x.addrs.headD 0 →
        inSpad (isU s.ctx.k) a (8 * (cnt.val + 1)) = true → s.myCore.padParts a (8 * (cnt.val + 1)) = [] →
        s.mayAccess s.ctx.k 3 s.ctx.seq = true → Map.find? s.me.flight 3 = none → s.myCore.spadBad a (8 * (cnt.val + 1)) = false →
        s.inParts (cutAt 16 a (8 * (cnt.val + 1))).length = false →
        ∃ t rs, exec (.enqm tk g cnt) s = .next t
        ∧ t.me.bare = ({ s.me with aq := rest, rings := rs, fences := fs, pts := t.me.pts }.at s.pcAfter).bare
        ∧ SameSeen ((s.setCore (coreOf s.ctx.k) { s.myCore with spad := t.myCore.spad }).setPart s.ctx.k t.me) t
        ∧ Map.get Ring.none rs g.val = { s.me.ring g.val with prod := (s.me.ring g.val).prod + (cnt.val + 1) }
        ∧ (∀ j, j ≠ g.val → Map.find? rs j = Map.find? s.me.rings j)
        ∧ (∀ j, j ≤ cnt.val → t.valAt (.spad (coreOf s.ctx.k))
            ((s.me.ring g.val).base + 8 * (((s.me.ring g.val).prod + j) % ((s.me.ring g.val).size / 8))) 8
            = s.valAt (.spad (coreOf s.ctx.k)) (a + 8 * j) 8)
        ∧ (∀ sp b, (∀ j c, j ≤ cnt.val → c < 8 → ¬(sp = .spad (coreOf s.ctx.k)
            ∧ b = (s.me.ring g.val).base + 8 * (((s.me.ring g.val).prod + j) % ((s.me.ring g.val).size / 8)) + c)) →
            t.byteAt sp b = s.byteAt sp b)))
    ∧ (∀ imm, s.me.olderCtl s.ctx.seq [0] = false → s.me.fmtq.length < 32 →
      ∃ t, exec (.fmtq tk imm) s = .next t ∧ s.became t ({ s.me with fmtq := s.me.fmtq ++ [s.me.fmth ++ imm] }.at s.pcAfter)))

/-! ### The engines -/

/-- R173, R199: a command whose WAIT tokens are not there leaves everything but the record that its ring has taken it; a NOP takes them
together and pushes its SIGNAL tokens as far as the queue of 32 has room, keeping the rest, and as a program step goes on. It has no
other effect. NOTIFY, once every command of its ring before it has finished: reached by the last engine of PART it raises the event once, and every ring that waits for it goes on; reached by another it
holds its ring; one that names no engine, leaves its own out, or differs from the PART already reached is ENGINE_COMMAND (R198). -/
def Obligations.CommandTokensAndNotify : Prop :=
  (∀ (s : State) (hd : Hdr) (e k : Nat), e = s.ctx.eng → k = s.ctx.k →
    (s.ctx.retry = false → (s.curOf k e).toks = false → hd.wsrc ≠ 0 → s.waitTokens k e hd.wsrc.toNat < hd.wcnt.toNat →
      ∀ i, (i = .engineNop hd ∨ (∃ ev part, i = .notify hd ev part) ∨ (∃ rec, i = .resume hd rec)
          ∨ (e = 1 ∧ ∃ len src dst, i = .copy hd len src dst) ∨ (e = 0 ∧ ∃ t, i = .accz hd t)) →
        exec i s = .next (s.modCur k e id))
    ∧ (s.ctx.retry = false → s.cmdReady e hd →
      ∃ t, exec (.engineNop hd) s = .next t ∧ s.cmdEnds t e s.me
        ∧ (∀ j, Map.get 0 t.me.strTok j = Map.get 0 s.me.strTok j
            - (if j = e ∧ hd.wsrc = 5 ∧ (s.curOf k e).toks = false then hd.wcnt.toNat else 0))
        ∧ (hd.sdst = 5 → s.sameIter k (s.curOf k e).iter = true → ∃ n, n = min hd.scnt.toNat (32 - Map.get 0 s.me.engTok e)
            ∧ Map.get 0 t.me.engTok e = Map.get 0 s.me.engTok e + n
            ∧ ((t.me.ring e).sig = if n = hd.scnt.toNat then none else some (5, hd.scnt.toNat - n, (s.curOf k e).iter)))
        ∧ (hd.sdst = 0 → (t.me.ring e).sig = none)
        ∧ (1 ≤ hd.sdst.toNat → hd.sdst.toNat ≤ 4 → hd.wsrc = 0 →
            ∃ n have_, have_ = Map.get 0 s.myCore.engTok (engPair e (hd.sdst.toNat - 1)) ∧ n = min hd.scnt.toNat (32 - have_)
              ∧ Map.get 0 t.myCore.engTok (engPair e (hd.sdst.toNat - 1)) = have_ + n
              ∧ ((t.me.ring e).sig = if n = hd.scnt.toNat then none else some (hd.sdst.toNat, hd.scnt.toNat - n, (s.curOf k e).iter))))
    ∧ (s.ctx.retry = true → ∀ u, s.myCore.run = some u → u.k = k → s.stepReady k →
        ∃ t, exec (.engineNop hd) s = .next t ∧ s.stepEnds t { u with pc := u.pc + 8 }))
  ∧ (∀ (s : State) (hd : Hdr) (ev : Fin 16) (part : BitVec 4) (e k : Nat), e = s.ctx.eng → k = s.ctx.k → e < 4 → s.cmdReady e hd →
    s.me.inIter = true → (s.curOf k e).iter = s.me.iter → s.ringFirst k e = true →
    (∀ sl : Slot, sl = (Map.find? s.me.slots ev.val).getD ⟨part, 0, s.me.iter⟩ → part.getLsbD e = true → sl.part = part →
      (sl.reached ||| BitVec.ofNat 4 (2 ^ e) ≠ part →
        ∃ t, exec (.notify hd ev part) s = .next t ∧ s.cmdEnds t e
          { s.me with
            slots := Map.put s.me.slots ev.val { sl with reached := sl.reached ||| BitVec.ofNat 4 (2 ^ e) }
            rings := Map.put s.me.rings e { s.me.ring e with hold := some ev.val } })
      ∧ (sl.reached ||| BitVec.ofNat 4 (2 ^ e) = part →
        ∃ t, exec (.notify hd ev part) s = .next t ∧ Map.find? t.me.slots ev.val = none ∧ t.me.rdEv ev.val = s.me.rdEv ev.val + 1
          ∧ t.me.sleeping = none ∧ (t.me.ring e).cur = none ∧ (t.me.ring e).hold = none
          ∧ (∀ j, j ≠ e → (t.me.ring j).hold = if (s.me.ring j).hold = some ev.val then none else (s.me.ring j).hold)
          ∧ (∀ j, j ≠ k → t.part j = s.part j)))
    ∧ (part = 0 ∨ part.getLsbD e = false ∨ (∃ sl, Map.find? s.me.slots ev.val = some sl ∧ sl.part ≠ part) →
      ∃ x : State, exec (.notify hd ev part) s = .next (x.engineFault k e (.of cEngine 0) false) ∧ x.me.cmdBare = s.me.cmdBare))

/-- ACCZ, ACCLD, DRAIN, MMA and WBLD complete under the lease (R180 to R185): the tile is zeroed; takes the 16,384 words read; is written
row by row with the flags of R80 and zeroed under ZA; holds the sums of R85 and R86 over the blocks read; the weight buffer takes the
checked blocks. VER counts one, the format word is popped, STAT pushes its element, and nothing else changes. R85 and R86: an element of the tile after an MMA is its old value (or zero under ZI) with the block sums added in ascending K, an F32
sum rounded once per block from the exact block sum, an I32 sum saturated (without ZI the type is the one the tile has: log entry 56); a NaN block gives the canonical NaN, or leaves an I32
element. R183: a drained row is the tile's row in the format asked for. -/
def Obligations.MatrixCommandsAndArithmetic : Prop :=
  (∀ (s : State) (hd : Hdr) (t : TileOp) (w : DWord) (rest : List DWord) (x : Tile), x = s.myCore.tile t.tile.val →
    (s.tileReady hd t w rest →
      (∀ y : Tile, y = { x with data := [], i32 := w.getLsbD 6, of := false, sat := false, nv := false } →
        ∃ u, exec (.accz hd t) s = .next u ∧ (s.tileDone t.tile.val y).cmdEnds u 0 (s.me.tileCopy t rest y 4))
      ∧ (∀ (src : DWord) (ws : List Nat) (m : State) (y : Tile), rangeOk (isU s.ctx.k) src 65536 = true → ws.length = 16384 →
        s.reads 0 (eaDword src) ws m →
        y = { x with data := (List.range 16384).map (fun i => (i, BitVec.ofNat 32 (ws.getD i 0))), i32 := w.getLsbD 6, of := false, sat := false, nv := false } →
        ∃ u, exec (.accld hd t src) s = .next u ∧ (m.tileDone t.tile.val y).cmdEnds u 0 (s.me.tileCopy t rest y 3))
      ∧ (∀ (za : Bool) (dst exp : DWord) (m : State) (y : Tile) (df n i : Nat), df = w.toNat / 2 ^ 9 % 16 → n = drainBytes df →
        dwOk dst = true → dwOk exp = true → rangeOk (isU s.ctx.k) dst (128 * n) = true →
        (if 8 ≤ df then rangeOk (isU s.ctx.k) exp 512 = true else exp = 0) → (s.curOf s.ctx.k 0).prog = i → i ≤ 128 → 128 - i ≤ s.budget →
        chain (fun i s r => ∃ a b, s.writes 0 ((eaDword dst).at (i * n)) (drainRow x w i).1 a ∧ a.writes 0 ((eaDword exp).at (4 * i)) (drainRow x w i).2.1 b
          ∧ r = b.orFlags b.ctx.k (BitVec.ofNat 32 (drainRow x w i).2.2)) (128 - i) i s m →
        y = (if za then { x with data := [], of := false, sat := false, nv := false } else x) →
        ∃ u, exec (.drain hd t za dst exp) s = .next u ∧ (m.tileDone t.tile.val y).cmdEnds u 0 (m.me.tileCopy t rest y 2))
      ∧ (∀ (kb : BitVec 8) (e0 e1 : DWord) (bs : List (Nat × List Int)) (mant exp boff wa : Nat), mant = e0.toNat % 2 ^ 22 →
        exp = e0.toNat / 2 ^ 22 % 2 ^ 22 → boff = e1.toNat % 2 ^ 21 → wa = w.toNat % 8 + 2 → e0.toNat < 2 ^ 44 → e1.toNat < 2 ^ 21 →
        (if isU s.ctx.k then 0x1E0000 ≤ boff else boff < 0x1E0000) →
        inSpad (isU s.ctx.k) mant (512 * (kb.toNat + 1) * wa) = true → inSpad (isU s.ctx.k) exp (128 * (kb.toNat + 1)) = true →
        readBlocks s.myCore.wbuf (w.toNat / 8 % 8) (if isU s.ctx.k then 0x200000 else 0x1E0000) (128 * (kb.toNat + 1)) boff = some bs →
        s.padTables (engWho s.ctx.k 0) s.cten (coreOf s.ctx.k) mant (512 * (kb.toNat + 1) * wa) →
        s.padTables (engWho s.ctx.k 0) s.cten (coreOf s.ctx.k) exp (128 * (kb.toNat + 1)) →
        (s.myCore.padParts mant (512 * (kb.toNat + 1) * wa)).filter PadPart.needsFill = [] →
        (s.myCore.padParts exp (128 * (kb.toNat + 1))).filter PadPart.needsFill = [] →
        s.myCore.spadBad mant (512 * (kb.toNat + 1) * wa) = false → s.myCore.spadBad exp (128 * (kb.toNat + 1)) = false →
        ∃ u y, exec (.mma hd t kb e0 e1) s = .next u ∧ y = s.mmaTile (coreOf s.ctx.k) t.tile.val w (kb.toNat + 1) mant exp bs
          ∧ (s.tileDone t.tile.val y).cmdEnds u 0 (s.me.tileCopy t rest y 1)))
    ∧ (∀ (off len : BitVec 21) (src : DWord) (bs : List (List Byte)) (m : State), s.cmdReady 0 hd → s.myCore.holder = some s.ctx.k →
      (s.myCore.turnLeft ≠ 0 ∨ (s.curOf s.ctx.k 0).begun = true) →
      (if isU s.ctx.k then 0x1E0000 ≤ off.toNat ∧ off.toNat + len.toNat + 1 ≤ 0x200000 else off.toNat + len.toNat + 1 ≤ 0x1E0000) →
      rangeOk (isU s.ctx.k) src (len.toNat + 1) = true → (s.curOf s.ctx.k 0).prog = 0 → len.toNat + 1 ≤ s.budget →
      (bs.map List.length).sum = len.toNat + 1 → s.loads off.toNat (eaDword src) bs 0 m →
      ∃ u, exec (.wbld hd off len src) s = .next u ∧ (m.countTurn m.ctx.k).cmdEnds u 0 s.me))
  ∧ ((∀ (s : State) (c n kb mant exp : Nat) (w : DWord) (bs : List (Nat × List Int)) (i j : Nat) (y : Tile), i < 128 → j < 128 →
    y = s.mmaTile c n w kb mant exp bs → ∀ step : Nat × Bool × Bool → (Nat × List Int) × (Nat × List Int) → Nat × Bool × Bool,
    step = (fun a p => if (if w.getLsbD 7 then w.getLsbD 6 else ((s.core c).tile n).i32) then accI32 (w.toNat % 8 + 2) (w.toNat / 8 % 8 + 2) (w.toNat / 2 ^ 32 % 256) a p
      else accF32 (w.toNat % 8 + 2) (w.toNat / 8 % 8 + 2) a p) →
    Map.get 0 y.data (128 * i + j) = BitVec.ofNat 32 (((s.rowBlocks c (w.toNat % 8 + 2) kb mant exp (w.getLsbD 8) i).zip
      ((List.range kb).map (fun b => bs.getD (b * 128 + j) (0, [])))).foldl step
      ((if w.getLsbD 7 then 0 else (Map.get 0 ((s.core c).tile n).data (128 * i + j) : Word)).toNat, false, false)).1)
  ∧ (∀ (wa wb acc : Nat) (f g : Bool) (p : (Nat × List Int) × (Nat × List Int)) (a : Dy) (sum : Int),
    sum = ((p.1.2.zip p.2.2).map (fun q => q.1 * q.2)).sum →
    (p.1.1 = 255 ∨ p.2.1 = 255 → (accF32 wa wb (acc, f, g) p).1 = 0x7FC00000 ∧ (∀ ix, accI32 wa wb ix (acc, f, g) p = (acc, f, true)))
    ∧ (p.1.1 ≠ 255 → p.2.1 ≠ 255 →
      (unpack f32 acc = .fin a → ∀ v : Dy, v.val = (sum : ℚ) * (2 : ℚ) ^ ((p.1.1 : Int) + p.2.1 - 254 - ((wa : Int) - 2) - ((wb : Int) - 2)) →
        |v.val| < (2 : ℚ) ^ 127 → ∃ d : Dy, d.val = a.val + v.val ∧ (accF32 wa wb (acc, f, g) p).1 = (roundFP f32 .rne d).1
          ∧ (accF32 wa wb (acc, f, g) p).2.1 = (f || (roundFP f32 .rne d).2.testBit 1) ∧ (accF32 wa wb (acc, f, g) p).2.2 = g)
      ∧ (∀ (ix : Nat) (z : Int) (k : Nat), (p.1.1 : Int) + p.2.1 - 127 - (wa - 2) - (wb - 2) - ix = -(k : Int) → isRndsh .rne sum k z →
          sext 32 (accI32 wa wb ix (acc, f, g) p).1 = intoRange .fx true (sext 32 acc + z)
          ∧ (accI32 wa wb ix (acc, f, g) p).2.2 = g)))
  ∧ (∀ (x : Tile) (w : DWord) (i j : Nat), i < 128 → j < 128 → w.toNat / 2 ^ 9 % 16 = 0 → x.i32 = false →
      (drainRow x w i).1.getD j 0 = (Map.get 0 x.data (128 * i + j) : Word).toNat ∧ (drainRow x w i).2 = ([], 0)))

/-- COPY, COPYN, FILL, ACW, AMO, FLAG and PFTT complete where nothing stands in the way of their accesses (R187 to R190, R192): words or
elements in ascending order from the progress point on (R208), one access after the other; a source word that COPY or COPYN has itself written reads as it
stood before that write or as it stands after it (R187); AMO pushes the old value to o0; a PFTT of lines of this package without a barrier moves no byte, a bound one arrives at OB + N.
Which of the two a source word reads as, and that nothing else of a word is read early, is settled in log entry 13; the packages that a completion is sent to in
log entry 28. -/
def Obligations.CopyCommands : Prop :=
  ∀ (s : State) (hd : Hdr), s.cmdReady 1 hd →
    (∀ (len : BitVec 40) (src dst : DWord) (m : State) (i : Nat), len.toNat % 4 = 0 → rangeOk (isU s.ctx.k) src len.toNat = true →
      rangeOk (isU s.ctx.k) dst len.toNat = true → (s.curOf s.ctx.k 1).prog = 4 * i → i ≤ len.toNat / 4 → len.toNat / 4 - i ≤ s.budget →
      State.movesApart 4 (fun j => (eaDword src).at (4 * j)) (fun j => (eaDword dst).at (4 * j)) (len.toNat / 4 - i) i s.written s m →
      ∃ t, exec (.copy hd len src dst) s = .next t ∧ m.cmdEnds t 1 s.me)
    ∧ (∀ (ez nd : Fin 4) (x : CopynExt) (m : State) (n total i : Nat), n = (match ez with | 0 => 4 | 1 => 8 | 2 => 16 | 3 => 256) →
      copynDims x (nd.val + 1) = true → copynRange (isU s.ctx.k) x.src x x.s01 x.s23 n = true →
      copynRange (isU s.ctx.k) x.dst x x.d01 x.d23 n = true → total = CopynExt.count x 0 * CopynExt.count x 1 * CopynExt.count x 2 * CopynExt.count x 3 →
      (s.curOf s.ctx.k 1).prog = i → i ≤ total → total - i ≤ s.budget →
      (∀ from_ to_ : Nat → EA, (∀ j, from_ j = (eaDword x.src).shift (copynOff x x.s01 x.s23 j)) → (∀ j, to_ j = (eaDword x.dst).shift (copynOff x x.d01 x.d23 j)) →
        (n = 8 → State.movesApart 8 from_ to_ (total - i) i s.written s m)
        ∧ (n ≠ 8 → State.movesApart 4 (fun j => (from_ (j / (n / 4))).at (4 * (j % (n / 4)))) (fun j => (to_ (j / (n / 4))).at (4 * (j % (n / 4))))
            ((total - i) * (n / 4)) (i * (n / 4)) s.written s m)) →
      ∃ t, exec (.copyn hd ez nd x) s = .next t ∧ m.cmdEnds t 1 s.me)
    ∧ (∀ (x : EA) (i v : Nat) (a : State), s.engReadAt s.ctx.k 1 x 4 = .ok v a →
      ∃ w, s.copyRead s.ctx.k i x = .ok w a
        ∧ (Map.find? (a.curOf s.ctx.k 1).was (a.placeKey s.ctx.k x) = none → w = v)
        ∧ (∀ b, Map.find? (a.curOf s.ctx.k 1).was (a.placeKey s.ctx.k x) = some b → w = v ∨ w = b.toNat))
    ∧ (∀ (len : BitVec 40) (dst pat : DWord) (m : State) (i : Nat), len.toNat % 4 = 0 → rangeOk (isU s.ctx.k) dst len.toNat = true →
      (s.curOf s.ctx.k 1).prog = 4 * i → i ≤ len.toNat / 4 → len.toNat / 4 - i ≤ s.budget →
      chain (fun j s r => s.puts 1 ((eaDword dst).at (4 * j)) 4
        (if ((eaDword dst).a + 4 * j) / 4 % 2 = 1 then pat.toNat / 2 ^ 32 else pat.toNat % 2 ^ 32) r) (len.toNat / 4 - i) i s m →
      ∃ t, exec (.fill hd len dst pat) s = .next t ∧ m.cmdEnds t 1 s.me)
    ∧ (∀ (aop : Fin 16) (cs : Bool) (len : BitVec 36) (src dst : DWord) (m : State) (i : Nat) (u : Upd),
      (match aop.val with
        | 0 => some Upd.iadd | 1 => some .fadd | 2 => some .imin | 3 => some .imax | 4 => some .fmin | 5 => some .fmax | 6 => some .and
        | 7 => some .or | 8 => some .xor | _ => none) = some u →
      len.toNat % 4 = 0 → rangeOk (isU s.ctx.k) src len.toNat = true → rangeOk (isU s.ctx.k) dst len.toNat = true →
      (s.curOf s.ctx.k 1).prog = 4 * i → i ≤ len.toNat / 4 → len.toNat / 4 - i ≤ s.budget →
      chain (fun j s r => ∃ v a old, s.gets 1 ((eaDword src).at (4 * j)) 4 v a
        ∧ a.updates 1 ((eaDword dst).at (4 * j)) 4 cs (fun m => u.word m v) old r) (len.toNat / 4 - i) i s m →
      ∃ t, exec (.acw hd aop cs len src dst) s = .next t ∧ m.cmdEnds t 1 s.me)
    ∧ (∀ (aop : Fin 16) (d : Bool) (tgt x y : DWord) (m : State) (n old : Nat), n = (if d then 8 else 4) → amoOk aop.val d x y = true →
      rangeOk (isU s.ctx.k) tgt n = true → s.me.roomO 0 (1 + s.reserved s.ctx.k 1) = true → s.sameIter s.ctx.k (s.curOf s.ctx.k 1).iter = true →
      s.updates 1 (eaDword tgt) n false (fun old => amoOp aop.val (8 * n) old x.toNat y.toNat) old m →
      ∃ t, exec (.amo hd aop d tgt x y) s = .next t ∧ m.cmdEnds t 1 (s.me.wrO 0 (s.me.rdO 0 ++ [vecOf64 (BitVec.ofNat 64 old)])))
    ∧ (∀ (d sys : Bool) (tgt val : DWord) (m : State) (n : Nat), n = (if d then 8 else 4) → rangeOk (isU s.ctx.k) tgt n = true →
      (sys = true → s.sysOk s.cten = true) → s.ringFirst s.ctx.k 1 = true → s.puts 1 (eaDword tgt) n (val.toNat % 2 ^ (8 * n)) m →
      ∃ t, exec (.flag hd d sys tgt val) s = .next t ∧ m.cmdEnds t 1 s.me)
    ∧ (∀ (len : BitVec 40) (addr : DWord), len.toNat % 4 = 0 → vaOk addr = true → (s.curOf s.ctx.k 1).prog = 0 →
      lineCount (addr.toNat % 2 ^ 52) len.toNat ≤ s.budget →
      (∀ i va, i < lineCount (addr.toNat % 2 ^ 52) len.toNat → va = 64 * (addr.toNat % 2 ^ 52 / 64 + i) → s.tablesAtHand (engWho s.ctx.k 1) s.cten va
        ∧ ∀ p, s.xlate s.cten va = some p → p.hh = true ∨ p.cl = 3 ∨ (s.ours (p.pa va) = true ∧ s.frozenAt (64 * (p.pa va / 64)) = false)) →
      (∃ t, exec (.pftt hd len false addr 0) s = .next t ∧ s.cmdEnds t 1 s.me)
      ∧ (∀ (bar : DWord) (sc : Scope) (key e d : Nat), bar.toNat < 2 ^ 13 →
        (match bar.toNat / 2 ^ 4 % 8 with | 1 => some Scope.quad | 2 => some .die | 3 => some .pkg | 4 => some .pod | 5 => some .ten | _ => none) = some sc →
        e = bar.toNat / 2 ^ 7 + bar.toNat % 16 → s.barKeyOf s.cten (coreOf s.ctx.k) sc e = some key → barRemote key = false →
        d = s.droveIdOf key (s.curOf s.ctx.k 1).drove →
        (s.bar key).c ≠ 0 → (s.bar key).others s.pkg.pkgid.toNat d = false →
        ∃ t u o, exec (.pftt hd len true addr bar) s = .next t ∧ State.cmdEnds u t 1 s.me ∧ o.c = (s.bar key).c
          ∧ ((s.bar key).a + 1 = (s.bar key).c → o.a = 0 ∧ o.phase = (s.bar key).phase + 1 ∧ o.srcs = []
            ∧ u = (s.bar key).srcs.foldl (fun u p => u.transmit p e (.release s.cten e ((s.bar key).phase + 1))) (s.setBar key o))
          ∧ ((s.bar key).a + 1 ≠ (s.bar key).c → o.a = (s.bar key).a + 1 ∧ o.phase = (s.bar key).phase ∧ o.drove = Map.put (s.bar key).drove s.pkg.pkgid.toNat d ∧ u = s.setBar key o)))

/-- PIN binds its window with CNT 255 where every unit is mapped to this package and within the capacity of every die, UNPIN releases it
(R261 to R263), and RESUME performs the imaged command from PROG on (R193, R209); shown for the image of a COPY
that reads no word it has written (log entry 13). -/
def Obligations.WindowsAndResume : Prop :=
  ∀ (s : State) (hd : Hdr), s.cmdReady 1 hd →
    (∀ (w : Fin 16) (units : BitVec 16) (base : DWord) (a : Nat) (pg : Nat → PageInfo), a = base.toNat % 2 ^ 52 → vaOk base = true → a % 65536 = 0 →
      (∀ j, j ≤ units.toNat → s.tablesAtHand (engWho s.ctx.k 1) s.cten (a + j * 65536) ∧ s.xlate s.cten (a + j * 65536) = some (pg j) ∧ (pg j).hh = false
        ∧ (pg j).pa (a + j * 65536) / 2 ^ 50 % 1024 = s.pkg.pkgid.toNat) →
      (∀ d, d < 4 → s.pinnedOn s.cten w.val d
          + ((List.range (units.toNat + 1)).filter (fun j => s.homeDie ((pg j).pa (a + j * 65536)) == d)).length ≤ (s.ten s.cten).cap) →
      ∃ t, exec (.pin hd w units base) s = .next t ∧ s.cmdEnds t 1 s.me
        ∧ (t.ten s.cten).pins = Map.put (s.ten s.cten).pins w.val ⟨true, 255, units.toNat, a⟩
        ∧ ∀ j, j ≠ s.cten → (t.ten j).pins = (s.ten j).pins)
    ∧ (∀ w : Fin 16, ∃ t, exec (.unpin hd w) s = .next t ∧ s.cmdEnds t 1 s.me ∧ (t.ten s.cten).pins = Map.del (s.ten s.cten).pins w.val
        ∧ ∀ j, j ≠ s.cten → (t.ten j).pins = (s.ten j).pins)
    ∧ (s.ctx.eng = 1 → (s.curOf s.ctx.k 1).latch = [] → ∀ (rec : DWord) (ws is_ : List Nat) (a b m : State) (hd2 : Hdr) (len : BitVec 40) (src dst : DWord) (i : Nat),
      vaOk rec = true → ws.length = 16 → is_.length = 16 → s.reads 1 (eaDword rec) ws a →
      recordOk 1 s.cten (isU s.ctx.k) (dwordsOfWords ws) = true →
      a.reads 1 (eaDword ((dwordsOfWords ws).getD 6 0)) is_ b → is_.getD 1 0 / 2 ^ 10 % 64 = 1 →
      decodeCommand 1 ((dwordsOfWords is_).take 3) = .ok (.copy hd2 len src dst) →
      len.toNat % 4 = 0 → rangeOk (isU s.ctx.k) src len.toNat = true → rangeOk (isU s.ctx.k) dst len.toNat = true →
      max (s.curOf s.ctx.k 1).prog (ws.getD 8 0 + 2 ^ 32 * (ws.getD 9 0 % 2 ^ 16)) = 4 * i → i ≤ len.toNat / 4 → len.toNat / 4 - i ≤ s.budget →
      State.movesApart 4 (fun j => (eaDword src).at (4 * j)) (fun j => (eaDword dst).at (4 * j)) (len.toNat / 4 - i) i s.written b m →
      ∃ t, exec (.resume hd rec) s = .next t ∧ m.cmdEnds t 1 s.me)

/-- MRG.CLOSE concludes its lot (R268, R270, R271): stale, short of tiles and of non-finite norm it commits nothing; otherwise every element
of its tiles is added under the factor, one read-modify-write each; the group's books and the counter follow, the bay is free, the two
elements go to o0 and under EVEN the event is raised; a repeated CLOSE pushes the recorded pair again. Shown for an FP32 target, once the CLOSEs that reached
the group before it are concluded (R272). R268, R270: a lot is stale exactly when its contributor has concluded one with a sequence number not before it, short when a declared
tile is missing; else the norm is the root of the sum of squares, each step rounded once, and the factor is 1.0 or L / norm. -/
def Obligations.MergeClosesAndJudges : Prop :=
  (∀ (s : State) (hd : Hdr) (ev : Fin 16) (even : Bool) (k : Nat) (l : Lot) (g : Group), k = s.ctx.k → s.cmdReady 1 hd → s.lot k = some l →
    (l.bay.isSome = true ∨ l.result.isSome = true) → l.verdict = none → s.me.roomO 0 (2 + s.reserved k 1) = true → s.sameIter k (s.curOf k 1).iter = true →
    g = (s.ten s.cten).group l.g → g.tgt = false → l.die ≠ remoteDie →
    (∀ j ∈ (g.closing ++ [k]).takeWhile (· != k), ((s.part j).ring 1).cmds.any Cur.closes = false
      ∧ ∀ m, s.lot j = some m → m.contrib = l.contrib → m.result.isSome = true) →
    ∀ (out norm factor flag : Nat) (m n : State) (ws : List Word) (p : Part),
      p = s.me.wrO 0 (s.me.rdO 0 ++ [mkVec (fun i => if i = 0 then ws.getD 0 0 else if i = 1 then ws.getD 1 0 else 0),
        mkVec (fun i => if i = 0 then ws.getD 2 0 else if i = 1 then ws.getD 3 0 else 0)]) →
      (l.result = some ws →
        ∃ t, exec (.mrgClose hd ev even) s = .next t
          ∧ s.cmdEnds t 1 (if even then { p.wrEv ev.val (s.me.rdEv ev.val + 1) with sleeping := none } else p))
      ∧ (l.result = none → (out, norm, factor) = g.judge l →
        (out ≠ 0 → m = s ∧ flag = 0) →
        (out = 0 → ∃ olds : List Nat, olds.length = 256 * l.tiles ∧
          chain (fun j s r => s.updates 1 ⟨false, g.target + 4 * (256 * l.bt + j)⟩ 4 false
            (fun a => (fma32 .rne factor (Map.get 0 l.data (256 * l.bt + j) : Word).toNat a).1) (olds.getD j 0) r) (256 * l.tiles) 0 s m
          ∧ flag = if (List.range (256 * l.tiles)).any (fun j => finite32 (olds.getD j 0)
              && (fma32 .rne factor (Map.get 0 l.data (256 * l.bt + j) : Word).toNat (olds.getD j 0)).1 % 2 ^ 31 == f32.inf) then 1 else 0) →
        (out = 3 → n = m) → (out ≠ 3 → ∃ old, m.updates 1 ⟨false, g.counter⟩ 8 false (fun v => (v + 1) % 2 ^ 64) old n) →
        ws = [BitVec.ofNat 32 norm, BitVec.ofNat 32 factor,
          BitVec.ofNat 32 (out + (if out = 0 ∧ cmpV (unpack f32 factor) (unpack f32 0x3F800000) = -1 then 8 else 0) + 16 * flag + 256 * l.dup),
          BitVec.ofNat 32 (l.g + 2 ^ 6 * l.contrib + 2 ^ 16 * l.seq)] →
        ∃ t g', exec (.mrgClose hd ev even) s = .next t
          ∧ (out = 3 → g' = { g with stale := min (g.stale + 1) 65535, closing := g.closing.filter (· != k) })
          ∧ (out ≠ 3 → g' = { g with closing := g.closing.filter (· != k), valid := Map.put g.valid l.contrib l.seq, concl := g.concl + 1
                                     rej := if out = 0 then g.rej else min (g.rej + 1) 65535 })
          ∧ (({ n with pkg := { n.pkg with bays := match l.bay with | some b => Map.del n.pkg.bays (bayKey l.die b) | none => n.pkg.bays } }).modTen s.cten
              (fun y => { y with groups := Map.put y.groups l.g g' })).cmdEnds t 1
              (let q := if even then { p.wrEv ev.val (s.me.rdEv ev.val + 1) with sleeping := none } else p
               { q with rings := Map.put q.rings 1 { q.ring 1 with lot := some { l with bay := none, bitmap := [], data := [], result := some ws, verdict := some (out, norm, factor) } } })))
  ∧ (∀ (g : Group) (l : Lot), l.seq < 2 ^ 16 → (∀ q, Map.find? g.valid l.contrib = some q → q < 2 ^ 16) →
    ((g.judge l).1 = 3 ↔ ∃ q, Map.find? g.valid l.contrib = some q ∧ (((l.seq : Int) - q) % 2 ^ 16 = 0 ∨ 32768 ≤ ((l.seq : Int) - q) % 2 ^ 16))
    ∧ ((g.judge l).1 = 2 ↔ (g.judge l).1 ≠ 3 ∧ ∃ j, j < l.tiles ∧ Map.get false l.bitmap (l.bt + j) = false)
    ∧ ((g.judge l).1 ≠ 3 → (g.judge l).1 ≠ 2 → ∀ sq : Nat → Nat, sq 0 = 0 →
        (∀ j, j < 256 * l.tiles → sq (j + 1) = (fma32 .rne (Map.get 0 l.data (256 * l.bt + j) : Word).toNat
          (Map.get 0 l.data (256 * l.bt + j) : Word).toNat (sq j)).1) →
        ∀ norm, norm = (sqrtV f32 .rne (unpack f32 (sq (256 * l.tiles)))).1 →
        (norm / 2 ^ 23 % 2 ^ 8 = 255 → g.judge l = (1, norm, 0))
        ∧ (∀ x y, unpack f32 norm = .fin x → unpack f32 g.lim.toNat = .fin y →
            (x.val ≤ y.val → g.judge l = (0, norm, 0x3F800000))
            ∧ (y.val < x.val → g.judge l = (0, norm, (divV f32 .rne (.fin y) (.fin x)).1)))))

/-- GATH, SCAT, SCATA and EMBAG complete where nothing stands in the way (R194, R195): in ascending row order each index is read, its row
lies at base + index * stride, and its words are moved, updated one by one, pushed to o2, or summed for the bag with one FP32 rounding
per addition from +0. -/
def Obligations.GatherCommands : Prop :=
  ∀ (s : State) (hd : Hdr) (n rw : BitVec 16) (idx base stride dst : DWord) (m : State) (i w : Nat), s.cmdReady 2 hd → w = rw.toNat + 1 →
    stride.toNat < 2 ^ 32 → dwOk idx = true → dwOk base = true → dwOk dst = true → rangeOk (isU s.ctx.k) idx (4 * (n.toNat + 1)) = true →
    (s.curOf s.ctx.k 2).prog = i → i ≤ n.toNat + 1 → n.toNat + 1 - i ≤ s.budget →
    (rangeOk (isU s.ctx.k) dst (4 * w * (n.toNat + 1)) = true →
      (chain (fun j s r => ∃ v a x, s.listEntry idx j v a ∧ a.row base stride w v x ∧ a.moves 2 x ((eaDword dst).at (4 * w * j)) w r)
          (n.toNat + 1 - i) i s m →
        ∃ t, exec (.gath hd n rw false idx base stride dst) s = .next t ∧ m.cmdEnds t 2 s.me)
      ∧ (chain (fun j s r => ∃ v a x, s.listEntry idx j v a ∧ a.row base stride w v x ∧ a.moves 2 ((eaDword dst).at (4 * w * j)) x w r)
          (n.toNat + 1 - i) i s m →
        ∃ t, exec (.scat hd n rw idx base stride dst) s = .next t ∧ m.cmdEnds t 2 s.me)
      ∧ (∀ aop : Fin 4, chain (fun j s r => ∃ v a x, s.listEntry idx j v a ∧ a.row base stride w v x
          ∧ chain (fun q s r => ∃ v a old, s.gets 2 (((eaDword dst).at (4 * w * j)).at (4 * q)) 4 v a ∧ a.updates 2 (x.at (4 * q)) 4 false
            (fun m => (match aop with | 0 => Upd.iadd | 1 => .fadd | 2 => .imax | 3 => .fmax).word m v) old r) w 0 a r) (n.toNat + 1 - i) i s m →
        ∃ t, exec (.scata hd n rw aop idx base stride dst) s = .next t ∧ m.cmdEnds t 2 s.me))
    ∧ (∀ vs : List Vec, w = 64 → n.toNat < 32 → s.me.roomO 2 (n.toNat + 1 - i + s.reserved s.ctx.k 2) = true → s.sameIter s.ctx.k (s.curOf s.ctx.k 2).iter = true →
      vs.length = n.toNat + 1 - i →
      chain (fun j s r => ∃ v a x ws, s.listEntry idx j v a ∧ a.row base stride w v x ∧ ws.length = 64 ∧ a.reads 2 x ws r
        ∧ vs[j - i]? = some (mkVec (fun q => BitVec.ofNat 32 (ws.getD q 0)))) (n.toNat + 1 - i) i s m →
      ∃ t, exec (.gath hd n rw true idx base stride 0) s = .next t ∧ m.cmdEnds t 2 (s.me.wrO 2 (s.me.rdO 2 ++ vs)))
    ∧ (∀ offs : DWord, dwOk offs = true → rangeOk (isU s.ctx.k) offs (4 * (n.toNat + 2)) = true →
      rangeOk (isU s.ctx.k) dst (4 * w * (n.toNat + 1)) = true →
      chain (fun j s r => ∃ (x y : Nat) (a b c : State) (rows : List (List Nat)), s.listEntry offs j x a ∧ a.listEntry offs (j + 1) y b
        ∧ rows.length = y - x ∧ (∀ l ∈ rows, l.length = w)
        ∧ chain (fun q s r => ∃ v d z, s.listEntry idx (x + q) v d ∧ d.row base stride w v z ∧ d.reads 2 z (rows.getD q []) r) (y - x) 0 b c
        ∧ c.writes 2 ((eaDword dst).at (4 * w * j)) ((List.range w).map (fun q =>
            rows.foldl (fun sum l => (add32 .rne sum (l.getD q 0)).1) 0)) r) (n.toNat + 1 - i) i s m →
      ∃ t, exec (.embag hd n rw idx base stride offs dst) s = .next t ∧ m.cmdEnds t 2 s.me)

/-- RUN checks its rank table, registers its CID and starts its program with the peers at RANK + 1, its counters zero; it finishes when
the program has ended (R196, R311). WAIT, LOOP, PEER, BARC and ENDP do what R197 and R311 say to the program's state. -/
def Obligations.ShepherdControl : Prop :=
  ∀ (s : State) (k : Nat), k = s.ctx.k →
    (∀ (hd : Hdr) (out : Bool) (x : RunExt), s.cmdReady 3 hd →
      (∀ (rank g cid : Nat) (bs : List Byte) (m : State), rank = x.ids.toNat % 2 ^ 16 → g = x.ids.toNat / 2 ^ 16 % 2 ^ 16 →
        cid = x.ids.toNat / 2 ^ 32 % 2 ^ 16 → s.myCore.run = none → (out = true → s.me.roomO 1 (1 + s.reserved k 3) = true) →
        (s.curOf k 3).latch = [] → runOk (isU k) x = true →
        s.readsBytes 3 (eaDword x.ranks) 0 (2 * g) bs m → (idsOf bs).getD rank 0 = s.pkg.pkgid.toNat → (idsOf bs).Nodup →
        s.pkg.cids.any (fun e => e.1 == s.cten && e.2.1 == cid) = false → (s.ten s.cten).aborts.any (fun a => a.1 == cid) = false →
        ∃ t u, exec (.run hd out x) s = .next t ∧ t.myCore.run = some u ∧ u.k = k ∧ u.out = out ∧ u.pc = x.prog.toNat ∧ u.rank = rank ∧ u.g = g
          ∧ u.cid = cid ∧ u.ids = idsOf bs ∧ (∀ j, Map.get 0 u.bf j = (match j with | 0 => x.bf0 | 1 => x.bf1 | 2 => x.bf2 | 3 => x.bf3 | _ => 0))
          ∧ (∀ j, Map.get 0 u.kc j = 0) ∧ u.sendPeer = (rank + 1) % g ∧ u.recvPeer = (rank + 1) % g ∧ u.fin = false
          ∧ (s.cten, cid, coreOf k) ∈ t.pkg.cids ∧ ((t.me.ring 3).cur).isSome = true)
      ∧ (∀ u, s.myCore.run = some u → u.k = k → u.fin = true →
        ∃ t, exec (.run hd out x) s = .next t ∧ (s.modCore (coreOf k) (fun c => { c with run := none })).cmdEnds t 3 s.me))
    ∧ (∀ u : Run, s.myCore.run = some u → u.k = k → s.stepReady k →
      (u.unreceived = 0 → ∃ t, exec .kWait s = .next t ∧ s.stepEnds t { u with pc := u.pc + 8 })
      ∧ (∀ (kc : Fin 4) (x : DWord) (c : Nat), 0 < x.toNat / 2 ^ 32 →
        c = (if Map.get 0 u.kc kc.val = 0 then x.toNat / 2 ^ 32 else (Map.get 0 u.kc kc.val : Word).toNat) - 1 →
        ∃ t pc, exec (.kLoop kc x) s = .next t ∧ s.stepEnds t { u with kc := Map.put u.kc kc.val (BitVec.ofNat 32 c), pc := pc }
          ∧ (c = 0 → pc = u.pc + 16) ∧ (c ≠ 0 → (pc : Int) = (u.pc + 8 * (BitVec.ofNat 32 x.toNat).toInt) % 2 ^ 64))
      ∧ (∀ (recv sk : Bool) (kc : Fin 4) (delta stride : BitVec 16), 0 < u.g →
        ∃ t p, exec (.peer recv sk kc delta stride) s = .next t ∧ p < u.g
          ∧ (p : Int) = (u.rank + delta.toInt * (if sk then ((Map.get 0 u.kc kc.val : Word).toNat : Int) else stride.toNat)) % u.g
          ∧ s.stepEnds t (if recv then { u with pc := u.pc + 8, recvPeer := p } else { u with pc := u.pc + 8, sendPeer := p }))
      ∧ ((u.g = 1 ∨ u.barcDone = true) → ∃ t, exec .barc s = .next t ∧ s.stepEnds t { u with pc := u.pc + 8, atBarc := false, barcDone := false })
      ∧ (u.g ≠ 1 → u.barcDone = false → ∃ t, exec .barc s = .next t ∧ s.stepEnds t { u with atBarc := true })
      ∧ (u.out = false → ∃ t, exec .endp s = .next t ∧ t.myCore.run = some { u with fin := true }
        ∧ (∀ e, e ∈ t.pkg.cids ↔ e ∈ s.pkg.cids ∧ ¬(e.1 = s.cten ∧ e.2.1 = u.cid)) ∧ u.cid ∈ (t.ten s.cten).ended
        ∧ t.parts = (s.modCur k 3 (fun c => { c with latch := [] })).parts)
      ∧ (∀ v m, u.out = true → eaOk (isU k) (eaDword (Map.get 0 u.bf 0)) 8 = true → s.sameIter k (s.curOf k 3).iter = true →
        s.gets 3 (eaDword (Map.get 0 u.bf 0)) 8 v m →
        ∃ t, exec .endp s = .next t ∧ t.myCore.run = some { u with fin := true }
          ∧ t.me.cmdBare = (s.me.wrO 1 (s.me.rdO 1 ++ [vecOf64 (BitVec.ofNat 64 v)])).cmdBare))

/-- The data steps complete where nothing stands in the way (R197, R312 to R314): SEND reads LEN bytes and appends them as the next flits of the
stream towards the send peer; RECV, RRS, RRW and RCPY take the next LEN bytes of the stream from the receive peer, and write, combine and
send, combine and write, or write and forward them. A step that sends waits while the link does not take its flits, and one that receives until its bytes
have arrived. -/
def Obligations.ShepherdData : Prop :=
  ∀ (s : State) (k : Nat) (u : Run) (o : StepOp) (x : EA) (len : Nat) (m : State), k = s.ctx.k → s.myCore.run = some u → u.k = k →
    s.stepReady k → len = o.ext.toNat / 2 ^ 32 → len % 4 = 0 →
    x = (eaDword (Map.get 0 u.bf o.bf.val)).at (o.ext.toNat % 2 ^ 32 + if o.oi then (Map.get 0 u.kc o.kc.val : Word).toNat * len else 0) →
    eaOk (isU k) x len = true →
    (∀ ws, len = 0 ∨ s.sendWaits u = false → ws.length = len / 4 → s.reads 3 x ws m →
      ∃ t, exec (.send o) s = .next t
        ∧ (m.sendData u (bytesOfWords ws)).1.stepEnds t { (m.sendData u (bytesOfWords ws)).2 with pc := u.pc + 16 })
    ∧ (len ≠ 0 → s.sendWaits u = true → ∃ t, exec (.send o) s = .next t ∧ t.myCore.run = some u ∧ t.pkg.txFlits = s.pkg.txFlits)
    ∧ (s.streamNext u len = none → ∃ t, exec (.recv o) s = .next t ∧ t.myCore.run = some u ∧ t.mem = s.mem ∧ t.pkg.streams = s.pkg.streams)
    ∧ (∀ bs, s.streamNext u len = some bs →
      (s.writes 3 x (wordsOf bs) m → ∃ t, exec (.recv o) s = .next t ∧ (m.dropStream u len).stepEnds t { u with pc := u.pc + 16 })
      ∧ (len = 0 ∨ s.sendWaits u = false → s.writes 3 x (wordsOf bs) m → ∃ t, exec (.rcpy o) s = .next t
          ∧ ((m.sendData u bs).1.dropStream u len).stepEnds t { (m.sendData u bs).2 with pc := u.pc + 16 })
      ∧ (∀ (op : BitVec 2) (ws : List Nat) (r : List Nat), op ≠ 3 → ws.length = len / 4 → s.reads 3 x ws m →
        r = ((wordsOf bs).zip ws).map (fun p => match op with
          | 0 => (add32 .rne p.1 p.2).1 | 1 => (minmaxV f32 true p.1 p.2).1 | _ => (minmaxV f32 false p.1 p.2).1) →
        (len = 0 ∨ s.sendWaits u = false → ∃ t, exec (.rrs o op) s = .next t
          ∧ ((m.sendData u (bytesOfWords r)).1.dropStream u len).stepEnds t { (m.sendData u (bytesOfWords r)).2 with pc := u.pc + 16 })
        ∧ (∀ (dbf : Fin 4) (df : BitVec 4) (rm : Rm) (y1 : DWord) (y : EA) (n : Nat) (p : State) (out : List Byte), df.toNat ≤ 2 → y1.toNat < 2 ^ 32 →
          n = (if df = 0 then len else len / 2) →
          y = (eaDword (Map.get 0 u.bf dbf.val)).at (y1.toNat + if o.oi then (Map.get 0 u.kc o.kc.val : Word).toNat * n else 0) →
          eaOk (isU k) y n = true → y.a % (if df = 0 then 4 else 2) = 0 →
          out = (if df = 0 then bytesOfWords r
            else (r.map (fun w => leBytes 2 (roundVal (if df = 1 then bf16 else f16) rm (unpack f32 w)).1)).flatten) →
          m.writesBytes 3 y out p →
          ∃ t, exec (.rrw o op dbf df rm y1) s = .next t ∧ (p.dropStream u len).stepEnds t { u with pc := u.pc + 24 })))

/-! ### Faults -/

/-- Taking a fault forms its record (R203) under a number of its own, adds it to the stopped requesters, a unit's tokens back in their queues (R205),
and the record goes its way (R204). An illegal opcode and a TRAP, each behind quiet units, an unassigned command code and an expired watchdog take one at
their own place (R35, R65, R97, R51, R18); until the units are quiet the first two wait. A record that was held goes the same way later. R207, R97: a replay of the one pending record that it names. RETRY lets a resumable requester go on, a strand after SOFTWARE_TRAP from
the next instruction, as SKIP does too; SKIP of an engine record, unless it was raised on taking the word, lets the command count as
finished with its signals and zero vectors for what it reserved; everything else is a KILL. A command that goes on is in execution again. In a frozen
partition the action is kept; a unit whose iteration has ended since only loses its record; and a replay that names nothing does nothing.
That the replay of a record of an iteration that has ended does nothing but close it is the model's reading (log entry 29). -/
def Obligations.FaultsAreTakenAndReplayed : Prop :=
  ((∀ (s : State) (who : Nat) (f : FInfo) (loc : Nat) (info : DWord) (img : List DWord) (take : Bool) (x : State),
    x = (if who % 8 < 4 then s.setPart (who / 8) ((s.part (who / 8)).unstart (who % 8)) else s) →
    ∃ r : FRec, r.id = s.nextRec ∧ r.who = who ∧ r.ten = s.tenOf (coreOf (who / 8)) ∧ r.cause = f.cause ∧ r.res = resumable f.cause (who % 8) f.aux
      ∧ r.loc = loc ∧ r.addr = f.addr ∧ r.info = info ∧ r.prog = f.prog ∧ r.lane = f.lane ∧ r.aux = f.aux ∧ r.img = img
      ∧ r.pts = (s.part (who / 8)).pts ∧ r.atTake = take ∧ r.seq = none ∧ r.act = none ∧ r.dead = false
      ∧ ({ x with faults := s.faults ++ [r], nextRec := s.nextRec + 1 }).recordGoes r (s.takeFault who f loc info img take))
  ∧ (∀ (s : State),
    (∀ w, ((s.payAll s.ctx.k).part s.ctx.k).quiet = true → ∃ x, s.became x s.me
      ∧ exec (.illegalInstruction w) s = .next (x.takeFault (s.ctx.k * 8) ⟨0x0A, 0, 0, 0, 0⟩ s.ctx.pc.toNat s.ctx.word [] false))
    ∧ (∀ code : Word, ((s.payAll s.ctx.k).part s.ctx.k).quiet = true → ∃ x, s.became x s.me
      ∧ exec (.trap code) s = .next (x.takeFault (s.ctx.k * 8) ⟨0x14, 0, code.toNat, 0, 0⟩ s.ctx.pc.toNat s.ctx.word [] false))
    ∧ (∀ i, ((∃ w, i = .illegalInstruction w) ∨ (∃ c, i = .trap c)) → ((s.payAll s.ctx.k).part s.ctx.k).quiet = false →
        ∃ t, exec i s = .next t ∧ s.became t s.me)
    ∧ (∀ w c, (s.me.ring s.ctx.eng).cur = some c →
      exec (.unassignedCommandCode w) s = .next ((s.setPart s.ctx.k { s.me with
          rings := Map.put s.me.rings s.ctx.eng { s.me.ring s.ctx.eng with
            cur := none, bad := (s.me.ring s.ctx.eng).bad ++ [{ c with prog := 0 }] } }).takeFault
        (engWho s.ctx.k s.ctx.eng) ⟨0x0F, 0, 0, 0, 0⟩ (c.idx % 2 ^ 32) c.word (c.word :: c.ext) true))
    ∧ (∀ (k : Nat) (u : Fin 4) (why wdp : Nat) (m : State), wdp = (s.ten (s.tenOf (coreOf k))).fqctl.toNat / 2 ^ 24 % 2 ^ 5 →
      Map.find? (s.part k).waits u.val = some why → why ≠ 7 → (s.part k).inIter = true → (s.part k).frozen = false →
      (∀ j, j < 4 → s.stopped (k * 8 + j) = false) → m = { s with cycle := max s.cycle (s.cycle + 2 ^ wdp * 1024) } →
      (wdp = 31 → exec (.watchdog k u) s = .next s)
      ∧ (wdp ≠ 31 → u = 0 → ∃ w, exec (.watchdog k u) s = .next (m.takeFault (k * 8) ⟨0x15, 0, why, 0, 0⟩ (s.part k).pc.toNat w [] false))
      ∧ (∀ x rest, wdp ≠ 31 → u ≠ 0 → (Map.find? (s.part k).tail u.val).toList ++ (s.part k).pend u.val = x :: rest →
        exec (.watchdog k u) s = .next (m.takeFault (k * 8 + u.val) ⟨0x15, 0, why, 0, 0⟩ x.pc.toNat x.word [] false)))
    ∧ (∀ (ten : Nat) (r : FRec), s.faults.find? (fun r => r.ten == ten && r.seq.isNone) = some r →
      ∃ t, exec (.faultRecordWrite ten) s = .next t ∧ s.recordGoes r t)))
  ∧ (∀ (s : State) (ten : Nat) (seq : Word) (one : Bool) (act : ReplayAct) (i : Instr),
    i = (match act with | .retry => .replayRetry ten seq one | .skip => .replaySkip ten seq one | .kill => .replayKill ten seq one) →
    (s.faults.filter (·.named ten seq one) = [] → exec i s = .next s)
    ∧ ∀ (r : FRec) (k e : Nat) (m : State), s.faults.filter (·.named ten seq one) = [r] → s.faults.find? (fun x => x.id == r.id) = some r →
      k = r.who / 8 → e = r.who % 8 - 4 → m = { s with faults := s.faults.filter (fun x => x.id != r.id) } →
      (r.ten = ten ∧ r.act = none ∧ ∃ q, r.seq = some q ∧ (if one then q = seq else (seq - q).toNat < 2 ^ 31)
        ∧ ((s.part k).frozen = true → r.dead = false →
          exec i s = .next { s with faults := s.faults.map (fun x => if x.id = r.id then { x with act := some act } else x) })
        ∧ (r.dead = true → exec i s = .next m)
        ∧ ((s.part k).frozen = false → r.dead = false →
          (r.who % 8 < 4 →
            (r.res = true → r.cause = 0x14 → act ≠ .kill → ∃ t, exec i s = .next t
              ∧ t = m.setPart k { s.part k with pc := (s.part k).pc + 8, seq := (s.part k).seq + 1 })
            ∧ (r.res = true → r.cause ≠ 0x14 → act = .retry → exec i s = .next m)
            ∧ ((r.res = false ∨ act = .kill ∨ (act = .skip ∧ r.cause ≠ 0x14)) → ∃ t, exec i s = .next t ∧ s.killedBy t r))
          ∧ (4 ≤ r.who % 8 →
            (∀ c, ((s.part k).ring e).bad.find? (fun c => c.idx % 2 ^ 32 == r.loc) = some c →
              (r.res = true → act = .retry → exec i s = .next (m.setPart k { s.part k with
                rings := Map.put (s.part k).rings e { (s.part k).ring e with
                  cur := some c, more := ((s.part k).ring e).cur.toList ++ ((s.part k).ring e).more
                  bad := ((s.part k).ring e).bad.filter (fun d => d.idx % 2 ^ 32 != r.loc) } }))
              ∧ (act = .skip → r.atTake = false → ∃ t, exec i s = .next t ∧ t.faults = m.faults
                ∧ ((t.part k).ring e).cur = none ∧ ((t.part k).ring e).more = ((s.part k).ring e).cur.toList ++ ((s.part k).ring e).more
                ∧ ((t.part k).ring e).bad = ((s.part k).ring e).bad.filter (fun d => d.idx % 2 ^ 32 != r.loc)
                ∧ (s.sameIter k c.iter = true → (t.part k).rdO (outQueue e) = (s.part k).rdO (outQueue e) ++ List.replicate c.resv zeroVec)
                ∧ ((hdrOf c.word.toNat).sdst = 5 → (s.part k).inIter = true → (s.part k).iter = c.iter →
                    Map.get 0 (s.part k).engTok e + (hdrOf c.word.toNat).scnt.toNat ≤ 32 →
                    Map.get 0 (t.part k).engTok e = Map.get 0 (s.part k).engTok e + (hdrOf c.word.toNat).scnt.toNat)))
            ∧ (((r.res = false ∧ act = .retry) ∨ act = .kill ∨ (act = .skip ∧ r.atTake = true)) →
                ∃ t, exec i s = .next t ∧ s.killedBy t r)))))

/-! ### Events -/

/-- What time brings: a translation ends VALID or ABSENT, or STALE where a revocation came meanwhile (R11, R12); a sleep ends (R109); pts
advances by one in 64 running cycles (R217); clocks and leases far behind the highest clock are raised to it minus 2^45 (R217); a lease that has ended is
given up (R218); the array lease stays with a holder that is ready or about to be, and else goes to the first ready strand in the order of R299, for
min(max(lrun, 1), LMAX) commands. -/
def Obligations.ClocksAndTurns : Prop :=
  ∀ s : State,
    (∀ (k : Nat) (h : Fin 32) (x : Handle) (m : State), (s.part k).rdH h.val = x → x.st = .pending → m = { s with cycle := max s.cycle x.due } →
      m.tablesAtHand (xltReq k h.val) (s.tenOf (coreOf k)) x.va →
      (∀ p, s.xlate (s.tenOf (coreOf k)) x.va = some p →
        (s.leafDue p false = true → m.unhindered (xltReq k h.val) (s.tenOf (coreOf k)) [] [leafStretch p]) →
        (s.leafDue p false = false → Map.find? s.reqs (xltReq k h.val) = none) →
        ∃ t y, exec (.translationComplete k h) s = .next t
          ∧ t = (m.touchLeaf p false).setPart k { s.part k with h := Map.put (s.part k).h h.val y }
          ∧ y.va = x.va ∧ y.page = p ∧ y.revoked = false ∧ y.st = if x.revoked then .stale else .valid)
      ∧ (s.xlate (s.tenOf (coreOf k)) x.va = none → ∃ t y, exec (.translationComplete k h) s = .next t
        ∧ t = m.setPart k { s.part k with h := Map.put (s.part k).h h.val y }
        ∧ y.va = x.va ∧ y.page.vbase = x.va / 2 ^ 16 % 2 ^ 36 * 2 ^ 16 ∧ y.revoked = false ∧ y.st = if x.revoked then .stale else .absent))
    ∧ (∀ k c, (s.part k).sleeping = some c →
      exec (.sleepExpire k) s = .next ({ s with cycle := max s.cycle c }.setPart k { s.part k with sleeping := none }))
    ∧ (∀ k, (s.part k).inIter = true → (s.part k).frozen = false → ∃ t, exec (.ptsAdvance k) s = .next t
      ∧ SameSeen ({ s with cycle := s.cycle + 64 }.setPart k { s.part k with pts := (s.part k).pts + 1 }) t)
    ∧ (∀ k, (s.part k).frozen = true → exec (.ptsAdvance k) s = .next s)
    ∧ (∃ t top, exec .clockCatchup s = .next t ∧ (top = s.gts ∨ ∃ e ∈ s.parts, top = e.2.pts)
      ∧ ((s.gts.toNat < 2 ^ 46 ∧ ∀ e ∈ s.parts, e.2.pts.toNat < 2 ^ 46) → s.gts.toNat ≤ top.toNat ∧ ∀ e ∈ s.parts, e.2.pts.toNat ≤ top.toNat)
      ∧ ∀ up : BitVec 48 → BitVec 48, (∀ c, 2 ^ 45 < (top - c).toNat → (top - c).toNat < 2 ^ 47 → up c = top - 2 ^ 45) →
        (∀ c, ¬(2 ^ 45 < (top - c).toNat ∧ (top - c).toNat < 2 ^ 47) → up c = c) →
        (∀ k p, Map.find? s.parts k = some p → Map.find? t.parts k = some { p with pts := up p.pts })
        ∧ (∀ l w e, Map.find? s.pkg.lineTs l = some (w, e) → Map.find? t.pkg.lineTs l = some (up w, up e))
        ∧ (∀ l w n, Map.find? s.pkg.awayTs l = some (w, n) → Map.find? t.pkg.awayTs l = some (up w, n))
        ∧ (∀ l x, Map.find? s.pkg.rdc l = some x → Map.find? t.pkg.rdc l = some { x with lease := up x.lease })
        ∧ (∀ c l x, Map.find? (s.core c).l1d l = some (.s x) → Map.find? (t.core c).l1d l = some (.s (up x)))
        ∧ (∀ c, (t.core c).bare = (s.core c).bare)
        ∧ t = { s with parts := t.parts, cores := t.cores, pkg := { s.pkg with
            caughtUp := top, lineTs := t.pkg.lineTs, awayTs := t.pkg.awayTs, rdc := t.pkg.rdc } })
    ∧ (∀ (core line : Nat) (ends : BitVec 48 → Prop),
      (∀ lease, ends lease ↔ ∃ j, j < 8 ∧ (s.part (8 * core + j)).inIter = true ∧ 0 < ((s.part (8 * core + j)).pts - lease).toNat
        ∧ ((s.part (8 * core + j)).pts - lease).toNat < 2 ^ 47) →
      (∀ lease, Map.find? (s.core core).l1d line = some (.s lease) → Map.find? s.pkg.rdc (rdcKey (dieOf core) false line) = none →
        (ends lease → exec (.readLeaseExpiry core line) s
            = .next (s.setCore core { s.core core with l1d := Map.del (s.core core).l1d line }))
        ∧ (¬ ends lease → exec (.readLeaseExpiry core line) s = .next s))
      ∧ (∀ x, Map.find? (s.core core).l1d line = none → Map.find? s.pkg.rdc (rdcKey (dieOf core) false line) = some x → x.st = .s →
        (ends x.lease → exec (.readLeaseExpiry core line) s
            = .next { s with pkg := { s.pkg with rdc := Map.del s.pkg.rdc (rdcKey (dieOf core) false line) } })
        ∧ (¬ ends x.lease → exec (.readLeaseExpiry core line) s = .next s)))
    ∧ (∀ core, (∀ k, (s.core core).holder = some k → (s.arrayReady k = true ∨ s.arrayComing k = true) → s.arraySkipped k = false →
        ((s.core core).turnLeft ≠ 0 ∨ (s.curOf k 0).begun = true) → exec (.arrayLeaseTurn core) s = .next s))
    ∧ (∀ core, ((s.core core).holder = none ∨ ∃ k, (s.core core).holder = some k
        ∧ ((s.arrayReady k = false ∧ s.arrayComing k = false) ∨ s.arraySkipped k = true ∨ ((s.core core).turnLeft = 0 ∧ (s.curOf k 0).begun = false))) →
      (∀ (a b : List Nat) (k i : Nat), (List.range 8).map (fun j => 2 * (4 * core + ((if j < 4 then (s.core core).lastUrgent else (s.core core).lastHolder) + 1 + j) % 4) + if j < 4 then 1 else 0) = a ++ k :: b →
        (∀ j ∈ a, s.arrayReady j = false ∨ s.arraySkipped j = true) → s.arrayReady k = true → s.arraySkipped k = false → i = k / 2 % 4 →
        exec (.arrayLeaseTurn core) s = .next ((s.setCore core { s.core core with
          holder := some k, turnLeft := min (max (s.part k).lrun.toNat 1) (s.leaseMax core (isU k)), lastUrgent := if isU k = true then i else (s.core core).lastUrgent
          lastHolder := if isU k = true then (s.core core).lastHolder else i }).setPart k
            { s.part k with skip := none }))
      ∧ ((∀ j, j < 8 → s.arrayReady (8 * core + j) = false ∨ s.arraySkipped (8 * core + j) = true) →
        exec (.arrayLeaseTurn core) s = .next (s.setCore core { s.core core with holder := none })))

/-- MRG.SET defines its group afresh (R265); MRG.OPEN takes the first free bay of its tenant on the die of the target's first element, and
opens the lot (R267); MRG.DEP puts 256 words into the bay, or counts a duplicate (R269). A bay that is free goes to the first waiting OPEN that can use it, which is one of another package too, and one whose identity another open lot has gets
none (R267). A lot whose iteration every strand of its gang has retired and whose rings are done is abandoned: its bay is free, its deposits are gone, and
ABND counts (R273). -/
def Obligations.MergeLotsAndBays : Prop :=
  (∀ (s : State) (hd : Hdr) (k : Nat), k = s.ctx.k → s.cmdReady 1 hd →
    (∀ (g : Fin 64) (tgt : Bool) (target lim counter : DWord) (d : Dy) (len : Nat), len = lim.toNat % 2 ^ 17 → lim.toNat / 2 ^ 17 % 2 ^ 15 = 0 →
      len % 256 = 0 → len ≤ 65536 → unpack f32 (lim.toNat / 2 ^ 32) = .fin d → d.m ≠ 0 → d.neg = false → vaOk counter = true →
      (eaDword counter).a % 8 = 0 → s.plainTarget s.cten (eaDword counter).a 8 = true → s.openLots s.cten g.val = [] →
      s.tablesAtHand (engWho k 1) s.cten (eaDword counter).a →
      (tgt = false → ∀ v, v ∈ walkVas (eaDword target).a (4 * len) → s.tablesAtHand (engWho k 1) s.cten v) →
      (tgt = true → target.toNat < 2 ^ 8 ∧ ∃ r, Map.find? (s.ten s.cten).regs target.toNat = some r ∧ len ≤ r.ncell) →
      (tgt = false → vaOk target = true ∧ (eaDword target).a % 4 = 0 ∧ s.plainTarget s.cten (eaDword target).a (4 * len) = true) →
      ∃ t x, exec (.mrgSet hd g tgt target lim counter) s = .next t
        ∧ (s.modTen s.cten (fun y => { y with groups := Map.put y.groups g.val x })).cmdEnds t 1 s.me
        ∧ x = ⟨true, tgt, (if tgt then target.toNat else (eaDword target).a), len, BitVec.ofNat 32 (lim.toNat / 2 ^ 32), (eaDword counter).a, [],
            0, 0, 0, 0, 0, []⟩)
    ∧ (∀ (g : Fin 64) (c : BitVec 10) (q : BitVec 16) (n : BitVec 8) (bt : DWord) (st : Stretch) (b : Nat) (l : Lot),
      s.opening k = none → (∀ m, s.lot k = some m → s.mayAbandon k m = false) → (∀ m, s.currentLot k = some m → m.result.isSome = true) → bt.toNat < 2 ^ 8 → ((s.ten s.cten).group g.val).set = true →
      bt.toNat + n.toNat + 1 ≤ ((s.ten s.cten).group g.val).len / 256 → s.targetStretch s.cten g.val = .ok st → s.remoteHome st = false →
      (∀ v, v ∈ s.targetVas s.cten g.val → s.tablesAtHand (engWho k 1) s.cten v) →
      (∀ u ∈ s.pkg.bayWait, u ≠ .ring k → s.bayFor (s.homeDie st.pa) u = none) →
      ((s.ten s.cten).baysOn (s.homeDie st.pa)).find? (fun b => (Map.find? s.pkg.bays (bayKey (s.homeDie st.pa) b)).isNone) = some b →
      l = ⟨g.val, c.toNat, q.toNat, bt.toNat, n.toNat + 1, s.homeDie st.pa, some b, [], [], 0, none, (s.curOf k 1).iter, s.cten, (s.curOf k 1).drove,
        s.me.lin, none, 0⟩ →
      s.sameLot s.cten k l = false →
      ∃ t, exec (.mrgOpen hd g c q n bt) s = .next t
        ∧ ({ s with pkg := { s.pkg with bays := Map.put s.pkg.bays (bayKey (s.homeDie st.pa) b) (BayUser.ring k), bayWait := s.pkg.bayWait.filter (· != BayUser.ring k) } }).cmdEnds t 1
            { s.me with rings := Map.put s.me.rings 1 { s.me.ring 1 with lot := some l } })
    ∧ (∀ (tile : BitVec 8) (src : DWord) (l : Lot) (ws : List Nat) (m : State), s.lot k = some l → l.bay.isSome = true → l.result = none →
      l.die ≠ remoteDie → l.bt ≤ tile.toNat → tile.toNat < l.bt + l.tiles → src.getLsbD 63 = true → rangeOk (isU k) src 1024 = true →
      ws.length = 256 → s.reads 1 (eaDword src) ws m →
      (Map.get false l.bitmap tile.toNat = false →
        ∃ t l', exec (.mrgDep hd tile src) s = .next t ∧ m.cmdEnds t 1 { s.me with rings := Map.put s.me.rings 1 { s.me.ring 1 with lot := some l' } }
          ∧ (∀ j, Map.get false l'.bitmap j = (Map.get false l.bitmap j || j == tile.toNat)) ∧ l'.dup = l.dup ∧ l'.bay = l.bay ∧ l'.result = none
          ∧ ∀ j, Map.get 0 l'.data j = if j / 256 = tile.toNat then BitVec.ofNat 32 (ws.getD (j % 256) 0) else Map.get 0 l.data j)
      ∧ (Map.get false l.bitmap tile.toNat = true →
        ∃ t x, exec (.mrgDep hd tile src) s = .next t
          ∧ x = { (s.ten s.cten).group l.g with dup := min (((s.ten s.cten).group l.g).dup + 1) 65535 }
          ∧ (m.modTen s.cten (fun y => { y with groups := Map.put y.groups l.g x })).cmdEnds t 1
              { s.me with rings := Map.put s.me.rings 1 { s.me.ring 1 with lot := some { l with dup := min (l.dup + 1) 255 } } })))
  ∧ (∀ s : State,
    (∀ (die : Nat) (a b : List BayUser) (v : BayUser) (bay : Nat), s.pkg.bayWait = a ++ v :: b → (∀ j ∈ a, s.bayFor die j = none) →
      (∀ k l, v = .ring k → s.opening k = some l → l.bay = none → l.result = none → l.die = die →
        ((s.ten l.ten).baysOn die).find? (fun b => (Map.find? s.pkg.bays (bayKey die b)).isNone) = some bay →
        (s.sameLot l.ten k l = false → exec (.bayGrant die) s = .next ({ s with pkg := { s.pkg with
            bays := Map.put s.pkg.bays (bayKey die bay) v, bayWait := s.pkg.bayWait.filter (· != v) } }.setPart k
          { s.part k with rings := Map.put (s.part k).rings 1 { (s.part k).ring 1 with opening := some { l with bay := some bay } } }))
        ∧ (s.sameLot l.ten k l = true → exec (.bayGrant die) s = .next ({ s with pkg := { s.pkg with bayWait := s.pkg.bayWait.filter (· != v) } }.setPart k
          { s.part k with rings := Map.put (s.part k).rings 1 { (s.part k).ring 1 with opening := some { l with result := some [] } } })))
      ∧ (∀ r, v = .away r → s.homeDie r.pa = die →
        ((s.ten r.ten).baysOn die).find? (fun b => (Map.find? s.pkg.bays (bayKey die b)).isNone) = some bay →
        exec (.bayGrant die) s = .next (({ s with pkg := { s.pkg with
            bays := Map.put s.pkg.bays (bayKey die bay) v, bayWait := s.pkg.bayWait.filter (· != v)
            served := s.pkg.served ++ [(reqId r.src r.unit r.tag, s.gts, [])] } }).transmit r.src (r.pa / 64) (.resp r.ten r.unit r.tag .done s.gts []))))
    ∧ (∀ (k bay : Nat) (l : Lot) (x : Group) (u : State), s.lot k = some l → l.bay = some bay → l.result = none → s.opening k = none →
      s.sameIter k l.iter = false →
      (∀ e, e < 4 → (∀ c ∈ ((s.part k).ring e).cmds, c.iter ≠ l.iter)
        ∧ ((s.part k).iter = l.iter → ((s.part k).ring e).cons = ((s.part k).ring e).prod)) →
      (∀ d, Map.find? s.droves l.drove = some d → ∀ e ∈ d.live, e.1 ≠ l.lin) →
      (l.die ≠ remoteDie → u = { s with pkg := { s.pkg with bays := Map.del s.pkg.bays (bayKey l.die bay) } }) →
      (∀ st, l.die = remoteDie → s.targetStretch l.ten l.g = .ok st → u = s.sendBay k l.ten st.pa) →
      (l.die ≠ remoteDie ∨ ∃ st, s.targetStretch l.ten l.g = .ok st) → x = (s.ten l.ten).group l.g →
      exec (.lotAbandon k) s = .next ((u.setPart k
          { s.part k with rings := Map.put (s.part k).rings 1 { (s.part k).ring 1 with lot := none } }).modTen l.ten (fun y =>
            { y with groups := Map.put y.groups l.g { x with abnd := min (x.abnd + 1) 65535, closing := x.closing.filter (· != k) } }))))

/-! ### Filter regions -/

/-- R237 to R240: what a sample adds to a cell's accumulator, the input of a tick, and one step of the cell. `cl` clamps to 32 bits; the second
component counts the clamps, or the overflows of an FP32 region. R241: without input a first-order FX cell of |a1| < 1 shrinks under RTZ at every tick until it is zero, and under RNE stays within
D1 = 0.5 / (1 - |a1|) once it is there, and shrinks while it is outside. -/
def Obligations.FilterArithmeticAndCells : Prop :=
  (∀ (r : Region) (x : Cell) (co : Coef) (cl : Int → Int) (rm : Rm), (∀ z, cl z = max (-(2 ^ 31)) (min (2 ^ 31 - 1) z)) → rm = (if r.rtz then .rtz else .rne) →
    (∀ (v : Word) (z : Int), (r.fp = false → z = v.toInt) →
      (r.fp = true → (∀ q, unpack f32 v.toNat = .nan q → z = 0) ∧ (∀ neg, unpack f32 v.toNat = .inf neg → z = if neg then -(2 ^ 60) else 2 ^ 60)
        ∧ ∀ d, unpack f32 v.toNat = .fin d → 2 * |(z : ℚ) - d.val * 2 ^ r.f| ≤ 1 ∧ (2 * |(z : ℚ) - d.val * 2 ^ r.f| = 1 → z % 2 = 0)) →
      ∃ a n, accum r x v = ({ x with acc := a }, n) ∧ ({ x with acc := a }).sum = max (-(2 ^ 47)) (min (2 ^ 47 - 1) (x.sum + z))
        ∧ ({ x with acc := a }).count = min (x.count + 1) 65535
        ∧ n = if -(2 ^ 47) ≤ x.sum + z ∧ x.sum + z ≤ 2 ^ 47 - 1 then 0 else 1)
    ∧ (∀ (num : Word), (x.count = 0 → r.hold = true → tickCell r co num x = (x, 0))
      ∧ ∀ (inp : Word) (c : Nat), (x.count = 0 → r.hold = false ∧ inp = 0 ∧ c = 0) →
        (x.count ≠ 0 → r.fp = false → ∃ q : Int, inp.toInt = cl q ∧ c = (if cl q = q then 0 else 1) ∧ (r.mean = false → q = x.sum)
          ∧ (r.mean = true → 2 * |q * x.count - x.sum| ≤ x.count ∧ (2 * |q * x.count - x.sum| = x.count → q % 2 = 0))) →
        (x.count ≠ 0 → r.fp = true → c = 0 ∧ (x.sum = 0 → inp = 0)
          ∧ isRounded f32 .rne ((x.sum : ℚ) / 2 ^ r.f / (if r.mean then x.count else 1)) inp.toNat ∧ (x.sum ≠ 0 → inp.getLsbD 31 = decide (x.sum < 0))) →
        tickCell r co num x = ({ (stepCell r co x inp).1 with
          acc := 0, xl := if r.ord then inp else x.xl, stamp := if r.ord then num else x.stamp }, c + (stepCell r co x inp).2))
    ∧ (r.fp = false → ∀ inp : Word, ∃ (y s1 s2 : Word) (r0 r1 r2 : Int), (stepCell r co x inp).1 = { x with y := y, s1 := s1, s2 := s2 }
      ∧ isRndsh rm (co.b0.toInt * inp.toInt) 30 r0 ∧ y.toInt = cl (x.s1.toInt + r0)
      ∧ isRndsh rm (co.b1.toInt * inp.toInt - co.a1.toInt * y.toInt + (if r.ord then x.s2.toInt else 0) * 2 ^ 30) 30 r1 ∧ s1.toInt = cl r1
      ∧ (r.ord = true → isRndsh rm (co.b2.toInt * inp.toInt - co.a2.toInt * y.toInt) 30 r2 ∧ s2.toInt = cl r2)
      ∧ (r.ord = false → s2 = x.s2 ∧ cl r2 = r2)
      ∧ (stepCell r co x inp).2 = (if cl (x.s1.toInt + r0) = x.s1.toInt + r0 then 0 else 1) + (if cl r1 = r1 then 0 else 1) + (if cl r2 = r2 then 0 else 1))
    ∧ (r.fp = true → ∀ inp : Word, ∃ y m1 t1 m2 t2 : FR,
      y = fma32 rm co.b0.toNat inp.toNat x.s1.toNat ∧ m1 = fma32 rm co.b1.toNat inp.toNat (if r.ord then x.s2.toNat else 0)
      ∧ t1 = fma32 rm (co.a1 ^^^ 0x80000000).toNat y.1 m1.1 ∧ m2 = mul32 rm co.b2.toNat inp.toNat
      ∧ t2 = fma32 rm (co.a2 ^^^ 0x80000000).toNat y.1 m2.1
      ∧ (stepCell r co x inp).1 = { x with y := BitVec.ofNat 32 y.1, s1 := BitVec.ofNat 32 t1.1, s2 := if r.ord then BitVec.ofNat 32 t2.1 else x.s2 }
      ∧ (stepCell r co x inp).2 = (([y, m1, t1] ++ if r.ord then [m2, t2] else []).filter (fun f => f.2 &&& fOF ≠ 0)).length))
  ∧ (∀ (r : Region) (co : Coef) (x y : Cell), r.fp = false → r.ord = false → |co.a1.toInt| < 2 ^ 30 → y = (stepCell r co x 0).1 →
    (r.rtz = true → (x.s1 = 0 → y.s1 = 0) ∧ (x.s1 ≠ 0 → |y.s1.toInt| < |x.s1.toInt|))
    ∧ (r.rtz = false → ∀ d : Int, d = 2 ^ 29 / (2 ^ 30 - |co.a1.toInt|) →
        (|x.s1.toInt| ≤ d → |y.s1.toInt| ≤ d) ∧ (d < |x.s1.toInt| → |y.s1.toInt| < |x.s1.toInt|)))

/-- A sample reaches its cell (R237), and steps it at once in AUTO mode (R238), unless the cell's stack is frozen or an older sample of the cell waits
(R282): then it waits too. The SATN of an AUTO region is rewritten after a saturation (R231). A channel's oldest tick sweeps the cells of its region that lie
there, unless its stack is frozen, and after the last channel TICKNO and SATN are rewritten and the event is raised (R167, R231). -/
def Obligations.FilterTicks : Prop :=
  ∀ (s : State) (ten rg : Nat) (r : Region), Map.find? (s.ten ten).regs rg = some r →
    (∀ (c : Nat) (v : Word) (x y : Cell) (n m : Nat), c < r.ncell → s.frozenAt (r.cellPa c) = false →
      (∀ e ∈ s.pkg.samples, ¬(e.1 = ten ∧ e.2.1 = rg ∧ e.2.2.1 = c)) → accum r (s.cell r c) v = (x, n) → (r.auto = false → y = x ∧ m = 0) →
      (r.auto = true → ∃ z, stepCell r r.coef x v = (z, m) ∧ y = if r.ord then { z with xl := v, stamp := z.stamp + 1 } else z) →
      ∃ t, exec (.sampleAccumulate ten rg c v) s = .next t ∧ SameSeen ((s.setCell r c y).counted ten rg (n + m)) t)
    ∧ (∀ (c : Nat) (v : Word), c < r.ncell → (s.frozenAt (r.cellPa c) = true ∨ ∃ e ∈ s.pkg.samples, e.1 = ten ∧ e.2.1 = rg ∧ e.2.2.1 = c) →
      exec (.sampleAccumulate ten rg c v) s = .next { s with pkg := { s.pkg with samples := s.pkg.samples ++ [(ten, rg, c, v)] } })
    ∧ (∀ m, r.satnDue = true → s.descDone ten rg r.tickno r.satn m → ∃ t, exec (.autoSatnRewrite ten rg) s = .next t
      ∧ SameSeen (m.modRegion ten rg (fun r => { r with satnDue := false })) t)
    ∧ (r.satnDue = false → exec (.autoSatnRewrite ten rg) s = .next s)
    ∧ (∀ (chan : Nat) (tk : Tick) (rest : List Tick) (w : State) (left : Prop), s.ticksAt chan = tk :: rest → tk.ten = ten → tk.rg = rg →
      (left ↔ ∃ e ∈ s.pkg.chanQ, e.1 ≠ chan ∧ ∃ x ∈ e.2, x.ten = ten ∧ x.rg = rg ∧ x.num = tk.num) →
      (tk.swept = false → (s.pkg.hotstop = true ∨ 3 ≤ (s.stack (chan / 32)).lvl) → exec (.tickSweep chan) s = .next s)
      ∧ ((tk.swept = false → s.pkg.hotstop = false ∧ (s.stack (chan / 32)).lvl < 3 ∧ ∃ u n, w = State.counted u ten rg n
          ∧ (List.range r.ncell).foldl (fun (a : State × Nat) c => if s.chanOf (r.cellPa c) = chan
            then (a.1.setCell r c (tickCell r tk.coef tk.num (a.1.cell r c)).1, a.2 + (tickCell r tk.coef tk.num (a.1.cell r c)).2) else a) (s, 0) = (u, n)) →
        (tk.swept = true → w = s) →
        (left → ∃ t, exec (.tickSweep chan) s = .next t
          ∧ SameSeen { w with pkg := { w.pkg with chanQ := Map.put s.pkg.chanQ chan rest } } t)
        ∧ (¬left → ∀ (v m : State) (x : Region), v = w.modRegion ten rg (fun r => { r with tickno := tk.num }) → Map.find? (v.ten ten).regs rg = some x →
          v.descDone ten rg tk.num x.satn m →
          ∃ t, exec (.tickSweep chan) s = .next t
            ∧ SameSeen ({ m with pkg := { m.pkg with chanQ := Map.put s.pkg.chanQ chan rest } }.raiseEv tk.k tk.iter tk.ev) t)))

/-- A region command in progress (R233). REGISTER of a valid descriptor whose pages are of the region zeroes every cell and makes the region
usable, COEF replaces the coefficients, RETIRE, which fails where a merge group targeted the region as it was accepted, clears VLD and forgets the region once all that was sequenced or held for it is
done; each reports the ERR of R233, and BUSY clears afterwards (R232). -/
def Obligations.RegionCommands : Prop :=
  ∀ (s : State) (ten rg who : Nat) (a : Nat) (done : Nat → Tenant → Tenant) (ends : State → State),
    a = (s.ten ten).rtbase.toNat / 2 ^ 14 % 2 ^ 38 * 2 ^ 14 + 64 * rg → who = descReq ten rg →
    (∀ e y, done e y = { y with rgErr := e, rgCmd := 0 }) → (∀ m, ends m = { m with reqs := Map.del m.reqs who }) → (s.ten ten).rgBusy = true →
    ((s.ten ten).rgCmd = 0 → ∃ t, exec (.regionCommandDone ten) s = .next t ∧ t = s.modTen ten (fun y => { y with rgBusy := false }))
    ∧ ((s.ten ten).rgLrg = rg → (s.ten ten).rgCmd = 1 →
      (∀ f x, s.getVa who ten a 64 = .fault f x → ∃ t, exec (.regionRegister ten rg) s = .next t ∧ t = (ends x).modTen ten (done 1))
      ∧ ∀ (bs : List Byte) (m0 m : State) (w : Nat → Nat), s.getVa who ten a 64 = .ok bs m0 → m = { m0 with reqs := s.reqs } →
        (∀ o, w o = leVal ((bs.drop o).take 8)) →
        ((w 0 % 2 = 0 ∨ w 0 / 2 ^ 12 % 2 ^ 20 ≠ 0 ∨ w 8 / 2 ^ 52 ≠ 0 ∨ w 0x28 / 2 ^ 32 ≠ 0 ∨ w 0x30 ≠ 0 ∨ w 0x38 ≠ 0 ∨ w 0x10 % 2 ^ 32 = 0
            ∨ 2 ^ 30 < w 0x10 % 2 ^ 32 ∨ w 8 % 2 ^ 16 ≠ 0 ∨ (w 0 / 2 % 2 = 0 ∧ (w 0x20 % 2 ^ 32 ≠ 0 ∨ w 0x28 % 2 ^ 32 ≠ 0))) →
          ∃ t, exec (.regionRegister ten rg) s = .next t ∧ t = (ends m).modTen ten (done 1))
        ∧ ∀ r : Region, parseDesc bs = some r → (∀ v ∈ r.units64, m.tablesAtHand who ten v) →
          (r.ord = (w 0).testBit 1 ∧ r.fp = (w 0).testBit 2 ∧ r.f = w 0 / 2 ^ 3 % 2 ^ 5 ∧ r.rtz = (w 0).testBit 8 ∧ r.auto = (w 0).testBit 9
            ∧ r.mean = (w 0).testBit 10 ∧ r.hold = (w 0).testBit 11 ∧ r.base = w 8 % 2 ^ 52 ∧ r.ncell = w 0x10 % 2 ^ 32
            ∧ r.coef = ⟨BitVec.ofNat 32 (w 0x18), BitVec.ofNat 32 (w 0x18 / 2 ^ 32), BitVec.ofNat 32 (w 0x20), BitVec.ofNat 32 (w 0x20 / 2 ^ 32),
                BitVec.ofNat 32 (w 0x28)⟩
            ∧ r.tickno = 0 ∧ r.satn = 0 ∧ r.sequenced = 0 ∧ r.retiring = false)
          ∧ (m.regionUnits ten rg r = none → ∃ t, exec (.regionRegister ten rg) s = .next t ∧ t = (ends m).modTen ten (done 2))
          ∧ ∀ us, m.regionUnits ten rg r = some us →
            (Map.find? (m.ten ten).regs rg ≠ none → ∃ t, exec (.regionRegister ten rg) s = .next t ∧ t = (ends m).modTen ten (done 3))
            ∧ (Map.find? (m.ten ten).regs rg = none → (∀ x ∈ us, m.frozenAt (x * 65536) = false) → (∀ e ∈ m.pkg.hostLines, e.1 / 1024 ∉ us) → ∃ u : State,
              (∀ c, c < r.ncell → u.cell { r with units := us } c = ⟨0, 0, 0, 0, 0, 0⟩) ∧ u = { m with mem := u.mem }
              ∧ (∀ b, (∀ j, j < us.length → b < us.getD j 0 * 65536 ∨ us.getD j 0 * 65536 + 65536 ≤ b) → u.byteAt .dev b = m.byteAt .dev b)
              ∧ ∀ v, (u.modTen ten (fun y => { y with regs := Map.put y.regs rg { r with units := us } })).descDone ten rg 0 0 v →
                ∃ t, exec (.regionRegister ten rg) s = .next t ∧ SameSeen (v.modTen ten (done 0)) t))
    ∧ ((s.ten ten).rgLrg = rg → (s.ten ten).rgCmd = 2 →
      (Map.find? (s.ten ten).regs rg = none → ∃ t, exec (.regionCoef ten rg) s = .next t ∧ t = s.modTen ten (done 4))
      ∧ ∀ r, Map.find? (s.ten ten).regs rg = some r →
        (∀ f x, s.getVa who ten (a + 0x18) 20 = .fault f x → ∃ t, exec (.regionCoef ten rg) s = .next t ∧ t = (ends x).modTen ten (done 1))
        ∧ ∀ (bs : List Byte) (m : State) (co : Coef), s.getVa who ten (a + 0x18) 20 = .ok bs m →
          (∀ j, j < 5 → leVal ((bs.drop (4 * j)).take 4) = (match j with | 0 => co.b0 | 1 => co.b1 | 2 => co.b2 | 3 => co.a1 | _ => co.a2).toNat) →
          ((r.ord = true ∨ (co.b2 = 0 ∧ co.a2 = 0)) → (r.fp = true → ∀ c ∈ [co.b0, co.b1, co.b2, co.a1, co.a2], c.toNat / 2 ^ 23 % 2 ^ 8 ≠ 255) →
            ∃ t, exec (.regionCoef ten rg) s = .next t ∧ t = (m.modRegion ten rg (fun r => { r with coef := co })).modTen ten (done 0))
          ∧ (r.ord = false → (co.b2 ≠ 0 ∨ co.a2 ≠ 0) → ∃ t, exec (.regionCoef ten rg) s = .next t ∧ t = m.modTen ten (done 1)))
    ∧ ((s.ten ten).rgLrg = rg → (s.ten ten).rgCmd = 3 →
      (Map.find? (s.ten ten).regs rg = none → ∃ t, exec (.regionRetire ten rg) s = .next t ∧ t = s.modTen ten (done 4))
      ∧ ∀ r, Map.find? (s.ten ten).regs rg = some r →
        (r.retiring = false → ∃ t, exec (.regionRetire ten rg) s = .next t ∧ t = s.modTen ten (done 3))
        ∧ (r.retiring = true →
          (((∃ e ∈ s.pkg.chanQ, ∃ x ∈ e.2, x.ten = ten ∧ x.rg = rg) ∨ ∃ e ∈ s.pkg.samples, e.1 = ten ∧ e.2.1 = rg) →
            exec (.regionRetire ten rg) s = .next s)
          ∧ ((∀ e ∈ s.pkg.chanQ, ∀ x ∈ e.2, ¬(x.ten = ten ∧ x.rg = rg)) → (∀ e ∈ s.pkg.samples, ¬(e.1 = ten ∧ e.2.1 = rg)) →
            (∀ e ∈ s.parts, s.tenOf (coreOf e.1) = ten → ∀ f ∈ e.2.flight, ∀ p ∈ f.2.pages, ¬(p.cl = 3 ∧ p.rgn = rg)) →
            ∀ q, (r.auto = false → q = s) → (r.auto = true → s.rewriteDesc ten rg = .ok () q) →
            (∀ f x, q.getVa who ten a 1 = .fault f x → ∃ t, exec (.regionRetire ten rg) s = .next t
              ∧ t = (x.endReqs who).modTen ten (fun y => done 0 { y with regs := Map.del y.regs rg }))
            ∧ (∀ b m n, q.getVa who ten a 1 = .ok [b] m → ({ m with reqs := q.reqs } : State).putVa who ten a [b &&& 0xFE] = .ok () n →
              ∃ t, exec (.regionRetire ten rg) s = .next t ∧ t = (n.endReqs who).modTen ten (fun y => done 0 { y with regs := Map.del y.regs rg })))))

/-- The events of filter regions and the end of a revocation always complete (R167, R231, R237, R238, R339), and leave alone what is not theirs: a sample, held for its
stack or taken, changes no byte of memory but its cell's; a rewrite of SATN and a sweep of a tick change no cell of a core, no drove, no barrier object and no
fault record, and of the copies at most the event that the tick raises; the end of a revocation changes nothing but handles. -/
def Obligations.FilterAndRevocationEventsComplete : Prop :=
  ∀ (s : State) (ten rg c chan : Nat) (v : Word) (still : State → State → Prop),
    (∀ a b, still a b ↔ b.droves = a.droves ∧ b.bars = a.bars ∧ b.faults = a.faults ∧ b.ctx = a.ctx ∧ b.nextDrove = a.nextDrove
      ∧ ∀ j, (b.core j).spad = (a.core j).spad ∧ (b.core j).tiles = (a.core j).tiles ∧ (b.core j).wbuf = (a.core j).wbuf) →
    (∃ t, exec (.sampleAccumulate ten rg c v) s = .next t ∧ still s t ∧ t.parts = s.parts ∧ t.hostMem = s.hostMem
      ∧ (∀ r, Map.find? (s.ten ten).regs rg = some r → ∀ b, (b < r.cellPa c ∨ r.cellPa c + 32 ≤ b) → t.byteAt .dev b = s.byteAt .dev b)
      ∧ (Map.find? (s.ten ten).regs rg = none → t = s))
    ∧ (∃ t, exec (.autoSatnRewrite ten rg) s = .next t ∧ still s t ∧ t.parts = s.parts ∧ ((∀ r, Map.find? (s.ten ten).regs rg ≠ some r ∨ r.satnDue = false) → t = s))
    ∧ (∃ t, exec (.tickSweep chan) s = .next t ∧ still s t
      ∧ (∀ tk rest, s.ticksAt chan = tk :: rest → ∀ j, j ≠ tk.k → t.part j = s.part j)
      ∧ (∀ tk rest, s.ticksAt chan = tk :: rest → { t.part tk.k with ev := [], sleeping := none } = { s.part tk.k with ev := [], sleeping := none })
      ∧ (s.ticksAt chan = [] → t = s))
    ∧ (∃ t, exec (.revocationComplete ten) s = .next t ∧ (t.ten ten).rvkVa = none
      ∧ t = { s with parts := t.parts, tens := t.tens } ∧ ∀ j, { t.part j with h := [] } = { s.part j with h := [] })

/-! ### Droves -/

/-- The walker judges a submitted record in the order of R108: an invalid one, or one whose plane is invalid, gets status 1, a zero extent
status 0, a record without a gang, or resident with too few, status 2; any other waits. A pinned record is invalid where VAR is not the variant that the
loader matched (R298). It becomes eligible once both of its counters have
reached their thresholds. The gangs of a size are those of R288 among the cores of the reach. -/
def Obligations.DrovesAreJudged : Prop :=
  ∀ (s : State) (n : Nat) (d : Drove), Map.find? s.droves n = some d →
    (d.st = .submitted → s.pkg.minMode = false → ∀ (f : Nat → Nat → Nat) (bad : Prop) (pr : Nat), (∀ o k, f o k = leVal ((d.record.drop o).take k)) →
      pr = f 0x18 4 * f 0x1C 4 * f 0x20 4 * f 0x24 4 →
      (bad ↔ 4 ≤ f 0x2C 1 ∨ f 0x2E 2 ≠ 0 ∨ f 0x58 8 / 2 ^ 5 % 2 ^ 3 ≠ 0 ∨ f 0x58 8 / 2 ^ 17 ≠ 0 ∨ 3 < f 0x28 1
        ∨ (f 0x28 1 = 1 ∧ ¬[f 0x29 1 % 4, f 0x29 1 / 4 % 4, f 0x29 1 / 16 % 4, f 0x29 1 / 64 % 4].Nodup) ∨ f 0x2A 1 ∉ [1, 2, 4, 16] ∨ 3 < f 0x2B 1
        ∨ 7 < f 0x2D 1 ∨ f 8 8 % 8 ≠ 0 ∨ 2 ^ 32 < pr) →
      (bad → ∃ t, exec (.droveValidate n) s = .next t ∧ s.reports t n d 1)
      ∧ (¬bad → (∀ m, f 0x10 8 ≠ 0 → s.readPlane n d.ten (f 0x10 8) = .ok none m → ∃ t, exec (.droveValidate n) s = .next t ∧ m.reports t n d 1)
        ∧ ∀ (pl : List Byte) (m : State) (e : Drove) (matched : Prop), (f 0x10 8 = 0 → pl = [] ∧ m = s) →
          (f 0x10 8 ≠ 0 → s.readPlane n d.ten (f 0x10 8) = .ok (some pl) m) → e = { d with plane := pl, total := pr } →
          (matched ↔ f 0x2C 1 < 2 ∨ (f 0x10 8 ≠ 0 ∧ leVal ((pl.drop 0x540).take 1) % 8 = f 0x2D 1)
            ∨ (f 0x10 8 = 0 ∧ ∃ c, c < 128 ∧ e.scopeHas c = true ∧ m.serves d.ten c = true ∧ m.planeVal c (f 0x2B 1 == 3) 0x540 1 % 8 = f 0x2D 1)) →
          (((f 0x10 8 ≠ 0 ∧ m.planeOk d.ten (f 0x2B 1 == 3) pl = false) ∨ ¬matched) → ∃ t, exec (.droveValidate n) s = .next t ∧ m.reports t n d 1)
          ∧ ((f 0x10 8 ≠ 0 → m.planeOk d.ten (f 0x2B 1 == 3) pl = true) → matched →
            (pr = 0 → ∃ t, exec (.droveValidate n) s = .next t ∧ m.reports t n d 0)
            ∧ (pr ≠ 0 → gangsOf (m.reach e) (f 0x2A 1) = [] ∨ (f 0x2C 1 = 1 ∧ (gangsOf (m.reach e) (f 0x2A 1)).length < pr) →
              ∃ t, exec (.droveValidate n) s = .next t ∧ m.reports t n d 2)
            ∧ (pr ≠ 0 → gangsOf (m.reach e) (f 0x2A 1) ≠ [] → (f 0x2C 1 = 1 → pr ≤ (gangsOf (m.reach e) (f 0x2A 1)).length) →
              exec (.droveValidate n) s = .next { m with droves := Map.put m.droves n { e with st := .waiting } }))))
    ∧ (d.st = .waiting → ∀ (f : Nat → Nat) (a b : Bool) (m0 m1 m : State), (∀ o, f o = leVal ((d.record.drop o).take 8)) →
      s.seesCounter n d.ten (f 0x30) (f 0x38) a m0 → m0.seesCounter n d.ten (f 0x40) (f 0x48) b m1 →
      m = m1.endReqs (walkerReq n) →
      exec (.droveWaitMet n) s = .next (if a = true ∧ b = true then { m with droves := Map.put m.droves n { d with st := .eligible } } else m))
    ∧ (∀ (cs : List Nat) (g a : Nat), 0 < g → (a ∈ gangsOf cs g ↔ a % g = 0 ∧ ∀ i, i < g → (a + i) / 4 ∈ cs))

/-- R289: the tuple at a linear iteration number lies inside the extents, no two numbers have the same tuple, and the order is that of ORDER:
lexicographic, lexicographic over the permuted dimensions, serpentine in dimension 0, or Morton over dimensions 0 and 1. ITERATION_HANDOUT gives the next iteration to a gang that may have it (R290 to R293): every copy of the gang starts as R28 fixes, with
handle presets pending and empty rings of the plane; a drove start fills the full/empty bits and clears tile versions and flags (R25); no other
copy changes; the pool image stands in the scratchpad of the gang's first core, its granules full (R60). The first iteration of a drove applies its barrier presets, or the drove is refused with status 1 (R294). A resident drove
reserves the gang and starts with its last one, without those that TPART has taken from it (R293, R336). A gang that may not have it gets nothing. Shown where no pool image must be waited for (R60). Which gang may have
it where R292 leaves a choice, ENTRY cut to 52 bits, and the objects that a preset of several cores names are the model's choices (log entries 36, 50, 51). -/
def Obligations.IterationsInOrderAndHandedOut : Prop :=
  (∀ (d : Drove) (E i j : Nat → Nat) (a b : Nat), (∀ k, E k = leVal ((d.record.drop (0x18 + 4 * k)).take 4)) → a < E 0 * E 1 * E 2 * E 3 →
    b < E 0 * E 1 * E 2 * E 3 → (∀ k, i k = d.index a k) → (∀ k, j k = d.index b k) →
    (d.order = 1 → [d.perm 0, d.perm 1, d.perm 2, d.perm 3].Nodup) →
    (∀ k, k < 4 → i k < E k) ∧ ((∀ k, k < 4 → i k = j k) → a = b)
    ∧ (d.order = 0 → a = i 0 + E 0 * (i 1 + E 1 * (i 2 + E 2 * i 3)))
    ∧ (d.order = 1 → a = i (d.perm 0) + E (d.perm 0) * (i (d.perm 1) + E (d.perm 1) * (i (d.perm 2) + E (d.perm 2) * i (d.perm 3))))
    ∧ (d.order = 2 → ∃ n, n = i 1 + E 1 * (i 2 + E 2 * i 3) ∧ a = E 0 * n + if n % 2 = 0 then i 0 else E 0 - 1 - i 0)
    ∧ (d.order = 3 → a / (E 0 * E 1) = i 2 + E 2 * i 3 ∧ (a < b → a / (E 0 * E 1) = b / (E 0 * E 1) → ∀ x y : Nat,
        (∀ k, x.testBit (2 * k) = (i 0).testBit k ∧ x.testBit (2 * k + 1) = (i 1).testBit k) →
        (∀ k, y.testBit (2 * k) = (j 0).testBit k ∧ y.testBit (2 * k + 1) = (j 1).testBit k) → x < y)))
  ∧ (∀ (s : State) (n a u : Nat) (d : Drove), Map.find? s.droves n = some d → s.pkg.minMode = false → u = (if d.urgent then 1 else 0) →
    Map.find? s.reqs (walkerReq n) = none → Map.find? s.reqs (walkReq (walkerReq n)) = none →
    (s.mayHand n d a = false → exec (.iterationHandout n a) s = .next s)
    ∧ (s.mayHand n d a = true → ∀ (ps : List (Nat × Nat)), ps = ((s.presetsOf d (a / 4)).map (fun x => (s.presetKeys d x).map (fun k => (k, x.1)))).flatten →
      (d.presetDone = false → s.podAway d.ten = false → s.applyPresets ps = none →
        exec (.iterationHandout n a) s = .next { s with droves := Map.put s.droves n { d with status := 1 } })
      ∧ ∀ (m : State) (e : Drove), (d.presetDone = true → m = s ∧ e = d) →
        (d.presetDone = false → s.podAway d.ten = false ∧ s.applyPresets ps = some m ∧ e = { d with presetDone := true }) →
        (d.resident = false → (∀ i, i < d.gang → m.poolFree n d ((a + i) / 4)) → ∃ t, exec (.iterationHandout n a) s = .next t
          ∧ Map.find? t.droves n = some { e with next := d.next + 1, live := d.live ++ [(d.next, a, d.gang)] } ∧ t.nextIter = s.nextIter + 1
          ∧ t.bars = m.bars ∧ t.faults = s.faults ∧ t.reqs = s.reqs
          ∧ (∀ i p q, i < d.gang → p = t.part (2 * (a + i) + u) → q = s.part (2 * (a + i) + u) → p.started d n s.nextIter d.next i
            ∧ (∀ j, 1 ≤ j → j < 8 → ∀ va, va = s.planeVal ((a + i) / 4) d.urgent (0x20 + 8 * j) 8 % 2 ^ 52 →
                p.rdH j = if va = 0 then Handle.empty else ⟨.pending, va, PageInfo.none, s.cycle + 24, false⟩)
            ∧ p.fmth.toNat = s.planeVal ((a + i) / 4) d.urgent 8 4 % 2 ^ 32 ∧ p.bd = s.planeVal ((a + i) / 4) d.urgent 0x0E 1 % 32
            ∧ (∀ r, r < 4 → (p.ring r).prod = 0 ∧ (p.ring r).cons = 0 ∧ (p.ring r).hold = none ∧ (p.ring r).cur = (q.ring r).cur))
          ∧ (∀ k, (∀ i, i < d.gang → k ≠ 2 * (a + i) + u) → t.part k = s.part k)
          ∧ (∀ i c, i < d.gang → c = (a + i) / 4 → s.partBusy c d.urgent = false → Map.find? (s.core c).lastDrove u ≠ some n →
            (∀ g, inSpad d.urgent (16 * g) 16 = true → (t.core c).full g = true)
            ∧ ∀ j, (decide (60 ≤ j) = d.urgent) → (t.core c).tile j = { (s.core c).tile j with ver := 0, of := false, sat := false, nv := false })
          ∧ (∀ c off len va xs, c = a / 4 → off = s.planeVal c d.urgent 0x20 4 % 2 ^ 22 → len = s.planeVal c d.urgent 0x24 4 % 2 ^ 17 →
            va = s.planeVal c d.urgent 0x18 8 % 2 ^ 52 → 0 < d.gang → (s.core c).pools.contains (u, n) = false → s.stretches d.ten 64 va len = some xs →
            ∀ j, j < len → t.byteAt (.spad c) (off + j) = ((xs.map s.stretchBytes).flatten).getD j 0 ∧ (t.core c).full ((off + j) / 16) = true))
        ∧ (∀ held, held = d.reserved.filter (m.stillHeld d) ++ [a] →
          (d.resident = true → held.length < d.total →
            exec (.iterationHandout n a) s = .next { m with droves := Map.put m.droves n { e with reserved := held } })
          ∧ (d.resident = true → d.total ≤ held.length → (∀ b ∈ held, ∀ i, i < d.gang → m.poolFree n d ((b + i) / 4)) →
            ∃ t, exec (.iterationHandout n a) s = .next t
              ∧ ∀ b ∈ held, ∀ i, i < d.gang → (t.part (2 * (b + i) + u)).inIter = true ∧ (t.part (2 * (b + i) + u)).drove = n))))

/-- A drove completes once nothing is left to hand out, every iteration has retired and every command is complete, and not before: status 3 when it was
halted, the status of its refusal, else 0 (R95, R108). A chain that is enabled starts at its anchor with ERR and ACC cleared (R328), and
the walker follows it: an unusable pointer stops it with ERR, a usable record is submitted as a LAUNCH of scope ten and counted, and one in progress as EN fell also when EN has risen again (R329). -/
def Obligations.DrovesComplete : Prop :=
  ∀ s : State,
    (∀ (n : Nat) (d : Drove), Map.find? s.droves n = some d →
      (d.st = .eligible → (d.status ≠ 0 ∨ d.haltCode ≠ none ∨ d.total ≤ d.next) → d.live = [] → (∀ e ∈ s.parts, e.2.hasCommands n = false) →
        ∃ t, exec (.droveComplete n) s = .next t ∧ s.reports t n d (if d.status ≠ 0 then d.status else if d.haltCode ≠ none then 3 else 0))
      ∧ ((d.st ≠ .eligible ∨ d.live ≠ [] ∨ (∃ e ∈ s.parts, e.2.hasCommands n = true) ∨ (d.status = 0 ∧ d.haltCode = none ∧ d.next < d.total)) →
        exec (.droveComplete n) s = .next s))
    ∧ (∀ (t : Nat) (c : Fin 8) (x : Chain) (put : State → Chain → State), x = (s.ten t).chain c.val →
      (∀ r y, put r y = r.modTen t (fun z => { z with chains := Map.put z.chains c.val y })) →
      (x.en = false → exec (.chainEnable t c) s = .next (put s { x with
        en := true, err := false, acc := 0, pos := x.anch.toNat / 2 ^ 3 % 2 ^ 49 * 8, fetched := if x.fetched = 0 then 0 else x.fetched / 2 * 2 + 1 }))
      ∧ (s.pkg.minMode = false →
        (x.fetched = 0 → x.en = false → exec (.chainFollow t c) s = .next s)
        ∧ (x.fetched = 0 → x.en = true →
          (∀ i m, s.getVa (chainReq t c.val) t x.pos 8 = .fault i m → (i.cause = cTranslation ∨ i.cause = cProtection) →
            exec (.chainFollow t c) s = .next (put m { (m.ten t).chain c.val with en := false, err := true, fetched := 0 }))
          ∧ ∀ bs m, s.getVa (chainReq t c.val) t x.pos 8 = .ok bs m →
            (leVal bs = 0 → exec (.chainFollow t c) s = .next m)
            ∧ (leVal bs % 128 ≠ 0 → exec (.chainFollow t c) s = .next (put m { (m.ten t).chain c.val with en := false, err := true, fetched := 0 })))
        ∧ (∀ (nx : Nat) (u : State), nx ≠ 0 →
          ((x.fetched = nx ∧ u = s) ∨ (x.fetched = 0 ∧ x.en = true ∧ nx % 128 = 0
            ∧ ∃ bs m, s.getVa (chainReq t c.val) t x.pos 8 = .ok bs m ∧ leVal bs = nx ∧ u = put m { (m.ten t).chain c.val with fetched := nx })) →
          (∀ i m, u.getVa (chainReq t c.val) t (nx / 2 * 2) 128 = .fault i m → (i.cause = cTranslation ∨ i.cause = cProtection) →
            exec (.chainFollow t c) s = .next (put m { (m.ten t).chain c.val with en := false, err := true, fetched := 0 }))
          ∧ (∀ rec m y, u.getVa (chainReq t c.val) t (nx / 2 * 2) 128 = .ok rec m → y = (m.ten t).chain c.val → ∃ d, d.record = rec ∧ d.st = .submitted ∧ d.sc = .ten
              ∧ d.ten = t ∧ d.die = y.die ∧ d.from? = none ∧ d.live = [] ∧ d.haltCode = none ∧ d.status = 0 ∧ d.next = 0
              ∧ exec (.chainFollow t c) s = .next (put { m with droves := Map.put m.droves m.nextDrove d, nextDrove := m.nextDrove + 1 }
                  { y with acc := if y.acc = BitVec.allOnes 32 then y.acc else y.acc + 1, pos := if nx % 2 = 0 then nx else y.pos, fetched := 0 })))))

/-- PREEMPT freezes a P iteration at a boundary when the walker wants its strand for U, and ends its array turn and its sleep (R210); the
partition resumes once U has ended, and replays that waited act then (R207, R211). A difference record is applied to the shadow, whose CRC decides, with the
last record of a set, between the swap and the resending of the whole plane (R297); the swap unbinds the share of the paddock map and binds the presets,
unless one of them overlaps an entry of the other partition. The forecast is that of R302. -/
def Obligations.PartitionsAndPlanes : Prop :=
  ∀ s : State,
    (∀ (a k : Nat), k = 2 * a →
      ((s.part k).inIter = true → (s.part k).frozen = false → (s.part (k + 1)).inIter = false → s.wantedForU a = true → s.atBoundary k = true →
        s.settled k = true → ∃ t, exec (.preempt a) s = .next t
          ∧ t = (s.setPart k { s.part k with frozen := true, sleeping := none }).setCore (a / 4)
              { s.core (a / 4) with turnLeft := if (s.core (a / 4)).holder = some k then 0 else (s.core (a / 4)).turnLeft })
      ∧ (((s.part k).inIter = false ∨ (s.part k).frozen = true ∨ (s.part (k + 1)).inIter = true ∨ s.wantedForU a = false
          ∨ s.atBoundary k = false ∨ s.settled k = false) → exec (.preempt a) s = .next s)
      ∧ (((s.part k).frozen = false ∨ (s.part (k + 1)).inIter = true ∨ s.uPending a = true) → exec (.partitionResume a) s = .next s)
      ∧ ∀ m, (s.part k).frozen = true → (s.part (k + 1)).inIter = false → s.uPending a = false → m = s.setPart k { s.part k with frozen := false } →
        ((∀ r ∈ s.faults, r.who / 8 = k → r.act = none) → exec (.partitionResume a) s = .next m)
        ∧ (∀ r, s.faults.filter (fun r => decide (r.who / 8 = k)) = [r] → s.faults.find? (fun x => x.id == r.id) = some r →
          (r.act = some .retry → r.res = true → r.cause ≠ 0x14 → r.who % 8 < 4 → exec (.partitionResume a) s
              = .next { m with faults := s.faults.filter (fun x => x.id != r.id) })
          ∧ (r.act = some .kill → r.dead = false → ∃ t, exec (.partitionResume a) s = .next t ∧ m.killedBy t r)))
    ∧ (∀ (core n key off : Nat) (u : Bool) (data : List Byte) (d : Drove) (old : Map Byte), Map.find? s.droves n = some d → key = (if u then 1 else 0) →
      d.plane ≠ [] → d.st ≠ .done → u = d.urgent → off + data.length ≤ 4096 →
      old = ((Map.find? (s.core core).shadow key).getD (Map.get [] (s.core core).plane key)) →
      ∃ (m : Map Byte) (w : Tenant → Tenant) (v : State),
        v = (if off = 0 ∧ data.length = 4096 then s.modTen d.ten w else s) ∧ (∀ y, w y = { y with whole := satInc32 y.whole })
        ∧ (∀ i, Map.get 0 m i = if off ≤ i ∧ i < off + data.length then data.getD (i - off) 0 else Map.get 0 old i)
        ∧ (exec (.planeDiffRecord core u off ⟨data, false⟩ n) s = .next (v.setCore core { s.core core with
            shadow := Map.put (s.core core).shadow key m, shadowOk := Map.del (s.core core).shadowOk key }))
        ∧ (crc32c ((planeBytes m).drop 8) = leVal (d.plane.take 4) → exec (.planeDiffRecord core u off ⟨data, true⟩ n) s = .next (v.setCore core { s.core core with
            shadow := Map.put (s.core core).shadow key m, shadowOk := Map.put (Map.del (s.core core).shadowOk (2 + key)) key n }))
        ∧ (crc32c ((planeBytes m).drop 8) ≠ leVal (d.plane.take 4) → exec (.planeDiffRecord core u off ⟨data, true⟩ n) s = .next ((v.setCore core { s.core core with
            shadow := Map.del (s.core core).shadow key, shadowOk := Map.put (Map.del (s.core core).shadowOk key) (2 + key) n }).modTen d.ten
              (fun y => { y with rbk := satInc32 y.rbk }))))
    ∧ (∀ (core n key : Nat) (u : Bool) (d : Drove) (m : Map Byte), Map.find? s.droves n = some d → key = (if u then 1 else 0) →
      Map.find? (s.core core).shadowOk key = some n → d.open? = true → s.heldFor n core u = false → m = Map.get [] (s.core core).shadow key →
      (s.partBusy core u = true → exec (.planeSwap core u n) s = .next s)
      ∧ (s.partBusy core u = false →
        (∀ e, s.presetClash core u (planeBytes m) = some e → ∃ t, exec (.planeSwap core u n) s = .next t
          ∧ (t.core core).plane = (s.core core).plane ∧ (t.core core).pd = (s.core core).pd ∧ t.mem = s.mem
          ∧ Map.find? t.droves n = some (if d.next = 0 then { d with status := 1 }
              else { d with haltCode := some (d.haltCode.getD (BitVec.ofNat 32 (0xFB000000 + e))) }))
        ∧ (s.presetClash core u (planeBytes m) = none → ∃ t, exec (.planeSwap core u n) s = .next t
          ∧ (t.core core).plane = Map.put (s.core core).plane key m ∧ t.droves = s.droves ∧ t.parts = s.parts
          ∧ (∀ e, pdInPart u e = false → Map.find? (t.core core).pd e = Map.find? (s.core core).pd e)
          ∧ (∀ e, e < 64 → pdInPart u e = true → ∀ x, x = padPreset (planeBytes m) e →
              Map.find? (t.core core).pd e = if x.2.2 = 0 then none else some ⟨x.1, x.2.1, x.2.2, []⟩)
          ∧ ((∀ e ∈ (s.core core).pd, ∀ l ∈ e.2.st, l.2.dirty ≠ 0 → s.xlate d.ten (e.2.glob + 64 * l.1) ≠ none) → t.mem = s.mem ∧ t.hostMem = s.hostMem))))
    ∧ (∃ t, exec .forecastUpdate s = .next t ∧ t = { s with pkg := { s.pkg with fcast := t.pkg.fcast } }
      ∧ ∀ die r q, die < 4 → r = ((List.range 32).filter (fun c => s.partBusy (32 * die + c) false || s.partBusy (32 * die + c) true)).length →
        q = ((s.droves.filter (fun e => e.2.open? && (s.reach e.2).any (fun c => dieOf c == die))).map (fun e => (e.2.total - e.2.next) * e.2.gang)).sum →
        (Map.get 0 t.pkg.fcast die : DWord).toNat = r + 2 ^ 8 * min 32 (r + (q + 3) / 4) + 2 ^ 16 * min 32 (max ((q + 3) / 4) ((r + 1) / 2))
          + 2 ^ 24 * min 32 (((q + 3) / 4 + 1) / 2))

/-! ### Homes, classes, main memory -/

/-- A request at a home changes no value, an eviction of partials aside (R252 to R258): it makes its line busy, recalls a paddock line whose dirty words it touches, clears the present bit of
one that a write passes over, where the directory marks its cluster, and a read-modify-write leaves no L1D copy in E, M or C; an eviction removes the copy of
its agent. One for a busy line joins its queue while the buffer of 256 has room; one for a line being reclassed, or of another package, is not taken here. A
reclass checks its whole range, then stalls it and asks the other packages for their copies; at its end the leaf entries hold the class, handles are STALE and BUSY is clear (R260). Every fade period
lowers CNT and releases a window at 0 (R262). A way mask that overlaps another tenant's is discarded with OVL, else it takes effect once no line of the
tenant is left in a way it loses (R263). -/
def Obligations.HomesAndClasses : Prop :=
  ∀ s : State,
    (∀ r : HomeReq, (s.ours (64 * r.line) = false ∨ s.reclassing r.line = true) → exec (.homeRequest r) s = .next s)
    ∧ (∀ (r : HomeReq) (q : List HomeReq), s.ours (64 * r.line) = true → s.reclassing r.line = false → Map.find? s.pkg.homeQ r.line = some q →
      (256 ≤ s.queuedOn (s.homeDie (64 * r.line)) → exec (.homeRequest r) s = .next s)
      ∧ (s.queuedOn (s.homeDie (64 * r.line)) < 256 →
        exec (.homeRequest r) s = .next { s with pkg := { s.pkg with homeQ := Map.put s.pkg.homeQ r.line (q ++ [r]) } }))
    ∧ (∀ (r : HomeReq) (m : State), s.ours (64 * r.line) = true → s.reclassing r.line = false → Map.find? s.pkg.homeQ r.line = none → s.reqWaits r = some m →
      exec (.homeRequest r) s = .next m)
    ∧ (∀ r : HomeReq, s.ours (64 * r.line) = true → s.reclassing r.line = false → Map.find? s.pkg.homeQ r.line = none → s.reqWaits r = none →
      ∃ t, exec (.homeRequest r) s = .next t
      ∧ (∀ b, b / 64 ≠ r.line → t.byteAt .dev b = s.byteAt .dev b)
      ∧ ((r.kind = .evict → ∀ j, r.agent = .l1d j → ∀ ls op wr ps, Map.find? (s.core j).l1d r.line ≠ some (.c ls op wr ps)) →
          SameSeen { s with pkg := { s.pkg with hostLines := t.pkg.hostLines, homeQ := Map.put s.pkg.homeQ r.line [r] } } t)
      ∧ (r.agent ≠ .host → t.pkg.hostLines = s.pkg.hostLines)
      ∧ (∀ (w : BitVec 16) (wr : Bool) (j e i : Nat) (p : Paddock) (l : PdLine), r.cl.val ≠ 3 →
        (Map.get 0 s.pkg.dir (r.line / 8)).getLsbD (clusterOf (s.homeDie (64 * r.line)) j) = true →
        (r.kind = .read w ∧ wr = false) ∨ ((r.kind = .write w ∨ r.kind = .rmw w) ∧ wr = true) →
        (r.agent = .paddock j e i → ∃ w', r.kind = .rmw w') → Map.find? (s.core j).pd e = some p → Map.find? p.st i = some l →
        ∃ q l', Map.find? (t.core j).pd e = some q ∧ Map.find? q.st i = some l'
          ∧ (l.pa = some r.line → l.hh = false → l.dirty &&& w ≠ 0 → l'.dirty = 0 ∧ l'.present = false)
          ∧ (l.pa = some r.line → l.hh = false → l.dirty &&& w = 0 → l'.dirty = l.dirty ∧ l'.present = (l.present && !wr))
          ∧ (l.pa ≠ some r.line → l.hh = false → l' = l))
      ∧ (∀ (w : BitVec 16) (j : Nat), r.kind = .rmw w → r.cl.val ≠ 3 →
          Map.find? (t.core j).l1d r.line = none ∨ ∃ x, Map.find? (t.core j).l1d r.line = some (.s x))
      ∧ (∀ j, r.kind = .evict → r.agent = .l1d j → s.stuckAt r.line = false → Map.find? (t.core j).l1d r.line = none))
    ∧ (∀ (ten : Nat) (cl : BitVec 2) (a n : Nat) (us : List (Option PageInfo)), a = (s.ten ten).rcaddr.toNat / 2 ^ 16 % 2 ^ 36 * 2 ^ 16 →
      n = (s.ten ten).rclen.toNat * 2 ^ 16 → us = (List.range (s.ten ten).rclen.toNat).map (fun j => s.xlate ten (a + j * 2 ^ 16)) →
      ((s.ten ten).rcBusy = true → exec (.reclass ten cl) s = .next (s.modTen ten (fun y => { y with rcErr := 3 })))
      ∧ ((s.ten ten).rcBusy = false →
        ((none ∈ us ∨ ∃ p, some p ∈ us ∧ (p.vbase < a ∨ a + n < p.vbase + pageBytes p.ps)) →
          exec (.reclass ten cl) s = .next (s.modTen ten (fun y => { y with rcErr := 1 })))
        ∧ ((∀ u ∈ us, ∃ p, u = some p ∧ a ≤ p.vbase ∧ p.vbase + pageBytes p.ps ≤ a + n) →
          ((cl = 3 ∨ ∃ p, some p ∈ us ∧ p.cl = 3) → exec (.reclass ten cl) s = .next (s.modTen ten (fun y => { y with rcErr := 2 })))
          ∧ (cl ≠ 3 → (∀ p, some p ∈ us → p.cl ≠ 3) → ∃ t, exec (.reclass ten cl) s = .next t
            ∧ (t.ten ten).rcBusy = true ∧ (t.ten ten).rcErr = 0 ∧ (t.ten ten).rcClass = cl.toNat ∧ (t.ten ten).rcAt = a ∧ (t.ten ten).rcSize = n
            ∧ t.mem = s.mem ∧ t.hostMem = s.hostMem ∧ t.parts = s.parts
            ∧ (s.otherPkgs = [] → SameSeen (s.modTen ten (fun y =>
                { y with rcBusy := true, rcErr := 0, rcClass := cl.toNat, rcAt := a, rcSize := n })) t)))))
    ∧ (∀ (ten a n : Nat), (s.ten ten).rcBusy = true → a = (s.ten ten).rcAt → n = (s.ten ten).rcSize →
      (∀ e ∈ s.pkg.hostLines, lineIn (s.rcUnits ten) false e.1 = false) →
      s.classWaits ten = none → (∀ l, lineIn (s.rcUnits ten) false l = true → s.stuckAt l = false) →
      (∀ l, lineIn (s.rcUnits ten) true l = true → s.carries l = true) → (∀ v ∈ walkVas a n, s.tablesAtHand (ownReq ten 3) ten v) →
      s.unhindered (ownReq ten 3) ten [] ((s.rcPages ten).map leafStretch) → ∃ t, exec (.reclassComplete ten) s = .next t
        ∧ (t.ten ten).rcBusy = false ∧ t.hostMem = s.hostMem ∧ t.bars = s.bars ∧ t.faults = s.faults
        ∧ (∀ j p, j < n / 2 ^ 16 → s.xlate ten (a + j * 2 ^ 16) = some p → (t.byteAt .dev p.leaf).toNat = (s.byteAt .dev p.leaf).toNat % 2 ^ 5 + 2 ^ 5 * ((s.ten ten).rcClass % 2 ^ 3))
        ∧ (∀ b, (∀ j p, j < n / 2 ^ 16 → s.xlate ten (a + j * 2 ^ 16) = some p → p.leaf ≠ b) → t.byteAt .dev b = s.byteAt .dev b)
        ∧ (∀ k h p x, Map.find? s.parts k = some p → s.tenOf (coreOf k) = ten → Map.find? p.h h = some x → x.st = .valid →
          ∃ q y, Map.find? t.parts k = some q ∧ Map.find? q.h h = some y
            ∧ (x.page.vbase < a + n → a < x.page.vbase + pageBytes x.page.ps → y = { x with st := .stale })
            ∧ ((a + n ≤ x.page.vbase ∨ x.page.vbase + pageBytes x.page.ps ≤ a) → y = x)))
    ∧ (∀ ten, ∃ t, exec (.pinFadePeriod ten) s = .next t ∧ t = s.modTen ten (fun y => { y with pins := (t.ten ten).pins })
      ∧ ∀ x, (x ∈ (t.ten ten).pins ↔ ∃ e ∈ (s.ten ten).pins, e.2.bnd = true ∧ 1 < e.2.cnt ∧ x = (e.1, { e.2 with cnt := e.2.cnt - 1 })))
    ∧ (s.pkg.waysNew = none → exec .wayMaskComplete s = .next s)
    ∧ (∀ u w, s.pkg.waysNew = some (u, w) → (∀ pa, s.frozenAt pa = false) → (∀ l, s.carries l = true) → ∃ t, exec .wayMaskComplete s = .next t ∧ t = s.waysApply
      ∧ SameSeen ({ s with pkg := { s.pkg with waysNew := none } }.modTen u (fun y => { y with ways := w })) t
      ∧ (∀ e ∈ t.pkg.l2, s.owner false (64 * e.1) 64 = some u → w.getLsbD e.2.way = true ∧ e.2.way < 16 ∨ 16 ≤ e.2.way)
      ∧ (∀ e ∈ t.pkg.msc, s.owner false (64 * e.1) 64 = some u → w.getLsbD (32 + e.2.way) = true ∧ e.2.way < 16 ∨ 16 ≤ e.2.way))
    ∧ (∀ ten (v : DWord) (m : State), m = s.waysApply →
      ((∃ u, u < 17 ∧ u ≠ ten ∧ (v &&& (m.ten u).ways).toNat % 2 ^ 48 ≠ 0) → ∃ t u, exec (.wayMaskWrite ten v) s = .next t
          ∧ u < 17 ∧ u ≠ ten ∧ (v &&& (m.ten u).ways).toNat % 2 ^ 48 ≠ 0 ∧ t = { m with pkg := { m.pkg with waysOvl := true, waysOt := u } })
      ∧ ((∀ u, u < 17 → u ≠ ten → (v &&& (m.ten u).ways).toNat % 2 ^ 48 = 0) →
          exec (.wayMaskWrite ten v) s = .next { m with pkg := { m.pkg with
            waysOvl := false, waysOt := 0, waysNew := some (ten, BitVec.ofNat 64 (v.toNat % 2 ^ 48)) } }))

/-- A bank closes its row when its timer has expired with nothing queued, an access that is queued restarts the timer, or at a refresh (R280). A sample sets temperature, sensor and level of its stack
by R281; entering level 3 freezes it, sets its HOTSTAT bits and counts, level 4 stops main memory for good (R282 to R284). THCFG takes ordered
thresholds only, T4 stays (R281). The power
cap inserts idle slots while the power stands above it, a value outside 1,000 to 3,600 acting as 3,600, and changes nothing else (R353). -/
def Obligations.TemperatureAndBanks : Prop :=
  ∀ s : State,
    (∀ chan bank, Map.get false s.pkg.openRows (chan * 1024 + bank) = true → Map.get 0 s.pkg.rowIdle (chan * 1024 + bank) ≤ s.cycle →
      (∃ t, exec (.bankIdlePrecharge chan bank false) s = .next t
        ∧ t = { s with pkg := { s.pkg with openRows := Map.del s.pkg.openRows (chan * 1024 + bank), rowIdle := Map.del s.pkg.rowIdle (chan * 1024 + bank) } })
      ∧ (exec (.bankIdlePrecharge chan bank true) s
        = .next { s with pkg := { s.pkg with openRows := Map.put s.pkg.openRows (chan * 1024 + bank) true
                                             rowIdle := Map.put s.pkg.rowIdle (chan * 1024 + bank) (s.cycle + (s.stack (chan / 32)).idle) } }))
    ∧ (∀ chan bank q, (Map.get false s.pkg.openRows (chan * 1024 + bank) = false ∨ s.cycle < Map.get 0 s.pkg.rowIdle (chan * 1024 + bank)) →
      exec (.bankIdlePrecharge chan bank q) s = .next s)
    ∧ (∀ chan banks, ∃ t, exec (.refresh chan banks) s = .next t
      ∧ t = { s with pkg := { s.pkg with openRows := t.pkg.openRows, rowIdle := t.pkg.rowIdle } }
      ∧ ∀ key, Map.find? t.pkg.openRows key = if ∃ b ∈ banks, key = chan * 1024 + b then none else Map.find? s.pkg.openRows key)
    ∧ (∀ (r : Reading) (x : Stack) (T : Nat → Nat) (hys θ l : Nat), r.stack < 24 → x = s.stack r.stack → θ = r.temp.toNat →
      (∀ i, T i = s.pkg.thcfg.toNat / 2 ^ (8 * (i - 1)) % 2 ^ 8) → hys = s.pkg.thcfg.toNat / 2 ^ 32 % 2 ^ 4 → T 1 < T 2 → T 2 < T 3 → T 3 < T 4 →
      ((x.lvl = 4 ∨ T 4 ≤ θ) → l = 4) → (x.lvl ≠ 4 → θ < T 4 → (T 3 ≤ θ ∨ (x.lvl = 3 ∧ T 2 ≤ θ)) → l = 3) →
      (x.lvl ≠ 4 → x.lvl ≠ 3 → θ < T 3 → (T 2 ≤ θ ∨ (x.lvl = 2 ∧ T 2 ≤ θ + hys)) → l = 2) →
      (x.lvl ≠ 4 → θ < T 2 → ¬(x.lvl = 2 ∧ T 2 ≤ θ + hys) → (T 1 ≤ θ ∨ (x.lvl = 1 ∧ T 1 ≤ θ + hys)) → l = 1) →
      (x.lvl ≠ 4 → θ < T 1 → ¬(x.lvl = 2 ∧ T 2 ≤ θ + hys) → ¬(x.lvl = 1 ∧ T 1 ≤ θ + hys) → l = 0) →
      ∃ t, exec (.thermalSample [r]) s = .next t ∧ t.parts = s.parts ∧ t.mem = s.mem
        ∧ t.stack r.stack = { x with temp := r.temp, layer := r.layer, lvl := l
                                     frz := if l = 3 ∧ x.lvl ≠ 3 ∧ x.frz ≠ BitVec.allOnes 32 then x.frz + 1 else x.frz }
        ∧ (∀ n, n ≠ r.stack → t.stack n = s.stack n) ∧ t.pkg.hotstop = (s.pkg.hotstop || decide (l = 4))
        ∧ (∀ u, u < 17 → (t.ten u).hot = if l = 3 ∧ x.lvl ≠ 3 then (s.ten u).hot ||| BitVec.ofNat 24 (2 ^ r.stack)
            else if x.lvl = 3 ∧ l ≠ 3 then (s.ten u).hot &&& ~~~(BitVec.ofNat 24 (2 ^ r.stack)) else (s.ten u).hot)
        ∧ (l = x.lvl → t.pkg.irqs = s.pkg.irqs)
        ∧ (l ≠ x.lvl → (Map.get ⟨true, false⟩ (s.ten 0).msix (s.pkg.thcfg.toNat / 2 ^ 48 % 2 ^ 6)).masked = false →
            (s.ten 0).msixOff = false → s.portOpen 0 = true → t.pkg.irqs = s.pkg.irqs ++ [(0, s.pkg.thcfg.toNat / 2 ^ 48 % 2 ^ 6)]))
    ∧ (∀ v : DWord, ∃ t c, exec (.thcfgWrite v) s = .next t ∧ t = { s with pkg := { s.pkg with thcfg := c } }
      ∧ (v.toNat % 2 ^ 8 < v.toNat / 2 ^ 8 % 2 ^ 8 → v.toNat / 2 ^ 8 % 2 ^ 8 < v.toNat / 2 ^ 16 % 2 ^ 8 →
          v.toNat / 2 ^ 16 % 2 ^ 8 < s.pkg.thcfg.toNat / 2 ^ 24 % 2 ^ 8 →
          c.toNat % 2 ^ 24 = v.toNat % 2 ^ 24 ∧ c.toNat / 2 ^ 24 % 2 ^ 8 = s.pkg.thcfg.toNat / 2 ^ 24 % 2 ^ 8
            ∧ c.toNat / 2 ^ 32 % 2 ^ 8 = v.toNat / 2 ^ 32 % 2 ^ 8 ∧ c.toNat / 2 ^ 40 % 2 ^ 8 = 0 ∧ c.toNat / 2 ^ 48 = v.toNat / 2 ^ 48 % 2 ^ 8)
      ∧ (¬(v.toNat % 2 ^ 8 < v.toNat / 2 ^ 8 % 2 ^ 8 ∧ v.toNat / 2 ^ 8 % 2 ^ 8 < v.toNat / 2 ^ 16 % 2 ^ 8
            ∧ v.toNat / 2 ^ 16 % 2 ^ 8 < s.pkg.thcfg.toNat / 2 ^ 24 % 2 ^ 8) → c = s.pkg.thcfg ||| BitVec.ofNat 64 (2 ^ 40)))
    ∧ (∀ watts c, (1000 ≤ s.pkg.pwrcap.toNat → s.pkg.pwrcap.toNat ≤ 3600 → c = s.pkg.pwrcap.toNat) → (¬(1000 ≤ s.pkg.pwrcap.toNat ∧ s.pkg.pwrcap.toNat ≤ 3600) → c = 3600) →
      exec (.powerCapThrottle watts) s = .next { s with pkg := { s.pkg with throttle := decide (c < watts) } })

/-! ### The fabric -/

/-- Links (R303 to R305): a flit with a bad CRC or out of sequence is discarded and a replay asked for from the first missing one, any other moves the sequence on
and what it carries has arrived, once, and counts for its tenant, or, refused by the link's flow control, stays with its sender (R312, R313); a replay request counts a
failure when it is asked again, and the replay buffer keeps its flits; after RLIM failures the port goes down, its flits go to other ports of their routes that are up,
and FABCFG.VEC is raised (R330, R332); a retrained port is up and counts anew, but in minimal mode none comes up (R349). A request of another package is performed at most once (R307): one that was performed gets its recorded answer, one outside the tenant's windows is refused
and performs nothing (R308), judged once no window load is in progress (R338), one that meets poison says so (R352), and otherwise it reads, writes or updates the bytes it
names; one that must wait, for copies outside too (R258, R325), stays among what has arrived. A demand for paddock words takes them back (R258). An OPEN's request for a bay
joins those that wait on the die, and what comes back is free again (R267). A response reaches the exchange that waits for it by its tag, with the time of what was performed
(R217), a timeout its requester (R309); pod barriers count an arrival once, refuse another drove's (R100), and the completion of a phase says which (R310). What an operation
above 8 does to the old value is the model's naming of R164, R188 and R270 (log entry 43), and how droves of several packages are told apart at a pod object its reading of R100
(log entry 55); so are the packages that a completion is sent to (log entry 28) and the exchange of bays between packages (log entry 35). -/
def Obligations.FabricLinksAndRequests : Prop :=
  (∀ (s : State) (p : Fin 18) (x : Port), x = Map.get Port.reset s.pkg.ports p.val → ∀ w : Port → State,
    (∀ y, w y = { s with pkg := { s.pkg with ports := Map.put s.pkg.ports p.val y } }) →
    (∀ (seq : Nat) (f : Option Packet), (x.up = false → exec (.llynedFlitReceive p seq f) s = .next s)
      ∧ (x.up = true → f = none →
        exec (.llynedFlitReceive p seq f) s = .next (w { x with crce := min (x.crce + 1) 65535, asked := some x.rxNext }))
      ∧ (x.up = true → f ≠ none → seq ≠ x.rxNext → exec (.llynedFlitReceive p seq f) s = .next (w { x with asked := some x.rxNext }))
      ∧ (∀ m, x.up = true → f = some m → seq = x.rxNext →
          (s.linkRefuses m.msg = true → exec (.llynedFlitReceive p seq f) s
            = .next (w { x with rxNext := x.rxNext + 1, asked := none, refused := x.refused ++ [seq] }))
          ∧ (s.linkRefuses m.msg = false → ∀ u, u = w { x with rxNext := x.rxNext + 1, asked := none } → exec (.llynedFlitReceive p seq f) s
            = .next (({ u with pkg := { u.pkg with rxQ := s.pkg.rxQ ++ [m] } } : State).meter (msgTen m.msg) 9 (256 * msgFlits m.msg)))))
    ∧ (∀ seq, (x.up = false → exec (.llynedReplayRequest p seq) s = .next s)
      ∧ (x.up = true → exec (.llynedReplayRequest p seq) s = .next (w { x with
        rpl := min (x.rpl + 1) 65535, failed := if x.replayed = some seq then x.failed + 1 else 0, replayed := some seq })))
    ∧ (∀ nbr, (s.pkg.minMode = true → exec (.portUp p nbr) s = .next s)
      ∧ (s.pkg.minMode = false → exec (.portUp p nbr) s = .next (w { x with
        up := true, trn := false, nbr := nbr, rxNext := 0, txNext := 0, txBuf := [], asked := none, replayed := none, refused := [] })))
    ∧ (∀ rlim, rlim = max 1 (s.pkg.fabcfg.toNat / 2 ^ 16 % 2 ^ 4) →
      ((x.up = false ∨ x.failed < rlim) → exec (.portDown p) s = .next s)
      ∧ (x.up = true → rlim ≤ x.failed → x.txBuf.length ≤ 64 → ∃ t, exec (.portDown p) s = .next t
        ∧ t = { s with tens := t.tens, pkg := { s.pkg with ports := t.pkg.ports, irqs := t.pkg.irqs } }
        ∧ Map.get Port.reset t.pkg.ports p.val = { x with up := false, trn := true, down := min (x.down + 1) 65535, txBuf := [], failed := 0, replayed := none }
        ∧ (∀ e ∈ x.txBuf, (∃ j, j < 18 ∧ j ≠ p.val ∧ (Map.get 0 s.pkg.route e.2.dst : BitVec 18).getLsbD j = true ∧ (Map.get Port.reset s.pkg.ports j).up = true) →
          ∃ j q, j < 18 ∧ j ≠ p.val ∧ (Map.get 0 s.pkg.route e.2.dst : BitVec 18).getLsbD j = true ∧ (Map.get Port.reset s.pkg.ports j).up = true
            ∧ (q, e.2) ∈ (Map.get Port.reset t.pkg.ports j).txBuf)
        ∧ ((Map.get ⟨true, false⟩ (s.ten 0).msix (s.pkg.fabcfg.toNat / 2 ^ 8 % 2 ^ 6)).masked = false → (s.ten 0).msixOff = false → s.portOpen 0 = true →
            t.pkg.irqs = s.pkg.irqs ++ [(0, s.pkg.fabcfg.toNat / 2 ^ 8 % 2 ^ 6)] ∧ t.tens = s.tens))))
  ∧ (∀ s : State,
    (∀ (r : RemoteReq) (id n : Nat) (ans : State → RespSt → BitVec 48 → List Byte → State) (keep : State → State),
      id = (r.src * 2 ^ 64 + r.unit) * 2 ^ 32 + r.tag.toNat → n = opLen r.op →
      (∀ u st ts bs, ans u st ts bs = u.transmit r.src (r.pa / 64) (.resp r.ten r.unit r.tag st ts bs)) →
      (∀ u : State, keep u = { u with pkg := { u.pkg with rxQ := u.pkg.rxQ ++ [⟨u.gts, .req r⟩] } }) →
      (∀ e, s.pkg.served.find? (fun e => e.1 == id) = some e → exec (.remoteRequest r) s = .next (ans s .done e.2.1 e.2.2))
      ∧ (s.pkg.served.find? (fun e => e.1 == id) = none →
        (∀ ranges words write copies, r.op = .recall ranges words write copies → ∃ u, exec (.remoteRequest r) s = .next (ans u .done s.gts [])
          ∧ SameSeen s u ∧ u.gts = s.gts ∧ ∀ (c e i a : Nat) (p : Paddock) (l : PdLine), Map.find? (s.core c).pd e = some p → Map.find? p.st i = some l →
            l.pa = some a → l.hh = false → (∃ g ∈ ranges, g.1 < 64 * a + 64 ∧ 64 * a < g.1 + g.2) →
            (copies = false → ∃ q l', Map.find? (u.core c).pd e = some q ∧ Map.find? q.st i = some l'
              ∧ (l.dirty &&& words ≠ 0 → l'.dirty = 0 ∧ l'.present = false)
              ∧ (l.dirty &&& words = 0 → l'.dirty = l.dirty ∧ l'.present = (l.present && !write))))
        ∧ ((∀ g w x y, r.op ≠ .recall g w x y) →
          (s.pkg.winBusy = some r.ten → exec (.remoteRequest r) s = .next (keep s))
          ∧ (s.pkg.winBusy ≠ some r.ten → (r.pa / 2 ^ 50 % 1024 ≠ s.pkg.pkgid.toNat ∨ s.inWin r.ten false r.pa n = false) →
            exec (.remoteRequest r) s = .next (ans s .refused s.gts []))
          ∧ (s.pkg.winBusy ≠ some r.ten → r.pa / 2 ^ 50 % 1024 = s.pkg.pkgid.toNat → s.inWin r.ten false r.pa n = true →
            (r.op = .bay true → ((s.ten r.ten).baysOn (s.homeDie r.pa) = [] → exec (.remoteRequest r) s = .next (ans s .refused s.gts []))
              ∧ ((s.ten r.ten).baysOn (s.homeDie r.pa) ≠ [] → exec (.remoteRequest r) s = .next { s with pkg := { s.pkg with
                  bayWait := if s.pkg.bayWait.contains (.away r) then s.pkg.bayWait else s.pkg.bayWait ++ [.away r] } }))
            ∧ (r.op = .bay false → ∃ t, exec (.remoteRequest r) s = .next t ∧ t.mem = s.mem ∧ t.pkg.bayWait = s.pkg.bayWait
              ∧ t.pkg.served = s.pkg.served ++ [(id, s.gts, [])]
              ∧ (∀ key b, Map.find? s.pkg.bays key = some b → (∀ q, b = .away q → q.src = r.src → q.unit ≠ r.unit) → Map.find? t.pkg.bays key = some b)
              ∧ (∀ b q, s.pkg.bays = [(b, .away q)] → b / 64 = s.homeDie r.pa → q.src = r.src → q.unit = r.unit → Map.find? t.pkg.bays b = none))
            ∧ ((∀ tk, r.op ≠ .bay tk) →
              (s.outWaits r.ten r.pa n = true → exec (.remoteRequest r) s = .next (keep s))
              ∧ (s.outWaits r.ten r.pa n = false → opReads r.op = true → s.poisonedPa r.pa n = true → exec (.remoteRequest r) s = .next (ans s .poison s.gts []))
              ∧ (s.outWaits r.ten r.pa n = false → r.op = .bring →
                (s.intoMsc r.ten (r.pa / 64) = none → exec (.remoteRequest r) s = .next (keep s))
                ∧ ∀ m, s.intoMsc r.ten (r.pa / 64) = some m → exec (.remoteRequest r) s = .next (ans m .done m.gts []) ∧ SameSeen s m)
              ∧ (s.outWaits r.ten r.pa n = false → r.op ≠ .bring → (opReads r.op = true → s.poisonedPa r.pa n = false) →
                (∀ m, s.homeExchange r.src r.ten r.pa n (opWrites r.op) r.pad false = some m → exec (.remoteRequest r) s = .next (keep m))
                ∧ (s.homeExchange r.src r.ten r.pa n (opWrites r.op) r.pad false = none → (∀ l ∈ linesOf r.pa n, Map.find? s.reqs (homeReq l) = none) →
                  ∃ t old w, exec (.remoteRequest r) s = .next t ∧ old = s.bytesAt .dev r.pa n
                    ∧ (match r.op with
                        | .write bs => w = s.putBytes .dev r.pa bs
                        | .update aop d x y => w = s.putBytes .dev r.pa (leBytes (if d then 8 else 4)
                            (if aop < 9 then amoOp aop (if d then 64 else 32) (leVal old) x.toNat y.toNat
                             else updApply aop (if d then 64 else 32) (leVal old) x.toNat y.toNat))
                        | _ => w = s)
                    ∧ (∀ out, out = (match r.op with | .write _ => [] | _ => old) →
                        SameSeen (ans { w with gts := t.gts, pkg := { w.pkg with served := s.pkg.served ++ [(id, t.gts, out)] } } .done t.gts out) t))))))))
    ∧ (∀ who r pa tag st ts data, who < 2 ^ 40 → Map.find? s.reqs who = some r → r.kind = .remote pa → r.answered = false → r.tag = tag →
      (∀ e ∈ s.reqs, e.2.tag = tag → e = (who, r)) →
      exec (.remoteResponse who ⟨tag, st, ts, data⟩) s = .next { s with
        gts := serialMax s.gts ts
        reqs := Map.put s.reqs who { r with
          answered := true, st := st, ts := ts, data := if data = [] then r.data else r.data ++ [(pa, ts, data)] } })
    ∧ (∀ line r p l tag st ts, Map.find? s.reqs (2 ^ 60 + line) = some r → r.kind = .recall p l → r.answered = false → r.tag = tag →
      (∀ e ∈ s.reqs, e.2.tag = tag → e = (2 ^ 60 + line, r)) →
      exec (.remoteResponse (2 ^ 60 + line) ⟨tag, st, ts, []⟩) s = .next { s with
        gts := serialMax s.gts ts, reqs := Map.del s.reqs (2 ^ 60 + line), pkg := { s.pkg with padAway := Map.del s.pkg.padAway l } })
    ∧ (∀ who tag st ts data, (∀ e ∈ s.reqs, e.2.tag ≠ tag) → exec (.remoteResponse who ⟨tag, st, ts, data⟩) s = .next s)
    ∧ (∀ who r, Map.find? s.reqs who = some r →
      (r.answered = false → r.resend = false → exec (.fabricTimeout who) s = .next { s with reqs := Map.put s.reqs who { r with timedOut := true } })
      ∧ ((r.answered = true ∨ r.resend = true) → exec (.fabricTimeout who) s = .next s))
    ∧ (∀ (ten obj src drove : Nat) (tag : Word) (id key : Nat) (o : BarObj) (ans : State → RespSt → BitVec 48 → List Byte → State),
      id = (src * 2 ^ 64 + (2 ^ 40 + ten)) * 2 ^ 32 + tag.toNat → key = barKey 4 ten 0 obj → o = s.bar key →
      (∀ u st ts bs, ans u st ts bs = u.transmit src obj (.resp ten (2 ^ 40 + ten) tag st ts bs)) →
      (∀ e, s.pkg.served.find? (fun e => e.1 == id) = some e → exec (.podBarrierArrival ten obj ⟨src, drove⟩ tag) s = .next (ans s .done e.2.1 e.2.2))
      ∧ (s.pkg.served.find? (fun e => e.1 == id) = none →
        ((s.podAway ten = true ∨ (s.ten ten).barsHeld 4 ≤ obj ∨ o.c = 0
            ∨ (o.a ≠ 0 ∧ ∃ e ∈ o.drove, e.2 / 2 ^ 32 ≠ drove / 2 ^ 32 ∨ (e.1 = src ∧ e.2 ≠ drove))) →
          exec (.podBarrierArrival ten obj ⟨src, drove⟩ tag) s = .next (ans s .refused s.gts []))
        ∧ (s.podAway ten = false → obj < (s.ten ten).barsHeld 4 → o.c ≠ 0 → src ≠ s.pkg.pkgid.toNat →
          (o.a = 0 ∨ ∀ e ∈ o.drove, e.2 / 2 ^ 32 = drove / 2 ^ 32 ∧ (e.1 = src → e.2 = drove)) →
          ∀ (srcs : List Nat) (u : State), srcs = (if src ∈ o.srcs then o.srcs else o.srcs ++ [src]) →
          ((o.a + 1 = o.c ∧ u = srcs.foldl (fun u p => u.transmit p obj (.release ten obj (o.phase + 1)))
              { s with bars := Map.put s.bars key ⟨o.c, 0, o.phase + 1, [], []⟩ })
            ∨ (o.a + 1 ≠ o.c ∧ u = { s with bars := Map.put s.bars key ⟨o.c, o.a + 1, o.phase, Map.put o.drove src drove, srcs⟩ })) →
          exec (.podBarrierArrival ten obj ⟨src, drove⟩ tag) s
            = .next (ans { u with pkg := { u.pkg with served := u.pkg.served ++ [(id, s.gts, leBytes 8 o.phase)] } } .done s.gts (leBytes 8 o.phase))))
      ∧ (∀ phase, (s.podAway ten = false → exec (.podBarrierRelease ten ⟨obj, phase⟩) s = .next s)
        ∧ (s.podAway ten = true → ∃ t o', exec (.podBarrierRelease ten ⟨obj, phase⟩) s = .next t ∧ o' = s.bar (barKey 5 ten (s.anchor ten) obj)
          ∧ t = { s with bars := Map.put s.bars (barKey 5 ten (s.anchor ten) obj) { o' with phase := max o'.phase phase } }))))

/-- Collective traffic (R312, R313, R315): a flit of a registered CID joins its stream in sequence, is held ahead of its turn, is discarded when it was seen, or is refused
at the link; one that has come for a CID that is no longer registered is not delivered; an abort stops the program of its CID with FABRIC_TIMEOUT naming the sender, is ignored past ENDP, and is otherwise
kept, the last 16 of a tenant. -/
def Obligations.CollectiveArrivals : Prop :=
  ∀ (s : State) (ten cid src : Nat),
    (∀ (step seq : Nat) (data : List Byte) (i : Instr) (reg : Prop) (x : RxStream), i = .shepherdDataFlit ten cid src ⟨step, seq⟩ data →
      (reg ↔ ∃ e ∈ s.pkg.cids, e.1 = ten ∧ e.2.1 = cid) →
      x = (s.pkg.streams.find? (fun x => x.ten == ten && x.cid == cid && x.src == src)).getD ⟨ten, cid, src, 0, [], []⟩ →
      ((¬reg ∨ (x.next < seq ∧ 64 ≤ x.held.length ∧ Map.find? x.held seq = none)) → exec i s = .next s)
      ∧ (¬reg → s.linkRefuses (.data ten cid src step seq data) = true)
      ∧ (x.next < seq → 64 ≤ x.held.length → Map.find? x.held seq = none → s.linkRefuses (.data ten cid src step seq data) = true)
      ∧ (reg → seq ≤ x.next → s.linkRefuses (.data ten cid src step seq data) = false)
      ∧ (reg → (seq ≤ x.next ∨ x.held.length < 64) →
        ∃ t y, exec i s = .next t
          ∧ SameSeen { s with pkg := { s.pkg with
              streams := s.pkg.streams.filter (fun x => !(x.ten == ten && x.cid == cid && x.src == src)) ++ [y] } } t
          ∧ (seq < x.next → y = x) ∧ (seq = x.next → x.held = [] → y = { x with next := seq + 1, buf := x.buf ++ data })
          ∧ (∀ q d, seq = x.next → x.held = [(q, d)] → q = seq + 1 → y = { x with next := seq + 2, buf := x.buf ++ data ++ d, held := [] })
          ∧ (x.next < seq → y = { x with held := Map.put x.held seq data })))
    ∧ (∀ e u, s.pkg.cids.find? (fun e => e.1 == ten && e.2.1 == cid) = some e → (s.core e.2.2).run = some u → u.k / 8 = e.2.2 →
      ((u.fin = true ∨ u.faulted = true) → exec (.collectiveAbort ten cid src) s = .next s)
      ∧ (u.fin = false → u.faulted = false → ∃ x : State, exec (.collectiveAbort ten cid src) s = .next (x.engineFault u.k 3 ⟨cTimeout, 0, src, 0, 0⟩ false)
        ∧ (x.core (u.k / 8)).run = some { u with faulted := true }
        ∧ x.pkg.txAborts = s.pkg.txAborts ++ (u.ids.filter (· != s.pkg.pkgid.toNat)).map (fun d => (s.tenOf (u.k / 8), u.cid, s.pkg.pkgid.toNat, d))
        ∧ (∀ c ∈ x.pkg.cids, ¬(c.1 = s.tenOf (u.k / 8) ∧ c.2.1 = u.cid)) ∧ x.parts = s.parts ∧ x.mem = s.mem ∧ x.droves = s.droves))
    ∧ (s.pkg.cids.find? (fun e => e.1 == ten && e.2.1 == cid) = none →
      (cid ∈ (s.ten ten).ended → exec (.collectiveAbort ten cid src) s = .next s)
      ∧ (cid ∉ (s.ten ten).ended → ∃ l, exec (.collectiveAbort ten cid src) s = .next (s.modTen ten (fun y => { y with aborts := l }))
        ∧ ((s.ten ten).aborts.length < 16 → l = (s.ten ten).aborts ++ [(cid, src)])
        ∧ (∀ a rest, (s.ten ten).aborts = a :: rest → (s.ten ten).aborts.length = 16 → l = rest ++ [(cid, src)])))

/-! ### The host -/

/-- The host's MemRd and MemWr of device memory (R325): outside every window nothing is performed and a read answers all ones; else the home performs it
for the tenant of the window, a read leaving the host a copy, S where the package has written the line (R334), unless it meets poison (R352) or must wait. The host's answer to a back-invalidation writes
dirty data at the home first and gives up or downgrades the copy; in a conflict the host's own request is performed first and the snoop goes on (R326).
A snoop for host memory recalls paddock words, and takes the RDC copies, leaves them shared, or leaves them as they are; an answer
puts the line into the RDC of the requester's die, in a way of the tenant's, S, E or M (R263, R327). CXL.cache and CXL.mem need an open port (R332). The mailboxes (R331, R346, R350) take one request at a time, through a port that is open (R332): discovery lists the protocols of the function, GET_MEASUREMENTS returns a meter record where
it may, which counts as the tenant's next, or the boot status, each in a measurement block, for index 0xFF on a virtual function all that it gives, and SPDM answers, but not a
virtual function what comes secured. Keys that come in a port's mailbox secure the port, and what waited for it goes on; a failed integrity check
closes it until new keys come (R332). The DOE data layout of discovery and the numbering of requests are the model's (log entry 42),
and so are the layout of a measurement response and keys that come through an insecure port (log entry 61). -/
def Obligations.HostAccessesAndMessages : Prop :=
  (∀ s : State,
    (∀ (l a : Nat) (m : ReplySt → List Byte → State) (rd wr : Instr → Prop), a = 64 * l →
      (∀ st bs, m st bs = { s with pkg := { s.pkg with reply := ⟨st, bs⟩ } }) →
      (∀ pa, pa / 64 = l → s.carries l = false → exec (.memrd pa) s = .next s ∧ ∀ bs, exec (.memwr pa bs) s = .next s)
      ∧ (s.carries l = true →
        (∀ pa v bs, pa / 64 = l → (s.hostWaits a 64 false = some v → exec (.memrd pa) s = .next v)
          ∧ (s.hostWaits pa bs.length true = some v → exec (.memwr pa bs) s = .next v))
        ∧ (∀ pa n w t, s.windowOwner pa n = some t → s.outWaits t pa n = true → s.hostWaits pa n w = some s)
        ∧ ((∀ i, rd i ↔ (∃ pa, pa / 64 = l ∧ i = .memrd pa ∧ s.hostWaits a 64 false = none)
              ∨ ∃ who r inv n, i = .biconflict who (.read n) ∧ Map.find? s.reqs who = some r ∧ r.kind = .backInv l inv ∧ r.answered = false) →
          ∀ i, rd i →
            (s.windowOwner a 64 = none → ∃ r, exec i s = .next r ∧ SameSeen (m .refused (List.replicate 64 255)) r)
            ∧ (∀ t, s.windowOwner a 64 = some t → s.poisonedPa a 64 = true → ∃ r, exec i s = .next r ∧ SameSeen (m .poison []) r)
            ∧ (∀ t, s.windowOwner a 64 = some t → s.poisonedPa a 64 = false → ∃ r st, exec i s = .next r
              ∧ SameSeen { s with pkg := { s.pkg with reply := ⟨.done, s.bytesAt .dev a 64⟩, hostLines := Map.put s.pkg.hostLines l st } } r
              ∧ ((Map.find? s.pkg.hostLines l = some .m ∧ st = .m) ∨ (Map.find? s.pkg.hostLines l ≠ some .m ∧ (st = .s ∨ st = .e)))
              ∧ (Map.find? s.pkg.hostLines l = some .e → st = .e)
              ∧ ((Map.find? s.pkg.hostLines l = none ∨ Map.find? s.pkg.hostLines l = some .s) → (Map.get (0, 0) s.pkg.lineTs l).1 ≠ 0 → st = .s)
              ∧ (Map.get 0 r.pkg.dir (l / 8) : BitVec 12).getLsbD 11 = true))
        ∧ (∀ pa bs, (∀ i, wr i ↔ (pa / 64 = l ∧ i = .memwr pa bs ∧ s.hostWaits pa bs.length true = none)
              ∨ ∃ who r inv ds, i = .biconflict who (.write ds) ∧ bs = ds.take 64 ∧ pa = a ∧ Map.find? s.reqs who = some r ∧ r.kind = .backInv l inv
                ∧ r.answered = false) →
          ∀ i, wr i →
            (s.windowOwner pa bs.length = none → ∃ r, exec i s = .next r ∧ SameSeen (m .refused []) r)
            ∧ (∀ t, s.windowOwner pa bs.length = some t → ∃ r, exec i s = .next r ∧ SameSeen ((m .done []).putBytes .dev pa bs) r))))
    ∧ (∀ who r l inv op, Map.find? s.reqs who = some r → r.kind = .backInv l inv →
      ((r.answered = true ∨ s.carries l = false) → (∀ data, exec (.birsp who data) s = .next s) ∧ exec (.biconflict who op) s = .next s)
      ∧ (r.answered = false → s.carries l = true →
        (∀ data : Option (List Byte), ∃ t, exec (.birsp who data) s = .next t
          ∧ SameSeen ({ s with pkg := { s.pkg with hostLines := if inv then Map.del s.pkg.hostLines l else Map.put s.pkg.hostLines l .s }
                               reqs := if 2 ^ 60 ≤ who then Map.del s.reqs who else Map.put s.reqs who { r with answered := true } }.putBytes .dev (64 * l) ((data.getD []).take 64)) t)
        ∧ ∃ t, exec (.biconflict who op) s = .next t ∧ t.pkg.cxlOut = s.pkg.cxlOut ++ [.biConflictAck l] ∧ t.reqs = s.reqs))
    ∧ (∀ (l : Nat) (i : Instr), l < 2 ^ 54 → (i = .snpdata l ∨ i = .snpinv l ∨ i = .snpcur l) →
      (s.carries l = false → exec i s = .next s)
      ∧ (s.carries l = true →
        ∃ t, exec i s = .next t ∧ SameSeen { s with pkg := { s.pkg with
            reply := if Map.get false s.pkg.poison (poisonKey true l) = true then ⟨.poison, []⟩ else ⟨.done, s.bytesAt .host (64 * l) 64⟩ } } t
          ∧ (∀ d, Map.find? t.pkg.rdc (rdcKey d true l) =
              (if i = .snpinv l then none else if i = .snpcur l then Map.find? s.pkg.rdc (rdcKey d true l)
                else (Map.find? s.pkg.rdc (rdcKey d true l)).map (fun x => { x with st := .s })))
          ∧ ∀ (j e k : Nat) (p : Paddock) (x : PdLine), Map.find? (s.core j).pd e = some p → Map.find? p.st k = some x → x.pa = some l → x.hh = true →
            ∃ q y, Map.find? (t.core j).pd e = some q ∧ Map.find? q.st k = some y ∧ y.dirty = 0))
    ∧ (∀ who r (excl : Bool) (key : Nat) (u : State), Map.find? s.reqs who = some r → who < 2 ^ 60 → u = { s with reqs := Map.put s.reqs who { r with answered := true } } →
      (∀ l own, r.kind = .hostLine l own → key = rdcKey (whoDie who) true l →
        ((r.answered = true ∨ s.carries l = false) → exec (.hostCacheResponse who excl) s = .next s)
        ∧ (r.answered = false → s.carries l = true → ∀ (st : Mesi) (own' : Nat) (ways : DWord), st = (if own then .m else if excl then .e else .s) →
          own' = (s.owner true (64 * l) 64).getD 0 → ways = (s.ten own').ways →
          ∃ t, exec (.hostCacheResponse who excl) s = .next t ∧ SameSeen u t
            ∧ ((own = true ∨ ∀ e ∈ s.pkg.rdc, e.1 % 2 ^ 54 = l → e.1 / 2 ^ 54 % 2 = 1 → e.2.st ≠ .m) →
              (∀ x, Map.find? s.pkg.rdc key = some x → Map.find? t.pkg.rdc key = some { x with st := st, lease := s.leaseFor who })
              ∧ (Map.find? s.pkg.rdc key = none → s.rdcTakes (whoDie who) true l 0 = true →
                ∃ w, ways.getLsbD (16 + w) = true ∧ w < 16 ∧ Map.find? t.pkg.rdc key = some ⟨st, s.leaseFor who, w, own'⟩)
              ∧ (s.rdcTakes (whoDie who) true l 0 = false → t.pkg.rdc = s.pkg.rdc)
              ∧ (ways.toNat / 2 ^ 16 % 2 ^ 16 ≠ 0 → (∀ k, s.carries k = true) → (∀ k, s.stuckAt k = false) → s.rdcTakes (whoDie who) true l 0 = true))))
      ∧ (∀ l, r.kind = .hostU l →
        ((r.answered = true ∨ s.carries l = false) → exec (.hostCacheResponse who excl) s = .next s)
        ∧ (r.answered = false → s.carries l = true → ∃ t, exec (.hostCacheResponse who excl) s = .next t ∧ SameSeen u t)))
    ∧ exec .cxlPortDown s = .next { s with pkg := { s.pkg with port1Up := false } } ∧ exec .cxlPortUp s = .next { s with pkg := { s.pkg with port1Up := !s.pkg.minMode } })
  ∧ (∀ s : State,
    (∀ (fn ix code : Nat) (m : List Byte → State → State), fn < 18 → (∀ bs r, m bs r = { r with pkg := { r.pkg with doe := Map.put r.pkg.doe fn bs } }) →
      ∀ opened : Prop, (opened ↔ (fn ≠ 17 ∧ s.portOpen 0 = true) ∨ (fn = 17 ∧ s.portOpen 1 = true ∧ s.pkg.minMode = false)) →
      ((¬opened ∨ Map.find? s.pkg.doe fn ≠ none) → exec (.doeDiscovery fn ix) s = .next s ∧ exec (.spdmRequest fn code) s = .next s
        ∧ exec (.getMeasurements fn ix) s = .next s)
      ∧ (opened → Map.find? s.pkg.doe fn = none → ∀ up : State → State, (∀ r : State, up r = { r with freeCtr := r.freeCtr + 1 }) →
        (∀ n, n = (if fn = 0 ∨ fn = 17 then 3 else 2) →
          (ix < n → exec (.doeDiscovery fn ix) s = .next (m [1, 0, BitVec.ofNat 8 ix, if ix + 1 < n then BitVec.ofNat 8 (ix + 1) else 0] s))
          ∧ (n ≤ ix → exec (.doeDiscovery fn ix) s = .next (m [255, 255, 0, 0] s)))
        ∧ ((code < 256 ∨ fn = 0 ∨ fn = 17) → exec (.spdmRequest fn code) s = .next (m (Config.spdmAnswer fn code) s))
        ∧ (256 ≤ code → fn ≠ 0 → fn ≠ 17 → exec (.spdmRequest fn code) s = .next s)
        ∧ (∀ t, t ≤ 16 → ix = 0x80 + t →
          ((fn = 0 ∨ fn = t) → ∃ r, exec (.snapshotRequest t) s = .next r ∧ exec (.getMeasurements fn ix) s
            = .next (m (s.measureAnswer [measureBlock ix (s.recordNow t)]) (up r)))
          ∧ (fn ≠ 0 → fn ≠ t → exec (.getMeasurements fn ix) s = .next (m (s.measureAnswer []) (up s))))
        ∧ (ix = 0xFF → fn ≠ 0 → fn ≤ 16 → ∃ r, exec (.snapshotRequest fn) s = .next r
          ∧ exec (.getMeasurements fn ix) s
            = .next (m (s.measureAnswer (Config.firmwareBlocks fn ix ++ [measureBlock (0x80 + fn) (s.recordNow fn)])) (up r)))
        ∧ (ix = 0x7F → fn = 0 → ∃ bs, exec (.getMeasurements fn ix) s = .next (m (s.measureAnswer [measureBlock ix bs]) (up s)) ∧ bs.length = 8 ∧ leVal (bs.drop 4) = s.pkg.boots.toNat
          ∧ (s.pkg.stage < 2 ^ 4 → s.pkg.fails < 2 ^ 2 → s.pkg.reason < 2 ^ 8 → leVal (bs.take 4) = s.pkg.stage + (if s.pkg.ready then 2 ^ 4 else 0)
              + (if s.pkg.minMode then 2 ^ 5 else 0) + 2 ^ 6 * s.pkg.fails + 2 ^ 8 * s.pkg.reason))))
    ∧ (∀ (p : Fin 2) (key : DWord) (fn : Nat), fn = (if p = 0 then 0 else 17) →
      ((Map.find? s.pkg.doe fn ≠ none ∨ (fn = 17 ∧ s.pkg.minMode = true)) → exec (.ideKm p key) s = .next s)
      ∧ (Map.find? s.pkg.doe fn = none → (fn = 17 → s.pkg.minMode = false) → (∀ t e, e ∈ (s.ten t).msix → e.2.pending = false) → exec (.ideKm p key) s = .next { s with pkg := { s.pkg with
          ideKeyed := Map.put s.pkg.ideKeyed p.val true, ideSecure := Map.put s.pkg.ideSecure p.val true, ideEver := Map.put s.pkg.ideEver p.val true
          doe := Map.put s.pkg.doe fn (Config.spdmAnswer fn (0xE1 * 256)) } }))
    ∧ (∀ p : Fin 2, (Map.get false s.pkg.ideKeyed p.val = false → exec (.ideIntegrityFail p) s = .next s)
      ∧ (Map.get false s.pkg.ideKeyed p.val = true → ∃ t, exec (.ideIntegrityFail p) s = .next t
        ∧ t = { s with pkg := { s.pkg with ideSecure := Map.put s.pkg.ideSecure p.val false } }
        ∧ (Map.get false s.pkg.ideEver p.val = true → t.portOpen p.val = false))))

/-- The control pages (R6, R202, R232, R259, R261, R324, R335 to R343, R352, R353): a readable and writable register reads back the bits it has of what is
written, read-only and reserved offsets ignore writes, write-only ones read 0, command registers do what their event does, and BAR0 takes
naturally aligned accesses of 4 or 8 bytes only, through an open port 0 (R332); a write to the reserved half of a command register does nothing. -/
def Obligations.ControlPages : Prop :=
  ∀ (s : State) (fn off : Nat) (v : DWord), fn < 17 → off % 8 = 0 →
    (s.portOpen 0 = false → exec (.registerWrite fn off v) s = .next s) ∧ (s.portOpen 0 = true →
    (∀ mask : Nat, (off, mask) ∈ [(0x100, 2 ^ 52 - 2 ^ 12), (0x108, 0x1FFFFF1F), (0x118, 2 ^ 32 - 1), (0x138, 2 ^ 60 - 2 ^ 16), (0x148, 2 ^ 52 - 2 ^ 12),
          (0x180, 2 ^ 52 - 2 ^ 14), (0x1A0, 2 ^ 52 - 2 ^ 16), (0x1A8, 2 ^ 32 - 1), (0x1C0, 15)]
        ∨ (fn = 0 ∧ ((off, mask) ∈ [(0xC20, 2 ^ 60 - 2 ^ 12), (0xC50, 255), (0xC58, 4095), (0xD98, 0xFFF1F)]
          ∨ (0x808 ≤ off ∧ off < 0x910 ∧ off % 16 = 8 ∧ mask = 4095) ∨ (0xA00 ≤ off ∧ off < 0xAC0 ∧ mask = 1023)
          ∨ (0x1000 ≤ off ∧ off < 0x2000 ∧ mask = 0x3FFFF0003FFFF))) →
      ∃ t, exec (.registerWrite fn off v) s = .next t ∧ t.regRead fn off = v &&& BitVec.ofNat 64 mask
        ∧ t.parts = s.parts ∧ t.mem = s.mem ∧ t.faults = s.faults)
    ∧ ((off < 0x80 ∨ off ∈ [0x110, 0x128, 0x130, 0x190, 0x1B8, 0x1C8, 0x1D0, 0x1E0, 0x1F0] ∨ (0x200 ≤ off ∧ off < 0x300) ∨ (0x400 ≤ off ∧ off < 0x800)
        ∨ (off = 0x910) ∨ (0xB00 ≤ off ∧ off < 0xC20) ∨ off ∈ [0xC30, 0xC40, 0xC48, 0xD90] ∨ (0xD00 ≤ off ∧ off < 0xD90) ∨ (fn ≠ 0 ∧ 0x800 ≤ off)) →
      exec (.registerWrite fn off v) s = .next s)
    ∧ (off ∈ [0x120, 0x188, 0x1B0] ∨ 0xF10 ≤ off ∧ off < 0x1000 ∨ off = 0xC28 → s.regRead fn off = 0)
    ∧ (∀ i : Instr, ((off = 0x140 ∧ i = .rvk fn v) ∨ (off = 0x1B0 ∧ i = .reclass fn (v.setWidth 2))
          ∨ (fn = 0 ∧ ((off = 0xAC0 ∧ i = .thcfgWrite v) ∨ (off = 0xC28 ∧ i = .windowLoad (v.toNat % 2 ^ 5))
            ∨ (0x800 ≤ off ∧ off < 0x910 ∧ off % 16 = 0 ∧ i = .wayMaskWrite ((off - 0x800) / 16) v)
            ∨ (0xE00 ≤ off ∧ off < 0xF10 ∧ off % 16 = 0 ∧ i = .tpartWrite ((off - 0xE00) / 16) v)
            ∨ (0xE00 ≤ off ∧ off < 0xF10 ∧ off % 16 = 8 ∧ i = .tpolWrite ((off - 0xE00) / 16) v)))
          ∨ (off = 0x120 ∧ v.toNat / 2 ^ 32 % 2 ^ 2 = 0 ∧ i = .replayRetry fn (v.setWidth 32) (v.getLsbD 34))
          ∨ (off = 0x120 ∧ v.toNat / 2 ^ 32 % 2 ^ 2 = 1 ∧ i = .replaySkip fn (v.setWidth 32) (v.getLsbD 34))
          ∨ (off = 0x120 ∧ v.toNat / 2 ^ 32 % 2 ^ 2 = 2 ∧ i = .replayKill fn (v.setWidth 32) (v.getLsbD 34))) →
      ∃ t, exec (.registerWrite fn off v) s = .next t ∧ exec i s = .next t)
    ∧ (off = 0x188 → ∀ op rg, op = v.toNat / 2 ^ 8 % 2 ^ 2 → rg = v.toNat % 2 ^ 8 →
      (op = 3 → exec (.registerWrite fn off v) s = .next s)
      ∧ (op ≠ 3 → (s.ten fn).rgBusy = true → exec (.registerWrite fn off v) s = .next (s.modTen fn (fun y => { y with rgLost := true })))
      ∧ (op ≠ 3 → (s.ten fn).rgBusy = false → ∃ t, exec (.registerWrite fn off v) s = .next t ∧ (t.ten fn).rgBusy = true ∧ (t.ten fn).rgLost = false
        ∧ (t.ten fn).rgLrg = rg ∧ (t.ten fn).rgCmd = op + 1
        ∧ (∀ r, op = 2 → Map.find? (s.ten fn).regs rg = some r → s.regionTargeted fn rg = false →
            Map.find? (t.ten fn).regs rg = some { r with retiring := true })))
    ∧ (∀ (x size : Nat) (lim : Nat), lim = (if fn = 0 then 0x2000 else 0x1000) → ∀ m : ReplySt → List Byte → State → State,
      (∀ st bs r, m st bs r = { r with pkg := { r.pkg with reply := ⟨st, bs⟩ } }) →
      (∀ w, s.portOpen 0 = false → exec (.barAccess fn x size w v) s = .next s) ∧ (s.portOpen 0 = true →
      (∀ w, lim ≤ x → exec (.barAccess fn x size w v) s = .next (m .unsupported [] s))
      ∧ (∀ w, x < lim → ((size ≠ 4 ∧ size ≠ 8) ∨ x % size ≠ 0) → exec (.barAccess fn x size w v) s = .next (m .done (List.replicate size 255) s))
      ∧ (off < lim → exec (.barAccess fn off 8 false v) s = .next (m .done (leBytes 8 (s.regRead fn off).toNat) s)
        ∧ exec (.barAccess fn off 4 false v) s = .next (m .done (leBytes 4 ((s.regRead fn off).toNat % 2 ^ 32)) s)
        ∧ exec (.barAccess fn (off + 4) 4 false v) s = .next (m .done (leBytes 4 ((s.regRead fn off).toNat / 2 ^ 32)) s)
        ∧ (off ∈ [0x188, 0x1B0, 0xC28] → exec (.barAccess fn (off + 4) 4 true v) s = .next (m .done [] s))
        ∧ ∀ t, exec (.registerWrite fn off v) s = .next t → exec (.barAccess fn off 8 true v) s = .next (m .done [] t)))))

/-! ### Tenants -/

/-- TPART and TPOL give quads, bays and barrier objects unless a check of R336 or R340 discards the write with its WHY; a quad on which nothing runs passes
zeroed (R23, R336), its core and quad barrier objects with it. A window load is refused with WHY 4 or 5, else BUSY until its table is read and copies are flushed, and then every translation is STALE
(R338). A revocation makes the translations of one 64 KiB unit STALE (R339). A meter record (R344) has the layout of R344, is chained by SHA-384 and counted whether or not it is written, and with EN = 1 it goes to slot SEQ mod N, after
which LAST names it, is written later where its home is waited for, and is dropped where its page is not mapped; PINB grows by the bytes of the bound windows (R342). The hash and the signature are named functions. -/
def Obligations.TenantsAndMeters : Prop :=
  (∀ (s : State) (t : Nat) (v : DWord) (no : Nat → State), t < 17 →
    (∀ why, no why = { s with pkg := { s.pkg with pstatErr := true, pstatTen := t, pstatWhy := why } }) →
    (∀ bad1 bad2 : Prop,
      (bad1 ↔ ∃ i, i < 32 ∧ ((v.getLsbD i = true ∧ ∃ u, u < 17 ∧ u ≠ t ∧ (s.ten u).quads.getLsbD i = true)
        ∨ (v.getLsbD i = true ∧ (s.ten t).quads.getLsbD i = false ∧ Map.get 0 s.pkg.quadOwner i ≠ t ∧ s.quadBusy i = true)
        ∨ (v.getLsbD i = false ∧ (s.ten t).quads.getLsbD i = true ∧ ∃ e ∈ s.parts, e.1 / 32 = i ∧ e.1 % 2 = 1 ∧ e.2.inIter = true))) →
      (bad2 ↔ ∃ i u, i < 32 ∧ u < 17 ∧ u ≠ t ∧ v.getLsbD (32 + i) = true ∧ (s.ten u).bays.getLsbD i = true) →
      (bad1 → exec (.tpartWrite t v) s = .next (no 1)) ∧ (¬bad1 → bad2 → exec (.tpartWrite t v) s = .next (no 2))
      ∧ (¬bad1 → ¬bad2 → ∃ r, exec (.tpartWrite t v) s = .next r ∧ (r.ten t).quads.toNat = v.toNat % 2 ^ 32 ∧ (r.ten t).bays.toNat = v.toNat / 2 ^ 32
        ∧ r.pkg.pstatErr = false ∧ (∀ u, u ≠ t → r.ten u = s.ten u) ∧ r.mem = s.mem
        ∧ (∀ key, (∃ i, i < 32 ∧ barOfQuad i key = true ∧ v.getLsbD i = true ∧ (s.ten t).quads.getLsbD i = false ∧ s.quadBusy i = false) →
            Map.find? r.bars key = none)
        ∧ (∀ key, (∀ i, i < 32 → barOfQuad i key = true → ¬(v.getLsbD i = true ∧ (s.ten t).quads.getLsbD i = false ∧ s.quadBusy i = false)) →
            Map.find? r.bars key = Map.find? s.bars key)
        ∧ ∀ i c, i < 32 → c / 4 = i →
          (v.getLsbD i = true → (s.ten t).quads.getLsbD i = false → s.quadBusy i = false →
            Map.get 0 r.pkg.quadOwner i = t ∧ (r.core c).spad = [] ∧ (r.core c).tiles = [] ∧ (r.core c).wbuf = [] ∧ (r.core c).empties = [])
          ∧ (¬(v.getLsbD i = true ∧ (s.ten t).quads.getLsbD i = false ∧ s.quadBusy i = false) →
            Map.get 0 r.pkg.quadOwner i = Map.get 0 s.pkg.quadOwner i ∧ r.core c = s.core c)))
    ∧ (∀ (w : DWord) (tooMany : Prop), w = v &&& 0x7FFFFFFD →
      (tooMany ↔ 32 < s.polSum t w (fun p => p.toNat / 2 ^ 12 % 2 ^ 6) ∨ 32 < s.polSum t w (fun p => p.toNat / 2 ^ 18 % 2 ^ 6)
        ∨ 64 < s.polSum t w (fun p => if p.toNat / 2 ^ 2 % 2 ^ 10 = s.pkg.pkgid.toNat then p.toNat / 2 ^ 24 % 2 ^ 7 else 0)) →
      ((tooMany ∨ ∃ key ∈ s.takenAway t w, s.barInUse key = true) → exec (.tpolWrite t v) s = .next (no 3))
      ∧ (¬tooMany → (∀ key ∈ s.takenAway t w, s.barInUse key = false) → ∃ r, exec (.tpolWrite t v) s = .next r ∧ (r.ten t).pol = w ∧ r.pkg.pstatErr = false
        ∧ (∀ u, u ≠ t → r.ten u = s.ten u) ∧ (∀ key, key ∉ s.takenAway t w → Map.find? r.bars key = Map.find? s.bars key)
        ∧ (∀ key, key ∈ s.takenAway t w → Map.find? r.bars key = none ∧ ∀ k ph, (r.part k).joinedAt key ph = false)))
    ∧ ((s.pkg.winBusy ≠ none → exec (.windowLoad t) s = .next (no 5))
      ∧ (∀ (e : Nat → Nat) (ws : List Window),
        (∀ w, e w = s.valAt .dev (s.pkg.wintab.toNat / 2 ^ 12 % 2 ^ 48 * 2 ^ 12 + 64 * t + 8 * w) 8) →
        ws = ((List.range 8).filter (fun w => e w % 2 == 1)).map (fun w => ⟨(e w).testBit 1, e w / 2 ^ 4 % 2 ^ 30 * 2 ^ 30, e w / 2 ^ 34 % 2 ^ 30 + 1⟩) →
        ∀ took : State, (s.windowsBad t ws = true → took = { s with pkg := { (no 4).pkg with winBusy := none, winDue := false, winNew := [] } }) →
        (s.windowsBad t ws = false → took = { s with pkg := { s.pkg with
            winBusy := some t, winDue := false, winNew := ws, pstatErr := false, pstatTen := 0, pstatWhy := 0 } }) →
        (s.pkg.winBusy = none →
          (∀ m, s.tableWaits t = some m → exec (.windowLoad t) s = .next { m with pkg := { m.pkg with
            winBusy := some t, winDue := true, pstatErr := false, pstatTen := 0, pstatWhy := 0 } })
          ∧ (s.tableWaits t = none → exec (.windowLoad t) s = .next took))
        ∧ (s.pkg.winBusy = some t → s.pkg.winDue = true →
          (∀ m, s.tableWaits t = some m → exec .windowLoadComplete s = .next m)
          ∧ (s.tableWaits t = none → exec .windowLoadComplete s = .next took))
        ∧ (∀ l, l = (s.pkg.wintab.toNat / 2 ^ 12 % 2 ^ 48 * 2 ^ 12 + 64 * t) / 64 → s.stuckAt l = false → s.lineHome l → s.tableWaits t = none)))
    ∧ (s.pkg.winBusy = some t → s.pkg.winDue = false →
      (∀ e ∈ s.pkg.hostLines, winHas (s.ten t).wins false e.1 = true → winHas s.pkg.winNew false e.1 = true) →
      (∀ l, winHas (s.ten t).wins false l = true → winHas s.pkg.winNew false l = false → s.stuckAt l = false) →
      (∀ l, winHas (s.ten t).wins true l = true → winHas s.pkg.winNew true l = false → s.carries l = true) →
      ∃ r, exec .windowLoadComplete s = .next r ∧ (r.ten t).wins = s.pkg.winNew ∧ r.pkg.winBusy = none ∧ r.mem = s.mem ∧ r.hostMem = s.hostMem
        ∧ ∀ k h p x, Map.find? s.parts k = some p → s.tenOf (coreOf k) = t → Map.find? p.h h = some x → x.st = .valid → x.page.vbase < 2 ^ 52 →
          ∃ q, Map.find? r.parts k = some q ∧ Map.find? q.h h = some { x with st := .stale })
    ∧ (∀ r a, (s.ten t).rvkVa = none → a = v.toNat / 2 ^ 16 % 2 ^ 36 * 2 ^ 16 → exec (.rvk t v) s = .next r →
      r = s.modTen t (fun y => { y with rvkVa := some a })
        ∧ ∃ q, exec (.revocationComplete t) r = .next q ∧ (q.ten t).rvkVa = none ∧ q.mem = s.mem ∧ q.bars = s.bars
          ∧ ∀ k h p x, Map.find? s.parts k = some p → s.tenOf (coreOf k) = t → Map.find? p.h h = some x → x.st = .valid →
            ∃ p' y, Map.find? q.parts k = some p' ∧ Map.find? p'.h h = some y
              ∧ (x.page.vbase < a + 2 ^ 16 → a < x.page.vbase + pageBytes x.page.ps → y = { x with st := .stale })
              ∧ ((a + 2 ^ 16 ≤ x.page.vbase ∨ x.page.vbase + pageBytes x.page.ps ≤ a) → y = x))
    ∧ (∃ r, exec (.rvk t v) s = .next r ∧ (r.ten t).rvkVa = some (v.toNat / 2 ^ 16 % 2 ^ 36 * 2 ^ 16) ∧ ((s.ten t).rvkVa = none → r.parts = s.parts))
    ∧ ((s.ten t).rvkVa = none → exec (.revocationComplete t) s = .next s)
    ∧ (∀ a, (s.ten t).rvkVa = some a → ∃ q, exec (.revocationComplete t) s = .next q ∧ (q.ten t).rvkVa = none ∧ q.mem = s.mem ∧ q.hostMem = s.hostMem
      ∧ q.bars = s.bars ∧ q.droves = s.droves ∧ q.cores = s.cores ∧ q.faults = s.faults ∧ (∀ u, u ≠ t → q.ten u = s.ten u)
      ∧ (∀ k, s.tenOf (coreOf k) ≠ t → Map.find? q.parts k = Map.find? s.parts k)
      ∧ ∀ k h p x, Map.find? s.parts k = some p → s.tenOf (coreOf k) = t → Map.find? p.h h = some x → x.st = .valid →
        ∃ p' y, Map.find? q.parts k = some p' ∧ Map.find? p'.h h = some y
          ∧ (x.page.vbase < a + 2 ^ 16 → a < x.page.vbase + pageBytes x.page.ps → y = { x with st := .stale })
          ∧ ((a + 2 ^ 16 ≤ x.page.vbase ∨ x.page.vbase + pageBytes x.page.ps ≤ a) → y = x)))
  ∧ (∀ (s : State) (t : Nat) (x : Tenant) (rec : List Byte) (i : Instr), t < 17 → x = s.ten t → (i = .snapshotRequest t ∨ i = .meterSnapshot t) →
    rec = s.meterRecord t →
    (rec.length = 512 ∧ leVal (rec.take 4) = 1 + 2 ^ 16 * t + 2 ^ 21 * s.pkg.pkgid.toNat ∧ leVal ((rec.drop 4).take 4) = s.pkg.boots.toNat
      ∧ leVal ((rec.drop 8).take 8) = x.snpSeq % 2 ^ 64 ∧ leVal ((rec.drop 16).take 8) = s.cycle / 1300 % 2 ^ 64 ∧ leVal ((rec.drop 24).take 8) = 0
      ∧ (∀ j, j < 16 → leVal ((rec.drop (32 + 8 * j)).take 8) = if j < 14 then (Map.get 0 x.mtr j : DWord).toNat else 0)
      ∧ (x.snpPrev.length = 48 → (rec.drop 0xA0).take 48 = x.snpPrev) ∧ (∀ j, 0x130 ≤ j → j < 512 → rec[j]? = some 0))
    ∧ (x.snpOut ≠ none → exec i s = .next s)
    ∧ (x.snpOut = none → x.snpEn = false → exec i s = .next (s.modTen t (fun y => { y with snpSeq := x.snpSeq + 1, snpPrev := sha384 (rec.take 0x130) })))
    ∧ (∀ (a : Nat) (u : State), x.snpOut = none → x.snpEn = true → a = x.snpbase.toNat / 2 ^ 12 % 2 ^ 40 * 2 ^ 12 + 512 * (x.snpSeq % 2 ^ x.snpLog) →
      u = s.modTen t (fun y => { y with snpSeq := x.snpSeq + 1, snpPrev := sha384 (rec.take 0x130), snpOut := some rec }) →
      (∀ m, u.putVa (ownReq t 2) t a rec = .ok () m → ∃ r, exec i s = .next r ∧ r.mem = m.mem ∧ r.hostMem = m.hostMem ∧ r.parts = s.parts
        ∧ (r.ten t).snpLast = BitVec.ofNat 32 x.snpSeq ∧ (r.ten t).snpSeq = x.snpSeq + 1 ∧ (r.ten t).snpPrev = sha384 (rec.take 0x130)
        ∧ (r.ten t).mtr = x.mtr ∧ (r.ten t).snpOut = none)
      ∧ (∀ w m, u.putVa (ownReq t 2) t a rec = .wait w m → exec i s = .next m)
      ∧ (s.stretches t 64 a 512 = none → (∀ b ∈ walkVas a 512, s.tablesAtHand (ownReq t 2) t b) → ∃ r, exec i s = .next r ∧ r.mem = s.mem ∧ r.hostMem = s.hostMem ∧ (r.ten t).snpSeq = x.snpSeq + 1
        ∧ (r.ten t).snpLast = x.snpLast ∧ (r.ten t).snpOut = none))
    ∧ (∃ r, exec (.pinbAccumulate t) s = .next r ∧ (Map.get 0 (r.ten t).mtr 7 : DWord).toNat
        = ((Map.get 0 x.mtr 7 : DWord).toNat + ((x.pins.filter (fun e => e.2.bnd)).map (fun e => (e.2.units + 1) * 65536)).sum) % 2 ^ 64
      ∧ (∀ j, j ≠ 7 → Map.get 0 (r.ten t).mtr j = (Map.get 0 x.mtr j : DWord)) ∧ r = s.modTen t (fun y => { y with mtr := (r.ten t).mtr })))

/-! ### Bring-up -/

/-- A cold boot runs its stages in order (R347 to R349): a failure ends it with the reason of its stage and raises FAILS to at most 3, and so does a stack that is
still at level 3 or above at stage 3 (R281); else the package is READY with its boot counted, its meters and memory zero, in full mode with FAILS 0 or in
minimal mode after three failures. What a hot stack's level is stays while power does; after a failure a new cold boot follows before anything else. RETRY clears FAILS first (R350). A stage limit and the
watchdog fail a start in progress. Without module power everything but FAILS and the counts is lost (R284). -/
def Obligations.BootStages : Prop :=
  ∀ (s : State) (x : BootIn) (good warm : Prop) (reason : Nat → Prop → Nat), (∀ n, (∀ h : Prop, h → reason n h = match n with
      | 0 => 1 | 1 => 2 | 2 => 3 | 3 => 5 | 4 => 6 | _ => 7) ∧ ∀ h : Prop, ¬h → reason n h = match n with
      | 0 => 1 | 1 => 2 | 2 => 3 | 3 => 4 | 4 => 6 | _ => 7) →
    (good ↔ s.pkg.em.toNat < 2 ^ 36 ∧ ∀ d, d < 4 → ((List.range 9).filter (fun q => s.pkg.em.getLsbD (9 * d + q))).length = 8) →
    (warm ↔ s.pkg.power = true ∧ ∃ e ∈ s.pkg.hbm, 3 ≤ e.2.lvl) →
    (∀ n why : Nat, ((x.selfTest = true ∧ n = 0 ∧ why = 8) ∨ (x.selfTest = false ∧ x.fail = some 0 ∧ n = 0 ∧ why = 1)
        ∨ (x.selfTest = false ∧ x.fail ≠ some 0 ∧ ¬good ∧ n = 0 ∧ why = 2)
        ∨ (x.selfTest = false ∧ good ∧ ∃ k, 1 ≤ k ∧ (k ≤ 3 ∨ (k ≤ 5 ∧ ¬warm)) ∧ x.fail = some k ∧ n = k - 1 ∧ why = reason k (x.hot = true ∨ warm))
        ∨ (x.selfTest = false ∧ good ∧ warm ∧ (∀ k, x.fail = some k → 3 < k) ∧ n = 2 ∧ why = 5)) →
      ∃ t, exec (.coldBoot x) s = .next t ∧ t.pkg.ready = false ∧ t.pkg.booting = true ∧ t.pkg.stage = n ∧ t.pkg.reason = why ∧ t.pkg.fails = min 3 (s.pkg.fails + 1)
        ∧ t.pkg.boots = s.pkg.boots ∧ t.pkg.minMode = (s.pkg.fails == 3) ∧ t.parts = [] ∧ t.mem = [] ∧ t.droves = [] ∧ t.faults = []
        ∧ t.pkg.hotstop = (s.pkg.power && s.pkg.hotstop)
        ∧ (∀ i y, s.pkg.power = true → Map.find? s.pkg.hbm i = some y → 3 ≤ y.lvl → (t.stack i).lvl = y.lvl ∧ (t.stack i).temp = y.temp))
    ∧ (x.selfTest = false → good → ¬warm → (∀ k, x.fail = some k → 5 < k) → ∃ t, exec (.coldBoot x) s = .next t ∧ t.pkg.ready = true ∧ t.pkg.booting = false ∧ t.pkg.stage = 7
      ∧ t.pkg.boots = s.pkg.boots + 1 ∧ t.pkg.minMode = (s.pkg.fails == 3) ∧ (s.pkg.fails ≠ 3 → t.pkg.fails = 0) ∧ (s.pkg.fails = 3 → t.pkg.fails = 3)
      ∧ t.parts = [] ∧ t.cores = [] ∧ t.tens = [] ∧ t.mem = [] ∧ t.droves = [] ∧ t.bars = [] ∧ t.faults = [] ∧ t.reqs = [] ∧ t.gts = 0 ∧ t.cycle = 0
      ∧ t.hostMem = s.hostMem ∧ t.pkg.em = s.pkg.em ∧ t.pkg.pkgid = s.pkg.pkgid ∧ t.pkg.power = true ∧ t.pkg.reason = s.pkg.reason ∧ t.pkg.hbm = []
      ∧ (s.pkg.fails ≠ 3 → t.pkg.port1Up = x.port1 ∧ ∀ p, p < 18 → (Map.get Port.reset t.pkg.ports p).up = x.llyned.getLsbD p)
      ∧ (s.pkg.fails = 3 → t.pkg.port1Up = false ∧ t.pkg.ports = []))
    ∧ exec (.bootctlRetry x) s = exec (.coldBoot x) { s with pkg := { s.pkg with fails := 0 } }
    ∧ (s.pkg.ready = true → (∀ n, exec (.bootStageTimeout n) s = .next s) ∧ exec .bootWatchdog s = .next s)
    ∧ (s.pkg.ready = false → (∀ n, n ≤ 5 → ∃ t, exec (.bootStageTimeout n) s = .next t ∧ t.pkg.fails = min 3 (s.pkg.fails + 1)
        ∧ t.pkg.stage = n - 1 ∧ t.pkg.reason = reason n warm)
      ∧ ∃ t, exec .bootWatchdog s = .next t ∧ t.pkg.fails = min 3 (s.pkg.fails + 1) ∧ t.pkg.reason = 9)
    ∧ (∃ t, exec .modulePowerRemoved s = .next t ∧ t.pkg.power = false ∧ t.mem = [] ∧ t.parts = [] ∧ t.tens = [] ∧ t.droves = []
      ∧ t.pkg.fails = s.pkg.fails ∧ t.pkg.boots = s.pkg.boots ∧ t.pkg.hbm = [] ∧ t.pkg.hotstop = false)

/-! ### The machine as a whole -/

/-- A step runs the decoded instruction. `s.picks a u`: the next step takes action `a` in `u`, the first of the agenda or the one whose turn
it is. A fetch of a strand that issues, from a mapped code page with nothing in its way, is exec of the instruction that the eight bytes at
its pc decode to, with the leaf entry accessed, the line in the L1I and the context set; where the L1I holds the line within its lease, of the word that it
holds (R264). A word that does not decode takes RESERVED_FIELD once every older instruction is complete (R65). A unit, an engine and the
shepherd run the instruction at the head of their own queue, ring and program; a message that has arrived, after the clock of its sender (R217), and an event
run as they stand. After a failed start only the new boot goes on (R349). Without
power only a cold boot does anything. -/
def Obligations.StepRunsTheInstruction : Prop :=
  ∀ (s u : State) (a : Action), s.picks a u →
    (s.pkg.power = false → (∀ b, a ≠ .event (.coldBoot b)) → step s = .fault .powerOff)
    ∧ (s.pkg.power = true → u.pkg.booting = true → duringBoot a = false → step s = .next u)
    ∧ (s.pkg.power = true → u.pkg.booting = false →
      (∀ (k : Nat) (p : PageInfo) (w : DWord) (m : State) (pc : Nat), a = .fetch k → u.issues k = true → (u.part k).ending = false →
        (u.part k).yielded = false → pc = (u.part k).pc.toNat → u.xlate (u.tenOf (coreOf k)) pc = some p → p.x = true →
        u.tablesAtHand (fetchReq k) (u.tenOf (coreOf k)) pc → u.heldBack (u.tenOf (coreOf k)) ⟨p, pc, 8⟩ = false →
        ((u.l1iWord k p.hh (p.pa pc) = some w ∧ m = u)
          ∨ (u.l1iWord k p.hh (p.pa pc) = none ∧ u.unhindered (fetchReq k) (u.tenOf (coreOf k)) [⟨p, pc, 8⟩] []
            ∧ w = BitVec.ofNat 64 (u.valAt (spaceOf p.hh) (p.pa pc) 8) ∧ m = ((u.touchLeaf p false).meterMem (u.tenOf (coreOf k)) ⟨p, pc, 8⟩ false).takeCode k p.hh (p.pa pc))) →
        (∀ i, decode w = .ok i → step s = exec i { m with ctx := ⟨k, (u.part k).seq, (u.part k).pc, w, false, 0, false, 0, none, none⟩ })
        ∧ (∀ e v, decode w = .error e → v = m.payAll k →
          ((v.part k).quiet = true → step s = .next (v.takeFault (k * 8) (.of cReserved 0) pc w [] false))
          ∧ ((v.part k).quiet = false → step s = .next v)))
      ∧ (∀ (k : Nat) (n : Fin 4) (r : Routed) (rest : List Routed), a = .unit k n → 1 ≤ n.val → (u.part k).frozen = false →
        u.stopped (k * 8 + n.val) = false → (u.part k).pend n.val = r :: rest →
        step s = exec r.instr { u with ctx := ⟨k, r.seq, r.pc, r.word, true, 0, n.val == 3 && rest.any (fun x => decide (x.seq < r.seq)), 0, none, none⟩ })
      ∧ (∀ (k : Nat) (e : Fin 4) (c : Cur) (i : Instr), a = .engine k e → (u.stopped (k * 8 + 4 + e.val) = false ∨ c.started = true) →
        ((u.part k).ring e.val).sig = none → ((u.part k).ring e.val).hold = none → u.sigStalls (coreOf k) e.val = false →
        ((u.part k).ring e.val).cur = some c → c.need = 0 →
        decodeCommand e.val (c.word :: c.ext) = .ok i → step s = exec i { u with ctx := ⟨k, 0, 0, c.word, false, e.val, false, 0, none, none⟩ })
      ∧ (∀ (c : Nat) (r : Run) (v m : State) (ws : List DWord) (i : Instr), a = .shepherd c → (u.core c).run = some r → r.fin = false → r.faulted = false →
        u.sigStalls (coreOf r.k) 3 = false →
        v = { u with ctx := ⟨r.k, 0, 0, 0, true, 3, false, 0, none, none⟩ } → ws ≠ [] →
        (((v.curOf r.k 3).latch = ws ∧ m = v)
          ∨ ((v.curOf r.k 3).latch = [] ∧ ∃ x, v.stepWords r = .ok ws x
            ∧ m = (x.endReqs (engWho r.k 3)).modCur r.k 3 (fun c => { c with latch := ws }))) →
        decodeStep ws = .ok i → step s = exec i m)
      ∧ (∀ (j : Nat) (x : Packet) (v : State), a = .msg j → u.pkg.rxQ[j]? = some x →
        v = { u with gts := serialMax u.gts x.ts, pkg := { u.pkg with rxQ := u.pkg.rxQ.eraseIdx j } } →
        (∀ i : Instr, ((∃ r, x.msg = .req r ∧ i = .remoteRequest r)
          ∨ (∃ t who tag st ts bs, x.msg = .resp t who tag st ts bs ∧ i = .remoteResponse who ⟨tag, st, ts, bs⟩)
          ∨ (∃ ten obj src d tag, x.msg = .arrive ten obj src d tag ∧ i = .podBarrierArrival ten obj ⟨src, d⟩ tag)
          ∨ (∃ ten obj phase, x.msg = .release ten obj phase ∧ i = .podBarrierRelease ten ⟨obj, phase⟩)
          ∨ (∃ ten cid src st q bs, x.msg = .data ten cid src st q bs ∧ i = .shepherdDataFlit ten cid src ⟨st, q⟩ bs)
          ∨ (∃ ten cid src, x.msg = .abort ten cid src ∧ i = .collectiveAbort ten cid src)) → step s = exec i v)
        ∧ (∀ ten obj src count tag, x.msg = .barcfg ten obj src count tag → step s = .next (v.podBarcfg ten obj src count tag))))
    ∧ (∀ i, a = .event i → isEvent i = true → (s.pkg.power = true ∨ ∃ b, i = .coldBoot b) → (u.pkg.booting = false ∨ duringBoot a = true) → step s = exec i u)

/-- Words of the spec's worked encodings decode to what they are listed as: one of each class, a command of each kind of layout and two
steps of a program; an unassigned opcode cell is ILLEGAL_INSTRUCTION and a type of 9 a reserved field. -/
def Obligations.DecodeWords : Prop :=
  decode 0x0033_0000_FFFF_FFFE = .ok (.loop 3 (.imm 0xFFFFFFFE))
    ∧ decode 0x0094_6000_4000_0000 = .ok (.bar ⟨.die, 3, 16⟩)
    ∧ decode 0x0400_52B8_1480_0000 = .ok (.ld ⟨⟨false, false, false, false⟩, .q 1, 9, some 11, .v, false, false, false, false, 5, 1, 0⟩)
    ∧ decode 0x0534_9500_0000_0100 = .ok (.adda ⟨⟨false, false, false, false⟩, .a 10, .a 10, .imm, false, 256⟩)
    ∧ decode 0x0490_00B6_2000_0008 = .ok (.sbind ⟨false, false, false, false⟩ 0 11 (some 12) (.imm 8) .w)
    ∧ decode 0x0831_0101_2500_0000 =
        .ok (.fma ⟨⟨false, false, false, false⟩, .n 3, .t 1, .t 0, .n 2, 2, true, .f32, .rne, false, 0⟩)
    ∧ decode 0x0C34_5180_0000_0000 = .ok (.red ⟨⟨false, false, false, false⟩, .w, false, false, .max, true, .i32⟩)
    ∧ decode 0x0B64_6087_F090_0000 = .ok (.illegalInstruction 0x0B64_6087_F090_0000)
    ∧ decode 0x0804_6087_F090_0000 = .error .reservedField
    ∧ decodeCommand 0 [0x0000_0400_0300_00C5, 0x8000, 0] = .ok (.mma ⟨0, 0, 0, 0⟩ ⟨5, true, 1, false⟩ 3 0x8000 0)
    ∧ decodeCommand 1 [0xA100_0400_0000_1000, 1, 2] = .ok (.copy ⟨5, 1, 0, 0⟩ 0x1000 1 2)
    ∧ decodeStep [0x0000_4800_0000_0020, 0x0000_0008_0000_0000] = .ok (.rrs ⟨0, false, 0, 0x0000_0008_0000_0000⟩ 1)
    ∧ decodeStep [0x0000_5C00_001F_FFF1] = .ok (.peer true false 0 0xFFFF 1)

/-- Decoding and encoding agree: every well-formed instruction, of whatever operands, is what its word decodes to; every command with legal WAIT
and SIGNAL bytes is what its engine reads from its words; and every step what the shepherd reads from its words. -/
def Obligations.DecodingInvertsEncoding : Prop :=
  ∀ i : Instr, i.wf = true →
    (i.isWord = true → ∃ w, encode i = [w] ∧ decode w = .ok i)
    ∧ (∀ e, i.isCommandOf e = true → decodeCommand e (encode i) = .ok i)
    ∧ (i.isStep = true → decodeStep (encode i) = .ok i)

/-- Every step keeps the memories in their one canonical form: device memory, host memory, and each core's scratchpad and weight buffer. -/
def Obligations.StepKeepsMemoryCanonical : Prop :=
  ∀ s t : State, s.memOk = true → step s = .next t → t.memOk = true

/-- The machine right after reset: its memories are in canonical form, and the registers of the control pages read as the reset columns say.
(PKGID comes from a strap: log entry 8. PTROOT, RVK, SNPBASE and SNPCTL have no reset value in the spec: log entry 4; nor have the machine's clock of S and its count of
cycles, which are the model's: log entries 2 and 7.) -/
def Obligations.Reset : Prop :=
  State.reset.memOk = true
    ∧ (∀ t off, 1 ≤ t → off < 0x800 → State.reset.regRead t off = if off = 0x108 then 0x1F000000 else 0)
    ∧ (∀ off, off < 0x800 → State.reset.regRead 0 off =
        if off = 0x108 then 0x1F000000 else if off = 0x130 then 0xFFFFFFFFFFFFFFFF else if off = 0x1D0 then 0x40404040 else 0)
    ∧ (∀ t, t ≤ 16 → State.reset.regRead 0 (0x800 + 16 * t) = (if t = 0 then 0x0000FFFFFFFFFFFF else 0)
        ∧ State.reset.regRead 0 (0xE00 + 16 * t) = (if t = 0 then 0xFFFFFFFFFFFFFFFF else 0)
        ∧ State.reset.regRead 0 (0xE08 + 16 * t) = (if t = 0 then 0x40820001 else 0))
    ∧ (∀ n, n < 24 → State.reset.regRead 0 (0xA00 + 8 * n) = 64 ∧ State.reset.regRead 0 (0xB00 + 8 * n) = 0)
    ∧ State.reset.regRead 0 0xAC0 = 0x0000008373695F55 ∧ State.reset.regRead 0 0xC58 = 3600 ∧ State.reset.regRead 0 0xD98 = 0x80010
    ∧ (∀ off, off ∈ [0x910, 0xC30, 0xC40, 0xC48, 0xC50] → State.reset.regRead 0 off = 0)
    ∧ (∀ p, p < 18 → State.reset.regRead 0 (0xD00 + 8 * p) = 0) ∧ (∀ n, n < 512 → State.reset.regRead 0 (0x1000 + 8 * n) = 0)
    ∧ State.reset.cycle = 0 ∧ State.reset.gts = 0

end
end

