-- ==== Sys2Proof/Laws/Exec.lean ====
section
/-! SUPPORT. exec on each constructor is that instruction's meaning. -/
namespace Sys2Proof.Machine

theorem exec_nop (state : State) : exec .nop state = execNop state := rfl
theorem exec_br (o : FOp) (state : State) : exec (.br o) state = execBr o state := rfl
theorem exec_brc (sense : Bool) (o : FOp) (state : State) : exec (.brc sense o) state = execBrc sense o state := rfl
theorem exec_loop (lc : Fin 8) (o : FOp) (state : State) : exec (.loop lc o) state = execLoop lc o state := rfl
theorem exec_lcset (lc : Fin 8) (o : FOp) (state : State) : exec (.lcset lc o) state = execLcset lc o state := rfl
theorem exec_call (o : FOp) (state : State) : exec (.call o) state = execCall o state := rfl
theorem exec_ret (state : State) : exec .ret state = execRet state := rfl
theorem exec_jmp (bias : Word) (state : State) : exec (.jmp bias) state = execJmp bias state := rfl
theorem exec_endIter (state : State) : exec .endIter state = execEndIter state := rfl
theorem exec_bar (r : BarRef) (state : State) : exec (.bar r) state = execBar r state := rfl
theorem exec_bara (r : BarRef) (state : State) : exec (.bara r) state = execBara r state := rfl
theorem exec_barw (r : BarRef) (state : State) : exec (.barw r) state = execBarw r state := rfl
theorem exec_barcfg (r : BarRef) (count : BitVec 21) (state : State) : exec (.barcfg r count) state = execBarcfg r count state := rfl
theorem exec_barrot (st : Word) (state : State) : exec (.barrot st) state = execBarrot st state := rfl
theorem exec_fence (sc : Scope) (kinds : BitVec 5) (state : State) : exec (.fence sc kinds) state = execFence sc kinds state := rfl
theorem exec_waitev (ev : Fin 16) (thr : Word) (state : State) : exec (.waitev ev thr) state = execWaitev ev thr state := rfl
theorem exec_evclr (ev : Fin 16) (state : State) : exec (.evclr ev) state = execEvclr ev state := rfl
theorem exec_launch (sc : Scope) (off : Word) (state : State) : exec (.launch sc off) state = execLaunch sc off state := rfl
theorem exec_yieldTurn (state : State) : exec .yieldTurn state = execYieldTurn state := rfl
theorem exec_trap (code : Word) (state : State) : exec (.trap code) state = execTrap code state := rfl
theorem exec_sleep (cycles : Word) (state : State) : exec (.sleep cycles) state = execSleep cycles state := rfl
theorem exec_halt (code : Word) (state : State) : exec (.halt code) state = execHalt code state := rfl
theorem exec_ld (o : LdArgs) (state : State) : exec (.ld o) state = execLd o state := rfl
theorem exec_ldx (o : LdArgs) (state : State) : exec (.ldx o) state = execLdx o state := rfl
theorem exec_lds (tk : Tk) (dst : ADst) (sn : Fin 8) (state : State) : exec (.lds tk dst sn) state = execLds tk dst sn state := rfl
theorem exec_sa (o : SaArgs) (state : State) : exec (.sa o) state = execSa o state := rfl
theorem exec_sax (o : SaArgs) (state : State) : exec (.sax o) state = execSax o state := rfl
theorem exec_pft (o : PftArgs) (state : State) : exec (.pft o) state = execPft o state := rfl
theorem exec_xlt (tk : Tk) (h : Fin 32) (ra : Fin 16) (state : State) : exec (.xlt tk h ra) state = execXlt tk h ra state := rfl
theorem exec_hdrop (tk : Tk) (h : Fin 32) (state : State) : exec (.hdrop tk h) state = execHdrop tk h state := rfl
theorem exec_hqry (tk : Tk) (dst : ADst) (h : Fin 32) (state : State) : exec (.hqry tk dst h) state = execHqry tk dst h state := rfl
theorem exec_sbind (tk : Tk) (sn : Fin 8) (ra : Fin 16) (rs : Option (Fin 16)) (cnt : Cnt) (sz : Size) (state : State) : exec (.sbind tk sn ra rs cnt sz) state = execSbind tk sn ra rs cnt sz state := rfl
theorem exec_sskip (tk : Tk) (sn : Fin 8) (cnt : Cnt) (state : State) : exec (.sskip tk sn cnt) state = execSskip tk sn cnt state := rfl
theorem exec_sfree (tk : Tk) (sn : Fin 8) (state : State) : exec (.sfree tk sn) state = execSfree tk sn state := rfl
theorem exec_pdbind (tk : Tk) (pd : Fin 64) (rs : Fin 16) (rg : Fin 16) (lines : BitVec 28) (state : State) : exec (.pdbind tk pd rs rg lines) state = execPdbind tk pd rs rg lines state := rfl
theorem exec_pdflush (tk : Tk) (pd : Fin 64) (state : State) : exec (.pdflush tk pd) state = execPdflush tk pd state := rfl
theorem exec_pdunbind (tk : Tk) (pd : Fin 64) (state : State) : exec (.pdunbind tk pd) state = execPdunbind tk pd state := rfl
theorem exec_feset (tk : Tk) (n : Fin 64) (base : Option (Fin 16)) (off : BitVec 28) (state : State) : exec (.feset tk n base off) state = execFeset tk n base off state := rfl
theorem exec_feclr (tk : Tk) (n : Fin 64) (base : Option (Fin 16)) (off : BitVec 28) (state : State) : exec (.feclr tk n base off) state = execFeclr tk n base off state := rfl
theorem exec_fetest (tk : Tk) (dst : ADst) (base : Option (Fin 16)) (off : BitVec 28) (state : State) : exec (.fetest tk dst base off) state = execFetest tk dst base off state := rfl
theorem exec_tkw (tk : Tk) (eng : Fin 4) (cnt : BitVec 28) (state : State) : exec (.tkw tk eng cnt) state = execTkw tk eng cnt state := rfl
theorem exec_adda (o : AaArgs) (state : State) : exec (.adda o) state = execAdda o state := rfl
theorem exec_suba (o : AaArgs) (state : State) : exec (.suba o) state = execSuba o state := rfl
theorem exec_mula (o : AaArgs) (state : State) : exec (.mula o) state = execMula o state := rfl
theorem exec_mada (o : AaArgs) (state : State) : exec (.mada o) state = execMada o state := rfl
theorem exec_shla (o : AaArgs) (state : State) : exec (.shla o) state = execShla o state := rfl
theorem exec_shra (o : AaArgs) (state : State) : exec (.shra o) state = execShra o state := rfl
theorem exec_anda (o : AaArgs) (state : State) : exec (.anda o) state = execAnda o state := rfl
theorem exec_ora (o : AaArgs) (state : State) : exec (.ora o) state = execOra o state := rfl
theorem exec_xora (o : AaArgs) (state : State) : exec (.xora o) state = execXora o state := rfl
theorem exec_mina (o : AaArgs) (state : State) : exec (.mina o) state = execMina o state := rfl
theorem exec_maxa (o : AaArgs) (state : State) : exec (.maxa o) state = execMaxa o state := rfl
theorem exec_lia (o : AaArgs) (state : State) : exec (.lia o) state = execLia o state := rfl
theorem exec_liha (o : AaArgs) (state : State) : exec (.liha o) state = execLiha o state := rfl
theorem exec_mova (o : AaArgs) (state : State) : exec (.mova o) state = execMova o state := rfl
theorem exec_ctlr (tk : Tk) (dst : ADst) (ix : Fin 8) (state : State) : exec (.ctlr tk dst ix) state = execCtlr tk dst ix state := rfl
theorem exec_ctlw (tk : Tk) (ix : Fin 8) (src : Option (Fin 16)) (state : State) : exec (.ctlw tk ix src) state = execCtlw tk ix src state := rfl
theorem exec_fadd (o : XArgs) (state : State) : exec (.fadd o) state = execFadd o state := rfl
theorem exec_fsub (o : XArgs) (state : State) : exec (.fsub o) state = execFsub o state := rfl
theorem exec_fmul (o : XArgs) (state : State) : exec (.fmul o) state = execFmul o state := rfl
theorem exec_fma (o : XArgs) (state : State) : exec (.fma o) state = execFma o state := rfl
theorem exec_fnma (o : XArgs) (state : State) : exec (.fnma o) state = execFnma o state := rfl
theorem exec_fmin (o : XArgs) (state : State) : exec (.fmin o) state = execFmin o state := rfl
theorem exec_fmax (o : XArgs) (state : State) : exec (.fmax o) state = execFmax o state := rfl
theorem exec_fsgn (o : XArgs) (state : State) : exec (.fsgn o) state = execFsgn o state := rfl
theorem exec_fcmp (o : XArgs) (state : State) : exec (.fcmp o) state = execFcmp o state := rfl
theorem exec_frcp (o : XArgs) (state : State) : exec (.frcp o) state = execFrcp o state := rfl
theorem exec_frsq (o : XArgs) (state : State) : exec (.frsq o) state = execFrsq o state := rfl
theorem exec_fsqrt (o : XArgs) (state : State) : exec (.fsqrt o) state = execFsqrt o state := rfl
theorem exec_fexp2 (o : XArgs) (state : State) : exec (.fexp2 o) state = execFexp2 o state := rfl
theorem exec_flog2 (o : XArgs) (state : State) : exec (.flog2 o) state = execFlog2 o state := rfl
theorem exec_fcvt (o : XArgs) (state : State) : exec (.fcvt o) state = execFcvt o state := rfl
theorem exec_frnd (o : XArgs) (state : State) : exec (.frnd o) state = execFrnd o state := rfl
theorem exec_iadd (o : XArgs) (state : State) : exec (.iadd o) state = execIadd o state := rfl
theorem exec_isub (o : XArgs) (state : State) : exec (.isub o) state = execIsub o state := rfl
theorem exec_imul (o : XArgs) (state : State) : exec (.imul o) state = execImul o state := rfl
theorem exec_imulh (o : XArgs) (state : State) : exec (.imulh o) state = execImulh o state := rfl
theorem exec_imad (o : XArgs) (state : State) : exec (.imad o) state = execImad o state := rfl
theorem exec_imin (o : XArgs) (state : State) : exec (.imin o) state = execImin o state := rfl
theorem exec_imax (o : XArgs) (state : State) : exec (.imax o) state = execImax o state := rfl
theorem exec_iabs (o : XArgs) (state : State) : exec (.iabs o) state = execIabs o state := rfl
theorem exec_ishl (o : XArgs) (state : State) : exec (.ishl o) state = execIshl o state := rfl
theorem exec_ishr (o : XArgs) (state : State) : exec (.ishr o) state = execIshr o state := rfl
theorem exec_and (o : XArgs) (state : State) : exec (.and o) state = execAnd o state := rfl
theorem exec_or (o : XArgs) (state : State) : exec (.or o) state = execOr o state := rfl
theorem exec_xor (o : XArgs) (state : State) : exec (.xor o) state = execXor o state := rfl
theorem exec_andn (o : XArgs) (state : State) : exec (.andn o) state = execAndn o state := rfl
theorem exec_popc (o : XArgs) (state : State) : exec (.popc o) state = execPopc o state := rfl
theorem exec_clz (o : XArgs) (state : State) : exec (.clz o) state = execClz o state := rfl
theorem exec_icmp (o : XArgs) (state : State) : exec (.icmp o) state = execIcmp o state := rfl
theorem exec_qmul (o : XArgs) (state : State) : exec (.qmul o) state = execQmul o state := rfl
theorem exec_qmad (o : XArgs) (state : State) : exec (.qmad o) state = execQmad o state := rfl
theorem exec_bpack (o : XArgs) (state : State) : exec (.bpack o) state = execBpack o state := rfl
theorem exec_bunpk (o : XArgs) (state : State) : exec (.bunpk o) state = execBunpk o state := rfl
theorem exec_mov (o : XArgs) (state : State) : exec (.mov o) state = execMov o state := rfl
theorem exec_sel (o : XArgs) (state : State) : exec (.sel o) state = execSel o state := rfl
theorem exec_shfl (o : XArgs) (state : State) : exec (.shfl o) state = execShfl o state := rfl
theorem exec_bcast (o : XArgs) (state : State) : exec (.bcast o) state = execBcast o state := rfl
theorem exec_slide (o : XArgs) (state : State) : exec (.slide o) state = execSlide o state := rfl
theorem exec_ins (o : XArgs) (state : State) : exec (.ins o) state = execIns o state := rfl
theorem exec_ext (o : XArgs) (state : State) : exec (.ext o) state = execExt o state := rfl
theorem exec_rsum (o : XArgs) (state : State) : exec (.rsum o) state = execRsum o state := rfl
theorem exec_rmax (o : XArgs) (state : State) : exec (.rmax o) state = execRmax o state := rfl
theorem exec_rmin (o : XArgs) (state : State) : exec (.rmin o) state = execRmin o state := rfl
theorem exec_scan (o : XArgs) (state : State) : exec (.scan o) state = execScan o state := rfl
theorem exec_plog (o : XArgs) (state : State) : exec (.plog o) state = execPlog o state := rfl
theorem exec_pset (o : XArgs) (state : State) : exec (.pset o) state = execPset o state := rfl
theorem exec_pcnt (o : XArgs) (state : State) : exec (.pcnt o) state = execPcnt o state := rfl
theorem exec_accrd (o : XArgs) (state : State) : exec (.accrd o) state = execAccrd o state := rfl
theorem exec_flgrd (o : XArgs) (state : State) : exec (.flgrd o) state = execFlgrd o state := rfl
theorem exec_flgclr (o : XArgs) (state : State) : exec (.flgclr o) state = execFlgclr o state := rfl
theorem exec_st (o : StArgs) (state : State) : exec (.st o) state = execSt o state := rfl
theorem exec_stf (o : StArgs) (state : State) : exec (.stf o) state = execStf o state := rfl
theorem exec_stx (o : StArgs) (state : State) : exec (.stx o) state = execStx o state := rfl
theorem exec_red (o : RedArgs) (state : State) : exec (.red o) state = execRed o state := rfl
theorem exec_smp (o : SmpArgs) (state : State) : exec (.smp o) state = execSmp o state := rfl
theorem exec_tick (tk : Tk) (ev : Fin 16) (sc : Scope) (rg : BitVec 16) (state : State) : exec (.tick tk ev sc rg) state = execTick tk ev sc rg state := rfl
theorem exec_enq (tk : Tk) (eng : Fin 4) (cnt : Fin 32) (state : State) : exec (.enq tk eng cnt) state = execEnq tk eng cnt state := rfl
theorem exec_enqm (tk : Tk) (eng : Fin 4) (cnt : Fin 32) (state : State) : exec (.enqm tk eng cnt) state = execEnqm tk eng cnt state := rfl
theorem exec_fmtq (tk : Tk) (imm : Word) (state : State) : exec (.fmtq tk imm) state = execFmtq tk imm state := rfl
theorem exec_tks (tk : Tk) (eng : Fin 4) (cnt : Fin 32) (state : State) : exec (.tks tk eng cnt) state = execTks tk eng cnt state := rfl
theorem exec_mma (hd : Hdr) (t : TileOp) (kb : BitVec 8) (e0 : DWord) (e1 : DWord) (state : State) : exec (.mma hd t kb e0 e1) state = execMma hd t kb e0 e1 state := rfl
theorem exec_drain (hd : Hdr) (t : TileOp) (za : Bool) (dst : DWord) (exp : DWord) (state : State) : exec (.drain hd t za dst exp) state = execDrain hd t za dst exp state := rfl
theorem exec_accld (hd : Hdr) (t : TileOp) (src : DWord) (state : State) : exec (.accld hd t src) state = execAccld hd t src state := rfl
theorem exec_accz (hd : Hdr) (t : TileOp) (state : State) : exec (.accz hd t) state = execAccz hd t state := rfl
theorem exec_wbld (hd : Hdr) (off : BitVec 21) (len : BitVec 21) (src : DWord) (state : State) : exec (.wbld hd off len src) state = execWbld hd off len src state := rfl
theorem exec_copy (hd : Hdr) (len : BitVec 40) (src : DWord) (dst : DWord) (state : State) : exec (.copy hd len src dst) state = execCopy hd len src dst state := rfl
theorem exec_copyn (hd : Hdr) (esz : Fin 4) (ndim : Fin 4) (x : CopynExt) (state : State) : exec (.copyn hd esz ndim x) state = execCopyn hd esz ndim x state := rfl
theorem exec_fill (hd : Hdr) (len : BitVec 40) (dst : DWord) (pat : DWord) (state : State) : exec (.fill hd len dst pat) state = execFill hd len dst pat state := rfl
theorem exec_acw (hd : Hdr) (aop : Fin 16) (cs : Bool) (len : BitVec 36) (src : DWord) (dst : DWord) (state : State) : exec (.acw hd aop cs len src dst) state = execAcw hd aop cs len src dst state := rfl
theorem exec_amo (hd : Hdr) (aop : Fin 16) (d : Bool) (tgt : DWord) (operand : DWord) (comparand : DWord) (state : State) : exec (.amo hd aop d tgt operand comparand) state = execAmo hd aop d tgt operand comparand state := rfl
theorem exec_pftt (hd : Hdr) (len : BitVec 40) (bo : Bool) (addr : DWord) (bar : DWord) (state : State) : exec (.pftt hd len bo addr bar) state = execPftt hd len bo addr bar state := rfl
theorem exec_pin (hd : Hdr) (win : Fin 16) (units : BitVec 16) (base : DWord) (state : State) : exec (.pin hd win units base) state = execPin hd win units base state := rfl
theorem exec_unpin (hd : Hdr) (win : Fin 16) (state : State) : exec (.unpin hd win) state = execUnpin hd win state := rfl
theorem exec_mrgSet (hd : Hdr) (g : Fin 64) (tgt : Bool) (target : DWord) (lim : DWord) (counter : DWord) (state : State) : exec (.mrgSet hd g tgt target lim counter) state = execMrgSet hd g tgt target lim counter state := rfl
theorem exec_mrgOpen (hd : Hdr) (g : Fin 64) (contrib : BitVec 10) (seq : BitVec 16) (tiles : BitVec 8) (bt : DWord) (state : State) : exec (.mrgOpen hd g contrib seq tiles bt) state = execMrgOpen hd g contrib seq tiles bt state := rfl
theorem exec_bayGrant (die : Nat) (state : State) : exec (.bayGrant die) state = execBayGrant die state := rfl
theorem exec_mrgDep (hd : Hdr) (tile : BitVec 8) (src : DWord) (state : State) : exec (.mrgDep hd tile src) state = execMrgDep hd tile src state := rfl
theorem exec_mrgClose (hd : Hdr) (ev : Fin 16) (even : Bool) (state : State) : exec (.mrgClose hd ev even) state = execMrgClose hd ev even state := rfl
theorem exec_lotAbandon (k : Nat) (state : State) : exec (.lotAbandon k) state = execLotAbandon k state := rfl
theorem exec_flag (hd : Hdr) (d : Bool) (sys : Bool) (tgt : DWord) (val : DWord) (state : State) : exec (.flag hd d sys tgt val) state = execFlag hd d sys tgt val state := rfl
theorem exec_resume (hd : Hdr) (rec : DWord) (state : State) : exec (.resume hd rec) state = execResume hd rec state := rfl
theorem exec_gath (hd : Hdr) (n : BitVec 16) (rw : BitVec 16) (out : Bool) (idx : DWord) (base : DWord) (stride : DWord) (dst : DWord) (state : State) : exec (.gath hd n rw out idx base stride dst) state = execGath hd n rw out idx base stride dst state := rfl
theorem exec_scat (hd : Hdr) (n : BitVec 16) (rw : BitVec 16) (idx : DWord) (base : DWord) (stride : DWord) (src : DWord) (state : State) : exec (.scat hd n rw idx base stride src) state = execScat hd n rw idx base stride src state := rfl
theorem exec_scata (hd : Hdr) (n : BitVec 16) (rw : BitVec 16) (aop : Fin 4) (idx : DWord) (base : DWord) (stride : DWord) (src : DWord) (state : State) : exec (.scata hd n rw aop idx base stride src) state = execScata hd n rw aop idx base stride src state := rfl
theorem exec_embag (hd : Hdr) (nb : BitVec 16) (rw : BitVec 16) (idx : DWord) (base : DWord) (stride : DWord) (offs : DWord) (dst : DWord) (state : State) : exec (.embag hd nb rw idx base stride offs dst) state = execEmbag hd nb rw idx base stride offs dst state := rfl
theorem exec_run (hd : Hdr) (out : Bool) (x : RunExt) (state : State) : exec (.run hd out x) state = execRun hd out x state := rfl
theorem exec_send (o : StepOp) (state : State) : exec (.send o) state = execSend o state := rfl
theorem exec_recv (o : StepOp) (state : State) : exec (.recv o) state = execRecv o state := rfl
theorem exec_rrs (o : StepOp) (rop : BitVec 2) (state : State) : exec (.rrs o rop) state = execRrs o rop state := rfl
theorem exec_rrw (o : StepOp) (rop : BitVec 2) (dbf : Fin 4) (df : BitVec 4) (rm : Rm) (ext1 : DWord) (state : State) : exec (.rrw o rop dbf df rm ext1) state = execRrw o rop dbf df rm ext1 state := rfl
theorem exec_rcpy (o : StepOp) (state : State) : exec (.rcpy o) state = execRcpy o state := rfl
theorem exec_kWait (state : State) : exec .kWait state = execKWait state := rfl
theorem exec_kLoop (kc : Fin 4) (ext : DWord) (state : State) : exec (.kLoop kc ext) state = execKLoop kc ext state := rfl
theorem exec_peer (recv : Bool) (sk : Bool) (kc : Fin 4) (delta : BitVec 16) (stride : BitVec 16) (state : State) : exec (.peer recv sk kc delta stride) state = execPeer recv sk kc delta stride state := rfl
theorem exec_barc (state : State) : exec .barc state = execBarc state := rfl
theorem exec_endp (state : State) : exec .endp state = execEndp state := rfl
theorem exec_notify (hd : Hdr) (ev : Fin 16) (part : BitVec 4) (state : State) : exec (.notify hd ev part) state = execNotify hd ev part state := rfl
theorem exec_engineNop (hd : Hdr) (state : State) : exec (.engineNop hd) state = execEngineNop hd state := rfl
theorem exec_arrayLeaseTurn (core : Nat) (state : State) : exec (.arrayLeaseTurn core) state = execArrayLeaseTurn core state := rfl
theorem exec_translationComplete (k : Nat) (h : Fin 32) (state : State) : exec (.translationComplete k h) state = execTranslationComplete k h state := rfl
theorem exec_sleepExpire (k : Nat) (state : State) : exec (.sleepExpire k) state = execSleepExpire k state := rfl
theorem exec_watchdog (k : Nat) (unit : Fin 4) (state : State) : exec (.watchdog k unit) state = execWatchdog k unit state := rfl
theorem exec_ptsAdvance (k : Nat) (state : State) : exec (.ptsAdvance k) state = execPtsAdvance k state := rfl
theorem exec_clockCatchup (state : State) : exec .clockCatchup state = execClockCatchup state := rfl
theorem exec_readLeaseExpiry (core : Nat) (line : Nat) (state : State) : exec (.readLeaseExpiry core line) state = execReadLeaseExpiry core line state := rfl
theorem exec_faultRecordWrite (ten : Nat) (state : State) : exec (.faultRecordWrite ten) state = execFaultRecordWrite ten state := rfl
theorem exec_replayRetry (ten : Nat) (seq : Word) (one : Bool) (state : State) : exec (.replayRetry ten seq one) state = execReplayRetry ten seq one state := rfl
theorem exec_replaySkip (ten : Nat) (seq : Word) (one : Bool) (state : State) : exec (.replaySkip ten seq one) state = execReplaySkip ten seq one state := rfl
theorem exec_replayKill (ten : Nat) (seq : Word) (one : Bool) (state : State) : exec (.replayKill ten seq one) state = execReplayKill ten seq one state := rfl
theorem exec_droveValidate (d : Nat) (state : State) : exec (.droveValidate d) state = execDroveValidate d state := rfl
theorem exec_droveWaitMet (d : Nat) (state : State) : exec (.droveWaitMet d) state = execDroveWaitMet d state := rfl
theorem exec_iterationHandout (d : Nat) (strand : Nat) (state : State) : exec (.iterationHandout d strand) state = execIterationHandout d strand state := rfl
theorem exec_preempt (strand : Nat) (state : State) : exec (.preempt strand) state = execPreempt strand state := rfl
theorem exec_partitionResume (strand : Nat) (state : State) : exec (.partitionResume strand) state = execPartitionResume strand state := rfl
theorem exec_planeDiffRecord (core : Nat) (part : Bool) (off : Nat) (data : PlanePiece) (d : Nat) (state : State) : exec (.planeDiffRecord core part off data d) state = execPlaneDiffRecord core part off data d state := rfl
theorem exec_planeSwap (core : Nat) (part : Bool) (d : Nat) (state : State) : exec (.planeSwap core part d) state = execPlaneSwap core part d state := rfl
theorem exec_droveComplete (d : Nat) (state : State) : exec (.droveComplete d) state = execDroveComplete d state := rfl
theorem exec_chainFollow (ten : Nat) (c : Fin 8) (state : State) : exec (.chainFollow ten c) state = execChainFollow ten c state := rfl
theorem exec_tickSweep (chan : Nat) (state : State) : exec (.tickSweep chan) state = execTickSweep chan state := rfl
theorem exec_sampleAccumulate (ten : Nat) (rg : Nat) (cell : Nat) (x : Word) (state : State) : exec (.sampleAccumulate ten rg cell x) state = execSampleAccumulate ten rg cell x state := rfl
theorem exec_autoSatnRewrite (ten : Nat) (rg : Nat) (state : State) : exec (.autoSatnRewrite ten rg) state = execAutoSatnRewrite ten rg state := rfl
theorem exec_regionRegister (ten : Nat) (rg : Nat) (state : State) : exec (.regionRegister ten rg) state = execRegionRegister ten rg state := rfl
theorem exec_regionCoef (ten : Nat) (rg : Nat) (state : State) : exec (.regionCoef ten rg) state = execRegionCoef ten rg state := rfl
theorem exec_regionRetire (ten : Nat) (rg : Nat) (state : State) : exec (.regionRetire ten rg) state = execRegionRetire ten rg state := rfl
theorem exec_regionCommandDone (ten : Nat) (state : State) : exec (.regionCommandDone ten) state = execRegionCommandDone ten state := rfl
theorem exec_homeRequest (r : HomeReq) (state : State) : exec (.homeRequest r) state = execHomeRequest r state := rfl
theorem exec_reclass (ten : Nat) (cl : BitVec 2) (state : State) : exec (.reclass ten cl) state = execReclass ten cl state := rfl
theorem exec_reclassComplete (ten : Nat) (state : State) : exec (.reclassComplete ten) state = execReclassComplete ten state := rfl
theorem exec_pinFadePeriod (ten : Nat) (state : State) : exec (.pinFadePeriod ten) state = execPinFadePeriod ten state := rfl
theorem exec_wayMaskWrite (ten : Nat) (v : DWord) (state : State) : exec (.wayMaskWrite ten v) state = execWayMaskWrite ten v state := rfl
theorem exec_wayMaskComplete (state : State) : exec .wayMaskComplete state = execWayMaskComplete state := rfl
theorem exec_thermalSample (rs : List Reading) (state : State) : exec (.thermalSample rs) state = execThermalSample rs state := rfl
theorem exec_thcfgWrite (v : DWord) (state : State) : exec (.thcfgWrite v) state = execThcfgWrite v state := rfl
theorem exec_bankIdlePrecharge (chan : Nat) (bank : Nat) (queued : Bool) (state : State) : exec (.bankIdlePrecharge chan bank queued) state = execBankIdlePrecharge chan bank queued state := rfl
theorem exec_forecastUpdate (state : State) : exec .forecastUpdate state = execForecastUpdate state := rfl
theorem exec_llynedFlitReceive (port : Fin 18) (seq : Nat) (m : Option Packet) (state : State) : exec (.llynedFlitReceive port seq m) state = execLlynedFlitReceive port seq m state := rfl
theorem exec_llynedReplayRequest (port : Fin 18) (seq : Nat) (state : State) : exec (.llynedReplayRequest port seq) state = execLlynedReplayRequest port seq state := rfl
theorem exec_portDown (port : Fin 18) (state : State) : exec (.portDown port) state = execPortDown port state := rfl
theorem exec_portUp (port : Fin 18) (nbr : BitVec 10) (state : State) : exec (.portUp port nbr) state = execPortUp port nbr state := rfl
theorem exec_remoteRequest (r : RemoteReq) (state : State) : exec (.remoteRequest r) state = execRemoteRequest r state := rfl
theorem exec_remoteResponse (who : Nat) (a : Answer) (state : State) : exec (.remoteResponse who a) state = execRemoteResponse who a state := rfl
theorem exec_fabricTimeout (who : Nat) (state : State) : exec (.fabricTimeout who) state = execFabricTimeout who state := rfl
theorem exec_podBarrierArrival (ten : Nat) (obj : Nat) (src : Arriver) (tag : Word) (state : State) : exec (.podBarrierArrival ten obj src tag) state = execPodBarrierArrival ten obj src tag state := rfl
theorem exec_podBarrierRelease (ten : Nat) (obj : PodPhase) (state : State) : exec (.podBarrierRelease ten obj) state = execPodBarrierRelease ten obj state := rfl
theorem exec_shepherdDataFlit (ten : Nat) (cid : Nat) (src : Nat) (seq : FlitNo) (data : List Byte) (state : State) : exec (.shepherdDataFlit ten cid src seq data) state = execShepherdDataFlit ten cid src seq data state := rfl
theorem exec_collectiveAbort (ten : Nat) (cid : Nat) (src : Nat) (state : State) : exec (.collectiveAbort ten cid src) state = execCollectiveAbort ten cid src state := rfl
theorem exec_memrd (pa : Nat) (state : State) : exec (.memrd pa) state = execMemrd pa state := rfl
theorem exec_memwr (pa : Nat) (data : List Byte) (state : State) : exec (.memwr pa data) state = execMemwr pa data state := rfl
theorem exec_birsp (who : Nat) (data : Option (List Byte)) (state : State) : exec (.birsp who data) state = execBirsp who data state := rfl
theorem exec_biconflict (who : Nat) (op : MemOp) (state : State) : exec (.biconflict who op) state = execBiconflict who op state := rfl
theorem exec_snpdata (line : Nat) (state : State) : exec (.snpdata line) state = execSnpdata line state := rfl
theorem exec_snpinv (line : Nat) (state : State) : exec (.snpinv line) state = execSnpinv line state := rfl
theorem exec_snpcur (line : Nat) (state : State) : exec (.snpcur line) state = execSnpcur line state := rfl
theorem exec_hostCacheResponse (who : Nat) (excl : Bool) (state : State) : exec (.hostCacheResponse who excl) state = execHostCacheResponse who excl state := rfl
theorem exec_barAccess (fn : Nat) (off : Nat) (size : Nat) (write : Bool) (v : DWord) (state : State) : exec (.barAccess fn off size write v) state = execBarAccess fn off size write v state := rfl
theorem exec_doeDiscovery (fn : Nat) (ix : Nat) (state : State) : exec (.doeDiscovery fn ix) state = execDoeDiscovery fn ix state := rfl
theorem exec_spdmRequest (fn : Nat) (code : Nat) (state : State) : exec (.spdmRequest fn code) state = execSpdmRequest fn code state := rfl
theorem exec_getMeasurements (fn : Nat) (ix : Nat) (state : State) : exec (.getMeasurements fn ix) state = execGetMeasurements fn ix state := rfl
theorem exec_ideKm (port : Fin 2) (key : DWord) (state : State) : exec (.ideKm port key) state = execIdeKm port key state := rfl
theorem exec_ideIntegrityFail (port : Fin 2) (state : State) : exec (.ideIntegrityFail port) state = execIdeIntegrityFail port state := rfl
theorem exec_tpartWrite (t : Nat) (v : DWord) (state : State) : exec (.tpartWrite t v) state = execTpartWrite t v state := rfl
theorem exec_tpolWrite (t : Nat) (v : DWord) (state : State) : exec (.tpolWrite t v) state = execTpolWrite t v state := rfl
theorem exec_windowLoad (t : Nat) (state : State) : exec (.windowLoad t) state = execWindowLoad t state := rfl
theorem exec_windowLoadComplete (state : State) : exec .windowLoadComplete state = execWindowLoadComplete state := rfl
theorem exec_rvk (ten : Nat) (va : DWord) (state : State) : exec (.rvk ten va) state = execRvk ten va state := rfl
theorem exec_chainEnable (ten : Nat) (c : Fin 8) (state : State) : exec (.chainEnable ten c) state = execChainEnable ten c state := rfl
theorem exec_snapshotRequest (ten : Nat) (state : State) : exec (.snapshotRequest ten) state = execSnapshotRequest ten state := rfl
theorem exec_meterSnapshot (ten : Nat) (state : State) : exec (.meterSnapshot ten) state = execMeterSnapshot ten state := rfl
theorem exec_pinbAccumulate (ten : Nat) (state : State) : exec (.pinbAccumulate ten) state = execPinbAccumulate ten state := rfl
theorem exec_powerCapThrottle (watts : Nat) (state : State) : exec (.powerCapThrottle watts) state = execPowerCapThrottle watts state := rfl
theorem exec_coldBoot (x : BootIn) (state : State) : exec (.coldBoot x) state = execColdBoot x state := rfl
theorem exec_bootStageTimeout (stage : Nat) (state : State) : exec (.bootStageTimeout stage) state = execBootStageTimeout stage state := rfl
theorem exec_bootWatchdog (state : State) : exec .bootWatchdog state = execBootWatchdog state := rfl
theorem exec_bootctlRetry (x : BootIn) (state : State) : exec (.bootctlRetry x) state = execBootctlRetry x state := rfl
theorem exec_registerWrite (fn : Nat) (off : Nat) (v : DWord) (state : State) : exec (.registerWrite fn off v) state = execRegisterWrite fn off v state := rfl
theorem exec_illegalInstruction (w : DWord) (state : State) : exec (.illegalInstruction w) state = execIllegalInstruction w state := rfl
theorem exec_unassignedCommandCode (w : DWord) (state : State) : exec (.unassignedCommandCode w) state = execUnassignedCommandCode w state := rfl
theorem exec_cxlPortDown (state : State) : exec .cxlPortDown state = execCxlPortDown state := rfl
theorem exec_cxlPortUp (state : State) : exec .cxlPortUp state = execCxlPortUp state := rfl
theorem exec_refresh (chan : Nat) (banks : List Nat) (state : State) : exec (.refresh chan banks) state = execRefresh chan banks state := rfl
theorem exec_modulePowerRemoved (state : State) : exec .modulePowerRemoved state = execModulePowerRemoved state := rfl
theorem exec_revocationComplete (ten : Nat) (state : State) : exec (.revocationComplete ten) state = execRevocationComplete ten state := rfl

end Sys2Proof.Machine
end

