-- ==== Sys2Proof/Laws/Maps.lean ====
section
/-! SUPPORT. Laws of finite maps: reading after writing or removing a key, for any list, sorted or not. -/
namespace Sys2Proof.Machine

variable {α : Type}

@[simp] theorem find_nil (k : Nat) : Map.find? ([] : Map α) k = none := rfl

@[simp] theorem find_put_same (m : Map α) (k : Nat) (v : α) : Map.find? (Map.put m k v) k = some v := by
  induction m with
  | nil => simp [Map.put, Map.find?]
  | cons e m ih =>
    obtain ⟨j, w⟩ := e
    rcases lt_trichotomy k j with h | h | h
    · simp [Map.put, Map.find?, h, h.ne]
    · simp [Map.put, Map.find?, h]
    · simp [Map.put, Map.find?, h.ne', h.not_gt, ih]

theorem find_put_other (m : Map α) {k j : Nat} (v : α) (h : j ≠ k) : Map.find? (Map.put m k v) j = Map.find? m j := by
  induction m with
  | nil => simp [Map.put, Map.find?, h]
  | cons e m ih =>
    obtain ⟨i, w⟩ := e
    rcases lt_trichotomy k i with g | g | g
    · simp [Map.put, Map.find?, g, g.ne, h]
    · subst g; simp [Map.put, Map.find?, h]
    · simp [Map.put, Map.find?, g.ne', g.not_gt, ih]

theorem find_put (m : Map α) (k j : Nat) (v : α) : Map.find? (Map.put m k v) j = if j = k then some v else Map.find? m j := by
  by_cases h : j = k
  · subst h; simp
  · simp [h, find_put_other m v h]

theorem get_put (d : α) (m : Map α) (k j : Nat) (v : α) : Map.get d (Map.put m k v) j = if j = k then v else Map.get d m j := by
  unfold Map.get; rw [find_put]; by_cases h : j = k <;> simp [h]

@[simp] theorem get_put_same (d : α) (m : Map α) (k : Nat) (v : α) : Map.get d (Map.put m k v) k = v := by simp [get_put]

theorem get_put_other (d : α) (m : Map α) {k j : Nat} (v : α) (h : j ≠ k) : Map.get d (Map.put m k v) j = Map.get d m j := by
  simp [get_put, h]

@[simp] theorem put_put (m : Map α) (k : Nat) (v w : α) : Map.put (Map.put m k v) k w = Map.put m k w := by
  induction m with
  | nil => simp [Map.put]
  | cons e m ih =>
    obtain ⟨j, x⟩ := e
    rcases lt_trichotomy k j with h | h | h
    · simp [Map.put, h, h.ne]
    · simp [Map.put, h]
    · simp [Map.put, h.ne', h.not_gt, ih]

@[simp] theorem find_del_same (m : Map α) (k : Nat) : Map.find? (Map.del m k) k = none := by
  induction m with
  | nil => rfl
  | cons e m ih =>
    obtain ⟨j, w⟩ := e
    by_cases h : k = j
    · simp [Map.del, h]; rw [h] at ih; exact ih
    · simp [Map.del, Map.find?, h, ih]

theorem find_del_other (m : Map α) {k j : Nat} (h : j ≠ k) : Map.find? (Map.del m k) j = Map.find? m j := by
  induction m with
  | nil => rfl
  | cons e m ih =>
    obtain ⟨i, w⟩ := e
    by_cases g : k = i
    · subst g; simp [Map.del, Map.find?, h, ih]
    · simp [Map.del, Map.find?, g, ih]

@[simp] theorem get_del_same (d : α) (m : Map α) (k : Nat) : Map.get d (Map.del m k) k = d := by simp [Map.get]

theorem get_del_other (d : α) (m : Map α) {k j : Nat} (h : j ≠ k) : Map.get d (Map.del m k) j = Map.get d m j := by
  simp [Map.get, find_del_other m h]

/-- A value a map gives is its default or one it lists. -/
theorem get_mem (d : α) (m : Map α) (k : Nat) : Map.get d m k = d ∨ (k, Map.get d m k) ∈ m := by
  induction m with
  | nil => left; rfl
  | cons e m ih =>
    obtain ⟨j, w⟩ := e
    by_cases h : k = j
    · subst h; right; simp [Map.get, Map.find?]
    · simp only [Map.get, Map.find?, h, if_false] at ih ⊢
      rcases ih with ih | ih
      · left; exact ih
      · right; exact List.mem_cons_of_mem _ ih

/-- What holds of all listed values and of a new one holds after a write. -/
theorem put_all (P : α → Prop) (m : Map α) (k : Nat) (v : α) (hm : ∀ e ∈ m, P e.2) (hv : P v) : ∀ e ∈ Map.put m k v, P e.2 := by
  induction m with
  | nil => simpa [Map.put] using hv
  | cons e m ih =>
    obtain ⟨j, w⟩ := e
    have hw := hm (j, w) (by simp)
    have ht : ∀ e ∈ m, P e.2 := fun e he => hm e (List.mem_cons_of_mem _ he)
    unfold Map.put
    split
    · simpa [hv] using ht
    · split
      · simpa [hv, hw] using ht
      · simpa [hw] using ih ht

end Sys2Proof.Machine
end

