-- ==== Sys2Proof/Laws/State.lean ====
section
/-! SUPPORT. Laws of State: what each update leaves of every field, and what a read after it gives. -/
namespace Sys2Proof.Machine

@[simp] theorem setPart_cores (s : State) (k : Nat) (p : Part) : (s.setPart k p).cores = s.cores := rfl
@[simp] theorem setPart_tens (s : State) (k : Nat) (p : Part) : (s.setPart k p).tens = s.tens := rfl
@[simp] theorem setPart_pkg (s : State) (k : Nat) (p : Part) : (s.setPart k p).pkg = s.pkg := rfl
@[simp] theorem setPart_droves (s : State) (k : Nat) (p : Part) : (s.setPart k p).droves = s.droves := rfl
@[simp] theorem setPart_nextDrove (s : State) (k : Nat) (p : Part) : (s.setPart k p).nextDrove = s.nextDrove := rfl
@[simp] theorem setPart_nextIter (s : State) (k : Nat) (p : Part) : (s.setPart k p).nextIter = s.nextIter := rfl
@[simp] theorem setPart_bars (s : State) (k : Nat) (p : Part) : (s.setPart k p).bars = s.bars := rfl
@[simp] theorem setPart_faults (s : State) (k : Nat) (p : Part) : (s.setPart k p).faults = s.faults := rfl
@[simp] theorem setPart_nextRec (s : State) (k : Nat) (p : Part) : (s.setPart k p).nextRec = s.nextRec := rfl
@[simp] theorem setPart_reqs (s : State) (k : Nat) (p : Part) : (s.setPart k p).reqs = s.reqs := rfl
@[simp] theorem setPart_mem (s : State) (k : Nat) (p : Part) : (s.setPart k p).mem = s.mem := rfl
@[simp] theorem setPart_hostMem (s : State) (k : Nat) (p : Part) : (s.setPart k p).hostMem = s.hostMem := rfl
@[simp] theorem setPart_gts (s : State) (k : Nat) (p : Part) : (s.setPart k p).gts = s.gts := rfl
@[simp] theorem setPart_cycle (s : State) (k : Nat) (p : Part) : (s.setPart k p).cycle = s.cycle := rfl
@[simp] theorem setPart_freeCtr (s : State) (k : Nat) (p : Part) : (s.setPart k p).freeCtr = s.freeCtr := rfl
@[simp] theorem setPart_budget (s : State) (k : Nat) (p : Part) : (s.setPart k p).budget = s.budget := rfl
@[simp] theorem setPart_ctx (s : State) (k : Nat) (p : Part) : (s.setPart k p).ctx = s.ctx := rfl
@[simp] theorem setPart_agenda (s : State) (k : Nat) (p : Part) : (s.setPart k p).agenda = s.agenda := rfl
@[simp] theorem setPart_turn (s : State) (k : Nat) (p : Part) : (s.setPart k p).turn = s.turn := rfl

@[simp] theorem modPart_cores (s : State) (k : Nat) (f : Part → Part) : (s.modPart k f).cores = s.cores := rfl
@[simp] theorem modPart_tens (s : State) (k : Nat) (f : Part → Part) : (s.modPart k f).tens = s.tens := rfl
@[simp] theorem modPart_pkg (s : State) (k : Nat) (f : Part → Part) : (s.modPart k f).pkg = s.pkg := rfl
@[simp] theorem modPart_droves (s : State) (k : Nat) (f : Part → Part) : (s.modPart k f).droves = s.droves := rfl
@[simp] theorem modPart_nextDrove (s : State) (k : Nat) (f : Part → Part) : (s.modPart k f).nextDrove = s.nextDrove := rfl
@[simp] theorem modPart_nextIter (s : State) (k : Nat) (f : Part → Part) : (s.modPart k f).nextIter = s.nextIter := rfl
@[simp] theorem modPart_bars (s : State) (k : Nat) (f : Part → Part) : (s.modPart k f).bars = s.bars := rfl
@[simp] theorem modPart_faults (s : State) (k : Nat) (f : Part → Part) : (s.modPart k f).faults = s.faults := rfl
@[simp] theorem modPart_nextRec (s : State) (k : Nat) (f : Part → Part) : (s.modPart k f).nextRec = s.nextRec := rfl
@[simp] theorem modPart_reqs (s : State) (k : Nat) (f : Part → Part) : (s.modPart k f).reqs = s.reqs := rfl
@[simp] theorem modPart_mem (s : State) (k : Nat) (f : Part → Part) : (s.modPart k f).mem = s.mem := rfl
@[simp] theorem modPart_hostMem (s : State) (k : Nat) (f : Part → Part) : (s.modPart k f).hostMem = s.hostMem := rfl
@[simp] theorem modPart_gts (s : State) (k : Nat) (f : Part → Part) : (s.modPart k f).gts = s.gts := rfl
@[simp] theorem modPart_cycle (s : State) (k : Nat) (f : Part → Part) : (s.modPart k f).cycle = s.cycle := rfl
@[simp] theorem modPart_freeCtr (s : State) (k : Nat) (f : Part → Part) : (s.modPart k f).freeCtr = s.freeCtr := rfl
@[simp] theorem modPart_budget (s : State) (k : Nat) (f : Part → Part) : (s.modPart k f).budget = s.budget := rfl
@[simp] theorem modPart_ctx (s : State) (k : Nat) (f : Part → Part) : (s.modPart k f).ctx = s.ctx := rfl
@[simp] theorem modPart_agenda (s : State) (k : Nat) (f : Part → Part) : (s.modPart k f).agenda = s.agenda := rfl
@[simp] theorem modPart_turn (s : State) (k : Nat) (f : Part → Part) : (s.modPart k f).turn = s.turn := rfl

@[simp] theorem setCore_parts (s : State) (c : Nat) (x : Core) : (s.setCore c x).parts = s.parts := rfl
@[simp] theorem setCore_tens (s : State) (c : Nat) (x : Core) : (s.setCore c x).tens = s.tens := rfl
@[simp] theorem setCore_pkg (s : State) (c : Nat) (x : Core) : (s.setCore c x).pkg = s.pkg := rfl
@[simp] theorem setCore_droves (s : State) (c : Nat) (x : Core) : (s.setCore c x).droves = s.droves := rfl
@[simp] theorem setCore_nextDrove (s : State) (c : Nat) (x : Core) : (s.setCore c x).nextDrove = s.nextDrove := rfl
@[simp] theorem setCore_nextIter (s : State) (c : Nat) (x : Core) : (s.setCore c x).nextIter = s.nextIter := rfl
@[simp] theorem setCore_bars (s : State) (c : Nat) (x : Core) : (s.setCore c x).bars = s.bars := rfl
@[simp] theorem setCore_faults (s : State) (c : Nat) (x : Core) : (s.setCore c x).faults = s.faults := rfl
@[simp] theorem setCore_nextRec (s : State) (c : Nat) (x : Core) : (s.setCore c x).nextRec = s.nextRec := rfl
@[simp] theorem setCore_reqs (s : State) (c : Nat) (x : Core) : (s.setCore c x).reqs = s.reqs := rfl
@[simp] theorem setCore_mem (s : State) (c : Nat) (x : Core) : (s.setCore c x).mem = s.mem := rfl
@[simp] theorem setCore_hostMem (s : State) (c : Nat) (x : Core) : (s.setCore c x).hostMem = s.hostMem := rfl
@[simp] theorem setCore_gts (s : State) (c : Nat) (x : Core) : (s.setCore c x).gts = s.gts := rfl
@[simp] theorem setCore_cycle (s : State) (c : Nat) (x : Core) : (s.setCore c x).cycle = s.cycle := rfl
@[simp] theorem setCore_freeCtr (s : State) (c : Nat) (x : Core) : (s.setCore c x).freeCtr = s.freeCtr := rfl
@[simp] theorem setCore_budget (s : State) (c : Nat) (x : Core) : (s.setCore c x).budget = s.budget := rfl
@[simp] theorem setCore_ctx (s : State) (c : Nat) (x : Core) : (s.setCore c x).ctx = s.ctx := rfl
@[simp] theorem setCore_agenda (s : State) (c : Nat) (x : Core) : (s.setCore c x).agenda = s.agenda := rfl
@[simp] theorem setCore_turn (s : State) (c : Nat) (x : Core) : (s.setCore c x).turn = s.turn := rfl

@[simp] theorem modCore_parts (s : State) (c : Nat) (f : Core → Core) : (s.modCore c f).parts = s.parts := rfl
@[simp] theorem modCore_tens (s : State) (c : Nat) (f : Core → Core) : (s.modCore c f).tens = s.tens := rfl
@[simp] theorem modCore_pkg (s : State) (c : Nat) (f : Core → Core) : (s.modCore c f).pkg = s.pkg := rfl
@[simp] theorem modCore_droves (s : State) (c : Nat) (f : Core → Core) : (s.modCore c f).droves = s.droves := rfl
@[simp] theorem modCore_nextDrove (s : State) (c : Nat) (f : Core → Core) : (s.modCore c f).nextDrove = s.nextDrove := rfl
@[simp] theorem modCore_nextIter (s : State) (c : Nat) (f : Core → Core) : (s.modCore c f).nextIter = s.nextIter := rfl
@[simp] theorem modCore_bars (s : State) (c : Nat) (f : Core → Core) : (s.modCore c f).bars = s.bars := rfl
@[simp] theorem modCore_faults (s : State) (c : Nat) (f : Core → Core) : (s.modCore c f).faults = s.faults := rfl
@[simp] theorem modCore_nextRec (s : State) (c : Nat) (f : Core → Core) : (s.modCore c f).nextRec = s.nextRec := rfl
@[simp] theorem modCore_reqs (s : State) (c : Nat) (f : Core → Core) : (s.modCore c f).reqs = s.reqs := rfl
@[simp] theorem modCore_mem (s : State) (c : Nat) (f : Core → Core) : (s.modCore c f).mem = s.mem := rfl
@[simp] theorem modCore_hostMem (s : State) (c : Nat) (f : Core → Core) : (s.modCore c f).hostMem = s.hostMem := rfl
@[simp] theorem modCore_gts (s : State) (c : Nat) (f : Core → Core) : (s.modCore c f).gts = s.gts := rfl
@[simp] theorem modCore_cycle (s : State) (c : Nat) (f : Core → Core) : (s.modCore c f).cycle = s.cycle := rfl
@[simp] theorem modCore_freeCtr (s : State) (c : Nat) (f : Core → Core) : (s.modCore c f).freeCtr = s.freeCtr := rfl
@[simp] theorem modCore_budget (s : State) (c : Nat) (f : Core → Core) : (s.modCore c f).budget = s.budget := rfl
@[simp] theorem modCore_ctx (s : State) (c : Nat) (f : Core → Core) : (s.modCore c f).ctx = s.ctx := rfl
@[simp] theorem modCore_agenda (s : State) (c : Nat) (f : Core → Core) : (s.modCore c f).agenda = s.agenda := rfl
@[simp] theorem modCore_turn (s : State) (c : Nat) (f : Core → Core) : (s.modCore c f).turn = s.turn := rfl

@[simp] theorem setTen_parts (s : State) (t : Nat) (x : Tenant) : (s.setTen t x).parts = s.parts := rfl
@[simp] theorem setTen_cores (s : State) (t : Nat) (x : Tenant) : (s.setTen t x).cores = s.cores := rfl
@[simp] theorem setTen_pkg (s : State) (t : Nat) (x : Tenant) : (s.setTen t x).pkg = s.pkg := rfl
@[simp] theorem setTen_droves (s : State) (t : Nat) (x : Tenant) : (s.setTen t x).droves = s.droves := rfl
@[simp] theorem setTen_nextDrove (s : State) (t : Nat) (x : Tenant) : (s.setTen t x).nextDrove = s.nextDrove := rfl
@[simp] theorem setTen_nextIter (s : State) (t : Nat) (x : Tenant) : (s.setTen t x).nextIter = s.nextIter := rfl
@[simp] theorem setTen_bars (s : State) (t : Nat) (x : Tenant) : (s.setTen t x).bars = s.bars := rfl
@[simp] theorem setTen_faults (s : State) (t : Nat) (x : Tenant) : (s.setTen t x).faults = s.faults := rfl
@[simp] theorem setTen_nextRec (s : State) (t : Nat) (x : Tenant) : (s.setTen t x).nextRec = s.nextRec := rfl
@[simp] theorem setTen_reqs (s : State) (t : Nat) (x : Tenant) : (s.setTen t x).reqs = s.reqs := rfl
@[simp] theorem setTen_mem (s : State) (t : Nat) (x : Tenant) : (s.setTen t x).mem = s.mem := rfl
@[simp] theorem setTen_hostMem (s : State) (t : Nat) (x : Tenant) : (s.setTen t x).hostMem = s.hostMem := rfl
@[simp] theorem setTen_gts (s : State) (t : Nat) (x : Tenant) : (s.setTen t x).gts = s.gts := rfl
@[simp] theorem setTen_cycle (s : State) (t : Nat) (x : Tenant) : (s.setTen t x).cycle = s.cycle := rfl
@[simp] theorem setTen_freeCtr (s : State) (t : Nat) (x : Tenant) : (s.setTen t x).freeCtr = s.freeCtr := rfl
@[simp] theorem setTen_budget (s : State) (t : Nat) (x : Tenant) : (s.setTen t x).budget = s.budget := rfl
@[simp] theorem setTen_ctx (s : State) (t : Nat) (x : Tenant) : (s.setTen t x).ctx = s.ctx := rfl
@[simp] theorem setTen_agenda (s : State) (t : Nat) (x : Tenant) : (s.setTen t x).agenda = s.agenda := rfl
@[simp] theorem setTen_turn (s : State) (t : Nat) (x : Tenant) : (s.setTen t x).turn = s.turn := rfl

@[simp] theorem modTen_parts (s : State) (t : Nat) (f : Tenant → Tenant) : (s.modTen t f).parts = s.parts := rfl
@[simp] theorem modTen_cores (s : State) (t : Nat) (f : Tenant → Tenant) : (s.modTen t f).cores = s.cores := rfl
@[simp] theorem modTen_pkg (s : State) (t : Nat) (f : Tenant → Tenant) : (s.modTen t f).pkg = s.pkg := rfl
@[simp] theorem modTen_droves (s : State) (t : Nat) (f : Tenant → Tenant) : (s.modTen t f).droves = s.droves := rfl
@[simp] theorem modTen_nextDrove (s : State) (t : Nat) (f : Tenant → Tenant) : (s.modTen t f).nextDrove = s.nextDrove := rfl
@[simp] theorem modTen_nextIter (s : State) (t : Nat) (f : Tenant → Tenant) : (s.modTen t f).nextIter = s.nextIter := rfl
@[simp] theorem modTen_bars (s : State) (t : Nat) (f : Tenant → Tenant) : (s.modTen t f).bars = s.bars := rfl
@[simp] theorem modTen_faults (s : State) (t : Nat) (f : Tenant → Tenant) : (s.modTen t f).faults = s.faults := rfl
@[simp] theorem modTen_nextRec (s : State) (t : Nat) (f : Tenant → Tenant) : (s.modTen t f).nextRec = s.nextRec := rfl
@[simp] theorem modTen_reqs (s : State) (t : Nat) (f : Tenant → Tenant) : (s.modTen t f).reqs = s.reqs := rfl
@[simp] theorem modTen_mem (s : State) (t : Nat) (f : Tenant → Tenant) : (s.modTen t f).mem = s.mem := rfl
@[simp] theorem modTen_hostMem (s : State) (t : Nat) (f : Tenant → Tenant) : (s.modTen t f).hostMem = s.hostMem := rfl
@[simp] theorem modTen_gts (s : State) (t : Nat) (f : Tenant → Tenant) : (s.modTen t f).gts = s.gts := rfl
@[simp] theorem modTen_cycle (s : State) (t : Nat) (f : Tenant → Tenant) : (s.modTen t f).cycle = s.cycle := rfl
@[simp] theorem modTen_freeCtr (s : State) (t : Nat) (f : Tenant → Tenant) : (s.modTen t f).freeCtr = s.freeCtr := rfl
@[simp] theorem modTen_budget (s : State) (t : Nat) (f : Tenant → Tenant) : (s.modTen t f).budget = s.budget := rfl
@[simp] theorem modTen_ctx (s : State) (t : Nat) (f : Tenant → Tenant) : (s.modTen t f).ctx = s.ctx := rfl
@[simp] theorem modTen_agenda (s : State) (t : Nat) (f : Tenant → Tenant) : (s.modTen t f).agenda = s.agenda := rfl
@[simp] theorem modTen_turn (s : State) (t : Nat) (f : Tenant → Tenant) : (s.modTen t f).turn = s.turn := rfl

@[simp] theorem modPkg_parts (s : State) (f : Pkg → Pkg) : (s.modPkg f).parts = s.parts := rfl
@[simp] theorem modPkg_cores (s : State) (f : Pkg → Pkg) : (s.modPkg f).cores = s.cores := rfl
@[simp] theorem modPkg_tens (s : State) (f : Pkg → Pkg) : (s.modPkg f).tens = s.tens := rfl
@[simp] theorem modPkg_droves (s : State) (f : Pkg → Pkg) : (s.modPkg f).droves = s.droves := rfl
@[simp] theorem modPkg_nextDrove (s : State) (f : Pkg → Pkg) : (s.modPkg f).nextDrove = s.nextDrove := rfl
@[simp] theorem modPkg_nextIter (s : State) (f : Pkg → Pkg) : (s.modPkg f).nextIter = s.nextIter := rfl
@[simp] theorem modPkg_bars (s : State) (f : Pkg → Pkg) : (s.modPkg f).bars = s.bars := rfl
@[simp] theorem modPkg_faults (s : State) (f : Pkg → Pkg) : (s.modPkg f).faults = s.faults := rfl
@[simp] theorem modPkg_nextRec (s : State) (f : Pkg → Pkg) : (s.modPkg f).nextRec = s.nextRec := rfl
@[simp] theorem modPkg_reqs (s : State) (f : Pkg → Pkg) : (s.modPkg f).reqs = s.reqs := rfl
@[simp] theorem modPkg_mem (s : State) (f : Pkg → Pkg) : (s.modPkg f).mem = s.mem := rfl
@[simp] theorem modPkg_hostMem (s : State) (f : Pkg → Pkg) : (s.modPkg f).hostMem = s.hostMem := rfl
@[simp] theorem modPkg_gts (s : State) (f : Pkg → Pkg) : (s.modPkg f).gts = s.gts := rfl
@[simp] theorem modPkg_cycle (s : State) (f : Pkg → Pkg) : (s.modPkg f).cycle = s.cycle := rfl
@[simp] theorem modPkg_freeCtr (s : State) (f : Pkg → Pkg) : (s.modPkg f).freeCtr = s.freeCtr := rfl
@[simp] theorem modPkg_budget (s : State) (f : Pkg → Pkg) : (s.modPkg f).budget = s.budget := rfl
@[simp] theorem modPkg_ctx (s : State) (f : Pkg → Pkg) : (s.modPkg f).ctx = s.ctx := rfl
@[simp] theorem modPkg_agenda (s : State) (f : Pkg → Pkg) : (s.modPkg f).agenda = s.agenda := rfl
@[simp] theorem modPkg_turn (s : State) (f : Pkg → Pkg) : (s.modPkg f).turn = s.turn := rfl

@[simp] theorem setPart_core (s : State) (k : Nat) (p : Part) (j : Nat) : (s.setPart k p).core j = s.core j := rfl
@[simp] theorem setPart_ten (s : State) (k : Nat) (p : Part) (j : Nat) : (s.setPart k p).ten j = s.ten j := rfl
@[simp] theorem modPart_core (s : State) (k : Nat) (f : Part → Part) (j : Nat) : (s.modPart k f).core j = s.core j := rfl
@[simp] theorem modPart_ten (s : State) (k : Nat) (f : Part → Part) (j : Nat) : (s.modPart k f).ten j = s.ten j := rfl
@[simp] theorem setCore_part (s : State) (c : Nat) (x : Core) (j : Nat) : (s.setCore c x).part j = s.part j := rfl
@[simp] theorem setCore_ten (s : State) (c : Nat) (x : Core) (j : Nat) : (s.setCore c x).ten j = s.ten j := rfl
@[simp] theorem modCore_part (s : State) (c : Nat) (f : Core → Core) (j : Nat) : (s.modCore c f).part j = s.part j := rfl
@[simp] theorem modCore_ten (s : State) (c : Nat) (f : Core → Core) (j : Nat) : (s.modCore c f).ten j = s.ten j := rfl
@[simp] theorem setTen_part (s : State) (t : Nat) (x : Tenant) (j : Nat) : (s.setTen t x).part j = s.part j := rfl
@[simp] theorem setTen_core (s : State) (t : Nat) (x : Tenant) (j : Nat) : (s.setTen t x).core j = s.core j := rfl
@[simp] theorem modTen_part (s : State) (t : Nat) (f : Tenant → Tenant) (j : Nat) : (s.modTen t f).part j = s.part j := rfl
@[simp] theorem modTen_core (s : State) (t : Nat) (f : Tenant → Tenant) (j : Nat) : (s.modTen t f).core j = s.core j := rfl
@[simp] theorem modPkg_part (s : State) (f : Pkg → Pkg) (j : Nat) : (s.modPkg f).part j = s.part j := rfl
@[simp] theorem modPkg_core (s : State) (f : Pkg → Pkg) (j : Nat) : (s.modPkg f).core j = s.core j := rfl
@[simp] theorem modPkg_ten (s : State) (f : Pkg → Pkg) (j : Nat) : (s.modPkg f).ten j = s.ten j := rfl

@[simp] theorem part_setPart_same (s : State) (k : Nat) (p : Part) : (s.setPart k p).part k = p := by simp [State.setPart, State.part]
theorem part_setPart_other (s : State) {k j : Nat} (p : Part) (h : j ≠ k) : (s.setPart k p).part j = s.part j := by
  simp [State.setPart, State.part, get_put_other _ _ _ h]
@[simp] theorem part_modPart_same (s : State) (k : Nat) (f : Part → Part) : (s.modPart k f).part k = f (s.part k) := by simp [State.modPart]
theorem part_modPart_other (s : State) {k j : Nat} (f : Part → Part) (h : j ≠ k) : (s.modPart k f).part j = s.part j := by
  simp [State.modPart, part_setPart_other _ _ h]
@[simp] theorem core_setCore_same (s : State) (c : Nat) (x : Core) : (s.setCore c x).core c = x := by simp [State.setCore, State.core]
theorem core_setCore_other (s : State) {c j : Nat} (x : Core) (h : j ≠ c) : (s.setCore c x).core j = s.core j := by
  simp [State.setCore, State.core, get_put_other _ _ _ h]
@[simp] theorem core_modCore_same (s : State) (c : Nat) (f : Core → Core) : (s.modCore c f).core c = f (s.core c) := by simp [State.modCore]
theorem core_modCore_other (s : State) {c j : Nat} (f : Core → Core) (h : j ≠ c) : (s.modCore c f).core j = s.core j := by
  simp [State.modCore, core_setCore_other _ _ h]
@[simp] theorem ten_setTen_same (s : State) (t : Nat) (x : Tenant) : (s.setTen t x).ten t = x := by simp [State.setTen, State.ten]
theorem ten_setTen_other (s : State) {t j : Nat} (x : Tenant) (h : j ≠ t) : (s.setTen t x).ten j = s.ten j := by
  simp [State.setTen, State.ten, get_put_other _ _ _ h]
@[simp] theorem ten_modTen_same (s : State) (t : Nat) (f : Tenant → Tenant) : (s.modTen t f).ten t = f (s.ten t) := by simp [State.modTen]
theorem ten_modTen_other (s : State) {t j : Nat} (f : Tenant → Tenant) (h : j ≠ t) : (s.modTen t f).ten j = s.ten j := by
  simp [State.modTen, ten_setTen_other _ _ h]

@[simp] theorem setPart_setPart (s : State) (k : Nat) (p q : Part) : (s.setPart k p).setPart k q = s.setPart k q := by simp [State.setPart]
@[simp] theorem setPart_modPart (s : State) (k : Nat) (f : Part → Part) (q : Part) : (s.modPart k f).setPart k q = s.setPart k q := by
  simp [State.modPart]
@[simp] theorem modPart_setPart (s : State) (k : Nat) (p : Part) (f : Part → Part) : (s.setPart k p).modPart k f = s.setPart k (f p) := by
  simp [State.modPart]
@[simp] theorem modPart_modPart (s : State) (k : Nat) (f g : Part → Part) : (s.modPart k f).modPart k g = s.modPart k (fun p => g (f p)) := by
  simp [State.modPart]
@[simp] theorem setCore_setCore (s : State) (c : Nat) (x y : Core) : (s.setCore c x).setCore c y = s.setCore c y := by simp [State.setCore]
@[simp] theorem setTen_setTen (s : State) (t : Nat) (x y : Tenant) : (s.setTen t x).setTen t y = s.setTen t y := by simp [State.setTen]

/-- Updates of different kinds commute. -/
theorem setPart_setCore (s : State) (k c : Nat) (p : Part) (x : Core) : (s.setPart k p).setCore c x = (s.setCore c x).setPart k p := rfl
theorem setPart_setTen (s : State) (k t : Nat) (p : Part) (x : Tenant) : (s.setPart k p).setTen t x = (s.setTen t x).setPart k p := rfl
theorem setCore_setTen (s : State) (c t : Nat) (x : Core) (y : Tenant) : (s.setCore c x).setTen t y = (s.setTen t y).setCore c x := rfl
theorem setPart_modPkg (s : State) (k : Nat) (p : Part) (f : Pkg → Pkg) : (s.setPart k p).modPkg f = (s.modPkg f).setPart k p := rfl

@[simp] theorem tenOf_setPart (s : State) (k : Nat) (p : Part) (c : Nat) : (s.setPart k p).tenOf c = s.tenOf c := rfl
@[simp] theorem tenOf_modPart (s : State) (k : Nat) (f : Part → Part) (c : Nat) : (s.modPart k f).tenOf c = s.tenOf c := rfl
@[simp] theorem tenOf_modCore (s : State) (j : Nat) (f : Core → Core) (c : Nat) : (s.modCore j f).tenOf c = s.tenOf c := rfl
@[simp] theorem tenOf_modTen (s : State) (t : Nat) (f : Tenant → Tenant) (c : Nat) : (s.modTen t f).tenOf c = s.tenOf c := rfl
@[simp] theorem stopped_setPart (s : State) (k : Nat) (p : Part) (w : Nat) : (s.setPart k p).stopped w = s.stopped w := rfl
@[simp] theorem stopped_modPart (s : State) (k : Nat) (f : Part → Part) (w : Nat) : (s.modPart k f).stopped w = s.stopped w := rfl

/-! ### Registers of a copy -/

theorem rdA_wrA (p : Part) (r j : Nat) (v : DWord) : (p.wrA r v).rdA j = if j = r then v else p.rdA j := by simp [Part.wrA, Part.rdA, get_put]
theorem rdLc_wrLc (p : Part) (r j : Nat) (v : Word) : (p.wrLc r v).rdLc j = if j = r then v else p.rdLc j := by simp [Part.wrLc, Part.rdLc, get_put]
theorem rdEv_wrEv (p : Part) (r j : Nat) (v : Word) : (p.wrEv r v).rdEv j = if j = r then v else p.rdEv j := by simp [Part.wrEv, Part.rdEv, get_put]
theorem rdN_wrN (p : Part) (r j : Nat) (v : Vec) : (p.wrN r v).rdN j = if j = r then v else p.rdN j := by simp [Part.wrN, Part.rdN, get_put]
theorem rdQ_wrQ (p : Part) (r j : Nat) (l : List Vec) : (p.wrQ r l).rdQ j = if j = r then l else p.rdQ j := by simp [Part.wrQ, Part.rdQ, get_put]
theorem rdO_wrO (p : Part) (r j : Nat) (l : List Vec) : (p.wrO r l).rdO j = if j = r then l else p.rdO j := by simp [Part.wrO, Part.rdO, get_put]
theorem rdStrm_wrStrm (p : Part) (r j : Nat) (v : Strm) : (p.wrStrm r v).rdStrm j = if j = r then v else p.rdStrm j := by
  simp [Part.wrStrm, Part.rdStrm, get_put]
/-- p0 reads all ones and drops writes; another predicate takes the value. -/
theorem rdP_wrP (p : Part) (r j : Nat) (v : DWord) : (p.wrP r v).rdP j = if j = r ∧ r ≠ 0 then v else p.rdP j := by
  by_cases h : r = 0
  · simp [Part.wrP, h]
  · by_cases g : j = 0
    · subst g; simp [Part.rdP, h, Ne.symm h]
    · simp [Part.wrP, Part.rdP, h, g, get_put]
/-- h0 is fixed and drops writes; another handle takes the value. -/
theorem rdH_wrH (p : Part) (r j : Nat) (v : Handle) : (p.wrH r v).rdH j = if j = r ∧ r ≠ 0 then v else p.rdH j := by
  by_cases h : r = 0
  · simp [Part.wrH, h]
  · by_cases g : j = 0
    · subst g; simp [Part.rdH, h, Ne.symm h]
    · simp [Part.wrH, Part.rdH, h, g, get_put]

end Sys2Proof.Machine
end

