-- ==== Sys2Proof/Laws/Memory.lean ====
section
/-! SUPPORT. Laws of byte memory: reads after writes, and that every write keeps the canonical form. -/
namespace Sys2Proof.Machine

/-- A read after a write: the value at the address, else what was there. -/
theorem memRead_memWrite (m : List Host.Cell) (lo a x : Nat) (v : Byte) (h : memWfFrom lo m = true) :
    memRead (memWrite m a v) x = if x = a then v else memRead m x := by
  induction m generalizing lo with
  | nil => by_cases hv : v = 0#8 <;> by_cases hx : x = a <;> simp [memWrite, memRead, hv, hx]
  | cons e m ih =>
    obtain ⟨b, w⟩ := e
    simp only [memWfFrom, Bool.and_eq_true, decide_eq_true_eq, bne_iff_ne, ne_eq] at h
    have low : ∀ (l : List Host.Cell) (k y : Nat), memWfFrom k l = true → y < k → memRead l y = 0 := by
      intro l
      induction l with
      | nil => intros; rfl
      | cons f l il =>
        intro k y hl hy
        simp only [memWfFrom, Bool.and_eq_true, decide_eq_true_eq] at hl
        have : y ≠ f.1 := by omega
        simp [memRead, this, il (f.1 + 1) y hl.2 (by omega)]
    rcases lt_trichotomy a b with g | g | g
    · by_cases hv : v = 0#8
      · by_cases hx : x = a
        · subst hx
          simp [memWrite, g.ne, g, hv, memRead, low m (b + 1) x h.2 (by omega)]
        · simp [memWrite, g.ne, g, hv, hx]
      · by_cases hx : x = a <;> simp [memWrite, g.ne, g, hv, memRead, hx]
    · subst g
      by_cases hv : v = 0#8
      · by_cases hx : x = a
        · subst hx; simp [memWrite, hv, low m (x + 1) x h.2 (by omega)]
        · simp [memWrite, hv, memRead, hx]
      · by_cases hx : x = a <;> simp [memWrite, hv, memRead, hx]
    · by_cases hx : x = b
      · subst hx; simp [memWrite, g.ne', g.not_gt, memRead, g.ne]
      · simp [memWrite, g.ne', g.not_gt, memRead, hx, ih (b + 1) h.2]

/-- A write keeps the canonical form. -/
theorem memWfFrom_memWrite (m : List Host.Cell) (lo a : Nat) (v : Byte) (h : memWfFrom lo m = true) (ha : lo ≤ a) :
    memWfFrom lo (memWrite m a v) = true := by
  induction m generalizing lo with
  | nil => by_cases hv : v = 0#8 <;> simp [memWrite, memWfFrom, hv, ha]
  | cons e m ih =>
    obtain ⟨b, w⟩ := e
    have h0 := h
    simp only [memWfFrom, Bool.and_eq_true, decide_eq_true_eq, bne_iff_ne, ne_eq] at h
    have hw : ¬w = 0#8 := h.1.2
    have up : ∀ (l : List Host.Cell) (k y : Nat), memWfFrom k l = true → y ≤ k → memWfFrom y l = true := by
      intro l k y hl hy
      cases l with
      | nil => rfl
      | cons f l => simp only [memWfFrom, Bool.and_eq_true, decide_eq_true_eq] at hl ⊢; exact ⟨⟨by omega, hl.1.2⟩, hl.2⟩
    rcases lt_trichotomy a b with g | g | g
    · by_cases hv : v = 0#8
      · simpa [memWrite, g.ne, g, hv] using h0
      · simp [memWrite, g.ne, g, hv, memWfFrom, ha, hw, h.2]
    · subst g
      by_cases hv : v = 0#8
      · simp [memWrite, hv, up m (a + 1) lo h.2 (by omega)]
      · simp [memWrite, hv, memWfFrom, ha, h.2]
    · simp [memWrite, g.ne', g.not_gt, memWfFrom, h.1.1, hw, ih (b + 1) h.2 (by omega)]

theorem memWf_memWrite (m : List Host.Cell) (a : Nat) (v : Byte) (h : memWf m = true) : memWf (memWrite m a v) = true :=
  memWfFrom_memWrite m 0 a v h (Nat.zero_le a)

theorem memWf_memWriteN (bs : List Byte) (m : List Host.Cell) (a : Nat) (h : memWf m = true) : memWf (memWriteN m a bs) = true := by
  induction bs generalizing m a with
  | nil => exact h
  | cons b bs ih => exact ih _ _ (memWf_memWrite m a b h)

/-- A read after a write of a run of bytes. -/
theorem memRead_memWriteN (bs : List Byte) (m : List Host.Cell) (a x : Nat) (h : memWf m = true) :
    memRead (memWriteN m a bs) x = if a ≤ x ∧ x < a + bs.length then bs.getD (x - a) 0 else memRead m x := by
  induction bs generalizing m a with
  | nil => simp [memWriteN]
  | cons b bs ih =>
    rw [memWriteN, ih _ _ (memWf_memWrite m a b h), memRead_memWrite m 0 a x b h]
    by_cases hx : x = a
    · subst hx; simp
    · by_cases g : a + 1 ≤ x ∧ x < a + 1 + bs.length
      · have e : x - a = (x - (a + 1)) + 1 := by omega
        have g' : a ≤ x ∧ x < a + (b :: bs).length := by simp only [List.length_cons]; omega
        rw [if_pos g, if_pos g', e]; simp
      · have g' : ¬(a ≤ x ∧ x < a + (b :: bs).length) := by simp only [List.length_cons]; omega
        rw [if_neg g, if_neg g', if_neg hx]

@[simp] theorem memReadN_length (m : List Host.Cell) (a n : Nat) : (memReadN m a n).length = n := by
  induction n generalizing a with
  | zero => rfl
  | succ n ih => simp [memReadN, ih]

theorem memReadN_getD (m : List Host.Cell) (a n i : Nat) (h : i < n) : (memReadN m a n).getD i 0 = memRead m (a + i) := by
  induction n generalizing a i with
  | zero => omega
  | succ n ih =>
    cases i with
    | zero => simp [memReadN]
    | succ i => have e : a + 1 + i = a + (i + 1) := by omega
                have := ih (a + 1) i (by omega)
                rw [e] at this; simpa [memReadN] using this

/-- Reading back a run of bytes that was written. -/
theorem memReadN_memWriteN (m : List Host.Cell) (a : Nat) (bs : List Byte) (h : memWf m = true) :
    memReadN (memWriteN m a bs) a bs.length = bs := by
  apply List.ext_getElem (by simp)
  intro i h1 h2
  have e := memReadN_getD (memWriteN m a bs) a bs.length i h2
  rw [memRead_memWriteN bs m a (a + i) h, if_pos (by omega)] at e
  simpa [List.getD_eq_getElem?_getD, h1, h2] using e

/-! ### Byte order -/

@[simp] theorem leBytes_length (n v : Nat) : (leBytes n v).length = n := by
  induction n generalizing v with
  | zero => rfl
  | succ n ih => simp [leBytes, ih]

theorem leVal_leBytes (n v : Nat) : leVal (leBytes n v) = v % 256 ^ n := by
  induction n generalizing v with
  | zero => simp [leBytes, leVal, Nat.mod_one]
  | succ n ih => simp [leBytes, leVal, ih, Nat.pow_succ', Nat.mod_mul]

/-! ### The memories of the machine -/

/-- Every byte memory of the machine is canonical, as a proposition: a core that is not listed has empty memories. -/
theorem memOk_iff (s : State) : s.memOk = true ↔
    memWf s.mem = true ∧ memWf s.hostMem = true ∧ ∀ c, memWf (s.core c).spad = true ∧ memWf (s.core c).wbuf = true := by
  simp only [State.memOk, Bool.and_eq_true, List.all_eq_true, and_assoc]
  refine and_congr_right fun _ => and_congr_right fun _ => ⟨fun h c => ?_, fun h e _ => h e.1⟩
  rcases get_mem Core.reset s.cores c with g | g
  · unfold State.core; rw [g]; exact ⟨rfl, rfl⟩
  · exact h _ g

theorem memOk_reset : State.reset.memOk = true := rfl

theorem core_memOk (s : State) (h : s.memOk = true) (c : Nat) : memWf (s.core c).spad = true ∧ memWf (s.core c).wbuf = true :=
  ((memOk_iff s).1 h).2.2 c

theorem memOf_wf (s : State) (h : s.memOk = true) (sp : Space) : memWf (s.memOf sp) = true := by
  cases sp with
  | spad c => exact (core_memOk s h c).1
  | dev => exact ((memOk_iff s).1 h).1
  | host => exact ((memOk_iff s).1 h).2.1

theorem memOk_setCore (s : State) (c : Nat) (x : Core) (h : s.memOk = true) (hx : memWf x.spad = true ∧ memWf x.wbuf = true) :
    (s.setCore c x).memOk = true := by
  rw [memOk_iff] at h ⊢
  refine ⟨h.1, h.2.1, fun j => ?_⟩
  by_cases g : j = c
  · subst g; simpa using hx
  · rw [core_setCore_other _ _ g]; exact h.2.2 j

/-- Storing a run of bytes anywhere keeps every memory canonical. -/
theorem memOk_putBytes (s : State) (sp : Space) (a : Nat) (bs : List Byte) (h : s.memOk = true) : (s.putBytes sp a bs).memOk = true := by
  cases sp with
  | spad c => exact memOk_setCore s c _ h ⟨memWf_memWriteN bs _ a (core_memOk s h c).1, (core_memOk s h c).2⟩
  | dev => rw [memOk_iff] at h ⊢; exact ⟨memWf_memWriteN bs _ a h.1, h.2⟩
  | host => rw [memOk_iff] at h ⊢; exact ⟨h.1, memWf_memWriteN bs _ a h.2.1, h.2.2⟩

/-- A read of one byte after a store: the byte stored, or what was there, in every space. -/
theorem byteAt_putBytes (s : State) (h : s.memOk = true) (sp sp' : Space) (a x : Nat) (bs : List Byte) :
    (s.putBytes sp a bs).byteAt sp' x = if sp' = sp ∧ a ≤ x ∧ x < a + bs.length then bs.getD (x - a) 0 else s.byteAt sp' x := by
  by_cases hs : sp' = sp
  · subst hs
    have hw := memRead_memWriteN bs (s.memOf sp') a x (memOf_wf s h sp')
    cases sp' <;> simpa [State.byteAt, State.memOf, State.putBytes] using hw
  · rw [if_neg (fun g => hs g.1)]
    cases sp <;> cases sp' <;>
      first
        | exact absurd rfl hs
        | rfl
        | (rename_i c d
           have : d ≠ c := fun e => hs (by rw [e])
           simp [State.byteAt, State.memOf, State.putBytes, core_modCore_other _ _ this])

end Sys2Proof.Machine
end

