-- ==== Sys2Proof/Laws/Routing.lean ====
section
/-! SUPPORT. What routing, the front end and an engine make of a body that is done, waits or faults. -/
namespace Sys2Proof.Machine

/-- The copy in execution once the instruction has been routed. -/
def State.movedOn (s : State) : Part := { s.me with pc := s.pcAfter, seq := if s.ctx.retry then s.me.seq else s.me.seq + 1 }

/-- The same as the body of an instruction of unit u finds it, the unit's tokens popped. -/
def State.entered (s : State) (u : Nat) (tk : Tk) : Part :=
  let p := s.movedOn.payOwed u
  if Map.get 0 p.owed (startKey u) ≠ 0 then p else p.startToks u tk

/-- The state in which the body of an instruction of unit u runs. -/
def State.enter (s : State) (u : Nat) (tk : Tk) : State := s.setPart s.ctx.k (s.entered u tk)

/-- `q` is `p` but for token queues, the tokens owed, what a unit stands at for them, and waits. -/
def Part.tokMoved (p q : Part) : Prop := ∃ a b c d, q = { p with tok := a, owed := b, tail := c, waits := d }

theorem Part.tokMoved.refl (p : Part) : p.tokMoved p := ⟨_, _, _, _, rfl⟩
theorem Part.tokMoved.trans {p q r : Part} (h : p.tokMoved q) (g : q.tokMoved r) : p.tokMoved r := by
  obtain ⟨_, _, _, _, rfl⟩ := h; obtain ⟨a, b, c, d, rfl⟩ := g; exact ⟨a, b, c, d, rfl⟩
theorem Part.tokMoved.bare {p q : Part} (h : p.tokMoved q) : q.bare = p.bare := by obtain ⟨_, _, _, _, rfl⟩ := h; rfl

theorem tokMoved_pushTok (p : Part) (u v : Nat) : p.tokMoved (p.pushTok u v).1 := by
  unfold Part.pushTok; split
  · exact ⟨_, _, _, _, rfl⟩
  · exact .refl p
theorem tokMoved_pushToks (p : Part) (u : Nat) (l r : Bool) : p.tokMoved (p.pushToks u l r) := by
  have e : ∀ (q : Part) (m : Map Nat), q.tokMoved { q with owed := m } := fun _ _ => ⟨_, _, _, _, rfl⟩
  unfold Part.pushToks
  cases l <;> cases r
  · exact e _ _
  · exact (tokMoved_pushTok _ _ _).trans (e _ _)
  · exact (tokMoved_pushTok _ _ _).trans (e _ _)
  · exact ((tokMoved_pushTok _ _ _).trans (tokMoved_pushTok _ _ _)).trans (e _ _)
theorem tokMoved_payOwed (p : Part) (u : Nat) : p.tokMoved (p.payOwed u) := by
  unfold Part.payOwed
  simp only []
  split
  · exact (tokMoved_pushToks _ _ _ _).trans ⟨_, _, _, _, rfl⟩
  · exact tokMoved_pushToks _ _ _ _
theorem tokMoved_popToks (p : Part) (u : Nat) (tk : Tk) : p.tokMoved (p.popToks u tk) := by
  unfold Part.popToks; cases tk.pl <;> cases tk.pr <;> exact ⟨_, _, _, _, rfl⟩
theorem tokMoved_startToks (p : Part) (u : Nat) (tk : Tk) : p.tokMoved (p.startToks u tk) := by
  unfold Part.startToks; split
  · exact (tokMoved_popToks p u tk).trans ⟨_, _, _, _, rfl⟩
  · exact .refl p
theorem tokMoved_endToks (p : Part) (u : Nat) (tk : Tk) (r : Routed) : p.tokMoved (p.endToks u tk r) := by
  have e : ∀ (q : Part) (m : Map Nat), q.tokMoved { q with owed := m } := fun _ _ => ⟨_, _, _, _, rfl⟩
  unfold Part.endToks
  simp only []
  split
  · exact (e _ _).trans (tokMoved_pushToks _ _ _ _)
  · exact ((e _ _).trans (tokMoved_pushToks _ _ _ _)).trans ⟨_, _, _, _, rfl⟩

theorem entered_moved (s : State) (u : Nat) (tk : Tk) :
    s.movedOn.tokMoved (s.entered u tk) := by
  unfold State.entered
  simp only []
  split
  · exact tokMoved_payOwed _ _
  · exact (tokMoved_payOwed _ _).trans (tokMoved_startToks _ _ _)

/-- What the unit pays when it owes nothing leaves its tokens as they are. -/
theorem payOwed_zero (p : Part) (u : Nat) (h : Map.get 0 p.owed u = 0) :
    (p.payOwed u).tok = p.tok ∧ (p.payOwed u).owed = Map.put p.owed u 0 := by
  have e : p.pushToks u false false = { p with owed := Map.put p.owed u 0 } := rfl
  have z : ∀ i, bit 0 i = false := fun i => by simp [bit]
  unfold Part.payOwed
  rw [h, z, z, e]
  simp only []
  split <;> exact ⟨rfl, rfl⟩

theorem canPop_congr (p q : Part) (u : Nat) (tk : Tk) (h : p.tok = q.tok) : p.canPop u tk = q.canPop u tk := by
  unfold Part.canPop Part.toks; rw [h]

theorem pend_congr (p q : Part) (u : Nat) (ha : p.pendA = q.pendA) (hx : p.pendX = q.pendX) (hs : p.pendS = q.pendS) :
    p.pend u = q.pend u := by
  unfold Part.pend; split <;> assumption

theorem startKey_ne (u : Nat) : startKey u ≠ u := by unfold startKey; omega

/-- A unit that owes nothing, has its tokens, and meets no parity error runs the body. -/
theorem runRouted_enter (u : Nat) (i : Instr) (tk : Tk) (retry : Bool) (body : State → Res) (s x : State)
    (hx : x.modPart s.ctx.k (·.payOwed u) = s.setPart s.ctx.k (s.movedOn.payOwed u)) (k : x.ctx = s.ctx)
    (ho : Map.get 0 s.me.owed u = 0) (ht : Map.get 0 s.me.owed (startKey u) ≠ 0 ∨ s.me.canPop u tk = true) (hs : Map.find? s.me.soft u = none) :
    runRouted u i tk retry body x = finishRouted u i tk retry (body (s.enter u tk)) := by
  obtain ⟨z1, z2⟩ := payOwed_zero s.movedOn u ho
  have a : Map.get 0 (s.movedOn.payOwed u).owed u = 0 := by rw [z2]; simp
  have b : Map.get 0 (s.movedOn.payOwed u).owed (startKey u) = Map.get 0 s.me.owed (startKey u) := by
    rw [z2, get_put_other _ _ _ (startKey_ne u)]; rfl
  have c : (s.movedOn.payOwed u).canPop u tk = s.me.canPop u tk := canPop_congr _ _ _ _ (by rw [z1]; rfl)
  have d : ∀ r, (s.movedOn.payOwed u).softHit u r = none := by
    intro r
    obtain ⟨_, _, _, _, e⟩ := tokMoved_payOwed s.movedOn u
    have g : Map.find? (s.movedOn.payOwed u).soft u = none := by rw [e]; exact hs
    unfold Part.softHit
    rw [g]
  unfold runRouted
  simp only [k, hx, setPart_ctx, part_setPart_same, a, d, ne_eq, not_true_eq_false, if_false]
  by_cases h : Map.get 0 s.me.owed (startKey u) = 0
  · have h2 : s.me.canPop u tk = true := ht.resolve_left (fun g => g h)
    have h3 : s.entered u tk = (s.movedOn.payOwed u).startToks u tk := by simp [State.entered, b, h]
    simp only [b, h, c, h2, not_true_eq_false, if_false, Bool.true_eq_false]
    simp [State.enter, h3, State.modPart, setPart_setPart]
  · have h3 : s.entered u tk = s.movedOn.payOwed u := by simp [State.entered, b, h]
    simp only [b, h, not_false_eq_true, if_true]
    simp [State.enter, h3]

/-- The unit takes an instruction that is ready: its body runs in `enter`. -/
theorem routed_ready (u : Nat) (i : Instr) (tk : Tk) (body : State → Res) (s : State) (h : s.readyIn u tk) :
    routed u i tk body s = .next (finishRouted u i tk s.ctx.retry (body (s.enter u tk))) := by
  obtain ⟨-, ho, ht, hs, hr⟩ := h
  cases hc : s.ctx.retry with
  | true =>
    have e : s.modPart s.ctx.k (·.payOwed u) = s.setPart s.ctx.k (s.movedOn.payOwed u) := by
      simp [State.modPart, State.movedOn, State.pcAfter, hc, State.me]
    simp only [routed, hc, if_true]
    rw [runRouted_enter u i tk true body s s e rfl ho ht hs]
  | false =>
    have hq := hr.resolve_left (by simp [hc])
    have e : s.advance.modPart s.ctx.k (·.payOwed u) = s.setPart s.ctx.k (s.movedOn.payOwed u) := by
      simp [State.advance, State.modPart, State.movedOn, State.pcAfter, hc, State.me, setPart_setPart]
    have p1 : (s.advance.part s.ctx.k).pend u = [] := by
      rw [pend_congr _ s.me u] <;> first | exact hq.1 | simp [State.advance, State.me]
    have p2 : s.advance.stopped (s.ctx.k * 8 + u) = false := hq.2
    have p3 : s.advance.ctx = s.ctx := rfl
    simp only [routed, hc, p3, p1, p2, Bool.false_eq_true, if_false, and_self, if_true]
    rw [runRouted_enter u i tk false body s s.advance e rfl ho ht hs]

theorem bare_setPend (p : Part) (u : Nat) (l : List Routed) : (p.setPend u l).bare = p.bare := by
  unfold Part.setPend; split <;> rfl

/-- The copy an instruction that is done leaves behind: it is out of its unit, and its tokens have moved. -/
def Part.left (p : Part) (u : Nat) (tk : Tk) (retry : Bool) (r : Routed) : Part :=
  let q : Part := { p with waits := Map.del p.waits u }
  let q := if retry then q.setPend u ((q.pend u).drop 1) else q
  { q.endToks u tk r with flight := Map.del q.flight u }

theorem bare_left (p : Part) (u : Nat) (tk : Tk) (retry : Bool) (r : Routed) : (p.left u tk retry r).bare = p.bare := by
  have e : ∀ (q : Part) (m : Map Flight), ({ q with flight := m } : Part).bare = q.bare := fun _ _ => rfl
  have w : ∀ (q : Part) (m : Map Nat), ({ q with waits := m } : Part).bare = q.bare := fun _ _ => rfl
  unfold Part.left
  cases retry <;> simp [e, w, (tokMoved_endToks _ _ _ _).bare, bare_setPend]

theorem inIter_bare (p : Part) : p.bare.inIter = p.inIter := rfl

theorem settleLeft_in (s : State) (k : Nat) (p : Part) (h : p.inIter = true) : (s.setPart k p).settleLeft k = s.setPart k p := by
  unfold State.settleLeft State.modPart
  rw [part_setPart_same]
  simp only [h, if_true, setPart_setPart]

theorem finishRouted_done (u : Nat) (i : Instr) (tk : Tk) (retry : Bool) (r : State) (p : Part) (h : p.inIter = true) :
    finishRouted u i tk retry (.done (r.setPart r.ctx.k p)) = r.setPart r.ctx.k (p.left u tk retry (r.routedEntry i)) := by
  have g : (p.left u tk retry (r.routedEntry i)).inIter = true := by rw [← inIter_bare, bare_left, inIter_bare, h]
  have x : (((r.setPart r.ctx.k p).leaveUnit u retry).modPart r.ctx.k (fun q => { q.endToks u tk (r.routedEntry i) with flight := Map.del q.flight u }))
      = r.setPart r.ctx.k (p.left u tk retry (r.routedEntry i)) := by
    simp only [State.leaveUnit, setPart_ctx, modPart_setPart, Part.left]
  show ((((r.setPart r.ctx.k p).leaveUnit u retry).modPart r.ctx.k _).settleLeft r.ctx.k) = _
  exact (congrArg (State.settleLeft · r.ctx.k) x).trans (settleLeft_in _ _ _ g)

/-- An instruction of A, X or S that is ready and whose body ends with the copy `p`, in its iteration, in an otherwise settled state `r` completes there. -/
theorem routed_became (u : Nat) (i : Instr) (tk : Tk) (body : State → Res) (s r : State) (p : Part) (h : s.readyIn u tk)
    (hk : r.ctx = s.ctx) (hi : p.inIter = true) (hb : body (s.enter u tk) = .done (r.setPart s.ctx.k p)) :
    ∃ t, routed u i tk body s = .next t ∧ r.became t p := by
  refine ⟨r.setPart r.ctx.k (p.left u tk s.ctx.retry (r.routedEntry i)), ?_, ?_⟩
  · rw [routed_ready u i tk body s h, hb, ← hk, finishRouted_done _ _ _ _ _ _ hi]
  · exact ⟨by simp, by simp [bare_left]⟩

/-- An F-class instruction whose body ends with the copy `p` in an otherwise settled state `r` completes there. -/
theorem front_became (body : State → Res) (s r : State) (p : Part) (hk : r.ctx = s.ctx) (hb : body s = .done (r.setPart s.ctx.k p)) :
    ∃ t, front body s = .next t ∧ r.became t p := by
  refine ⟨r.setPart r.ctx.k { p with seq := p.seq + 1, waits := Map.del p.waits 0, flight := Map.del p.flight 0 }, ?_, ?_⟩
  · unfold front; rw [hb, ← hk]; simp
  · exact ⟨by simp, by simp [Part.bare]⟩

/-- The same for `exec`. -/
theorem exec_front (i : Instr) (body : State → Res) (s r : State) (p : Part) (he : exec i s = front body s) (hk : r.ctx = s.ctx)
    (hb : body s = .done (r.setPart s.ctx.k p)) : ∃ t, exec i s = .next t ∧ r.became t p := by
  rw [he]; exact front_became body s r p hk hb

theorem exec_routed (i : Instr) (u : Nat) (tk : Tk) (body : State → Res) (s r : State) (p : Part) (he : exec i s = routed u i tk body s)
    (h : s.readyIn u tk) (hk : r.ctx = s.ctx) (hi : p.inIter = true) (hb : body (s.enter u tk) = .done (r.setPart s.ctx.k p)) :
    ∃ t, exec i s = .next t ∧ r.became t p := by
  rw [he]; exact routed_became u i tk body s r p h hk hi hb

/-- A body that waits leaves the machine as the body left it, with the wait recorded. -/
theorem front_wait (body : State → Res) (s r : State) (why : Nat) (hb : body s = .wait why r) :
    front body s = .next (r.modPart r.ctx.k (fun p => { p with waits := Map.put p.waits 0 why })) := by
  unfold front; rw [hb]

/-- A body that faults stops the front end at the instruction. -/
theorem front_fault (body : State → Res) (s r : State) (f : FInfo) (hb : body s = .fault f r) :
    front body s = .next ((r.modPart r.ctx.k (fun p => { p with flight := Map.del p.flight 0 })).takeFault (r.ctx.k * 8) f r.ctx.pc.toNat r.ctx.word [] false) := by
  unfold front; rw [hb]

end Sys2Proof.Machine
end

