-- ==== Sys2Proof/Laws/Access.lean ====
section
/-! SUPPORT. What serving an access at its home leaves alone: the copies of strands, the byte memories, the droves, barriers and
faults; and that an access that nothing holds back goes. -/
namespace Sys2Proof.Machine

theorem SameSeen.refl (s : State) : SameSeen s s := by
  constructor <;> intros <;> rfl

theorem SameSeen.trans {s t u : State} (a : SameSeen s t) (b : SameSeen t u) : SameSeen s u :=
  ⟨b.parts.trans a.parts, b.mem.trans a.mem, b.hostMem.trans a.hostMem, fun c => (b.cores c).trans (a.cores c),
    fun c => (b.tens c).trans (a.tens c), b.pkg.trans a.pkg, b.droves.trans a.droves, b.nextDrove.trans a.nextDrove,
    b.nextIter.trans a.nextIter, b.bars.trans a.bars, b.faults.trans a.faults, b.nextRec.trans a.nextRec, b.reqs.trans a.reqs,
    b.ctx.trans a.ctx, b.cycle.trans a.cycle, b.budget.trans a.budget, b.agenda.trans a.agenda, b.turn.trans a.turn⟩

theorem SameSeen.spad {s t : State} (h : SameSeen s t) (c : Nat) : (t.core c).spad = (s.core c).spad := by
  have := congrArg Core.spad (h.cores c); exact this
theorem SameSeen.wbuf {s t : State} (h : SameSeen s t) (c : Nat) : (t.core c).wbuf = (s.core c).wbuf := by
  have := congrArg Core.wbuf (h.cores c); exact this

theorem SameSeen.byteAt {s t : State} (h : SameSeen s t) (sp : Space) (x : Nat) : t.byteAt sp x = s.byteAt sp x := by
  cases sp <;> simp [State.byteAt, State.memOf, h.mem, h.hostMem, h.spad]

theorem SameSeen.part {s t : State} (h : SameSeen s t) (k : Nat) : t.part k = s.part k := by simp [State.part, h.parts]

theorem SameSeen.tenOf {s t : State} (h : SameSeen s t) (c : Nat) : t.tenOf c = s.tenOf c := by
  have := congrArg Pkg.quadOwner h.pkg
  unfold State.tenOf; rw [show t.pkg.quadOwner = s.pkg.quadOwner from this]

/-! ### Single updates -/

/-- A machine whose cores and package change in caches and the like only. -/
theorem sameSeen_of (s : State) (cs : Map Core) (g : Pkg) (hc : ∀ c, (Map.get Core.reset cs c).bare = (s.core c).bare)
    (hg : g.bare = s.pkg.bare) : SameSeen s { s with cores := cs, pkg := g } :=
  ⟨rfl, rfl, rfl, hc, fun _ => rfl, hg, rfl, rfl, rfl, rfl, rfl, rfl, rfl, rfl, rfl, rfl, rfl, rfl⟩

theorem modCore_same (s : State) (c : Nat) (f : Core → Core) (hf : ∀ x, (f x).bare = x.bare) : SameSeen s (s.modCore c f) := by
  refine sameSeen_of s _ _ (fun j => ?_) rfl
  show ((s.modCore c f).core j).bare = _
  by_cases h : j = c
  · subst h; simp [hf]
  · rw [core_modCore_other _ _ h]

theorem modPkg_same (s : State) (f : Pkg → Pkg) (hf : (f s.pkg).bare = s.pkg.bare) : SameSeen s (s.modPkg f) :=
  sameSeen_of s _ _ (fun _ => rfl) hf

theorem modTen_same (s : State) (t : Nat) (f : Tenant → Tenant) (hf : (f (s.ten t)).bare = (s.ten t).bare) : SameSeen s (s.modTen t f) := by
  refine ⟨rfl, rfl, rfl, fun _ => rfl, ?_, rfl, rfl, rfl, rfl, rfl, rfl, rfl, rfl, rfl, rfl, rfl, rfl, rfl⟩
  intro j
  by_cases h : j = t
  · subst h; simpa using hf
  · rw [ten_modTen_other _ _ h]

theorem foldl_same {α : Type} (f : State → α → State) (hf : ∀ s a, SameSeen s (f s a)) (l : List α) (s : State) : SameSeen s (l.foldl f s) := by
  induction l generalizing s with
  | nil => exact .refl s
  | cons a l ih => exact (hf s a).trans (ih _)

theorem find_map (m : Map Core) (f : Nat → Core → Core) (c : Nat) :
    Map.find? (m.map (fun e => (e.1, f e.1 e.2))) c = (Map.find? m c).map (f c) := by
  induction m with
  | nil => rfl
  | cons e m ih =>
    obtain ⟨j, x⟩ := e
    by_cases h : c = j
    · subst h; simp [Map.find?]
    · simp [Map.find?, h, ih]

/-- What every element of a map keeps of its value, a look-up keeps. -/
theorem get_map_keeps {α β : Type} (g : α → β) (d : α) (m : Map α) (f : Nat × α → α) (hf : ∀ e, g (f e) = g e.2) (c : Nat) :
    g (Map.get d (m.map (fun e => (e.1, f e))) c) = g (Map.get d m c) := by
  induction m with
  | nil => rfl
  | cons e m ih =>
    obtain ⟨i, x⟩ := e
    by_cases h : c = i
    · subst h; simpa [Map.get, Map.find?] using hf (c, x)
    · simpa [Map.get, Map.find?, h] using ih

theorem core_mapCores_keeps {α : Type} (g : Core → α) (s : State) (f : Nat → Core → Core) (hf : ∀ c x, g (f c x) = g x) (c : Nat) :
    g (Map.get Core.reset (s.mapCores f) c) = g (s.core c) := by
  unfold State.core State.mapCores Map.get
  rw [find_map]
  cases Map.find? s.cores c <;> simp [hf]

/-- A machine whose cores have changed each for itself in caches and the like only. -/
theorem mapCores_same (s : State) (f : Nat → Core → Core) (g : Pkg) (hf : ∀ c x, (f c x).bare = x.bare) (hg : g.bare = s.pkg.bare) :
    SameSeen s { s with cores := s.mapCores f, pkg := g } :=
  sameSeen_of s _ _ (core_mapCores_keeps Core.bare s f hf) hg

/-! ### Service at a home -/

theorem probePd_keeps (c : Core) (core : Nat) (hh : Bool) (line : Nat) (w : Bool) (ws : BitVec 16) (via : Via) :
    (c.probePd core hh line w ws via).bare = c.bare := by
  simp [Core.probePd, Core.bare, Function.comp_def]

theorem probeL1_keeps (c : Core) (line : Nat) (i o : Bool) : (c.probeL1 line i o).bare = c.bare := by
  unfold Core.probeL1
  (repeat' split) <;> rfl

theorem markVia_keeps (s : State) (line : Nat) (via : Via) (g : Pkg) : (s.markVia line via g).bare = g.bare := by cases via <;> rfl

theorem meter_same (s : State) (t i n : Nat) : SameSeen s (s.meter t i n) := modTen_same _ _ _ rfl

theorem touchBank_same (s : State) (c b : Nat) (q : Bool) : SameSeen s (s.touchBank c b q) := by
  simp only [State.touchBank]
  refine modPkg_same _ _ ?_
  split <;> rfl

theorem atBank_same (s : State) (line : Nat) : SameSeen s (s.atBank line) := touchBank_same _ _ _ _

theorem writeDown_same (s : State) (l2 : Bool) (e : Nat × HomeLine) : SameSeen s (s.writeDown l2 e) := by
  unfold State.writeDown
  split
  · exact .refl s
  · split
    · exact modPkg_same _ _ rfl
    · exact (atBank_same _ _).trans (meter_same _ _ _ _)

theorem takeLine_same (s : State) (l2 : Bool) (t line : Nat) (d : Bool) : SameSeen s (s.takeLine l2 t line d) := by
  simp only [State.takeLine]
  split
  · split
    · exact atBank_same _ _
    · exact .refl s
  · exact (foldl_same _ (fun _ _ => writeDown_same _ _ _) _ _).trans (modPkg_same _ _ (by cases l2 <;> rfl))

/-- A line read or written at its home changes caches, rows and meters only. -/
theorem atHome_same (s : State) (line : Nat) (w : Bool) : SameSeen s (s.atHome line w) := by
  simp only [State.atHome]
  split
  · exact .refl s
  · split
    · cases w <;> simp only [Bool.false_eq_true, if_true, if_false] <;> split <;>
        first
          | exact .refl s
          | exact takeLine_same _ _ _ _ _
          | exact modPkg_same _ _ rfl
          | exact (modPkg_same s _ rfl).trans (takeLine_same _ _ _ _ _)
    · split
      · exact takeLine_same _ _ _ _ _
      · exact ((atBank_same _ _).trans (takeLine_same _ _ _ _ _)).trans (takeLine_same _ _ _ _ _)

/-- Serving an access at its home changes no byte. -/
theorem settle_same (s : State) (hh : Bool) (line : Nat) (w i : Bool) (ws : BitVec 16) (via : Via) : SameSeen s (s.settle hh line w i ws via) := by
  have main : ∀ (r : State) (p : Nat → Bool) (b : Bool) (d : Nat → Bool) (m : Map (Nat × BitVec 16)) (cb : Map Word) (ts : Map (BitVec 48 × BitVec 48)) (n : Nat),
      SameSeen r { r with
        cores := r.mapCores (fun j c =>
          if p j then c else if hh then c.probePd j hh line w ws via else (c.probePd j hh line w ws via).probeL1 line i (via = .strand j))
        pkg := { ((if b then r.markVia line via r.pkg else r.pkg).probeRdc hh line b w i via.die d) with
          cbase := cb, padAway := m, lineTs := ts, homeServed := n } } := by
    intro r p b d m cb ts n
    refine mapCores_same r _ _ (fun j x => ?_) ?_
    · split
      · rfl
      · split
        · exact probePd_keeps _ _ _ _ _ _ _
        · exact (probeL1_keeps _ _ _ _).trans (probePd_keeps _ _ _ _ _ _ _)
    · refine (show _ = Pkg.bare (if b then r.markVia line via r.pkg else r.pkg) from rfl).trans ?_
      split
      · exact markVia_keeps _ _ _ _
      · rfl
  unfold State.settle
  dsimp only
  split
  · exact (atHome_same s _ _).trans (main _ _ _ _ _ _ _ _)
  · exact main s _ _ _ _ _ _ _

theorem settleRange_same (s : State) (hh : Bool) (pa n : Nat) (w i : Bool) (via : Via) : SameSeen s (s.settleRange hh pa n w i via) :=
  foldl_same _ (fun _ _ => settle_same _ _ _ _ _ _ _) _ _

theorem homeRange_same (s : State) (hh : Bool) (pa n : Nat) (w : Bool) (via : Via) : SameSeen s (s.homeRange hh pa n w via) := by
  unfold State.homeRange
  split
  · exact .refl s
  · refine foldl_same _ (fun s l => ?_) _ _
    split
    · exact .refl s
    · exact atHome_same _ _ _

/-- Merging partials changes no byte: memory holds what they come to. -/
theorem mergeAll_same (s : State) (line : Nat) : SameSeen s (s.mergeAll line) :=
  sameSeen_of s _ _ (get_map_keeps Core.bare Core.reset s.cores _ (fun e => by dsimp only; split <;> rfl)) rfl

theorem dropL1_same (s : State) (core line : Nat) : SameSeen s (s.dropL1 core line) := by
  have a : SameSeen s (s.modCore core (fun c => { c with l1d := Map.del c.l1d line })) := modCore_same _ _ _ (fun _ => rfl)
  unfold State.dropL1
  split
  · exact (mergeAll_same _ _).trans (atHome_same _ _ _)
  · exact a.trans (atHome_same _ _ _)
  · exact a
  · exact .refl s

theorem dropCopies_same (s : State) (key : Nat) : SameSeen s (s.dropCopies key) := by
  unfold State.dropCopies
  dsimp only
  split
  · refine SameSeen.trans (t := { s with cores := _ }) (mapCores_same s _ s.pkg (fun j c => ?_) rfl) (modPkg_same _ _ rfl)
    split
    · exact probePd_keeps _ _ _ _ _ _ _
    · rfl
  · exact (foldl_same _ (fun _ _ => dropL1_same _ _ _) _ _).trans (modPkg_same _ _ rfl)

theorem dropRdc_same (s : State) (e : Nat × RdcLine) : SameSeen s (s.dropRdc e) := by
  have a := dropCopies_same s e.1
  unfold State.dropRdc
  dsimp only
  split
  · split
    · exact (a.trans (modPkg_same _ _ rfl)).trans (meter_same _ _ _ _)
    · exact a.trans (modPkg_same _ _ rfl)
  · split
    · exact a.trans (atHome_same _ _ _)
    · exact a

theorem putRdc_same (s : State) (die : Nat) (hh : Bool) (line t : Nat) (st : Mesi) (l : BitVec 48) : SameSeen s (s.putRdc die hh line t st l) := by
  simp only [State.putRdc]
  split
  · exact modPkg_same _ _ rfl
  · split
    · exact .refl s
    · exact (foldl_same _ (fun _ _ => dropRdc_same _ _) _ _).trans (modPkg_same _ _ rfl)

theorem leaseRdc_same (s : State) (die : Nat) (hh : Bool) (line t : Nat) (w na : Bool) (l : BitVec 48) :
    SameSeen s (s.leaseRdc die hh line t w na l) := by
  unfold State.leaseRdc
  (repeat' split) <;> first | exact .refl s | exact putRdc_same _ _ _ _ _ _ _ | exact dropRdc_same _ _

theorem leaseAway_same (s : State) (k line t : Nat) (na : Bool) : SameSeen s (s.leaseAway k line t na) := by
  unfold State.leaseAway
  dsimp only
  (repeat' split) <;> first | exact .refl s | exact putRdc_same _ _ _ _ _ _ _ | exact dropCopies_same _ _

theorem ownL1_keeps (c : Core) (cl line : Nat) (w na sole : Bool) (now l : BitVec 48) : (c.ownL1 cl line w na sole now l).bare = c.bare := by
  unfold Core.ownL1
  dsimp only
  (repeat' split) <;> rfl

theorem roomL1_same (s : State) (core line : Nat) : SameSeen s (s.roomL1 core line) := by
  simp only [State.roomL1]
  split
  · exact .refl s
  · split
    · exact .refl s
    · exact dropL1_same _ _ _

theorem leaseOut_same (s : State) (k t line : Nat) (w na : Bool) : SameSeen s (s.leaseOut k t line w na) := by
  unfold State.leaseOut
  split
  · exact .refl s
  · dsimp only
    have a := leaseAway_same s k line t na
    split
    · split
      · exact a
      · refine (a.trans (roomL1_same _ _ _)).trans (modCore_same _ _ _ (fun c => ?_))
        split <;> rfl
    · exact a

theorem leaseL1_same (s : State) (k t : Nat) (x : Stretch) (w na : Bool) : SameSeen s (s.leaseL1 k t x w na) := by
  unfold State.leaseL1
  split
  · exact .refl s
  · dsimp only
    refine foldl_same _ (fun r l => ?_) _ _
    split
    · exact leaseRdc_same _ _ _ _ _ _ _ _
    · split
      · exact leaseOut_same _ _ _ _ _ _
      · split
        · exact .refl r
        · have own : ∀ (b : Bool) (g e : BitVec 48), SameSeen r ((r.roomL1 (coreOf k) l).modCore (coreOf k)
              (fun c => if c.hasRoomL1 l then c.ownL1 x.page.cl l w na b g e else c)) := by
            intro b g e
            refine (roomL1_same r _ l).trans (modCore_same _ _ _ (fun y => ?_))
            split
            · exact ownL1_keeps y _ _ _ _ _ _ _
            · rfl
          have rdc : ∀ (u : State) (p : Bool) (m : Bool) (e : BitVec 48), SameSeen u (if p = true then u else u.leaseRdc (dieOf (coreOf k)) false l t w m e) := by
            intro u p m e
            split
            · exact .refl u
            · exact leaseRdc_same _ _ _ _ _ _ _ _
          split
          · exact (own _ _ _).trans (rdc _ _ _ _)
          · exact ((own _ _ _).trans (rdc _ _ _ _)).trans (modPkg_same _ _ rfl)

theorem pinTouch_same (s : State) (hh : Bool) (pa n : Nat) : SameSeen s (s.pinTouch hh pa n) := by
  unfold State.pinTouch
  split
  · exact .refl s
  · refine ⟨rfl, rfl, rfl, fun _ => rfl, fun j => ?_, rfl, rfl, rfl, rfl, rfl, rfl, rfl, rfl, rfl, rfl, rfl, rfl, rfl⟩
    exact get_map_keeps Tenant.bare (Tenant.reset j) s.tens (fun e => { e.2 with pins := e.2.pins.map (fun w =>
      if s.pinHolds e.1 w.2 (pa / 65536) || s.pinHolds e.1 w.2 ((pa + n - 1) / 65536) then (w.1, { w.2 with cnt := 255 }) else w) }) (fun _ => rfl) j

theorem meterMem_same (s : State) (t : Nat) (x : Stretch) (w : Bool) : SameSeen s (s.meterMem t x w) := by
  simp only [State.meterMem]
  (repeat' split) <;> first | exact .refl s | exact meter_same _ _ _ _ | exact (meter_same _ _ _ _).trans (meter_same _ _ _ _)

theorem unpoison_same (s : State) (hh : Bool) (pa n : Nat) : SameSeen s (s.unpoison hh pa n) := by
  unfold State.unpoison; exact modPkg_same _ _ rfl

theorem serve_same (s : State) (t : Nat) (x : Stretch) (w : Bool) (via : Via) : SameSeen s (s.serve t x w via) := by
  have a := settleRange_same s x.page.hh x.pa x.n w (w && x.page.cl == 0) via
  have b : ∀ r : State, SameSeen r (if x.page.cl = 3 then (linesOf x.pa x.n).foldl State.atBank r else r.homeRange x.page.hh x.pa x.n w via) := by
    intro r
    split
    · exact foldl_same _ (fun _ _ => atBank_same _ _) _ _
    · exact homeRange_same _ _ _ _ _ _
  unfold State.serve
  dsimp only
  split
  · split
    · refine (a.trans (b _)).trans (foldl_same _ (fun s l => ?_) _ _)
      split
      · exact .refl s
      · exact putRdc_same _ _ _ _ _ _ _
    · exact a.trans (b _)
  · exact a.trans (b _)

/-! ### The leaf entry's accessed and dirty bits -/

/-- A leaf entry that changes: its byte is written once its home has served the write. -/
theorem touchLeaf_due (s : State) (p : PageInfo) (w : Bool) (d : s.leafDue p w = true) :
    ∃ r, SameSeen s r ∧ s.touchLeaf p w = r.putBytes .dev p.leaf [s.byteAt .dev p.leaf ||| 8 ||| (if w then 16 else 0)] := by
  unfold State.touchLeaf
  rw [if_pos d]
  dsimp only
  split
  · exact ⟨_, (settleRange_same _ _ _ _ _ _ _).trans (homeRange_same _ _ _ _ _ _), rfl⟩
  · exact ⟨s, .refl s, rfl⟩

theorem touchLeaf_undue (s : State) (p : PageInfo) (w : Bool) (d : ¬ s.leafDue p w = true) : s.touchLeaf p w = s := by
  unfold State.touchLeaf; rw [if_neg d]

theorem SameSeen.memOk {s t : State} (h : SameSeen s t) (m : s.memOk = true) : t.memOk = true := by
  rw [memOk_iff] at m ⊢
  refine ⟨by rw [h.mem]; exact m.1, by rw [h.hostMem]; exact m.2.1, fun c => ?_⟩
  rw [h.spad, h.wbuf]; exact m.2.2 c

/-- The bytes after ACC, and DRT for a write, are set in the leaf entry of a page. -/
theorem byteAt_touchLeaf (s : State) (h : s.memOk = true) (p : PageInfo) (w : Bool) (sp : Space) (x : Nat) :
    (s.touchLeaf p w).byteAt sp x =
      if sp = .dev ∧ x = p.leaf ∧ p.ps ≠ 3 then s.byteAt .dev x ||| 8 ||| (if w then 16 else 0) else s.byteAt sp x := by
  obtain ⟨b, hb⟩ : ∃ b, b = s.byteAt .dev p.leaf ||| 8 ||| (if w then 16 else 0) := ⟨_, rfl⟩
  by_cases d : s.leafDue p w = true
  · obtain ⟨r, hr, e⟩ := touchLeaf_due s p w d
    have hp : p.ps ≠ 3 := by simp [State.leafDue] at d; exact d.1
    rw [e, byteAt_putBytes r (hr.memOk h)]
    by_cases g : sp = .dev ∧ x = p.leaf
    · obtain ⟨rfl, rfl⟩ := g
      simp [hp]
    · rw [if_neg (fun e : _ ∧ _ ∧ _ => g ⟨e.1, e.2.1⟩), if_neg, hr.byteAt]
      intro e
      have := e.2.2
      simp only [List.length_cons, List.length_nil] at this
      exact g ⟨e.1, by omega⟩
  · rw [touchLeaf_undue s p w d]
    by_cases g : sp = .dev ∧ x = p.leaf ∧ p.ps ≠ 3
    · obtain ⟨rfl, rfl, hp⟩ := g
      simp only [State.leafDue, hp, ne_eq, not_false_eq_true, bne_iff_ne, Bool.and_eq_true, true_and, Decidable.not_not] at d
      rw [if_pos ⟨rfl, rfl, hp⟩]
      exact d.symm
    · rw [if_neg g]

theorem memOk_touchLeaf (s : State) (h : s.memOk = true) (p : PageInfo) (w : Bool) : (s.touchLeaf p w).memOk = true := by
  by_cases d : s.leafDue p w = true
  · obtain ⟨r, hr, e⟩ := touchLeaf_due s p w d
    rw [e]; exact memOk_putBytes r _ _ _ (hr.memOk h)
  · rw [touchLeaf_undue s p w d]; exact h

/-- Marking a leaf entry leaves the copies, the droves and the rest of what strands run on alone. -/
theorem touchLeaf_keeps (s : State) (p : PageInfo) (w : Bool) :
    (s.touchLeaf p w).parts = s.parts ∧ (s.touchLeaf p w).droves = s.droves ∧ (s.touchLeaf p w).bars = s.bars
      ∧ (s.touchLeaf p w).faults = s.faults ∧ (s.touchLeaf p w).reqs = s.reqs ∧ (s.touchLeaf p w).ctx = s.ctx
      ∧ (s.touchLeaf p w).hostMem = s.hostMem := by
  by_cases d : s.leafDue p w = true
  · obtain ⟨r, hr, e⟩ := touchLeaf_due s p w d
    rw [e]; exact ⟨hr.parts, hr.droves, hr.bars, hr.faults, hr.reqs, hr.ctx, hr.hostMem⟩
  · rw [touchLeaf_undue s p w d]; exact ⟨rfl, rfl, rfl, rfl, rfl, rfl, rfl⟩

theorem SameSeen.setPart {s t : State} (h : SameSeen s t) (k : Nat) (p : Part) : SameSeen (s.setPart k p) (t.setPart k p) :=
  { h with parts := by simp [State.setPart, h.parts], cores := h.cores, tens := h.tens }

theorem SameSeen.modPart {s t : State} (h : SameSeen s t) (k : Nat) (f : Part → Part) : SameSeen (s.modPart k f) (t.modPart k f) := by
  unfold State.modPart; rw [h.part]; exact h.setPart k _

/-- Placing an access in S moves the clock of its copy. -/
theorem stamp_same (s : State) (k : Nat) (w : Bool) (xs : List Stretch) :
    SameSeen (s.modPart k (fun p => { p with pts := serialMax (s.nextTs w xs) p.pts })) (s.stamp k w xs) := by
  constructor <;> intros <;> rfl

/-- A read does nothing a program sees but set ACC. -/
theorem readSide_same (s : State) (t : Nat) (x : Stretch) (via : Via) : SameSeen (s.touchLeaf x.page false) (s.readSide t x via) :=
  ((serve_same _ _ _ _ _).trans (pinTouch_same _ _ _ _)).trans (meterMem_same _ _ _ _)

/-- A prefetch does nothing a program sees. -/
theorem prefetchSide_same (s : State) (t : Nat) (x : Stretch) (via : Via) : SameSeen s (s.prefetchSide t x via) :=
  (serve_same _ _ _ _ _).trans (meterMem_same _ _ _ _)

/-- What a write does besides storing its bytes: it sets ACC and DRT. -/
theorem writeSide_same (s : State) (t : Nat) (x : Stretch) (via : Via) : SameSeen (s.touchLeaf x.page true) (s.writeSide t x via) :=
  (((serve_same _ _ _ _ _).trans (pinTouch_same _ _ _ _)).trans (meterMem_same _ _ _ _)).trans (unpoison_same _ _ _ _)

theorem SameSeen.putBytes {s t : State} (h : SameSeen s t) (sp : Space) (a : Nat) (bs : List Byte) :
    SameSeen (s.putBytes sp a bs) (t.putBytes sp a bs) := by
  cases sp with
  | spad c =>
    refine { h with cores := ?_, parts := h.parts, tens := h.tens }
    intro j
    by_cases g : j = c
    · subst g
      have e := h.cores j
      simp only [State.putBytes, core_modCore_same, Core.bare] at e ⊢
      injection e; simp_all
    · simpa [State.putBytes, core_modCore_other _ _ g] using h.cores j
  | dev => exact { h with mem := by simp [State.putBytes, h.mem], parts := h.parts, cores := h.cores, tens := h.tens }
  | host => exact { h with hostMem := by simp [State.putBytes, h.hostMem], parts := h.parts, cores := h.cores, tens := h.tens }

theorem SameSeen.symm {s t : State} (a : SameSeen s t) : SameSeen t s :=
  ⟨a.parts.symm, a.mem.symm, a.hostMem.symm, fun c => (a.cores c).symm, fun c => (a.tens c).symm, a.pkg.symm, a.droves.symm, a.nextDrove.symm,
    a.nextIter.symm, a.bars.symm, a.faults.symm, a.nextRec.symm, a.reqs.symm, a.ctx.symm, a.cycle.symm, a.budget.symm, a.agenda.symm, a.turn.symm⟩

/-- Machines that show a program the same still do once a leaf entry is marked in both. -/
theorem SameSeen.touchLeaf {s t : State} (h : SameSeen s t) (g : PageInfo) (w : Bool) : SameSeen (s.touchLeaf g w) (t.touchLeaf g w) := by
  have e : t.leafDue g w = s.leafDue g w := by simp only [State.leafDue, h.byteAt]
  by_cases d : s.leafDue g w = true
  · obtain ⟨r, hr, e1⟩ := touchLeaf_due s g w d
    obtain ⟨u, hu, e2⟩ := touchLeaf_due t g w (e.trans d)
    rw [e1, e2, h.byteAt]
    exact ((hr.symm.trans h).trans hu).putBytes _ _ _
  · rw [touchLeaf_undue s g w d, touchLeaf_undue t g w (by rw [e]; exact d)]; exact h

/-- Replacing a copy and marking a leaf entry commute, as far as a program sees. -/
theorem touchLeaf_setPart (s : State) (k : Nat) (p : Part) (g : PageInfo) (w : Bool) :
    SameSeen ((s.touchLeaf g w).setPart k p) ((s.setPart k p).touchLeaf g w) := by
  by_cases d : s.leafDue g w = true
  · obtain ⟨r, hr, e1⟩ := touchLeaf_due s g w d
    obtain ⟨u, hu, e2⟩ := touchLeaf_due (s.setPart k p) g w d
    rw [e1, e2]
    exact ((hr.setPart k p).symm.trans hu).putBytes .dev g.leaf _
  · rw [touchLeaf_undue s g w d, touchLeaf_undue (s.setPart k p) g w d]; exact .refl _

/-! ### An access that nothing holds back goes -/

theorem foldl_none {α β : Type} (f : Option β → α → Option β) (l : List α) (h : ∀ a, a ∈ l → f none a = none) : l.foldl f none = none := by
  induction l with
  | nil => rfl
  | cons a l ih => rw [List.foldl_cons, h a (by simp), ih (fun b hb => h b (by simp [hb]))]

/-- A fold that keeps a property and gets it at one of its elements has it. -/
theorem foldl_gets {α β : Type} (P : β → Prop) (f : β → α → β) (d : α) (keep : ∀ r a, P r → P (f r a)) (get : ∀ r, P (f r d)) (l : List α) (r : β)
    (h : P r ∨ d ∈ l) : P (l.foldl f r) := by
  induction l generalizing r with
  | nil => exact h.resolve_right (by simp)
  | cons a l ih =>
    rw [List.foldl_cons]
    refine ih _ ?_
    rcases h with h | h
    · exact .inl (keep r a h)
    · rcases List.mem_cons.1 h with e | e
      · exact .inl (e ▸ get r)
      · exact .inr e

theorem leafDue_ps (s : State) (p : PageInfo) (w : Bool) (d : s.leafDue p w = true) : p.ps ≠ 3 := by
  simp [State.leafDue] at d; exact d.1

/-- A leaf entry that an access changes is not marked for a write. -/
theorem leafDue_true (s : State) (p : PageInfo) (w : Bool) (d : s.leafDue p w = true) : s.leafDue p true = true := by
  cases w with
  | true => exact d
  | false =>
    simp only [State.leafDue, Bool.and_eq_true, bne_iff_ne, ne_eq, Bool.false_eq_true, if_false, if_true] at d ⊢
    refine ⟨d.1, fun e => d.2 ?_⟩
    generalize s.byteAt .dev p.leaf = b at e ⊢
    refine BitVec.eq_of_getLsbD_eq (fun i _ => ?_)
    have g := congrArg (fun x => x.getLsbD i) e
    simp only [BitVec.getLsbD_or] at g ⊢
    cases h : b.getLsbD i <;> rw [h] at g <;> simp_all

/-- The package holds a host line alone that an RDC of it holds alone, within its lease. -/
theorem hostState_alone (s : State) (l d : Nat) (w : Bool) (x : RdcLine) (hd : d < 4) (h : Map.find? s.pkg.rdc (rdcKey d true l) = some x)
    (hx : x.st ≠ .s) (hl : serialLe s.gts x.lease = true) : s.hostState l w = some .e ∨ s.hostState l w = some .m := by
  unfold State.hostState
  refine foldl_gets (fun r => r = some Mesi.e ∨ r = some Mesi.m) _ d (fun r a hr => ?_) (fun r => ?_) _ _ (.inr (by simpa [upto] using hd))
  · rcases hr with rfl | rfl
    · cases Map.find? s.pkg.rdc (rdcKey a true l) with
      | none => exact .inl rfl
      | some y => rcases y with ⟨st, ls, wy, tn⟩; cases st <;> simp
    · cases Map.find? s.pkg.rdc (rdcKey a true l) <;> simp
  · rw [h]
    rcases x with ⟨st, ls, wy, tn⟩
    dsimp only at hx hl
    cases st <;> rcases r with _ | r <;> first | exact absurd rfl hx | (cases r <;> simp [hl]) | simp [hl]

theorem lineNeeds_home (s : State) (src line : Nat) (w pad : Bool) (ws : BitVec 16) (h : s.lineHome line) : s.lineNeeds src line w pad ws = none := by
  unfold State.lineNeeds State.padRecall
  rw [h.1, h.2]

/-- A stretch at hand needs nothing from outside. -/
theorem needs_atHand (s : State) (who t : Nat) (w na : Bool) (x : Stretch) (h : s.atHand t x) : s.needs who t w na x = none := by
  obtain ⟨-, h1, h2, h3, -⟩ := h
  unfold State.needs
  by_cases hh : x.page.hh = true
  · have c2 : x.page.cl ≠ 2 := fun e => by have := h1 hh; omega
    simp only [hh, if_true, c2, if_false]
    refine foldl_none _ _ (fun l hl => ?_)
    have g := h3 l hl
    unfold State.lineAtHand at g
    rw [if_pos hh] at g
    obtain ⟨d, y, g1, g2, g3, g4⟩ := g
    dsimp only
    rcases hostState_alone s l d w y g1 g2 g3 g4 with e | e <;> rw [e]
  · have hf : x.page.hh = false := by simpa using hh
    simp only [hf, (h2 hf).2, Bool.false_eq_true, if_false, Bool.not_true]
    refine foldl_none _ _ (fun l hl => ?_)
    have g := h3 l hl
    unfold State.lineAtHand at g
    rw [if_neg hh] at g
    exact lineNeeds_home s _ l w false _ g.1

theorem leafStretch_pa (p : PageInfo) : (leafStretch p).pa = p.leaf := by simp [leafStretch, physStretch, Stretch.pa, PageInfo.pa]

/-- Nor does the leaf entry of its page. -/
theorem needs_leaf (s : State) (who t : Nat) (na : Bool) (p : PageInfo) (w : Bool) (h : s.leafAtHand p) (d : s.leafDue p w = true) :
    s.needs who t true na (leafStretch p) = none := by
  obtain ⟨h1, -, h2⟩ := h (leafDue_ps s p w d) (leafDue_true s p w d)
  have g : (leafStretch p).page.hh = false := rfl
  have n : linesOf p.leaf (leafStretch p).n = [p.leaf / 64] := by simp [leafStretch, physStretch, linesOf, upto]
  unfold State.needs
  simp only [g, leafStretch_pa, h1, n, Bool.false_eq_true, if_false, Bool.not_true, List.foldl_cons, List.foldl_nil]
  exact lineNeeds_home s _ _ true false _ h2

theorem frozenFor_leaf (s : State) (who : Nat) (p : PageInfo) (w : Bool) (h : s.leafAtHand p) (d : s.leafDue p w = true) :
    s.frozenFor who true (leafStretch p) = false := by
  obtain ⟨-, h1, -⟩ := h (leafDue_ps s p w d) (leafDue_true s p w d)
  unfold State.frozenFor
  rw [leafStretch_pa, h1]
  simp

theorem held_atHand (s : State) (who t : Nat) (w : Bool) (x : Stretch) (hw : s.pkg.waysNew = none) (h : s.atHand t x) : s.held who t w x = false := by
  obtain ⟨h1, -, h2, h3, -⟩ := h
  have a : s.waysWait t x = false := by unfold State.waysWait; rw [hw]
  have b : s.frozenFor who w x = false := by
    unfold State.frozenFor
    cases g : x.page.hh
    · simp [(h2 g).1]
    · simp
  have c : s.lineBusy x = false := by
    unfold State.lineBusy
    cases g : x.page.hh
    · simp only [Bool.not_false, Bool.true_and, List.any_eq_false]
      intro l hl
      have y := h3 l hl
      unfold State.lineAtHand at y
      rw [if_neg (by simp [g])] at y
      simp [y.2]
    · simp
  simp [State.held, h1, a, b, c]

/-- What nothing holds back is held by nothing on the package. -/
theorem anyHeld_unhindered (s : State) (who t : Nat) (rs ws : List Stretch) (h : s.unhindered who t rs ws) : s.anyHeld who t rs ws = false := by
  obtain ⟨-, -, b, c, -⟩ := h
  simp only [State.anyHeld, Bool.or_eq_false_iff, List.any_eq_false]
  refine ⟨⟨fun x hx => ?_, fun x hx => ?_⟩, fun y hy => ?_⟩
  · simp [held_atHand s who t false x b (c x (by simp [hx])).1]
  · simp [held_atHand s who t true x b (c x (by simp [hx])).1]
  · simp only [State.leaves, List.mem_map, List.mem_append, List.mem_filter] at hy
    obtain ⟨x, g | g, rfl⟩ := hy
    · simp [frozenFor_leaf s who x.page false (c x (by simp [g.1])).1.2.2.2.2 g.2]
    · simp [frozenFor_leaf s who x.page true (c x (by simp [g.1])).1.2.2.2.2 g.2]

/-- It needs nothing from outside. -/
theorem needsAll_unhindered (s : State) (who t : Nat) (na : Bool) (rs ws : List Stretch) (h : s.unhindered who t rs ws) :
    s.needsAll who t na rs (ws ++ s.leaves rs ws) [] = none := by
  obtain ⟨-, -, b, c, -⟩ := h
  have n1 : ((rs.filter (fun x => !(ws ++ s.leaves rs ws).contains x)).filterMap (fun x => (s.needs who t false na x).map (fun k => (k, x.va)))) = [] := by
    rw [List.filterMap_eq_nil_iff]
    intro x hx
    rw [needs_atHand s who t false na x (c x (by simp [(List.mem_filter.1 hx).1])).1]
    rfl
  have n2 : ((ws ++ s.leaves rs ws).filterMap (fun x => (s.needs who t true na x).map (fun k => (k, x.va)))) = [] := by
    rw [List.filterMap_eq_nil_iff]
    intro x hx
    rcases List.mem_append.1 hx with g | g
    · rw [needs_atHand s who t true na x (c x (by simp [g])).1]; rfl
    · simp only [State.leaves, List.mem_map, List.mem_append, List.mem_filter] at g
      obtain ⟨y, g | g, rfl⟩ := g
      · rw [needs_leaf s who t na y.page false (c y (by simp [g.1])).1.2.2.2.2 g.2]; rfl
      · rw [needs_leaf s who t na y.page true (c y (by simp [g.1])).1.2.2.2.2 g.2]; rfl
  unfold State.needsAll
  rw [n1, n2]
  rfl

/-- It lies inside the windows. -/
theorem outside_unhindered (s : State) (who t : Nat) (rs ws : List Stretch) (h : s.unhindered who t rs ws) : s.outside t (ws ++ rs) = none := by
  obtain ⟨-, -, -, c, -⟩ := h
  unfold State.outside
  rw [Option.map_eq_none_iff, List.find?_eq_none]
  intro x hx
  have g := (c x (by simp only [List.mem_append] at hx ⊢; tauto)).2
  by_cases p : x.page.ps = 3
  · simp [p]
  · simp [g p]

/-- An access that nothing holds back goes. -/
theorem gate_unhindered (s : State) (who t : Nat) (rs ws : List Stretch) (na : Bool) (ops : List (Nat × MemOp)) (pad : Bool)
    (h : s.unhindered who t rs ws) : s.gate who t rs ws na ops pad = .done s := by
  have e : s.exchange who (accessKind who rs ws) = .ok none := by unfold State.exchange; rw [h.1]
  have p : s.poisonedIn rs = none := h.2.2.2.2
  unfold State.gate
  simp only [anyHeld_unhindered s who t rs ws h, outside_unhindered s who t rs ws h, p, e, needsAll_unhindered s who t na rs ws h, Bool.false_eq_true,
    if_false]

/-! ### A walk whose tables are at hand goes -/

/-- A walk whose tables are at hand reads them at once. -/
theorem walk1_atHand (s : State) (who t va : Nat) (h : s.tablesAtHand who t va) : s.walk1 who t va = .done s := by
  obtain ⟨a, b, c⟩ := h
  have pa : ∀ x : Nat, (physStretch x 8 2).pa = x := fun x => by simp [physStretch, Stretch.pa, PageInfo.pa]
  have f : ((s.walkPath t va).map (fun pa => physStretch pa 8 2)).any (fun x => s.ours x.pa && s.frozenFor who false x) = false := by
    rw [List.any_eq_false]
    intro x hx
    obtain ⟨y, hy, rfl⟩ := List.mem_map.1 hx
    simp [State.frozenFor, pa, (c y hy).2.1]
  have n : s.needsAll (walkReq who) t false ((s.walkPath t va).map (fun pa => physStretch pa 8 2)) [] [] = none := by
    have n1 : ((((s.walkPath t va).map (fun pa => physStretch pa 8 2)).filter (fun x => !([] : List Stretch).contains x)).filterMap
        (fun x => (s.needs (walkReq who) t false false x).map (fun k => (k, x.va)))) = [] := by
      rw [List.filterMap_eq_nil_iff]
      intro x hx
      obtain ⟨y, hy, rfl⟩ := List.mem_map.1 (List.mem_filter.1 hx).1
      have g : (physStretch y 8 2).page.hh = false := rfl
      have m : (physStretch y 8 2).n = 8 := rfl
      unfold State.needs
      simp only [g, pa, (c y hy).1, m, Bool.false_eq_true, if_false, Bool.not_true]
      rw [foldl_none]
      · rfl
      · exact fun l hl => lineNeeds_home s _ l false false _ ((c y hy).2.2 l hl)
    unfold State.needsAll
    rw [n1]
    rfl
  have w : (s.pkg.winBusy == some t) = false := by simpa using b
  unfold State.walk1
  simp only [a, w, f, n, Bool.or_self, Bool.false_eq_true, if_false]
  split <;> rfl

/-- So do several. -/
theorem walks_atHand (s : State) (who t : Nat) (vas : List Nat) (h : ∀ va, va ∈ vas → s.tablesAtHand who t va) : s.walks who t vas = .ok () s := by
  unfold State.walks
  induction vas with
  | nil => rfl
  | cons a l ih =>
    rw [List.foldl_cons, show (Eff.ok () s).bind (fun _ s => (s.walk1 who t a).eff) = Eff.ok () s by
      simp [Eff.bind, walk1_atHand s who t a (h a (by simp)), Res.eff]]
    exact ih (fun b hb => h b (by simp [hb]))

end Sys2Proof.Machine
end

