-- ==== Sys2Proof/Laws/Execute.lean ====
section
/-! SUPPORT. What the body of an X instruction does once its elements are there, and the lanes and flags of the lane-wise forms. -/
namespace Sys2Proof.Machine

/-- What routing moves in a copy before the body of the instruction runs. -/
structure Moved where
  pc : VAddr
  seq : Nat
  tok : Map Nat
  owed : Map Nat
  tail : Map Routed
  waits : Map Nat

/-- A copy with that moved. -/
def Part.moved (p : Part) (m : Moved) : Part :=
  { p with pc := m.pc, seq := m.seq, tok := m.tok, owed := m.owed, tail := m.tail, waits := m.waits }

/-- The body of a routed instruction finds the copy it was routed from, so moved. -/
theorem entered_eq (s : State) (u : Nat) (tk : Tk) : ∃ m : Moved, m.pc = s.pcAfter ∧ s.entered u tk = s.me.moved m := by
  obtain ⟨a, b, c, d, h⟩ := entered_moved s u tk
  exact ⟨⟨s.pcAfter, if s.ctx.retry then s.me.seq else s.me.seq + 1, a, b, c, d⟩, rfl, h⟩

theorem readX_moved (p0 p : Part) (ty : Ty) (imm : BitVec 16) (x : XSrc) (m : Moved) :
    (p0.moved m).readX ty imm x (p.moved m) = ((p0.readX ty imm x p).1, (p0.readX ty imm x p).2.moved m) := by
  cases x <;> rfl

/-- Sources do not depend on the place of the instruction. -/
theorem readSrcs_moved (p : Part) (o : XArgs) (m : Moved) :
    (p.moved m).readSrcs o = ((p.readSrcs o).1, (p.readSrcs o).2.1, (p.readSrcs o).2.2.1, (p.readSrcs o).2.2.2.moved m) := by
  simp only [Part.readSrcs, readX_moved]

theorem inIter_readX (p0 p : Part) (ty : Ty) (imm : BitVec 16) (x : XSrc) : (p0.readX ty imm x p).2.inIter = p.inIter := by
  cases x <;> rfl

/-- Reading sources leaves the copy in its iteration. -/
theorem inIter_readSrcs (p : Part) (o : XArgs) : (p.readSrcs o).2.2.2.inIter = p.inIter := by
  simp only [Part.readSrcs, inIter_readX]

theorem bare_deliverX_moved (p : Part) (d : XDst) (c : DWord) (v : Vec) (fl : Word) (m : Moved) :
    (((p.moved m).deliverX d c v).orFlags fl).bare = (((p.deliverX d c v).orFlags fl).at m.pc).bare := by
  cases d <;> rfl

theorem inIter_deliverX (p : Part) (d : XDst) (c : DWord) (v : Vec) (fl : Word) : ((p.deliverX d c v).orFlags fl).inIter = p.inIter := by
  cases d <;> rfl

/-- An X instruction that is ready ends with its result delivered. -/
theorem xBody_ends (i : Instr) (o : XArgs) (f : DWord → Vec → Vec → Vec → Vec × Nat × DWord) (s : State) (h : s.readyIn 2 o.tk)
    (hr : s.me.readyX s.ctx.seq o = true) {a b c : Vec} {q : Part} (hs : s.me.readSrcs o = (a, b, c, q)) :
    ∃ t, routed 2 i o.tk (xBody o f) s = .next t
      ∧ s.xEnds t o (f (s.me.rdP o.p.val) a b c).1 (f (s.me.rdP o.p.val) a b c).2.2 (BitVec.ofNat 32 (f (s.me.rdP o.p.val) a b c).2.1) := by
  obtain ⟨m, hm, he⟩ := entered_eq s 2 o.tk
  have hq := readSrcs_moved s.me o m
  have hi := inIter_readSrcs s.me o
  rw [hs] at hq hi
  obtain ⟨t, h1, h2⟩ := routed_became 2 i o.tk (xBody o f) s
    (s.meter (s.tenOf (coreOf s.ctx.k)) 4 (countOnes (f (s.me.rdP o.p.val) a b c).2.2))
    ((((q.moved m).deliverX o.d (f (s.me.rdP o.p.val) a b c).2.2 (f (s.me.rdP o.p.val) a b c).1).orFlags
      (BitVec.ofNat 32 (f (s.me.rdP o.p.val) a b c).2.1))) h rfl ((inIter_deliverX _ _ _ _ _).trans (hi.trans h.1)) (by
      have k : (s.enter 2 o.tk).ctx = s.ctx := rfl
      have e : (s.enter 2 o.tk).part s.ctx.k = s.me.moved m := by rw [← he]; simp [State.enter]
      have r1 : (s.me.moved m).queuesX o = true := (Bool.and_eq_true_iff.1 hr).1
      have r2 : (s.me.moved m).olderCtl s.ctx.seq [6] = false := show s.me.olderCtl s.ctx.seq [6] = false by simpa using (Bool.and_eq_true_iff.1 hr).2
      have p2 : (s.me.moved m).rdP o.p.val = s.me.rdP o.p.val := rfl
      unfold xBody xBodyOn
      simp only [k, e, r1, r2, hq, p2, Bool.not_true, Bool.false_eq_true, if_false]
      simp [State.enter, State.meter, State.modTen, setPart_setPart]
      rfl)
  refine ⟨t, h1, ?_⟩
  unfold State.xEnds
  refine ⟨h2.1, h2.2.trans ?_⟩
  rw [hs]
  exact (bare_deliverX_moved _ _ _ _ _ _).trans (by rw [hm])

/-! ### Lanes and flags -/

theorem testBit_foldl_or {α : Type} (f : α → Nat) (k : Nat) : ∀ (l : List α) (x : Nat),
    (l.foldl (fun x r => x ||| f r) x).testBit k = (x.testBit k || l.any (fun r => (f r).testBit k))
  | [], x => by simp
  | r :: rest, x => by
    simp only [List.foldl_cons, testBit_foldl_or f k rest, Nat.testBit_or, List.any_cons, Bool.or_assoc]

/-- The parts of a lane-wise result. -/
theorem lanewise_spec (o : XArgs) (f : Nat → FR) (m : DWord) (a : Vec) :
    (lanewise o f m a).1.length = 64 ∧ (lanewise o f m a).2.2 = m
      ∧ (∀ l, l < 64 → lane (lanewise o f m a).1 l = if m.getLsbD l then BitVec.ofNat 32 (f l).1 else if o.pz then 0 else lane a l)
      ∧ (∀ k, (lanewise o f m a).2.1.testBit k = true ↔ ∃ l, l < 64 ∧ m.getLsbD l = true ∧ (f l).2.testBit k = true) := by
  refine ⟨by simp [lanewise, upto], rfl, fun l hl => ?_, fun k => ?_⟩
  · simp only [lanewise, lane, upto, List.map_map, List.getD_eq_getElem?_getD, List.getElem?_map, List.getElem?_range hl, Option.map_some,
      Option.getD_some, Function.comp_apply, maskBit]
    by_cases hm : m.getLsbD l = true
    · simp [hm]
    · cases o.pz <;> simp [hm]
  · simp only [lanewise, testBit_foldl_or (fun r : FR => r.2), Nat.zero_testBit, Bool.false_or, List.any_map, upto, maskBit]
    rw [List.any_eq_true]
    constructor
    · rintro ⟨l, hl, h⟩
      simp only [Function.comp_apply] at h
      by_cases hm : m.getLsbD l = true
      · exact ⟨l, List.mem_range.1 hl, hm, by simpa [hm] using h⟩
      · simp [hm] at h
    · rintro ⟨l, hl, hm, h⟩
      exact ⟨l, List.mem_range.2 hl, by simp [hm, h]⟩

theorem packElems_lt (w : Nat) : ∀ l : List Nat, packElems w l < 2 ^ (w * l.length)
  | [] => by simp [packElems]
  | x :: xs => by
    have h := packElems_lt w xs
    have hx : x % 2 ^ w < 2 ^ w := Nat.mod_lt _ (Nat.two_pow_pos w)
    simp only [packElems, List.length_cons, Nat.mul_add, Nat.mul_one]
    rw [Nat.add_comm (w * xs.length), Nat.pow_add]
    calc x % 2 ^ w + 2 ^ w * packElems w xs < 2 ^ w + 2 ^ w * packElems w xs := by omega
      _ = 2 ^ w * (packElems w xs + 1) := by ring
      _ ≤ 2 ^ w * 2 ^ (w * xs.length) := Nat.mul_le_mul_left _ h

theorem bits_packElems (w : Nat) : ∀ (l : List Nat) (j : Nat), bits (packElems w l) (j * w) w = l.getD j 0 % 2 ^ w
  | [], j => by simp [packElems, bits]
  | x :: xs, 0 => by simp [packElems, bits, Nat.add_mul_mod_self_left]
  | x :: xs, j + 1 => by
    have ih := bits_packElems w xs j
    have hx : x % 2 ^ w < 2 ^ w := Nat.mod_lt _ (Nat.two_pow_pos w)
    simp only [bits] at ih ⊢
    rw [show (j + 1) * w = w + j * w by ring, Nat.pow_add, ← Nat.div_div_eq_div_mul]
    simp only [packElems]
    rw [Nat.add_mul_div_left _ _ (Nat.two_pow_pos w), Nat.div_eq_of_lt hx, Nat.zero_add, ih]
    simp

theorem width_perLane (t : Ty) : Ty.width t * perLane t = 32 := by cases t <;> rfl

/-- The elements and the flags of a lane computed element by element. -/
theorem mapElems_spec (t : Ty) (f : Nat → FR) :
    (mapElems t f).1 < 2 ^ 32 ∧ (∀ j, j < perLane t → elemOf t (mapElems t f).1 j = (f j).1 % 2 ^ Ty.width t)
      ∧ (∀ k, (mapElems t f).2.testBit k = true ↔ ∃ j, j < perLane t ∧ (f j).2.testBit k = true) := by
  refine ⟨?_, fun j hj => ?_, fun k => ?_⟩
  · have h := packElems_lt (Ty.width t) (((upto (perLane t)).map f).map (·.1))
    simpa [mapElems, upto, width_perLane] using h
  · simp only [elemOf, mapElems, bits_packElems, upto, List.map_map, List.getD_eq_getElem?_getD, List.getElem?_map, List.getElem?_range hj,
      Option.map_some, Option.getD_some, Function.comp_apply]
  · simp only [mapElems, testBit_foldl_or (fun r : FR => r.2), Nat.zero_testBit, Bool.false_or, List.any_map, upto]
    rw [List.any_eq_true]
    exact ⟨fun ⟨j, hj, h⟩ => ⟨j, List.mem_range.1 hj, h⟩, fun ⟨j, hj, h⟩ => ⟨j, List.mem_range.2 hj, h⟩⟩

/-- A lane-wise X instruction that is ready. -/
theorem lanes_ends (i : Instr) (o : XArgs) (g : Vec → Vec → Vec → Nat → FR) (s : State) (h : s.readyIn 2 o.tk)
    (hr : s.me.readyX s.ctx.seq o = true) {a b c : Vec} {q : Part} (hs : s.me.readSrcs o = (a, b, c, q)) :
    ∃ t v fl, routed 2 i o.tk (xBody o (fun m a b c => lanewise o (g a b c) m a)) s = .next t ∧ s.xLanes t o v fl
      ∧ (∀ l, s.active o l → lane v l = BitVec.ofNat 32 (g a b c l).1)
      ∧ (∀ k, k < 32 → (fl.getLsbD k = true ↔ ∃ l, s.active o l ∧ (g a b c l).2.testBit k = true)) := by
  obtain ⟨t, h1, h2⟩ := xBody_ends i o _ s h hr hs
  obtain ⟨p1, p2, p3, p4⟩ := lanewise_spec o (g a b c) (s.me.rdP o.p.val) a
  refine ⟨t, _, _, h1, ⟨by simpa only [p2] using h2, p1, fun l hl ha => ?_⟩, fun l ha => ?_, fun k hk => ?_⟩
  · have hm : ¬ (s.me.rdP o.p.val).getLsbD l = true := fun x => ha ⟨hl, x⟩
    rw [p3 l hl, if_neg hm, hs]
  · rw [p3 l ha.1, if_pos ha.2]
  · rw [BitVec.getLsbD_ofNat, decide_eq_true hk, Bool.true_and, p4 k]
    exact ⟨fun ⟨l, x, y, z⟩ => ⟨l, ⟨x, y⟩, z⟩, fun ⟨l, ⟨x, y⟩, z⟩ => ⟨l, x, y, z⟩⟩

/-- The same element by element. -/
theorem elems_ends (i : Instr) (o : XArgs) (g : Nat → Nat → Nat → FR) (s : State) (h : s.readyIn 2 o.tk)
    (hr : s.me.readyX s.ctx.seq o = true) {a b c : Vec} {q : Part} (hs : s.me.readSrcs o = (a, b, c, q)) :
    ∃ t v fl, routed 2 i o.tk (xBody o (elemwise o g)) s = .next t ∧ s.xLanes t o v fl
      ∧ (∀ l j, s.active o l → j < perLane o.ty → elemOf o.ty (lane v l).toNat j
          = (g (elemOf o.ty (lane a l).toNat j) (elemOf o.ty (lane b l).toNat j) (elemOf o.ty (lane c l).toNat j)).1 % 2 ^ Ty.width o.ty)
      ∧ (∀ k, k < 32 → (fl.getLsbD k = true ↔ ∃ l j, s.active o l ∧ j < perLane o.ty
          ∧ (g (elemOf o.ty (lane a l).toNat j) (elemOf o.ty (lane b l).toNat j) (elemOf o.ty (lane c l).toNat j)).2.testBit k = true)) := by
  obtain ⟨t, v, fl, h1, h2, h3, h4⟩ := lanes_ends i o (fun a b c l => mapElems o.ty (fun j =>
    g (elemOf o.ty (lane a l).toNat j) (elemOf o.ty (lane b l).toNat j) (elemOf o.ty (lane c l).toNat j))) s h hr hs
  refine ⟨t, v, fl, h1, h2, fun l j ha hj => ?_, fun k hk => ?_⟩
  · obtain ⟨x1, x2, -⟩ := mapElems_spec o.ty (fun j =>
      g (elemOf o.ty (lane a l).toNat j) (elemOf o.ty (lane b l).toNat j) (elemOf o.ty (lane c l).toNat j))
    rw [h3 l ha, BitVec.toNat_ofNat, Nat.mod_eq_of_lt x1, x2 j hj]
  · rw [h4 k hk]
    constructor
    · rintro ⟨l, ha, hf⟩
      obtain ⟨j, hj, hb⟩ := ((mapElems_spec o.ty _).2.2 k).1 hf
      exact ⟨l, j, ha, hj, hb⟩
    · rintro ⟨l, j, ha, hj, hb⟩
      exact ⟨l, ha, ((mapElems_spec o.ty _).2.2 k).2 ⟨j, hj, hb⟩⟩

end Sys2Proof.Machine
end

