-- ==== Sys2Proof/Laws/PerInstr.lean ====
section
/-! SUPPORT. The words of each instruction: a program's instruction is one word (R33), a command has at most seven extension words (R52), a step at
most two (R197), and an event or a message none. -/
namespace Sys2Proof.Laws.Words
open Sys2Proof Sys2Proof.Machine

/-- What an instruction is decides how many words it has. -/
def Statement (i : Instr) : Prop :=
  ((isEvent i || isMessage i) = true → encode i = []) ∧ (i.isWord = true → (encode i).length = 1)
    ∧ (i.isStep = true → 1 ≤ (encode i).length ∧ (encode i).length ≤ 3) ∧ (encode i).length ≤ 8

theorem nop : Statement .nop := ⟨nofun, fun _ => rfl, nofun, Nat.le_of_ble_eq_true rfl⟩
theorem br (o : FOp) : Statement (.br o) := ⟨nofun, fun _ => rfl, nofun, Nat.le_of_ble_eq_true rfl⟩
theorem brc (sense : Bool) (o : FOp) : Statement (.brc sense o) := ⟨nofun, fun _ => rfl, nofun, Nat.le_of_ble_eq_true rfl⟩
theorem loop (lc : Fin 8) (o : FOp) : Statement (.loop lc o) := ⟨nofun, fun _ => rfl, nofun, Nat.le_of_ble_eq_true rfl⟩
theorem lcset (lc : Fin 8) (o : FOp) : Statement (.lcset lc o) := ⟨nofun, fun _ => rfl, nofun, Nat.le_of_ble_eq_true rfl⟩
theorem call (o : FOp) : Statement (.call o) := ⟨nofun, fun _ => rfl, nofun, Nat.le_of_ble_eq_true rfl⟩
theorem ret : Statement .ret := ⟨nofun, fun _ => rfl, nofun, Nat.le_of_ble_eq_true rfl⟩
theorem jmp (bias : Word) : Statement (.jmp bias) := ⟨nofun, fun _ => rfl, nofun, Nat.le_of_ble_eq_true rfl⟩
theorem endIter : Statement .endIter := ⟨nofun, fun _ => rfl, nofun, Nat.le_of_ble_eq_true rfl⟩
theorem bar (r : BarRef) : Statement (.bar r) := ⟨nofun, fun _ => rfl, nofun, Nat.le_of_ble_eq_true rfl⟩
theorem bara (r : BarRef) : Statement (.bara r) := ⟨nofun, fun _ => rfl, nofun, Nat.le_of_ble_eq_true rfl⟩
theorem barw (r : BarRef) : Statement (.barw r) := ⟨nofun, fun _ => rfl, nofun, Nat.le_of_ble_eq_true rfl⟩
theorem barcfg (r : BarRef) (count : BitVec 21) : Statement (.barcfg r count) := ⟨nofun, fun _ => rfl, nofun, Nat.le_of_ble_eq_true rfl⟩
theorem barrot (st : Word) : Statement (.barrot st) := ⟨nofun, fun _ => rfl, nofun, Nat.le_of_ble_eq_true rfl⟩
theorem fence (sc : Scope) (kinds : BitVec 5) : Statement (.fence sc kinds) := ⟨nofun, fun _ => rfl, nofun, Nat.le_of_ble_eq_true rfl⟩
theorem waitev (ev : Fin 16) (thr : Word) : Statement (.waitev ev thr) := ⟨nofun, fun _ => rfl, nofun, Nat.le_of_ble_eq_true rfl⟩
theorem evclr (ev : Fin 16) : Statement (.evclr ev) := ⟨nofun, fun _ => rfl, nofun, Nat.le_of_ble_eq_true rfl⟩
theorem launch (sc : Scope) (off : Word) : Statement (.launch sc off) := ⟨nofun, fun _ => rfl, nofun, Nat.le_of_ble_eq_true rfl⟩
theorem yieldTurn : Statement .yieldTurn := ⟨nofun, fun _ => rfl, nofun, Nat.le_of_ble_eq_true rfl⟩
theorem trap (code : Word) : Statement (.trap code) := ⟨nofun, fun _ => rfl, nofun, Nat.le_of_ble_eq_true rfl⟩
theorem sleep (cycles : Word) : Statement (.sleep cycles) := ⟨nofun, fun _ => rfl, nofun, Nat.le_of_ble_eq_true rfl⟩
theorem halt (code : Word) : Statement (.halt code) := ⟨nofun, fun _ => rfl, nofun, Nat.le_of_ble_eq_true rfl⟩
theorem ld (o : LdArgs) : Statement (.ld o) := ⟨nofun, fun _ => rfl, nofun, Nat.le_of_ble_eq_true rfl⟩
theorem ldx (o : LdArgs) : Statement (.ldx o) := ⟨nofun, fun _ => rfl, nofun, Nat.le_of_ble_eq_true rfl⟩
theorem lds (tk : Tk) (dst : ADst) (sn : Fin 8) : Statement (.lds tk dst sn) := ⟨nofun, fun _ => rfl, nofun, Nat.le_of_ble_eq_true rfl⟩
theorem sa (o : SaArgs) : Statement (.sa o) := ⟨nofun, fun _ => rfl, nofun, Nat.le_of_ble_eq_true rfl⟩
theorem sax (o : SaArgs) : Statement (.sax o) := ⟨nofun, fun _ => rfl, nofun, Nat.le_of_ble_eq_true rfl⟩
theorem pft (o : PftArgs) : Statement (.pft o) := ⟨nofun, fun _ => rfl, nofun, Nat.le_of_ble_eq_true rfl⟩
theorem xlt (tk : Tk) (h : Fin 32) (ra : Fin 16) : Statement (.xlt tk h ra) := ⟨nofun, fun _ => rfl, nofun, Nat.le_of_ble_eq_true rfl⟩
theorem hdrop (tk : Tk) (h : Fin 32) : Statement (.hdrop tk h) := ⟨nofun, fun _ => rfl, nofun, Nat.le_of_ble_eq_true rfl⟩
theorem hqry (tk : Tk) (dst : ADst) (h : Fin 32) : Statement (.hqry tk dst h) := ⟨nofun, fun _ => rfl, nofun, Nat.le_of_ble_eq_true rfl⟩
theorem sbind (tk : Tk) (sn : Fin 8) (ra : Fin 16) (rs : Option (Fin 16)) (cnt : Cnt) (sz : Size) : Statement (.sbind tk sn ra rs cnt sz) := by
  cases cnt <;> exact ⟨nofun, fun _ => rfl, nofun, Nat.le_of_ble_eq_true rfl⟩
theorem sskip (tk : Tk) (sn : Fin 8) (cnt : Cnt) : Statement (.sskip tk sn cnt) := by
  cases cnt <;> exact ⟨nofun, fun _ => rfl, nofun, Nat.le_of_ble_eq_true rfl⟩
theorem sfree (tk : Tk) (sn : Fin 8) : Statement (.sfree tk sn) := ⟨nofun, fun _ => rfl, nofun, Nat.le_of_ble_eq_true rfl⟩
theorem pdbind (tk : Tk) (pd : Fin 64) (rs : Fin 16) (rg : Fin 16) (lines : BitVec 28) : Statement (.pdbind tk pd rs rg lines) := ⟨nofun, fun _ => rfl, nofun, Nat.le_of_ble_eq_true rfl⟩
theorem pdflush (tk : Tk) (pd : Fin 64) : Statement (.pdflush tk pd) := ⟨nofun, fun _ => rfl, nofun, Nat.le_of_ble_eq_true rfl⟩
theorem pdunbind (tk : Tk) (pd : Fin 64) : Statement (.pdunbind tk pd) := ⟨nofun, fun _ => rfl, nofun, Nat.le_of_ble_eq_true rfl⟩
theorem feset (tk : Tk) (n : Fin 64) (base : Option (Fin 16)) (off : BitVec 28) : Statement (.feset tk n base off) := ⟨nofun, fun _ => rfl, nofun, Nat.le_of_ble_eq_true rfl⟩
theorem feclr (tk : Tk) (n : Fin 64) (base : Option (Fin 16)) (off : BitVec 28) : Statement (.feclr tk n base off) := ⟨nofun, fun _ => rfl, nofun, Nat.le_of_ble_eq_true rfl⟩
theorem fetest (tk : Tk) (dst : ADst) (base : Option (Fin 16)) (off : BitVec 28) : Statement (.fetest tk dst base off) := ⟨nofun, fun _ => rfl, nofun, Nat.le_of_ble_eq_true rfl⟩
theorem tkw (tk : Tk) (eng : Fin 4) (cnt : BitVec 28) : Statement (.tkw tk eng cnt) := ⟨nofun, fun _ => rfl, nofun, Nat.le_of_ble_eq_true rfl⟩
theorem adda (o : AaArgs) : Statement (.adda o) := ⟨nofun, fun _ => rfl, nofun, Nat.le_of_ble_eq_true rfl⟩
theorem suba (o : AaArgs) : Statement (.suba o) := ⟨nofun, fun _ => rfl, nofun, Nat.le_of_ble_eq_true rfl⟩
theorem mula (o : AaArgs) : Statement (.mula o) := ⟨nofun, fun _ => rfl, nofun, Nat.le_of_ble_eq_true rfl⟩
theorem mada (o : AaArgs) : Statement (.mada o) := ⟨nofun, fun _ => rfl, nofun, Nat.le_of_ble_eq_true rfl⟩
theorem shla (o : AaArgs) : Statement (.shla o) := ⟨nofun, fun _ => rfl, nofun, Nat.le_of_ble_eq_true rfl⟩
theorem shra (o : AaArgs) : Statement (.shra o) := ⟨nofun, fun _ => rfl, nofun, Nat.le_of_ble_eq_true rfl⟩
theorem anda (o : AaArgs) : Statement (.anda o) := ⟨nofun, fun _ => rfl, nofun, Nat.le_of_ble_eq_true rfl⟩
theorem ora (o : AaArgs) : Statement (.ora o) := ⟨nofun, fun _ => rfl, nofun, Nat.le_of_ble_eq_true rfl⟩
theorem xora (o : AaArgs) : Statement (.xora o) := ⟨nofun, fun _ => rfl, nofun, Nat.le_of_ble_eq_true rfl⟩
theorem mina (o : AaArgs) : Statement (.mina o) := ⟨nofun, fun _ => rfl, nofun, Nat.le_of_ble_eq_true rfl⟩
theorem maxa (o : AaArgs) : Statement (.maxa o) := ⟨nofun, fun _ => rfl, nofun, Nat.le_of_ble_eq_true rfl⟩
theorem lia (o : AaArgs) : Statement (.lia o) := ⟨nofun, fun _ => rfl, nofun, Nat.le_of_ble_eq_true rfl⟩
theorem liha (o : AaArgs) : Statement (.liha o) := ⟨nofun, fun _ => rfl, nofun, Nat.le_of_ble_eq_true rfl⟩
theorem mova (o : AaArgs) : Statement (.mova o) := ⟨nofun, fun _ => rfl, nofun, Nat.le_of_ble_eq_true rfl⟩
theorem ctlr (tk : Tk) (dst : ADst) (ix : Fin 8) : Statement (.ctlr tk dst ix) := ⟨nofun, fun _ => rfl, nofun, Nat.le_of_ble_eq_true rfl⟩
theorem ctlw (tk : Tk) (ix : Fin 8) (src : Option (Fin 16)) : Statement (.ctlw tk ix src) := ⟨nofun, fun _ => rfl, nofun, Nat.le_of_ble_eq_true rfl⟩
theorem fadd (o : XArgs) : Statement (.fadd o) := ⟨nofun, fun _ => rfl, nofun, Nat.le_of_ble_eq_true rfl⟩
theorem fsub (o : XArgs) : Statement (.fsub o) := ⟨nofun, fun _ => rfl, nofun, Nat.le_of_ble_eq_true rfl⟩
theorem fmul (o : XArgs) : Statement (.fmul o) := ⟨nofun, fun _ => rfl, nofun, Nat.le_of_ble_eq_true rfl⟩
theorem fma (o : XArgs) : Statement (.fma o) := ⟨nofun, fun _ => rfl, nofun, Nat.le_of_ble_eq_true rfl⟩
theorem fnma (o : XArgs) : Statement (.fnma o) := ⟨nofun, fun _ => rfl, nofun, Nat.le_of_ble_eq_true rfl⟩
theorem fmin (o : XArgs) : Statement (.fmin o) := ⟨nofun, fun _ => rfl, nofun, Nat.le_of_ble_eq_true rfl⟩
theorem fmax (o : XArgs) : Statement (.fmax o) := ⟨nofun, fun _ => rfl, nofun, Nat.le_of_ble_eq_true rfl⟩
theorem fsgn (o : XArgs) : Statement (.fsgn o) := ⟨nofun, fun _ => rfl, nofun, Nat.le_of_ble_eq_true rfl⟩
theorem fcmp (o : XArgs) : Statement (.fcmp o) := ⟨nofun, fun _ => rfl, nofun, Nat.le_of_ble_eq_true rfl⟩
theorem frcp (o : XArgs) : Statement (.frcp o) := ⟨nofun, fun _ => rfl, nofun, Nat.le_of_ble_eq_true rfl⟩
theorem frsq (o : XArgs) : Statement (.frsq o) := ⟨nofun, fun _ => rfl, nofun, Nat.le_of_ble_eq_true rfl⟩
theorem fsqrt (o : XArgs) : Statement (.fsqrt o) := ⟨nofun, fun _ => rfl, nofun, Nat.le_of_ble_eq_true rfl⟩
theorem fexp2 (o : XArgs) : Statement (.fexp2 o) := ⟨nofun, fun _ => rfl, nofun, Nat.le_of_ble_eq_true rfl⟩
theorem flog2 (o : XArgs) : Statement (.flog2 o) := ⟨nofun, fun _ => rfl, nofun, Nat.le_of_ble_eq_true rfl⟩
theorem fcvt (o : XArgs) : Statement (.fcvt o) := ⟨nofun, fun _ => rfl, nofun, Nat.le_of_ble_eq_true rfl⟩
theorem frnd (o : XArgs) : Statement (.frnd o) := ⟨nofun, fun _ => rfl, nofun, Nat.le_of_ble_eq_true rfl⟩
theorem iadd (o : XArgs) : Statement (.iadd o) := ⟨nofun, fun _ => rfl, nofun, Nat.le_of_ble_eq_true rfl⟩
theorem isub (o : XArgs) : Statement (.isub o) := ⟨nofun, fun _ => rfl, nofun, Nat.le_of_ble_eq_true rfl⟩
theorem imul (o : XArgs) : Statement (.imul o) := ⟨nofun, fun _ => rfl, nofun, Nat.le_of_ble_eq_true rfl⟩
theorem imulh (o : XArgs) : Statement (.imulh o) := ⟨nofun, fun _ => rfl, nofun, Nat.le_of_ble_eq_true rfl⟩
theorem imad (o : XArgs) : Statement (.imad o) := ⟨nofun, fun _ => rfl, nofun, Nat.le_of_ble_eq_true rfl⟩
theorem imin (o : XArgs) : Statement (.imin o) := ⟨nofun, fun _ => rfl, nofun, Nat.le_of_ble_eq_true rfl⟩
theorem imax (o : XArgs) : Statement (.imax o) := ⟨nofun, fun _ => rfl, nofun, Nat.le_of_ble_eq_true rfl⟩
theorem iabs (o : XArgs) : Statement (.iabs o) := ⟨nofun, fun _ => rfl, nofun, Nat.le_of_ble_eq_true rfl⟩
theorem ishl (o : XArgs) : Statement (.ishl o) := ⟨nofun, fun _ => rfl, nofun, Nat.le_of_ble_eq_true rfl⟩
theorem ishr (o : XArgs) : Statement (.ishr o) := ⟨nofun, fun _ => rfl, nofun, Nat.le_of_ble_eq_true rfl⟩
theorem and (o : XArgs) : Statement (.and o) := ⟨nofun, fun _ => rfl, nofun, Nat.le_of_ble_eq_true rfl⟩
theorem or (o : XArgs) : Statement (.or o) := ⟨nofun, fun _ => rfl, nofun, Nat.le_of_ble_eq_true rfl⟩
theorem xor (o : XArgs) : Statement (.xor o) := ⟨nofun, fun _ => rfl, nofun, Nat.le_of_ble_eq_true rfl⟩
theorem andn (o : XArgs) : Statement (.andn o) := ⟨nofun, fun _ => rfl, nofun, Nat.le_of_ble_eq_true rfl⟩
theorem popc (o : XArgs) : Statement (.popc o) := ⟨nofun, fun _ => rfl, nofun, Nat.le_of_ble_eq_true rfl⟩
theorem clz (o : XArgs) : Statement (.clz o) := ⟨nofun, fun _ => rfl, nofun, Nat.le_of_ble_eq_true rfl⟩
theorem icmp (o : XArgs) : Statement (.icmp o) := ⟨nofun, fun _ => rfl, nofun, Nat.le_of_ble_eq_true rfl⟩
theorem qmul (o : XArgs) : Statement (.qmul o) := ⟨nofun, fun _ => rfl, nofun, Nat.le_of_ble_eq_true rfl⟩
theorem qmad (o : XArgs) : Statement (.qmad o) := ⟨nofun, fun _ => rfl, nofun, Nat.le_of_ble_eq_true rfl⟩
theorem bpack (o : XArgs) : Statement (.bpack o) := ⟨nofun, fun _ => rfl, nofun, Nat.le_of_ble_eq_true rfl⟩
theorem bunpk (o : XArgs) : Statement (.bunpk o) := ⟨nofun, fun _ => rfl, nofun, Nat.le_of_ble_eq_true rfl⟩
theorem mov (o : XArgs) : Statement (.mov o) := ⟨nofun, fun _ => rfl, nofun, Nat.le_of_ble_eq_true rfl⟩
theorem sel (o : XArgs) : Statement (.sel o) := ⟨nofun, fun _ => rfl, nofun, Nat.le_of_ble_eq_true rfl⟩
theorem shfl (o : XArgs) : Statement (.shfl o) := ⟨nofun, fun _ => rfl, nofun, Nat.le_of_ble_eq_true rfl⟩
theorem bcast (o : XArgs) : Statement (.bcast o) := ⟨nofun, fun _ => rfl, nofun, Nat.le_of_ble_eq_true rfl⟩
theorem slide (o : XArgs) : Statement (.slide o) := ⟨nofun, fun _ => rfl, nofun, Nat.le_of_ble_eq_true rfl⟩
theorem ins (o : XArgs) : Statement (.ins o) := ⟨nofun, fun _ => rfl, nofun, Nat.le_of_ble_eq_true rfl⟩
theorem ext (o : XArgs) : Statement (.ext o) := ⟨nofun, fun _ => rfl, nofun, Nat.le_of_ble_eq_true rfl⟩
theorem rsum (o : XArgs) : Statement (.rsum o) := ⟨nofun, fun _ => rfl, nofun, Nat.le_of_ble_eq_true rfl⟩
theorem rmax (o : XArgs) : Statement (.rmax o) := ⟨nofun, fun _ => rfl, nofun, Nat.le_of_ble_eq_true rfl⟩
theorem rmin (o : XArgs) : Statement (.rmin o) := ⟨nofun, fun _ => rfl, nofun, Nat.le_of_ble_eq_true rfl⟩
theorem scan (o : XArgs) : Statement (.scan o) := ⟨nofun, fun _ => rfl, nofun, Nat.le_of_ble_eq_true rfl⟩
theorem plog (o : XArgs) : Statement (.plog o) := ⟨nofun, fun _ => rfl, nofun, Nat.le_of_ble_eq_true rfl⟩
theorem pset (o : XArgs) : Statement (.pset o) := ⟨nofun, fun _ => rfl, nofun, Nat.le_of_ble_eq_true rfl⟩
theorem pcnt (o : XArgs) : Statement (.pcnt o) := ⟨nofun, fun _ => rfl, nofun, Nat.le_of_ble_eq_true rfl⟩
theorem accrd (o : XArgs) : Statement (.accrd o) := ⟨nofun, fun _ => rfl, nofun, Nat.le_of_ble_eq_true rfl⟩
theorem flgrd (o : XArgs) : Statement (.flgrd o) := ⟨nofun, fun _ => rfl, nofun, Nat.le_of_ble_eq_true rfl⟩
theorem flgclr (o : XArgs) : Statement (.flgclr o) := ⟨nofun, fun _ => rfl, nofun, Nat.le_of_ble_eq_true rfl⟩
theorem st (o : StArgs) : Statement (.st o) := ⟨nofun, fun _ => rfl, nofun, Nat.le_of_ble_eq_true rfl⟩
theorem stf (o : StArgs) : Statement (.stf o) := ⟨nofun, fun _ => rfl, nofun, Nat.le_of_ble_eq_true rfl⟩
theorem stx (o : StArgs) : Statement (.stx o) := ⟨nofun, fun _ => rfl, nofun, Nat.le_of_ble_eq_true rfl⟩
theorem red (o : RedArgs) : Statement (.red o) := ⟨nofun, fun _ => rfl, nofun, Nat.le_of_ble_eq_true rfl⟩
theorem smp (o : SmpArgs) : Statement (.smp o) := ⟨nofun, fun _ => rfl, nofun, Nat.le_of_ble_eq_true rfl⟩
theorem tick (tk : Tk) (ev : Fin 16) (sc : Scope) (rg : BitVec 16) : Statement (.tick tk ev sc rg) := ⟨nofun, fun _ => rfl, nofun, Nat.le_of_ble_eq_true rfl⟩
theorem enq (tk : Tk) (eng : Fin 4) (cnt : Fin 32) : Statement (.enq tk eng cnt) := ⟨nofun, fun _ => rfl, nofun, Nat.le_of_ble_eq_true rfl⟩
theorem enqm (tk : Tk) (eng : Fin 4) (cnt : Fin 32) : Statement (.enqm tk eng cnt) := ⟨nofun, fun _ => rfl, nofun, Nat.le_of_ble_eq_true rfl⟩
theorem fmtq (tk : Tk) (imm : Word) : Statement (.fmtq tk imm) := ⟨nofun, fun _ => rfl, nofun, Nat.le_of_ble_eq_true rfl⟩
theorem tks (tk : Tk) (eng : Fin 4) (cnt : Fin 32) : Statement (.tks tk eng cnt) := ⟨nofun, fun _ => rfl, nofun, Nat.le_of_ble_eq_true rfl⟩
theorem mma (hd : Hdr) (t : TileOp) (kb : BitVec 8) (e0 : DWord) (e1 : DWord) : Statement (.mma hd t kb e0 e1) := ⟨nofun, nofun, nofun, Nat.le_of_ble_eq_true rfl⟩
theorem drain (hd : Hdr) (t : TileOp) (za : Bool) (dst : DWord) (exp : DWord) : Statement (.drain hd t za dst exp) := ⟨nofun, nofun, nofun, Nat.le_of_ble_eq_true rfl⟩
theorem accld (hd : Hdr) (t : TileOp) (src : DWord) : Statement (.accld hd t src) := ⟨nofun, nofun, nofun, Nat.le_of_ble_eq_true rfl⟩
theorem accz (hd : Hdr) (t : TileOp) : Statement (.accz hd t) := ⟨nofun, nofun, nofun, Nat.le_of_ble_eq_true rfl⟩
theorem wbld (hd : Hdr) (off : BitVec 21) (len : BitVec 21) (src : DWord) : Statement (.wbld hd off len src) := ⟨nofun, nofun, nofun, Nat.le_of_ble_eq_true rfl⟩
theorem copy (hd : Hdr) (len : BitVec 40) (src : DWord) (dst : DWord) : Statement (.copy hd len src dst) := ⟨nofun, nofun, nofun, Nat.le_of_ble_eq_true rfl⟩
theorem copyn (hd : Hdr) (esz : Fin 4) (ndim : Fin 4) (x : CopynExt) : Statement (.copyn hd esz ndim x) := ⟨nofun, nofun, nofun, Nat.le_of_ble_eq_true rfl⟩
theorem fill (hd : Hdr) (len : BitVec 40) (dst : DWord) (pat : DWord) : Statement (.fill hd len dst pat) := ⟨nofun, nofun, nofun, Nat.le_of_ble_eq_true rfl⟩
theorem acw (hd : Hdr) (aop : Fin 16) (cs : Bool) (len : BitVec 36) (src : DWord) (dst : DWord) : Statement (.acw hd aop cs len src dst) := ⟨nofun, nofun, nofun, Nat.le_of_ble_eq_true rfl⟩
theorem amo (hd : Hdr) (aop : Fin 16) (d : Bool) (tgt : DWord) (operand : DWord) (comparand : DWord) : Statement (.amo hd aop d tgt operand comparand) := ⟨nofun, nofun, nofun, Nat.le_of_ble_eq_true rfl⟩
theorem pftt (hd : Hdr) (len : BitVec 40) (bo : Bool) (addr : DWord) (bar : DWord) : Statement (.pftt hd len bo addr bar) := ⟨nofun, nofun, nofun, Nat.le_of_ble_eq_true rfl⟩
theorem pin (hd : Hdr) (win : Fin 16) (units : BitVec 16) (base : DWord) : Statement (.pin hd win units base) := ⟨nofun, nofun, nofun, Nat.le_of_ble_eq_true rfl⟩
theorem unpin (hd : Hdr) (win : Fin 16) : Statement (.unpin hd win) := ⟨nofun, nofun, nofun, Nat.le_of_ble_eq_true rfl⟩
theorem mrgSet (hd : Hdr) (g : Fin 64) (tgt : Bool) (target : DWord) (lim : DWord) (counter : DWord) : Statement (.mrgSet hd g tgt target lim counter) := ⟨nofun, nofun, nofun, Nat.le_of_ble_eq_true rfl⟩
theorem mrgOpen (hd : Hdr) (g : Fin 64) (contrib : BitVec 10) (seq : BitVec 16) (tiles : BitVec 8) (bt : DWord) : Statement (.mrgOpen hd g contrib seq tiles bt) := ⟨nofun, nofun, nofun, Nat.le_of_ble_eq_true rfl⟩
theorem bayGrant (die : Nat) : Statement (.bayGrant die) := ⟨fun _ => rfl, nofun, nofun, Nat.le_of_ble_eq_true rfl⟩
theorem mrgDep (hd : Hdr) (tile : BitVec 8) (src : DWord) : Statement (.mrgDep hd tile src) := ⟨nofun, nofun, nofun, Nat.le_of_ble_eq_true rfl⟩
theorem mrgClose (hd : Hdr) (ev : Fin 16) (even : Bool) : Statement (.mrgClose hd ev even) := ⟨nofun, nofun, nofun, Nat.le_of_ble_eq_true rfl⟩
theorem lotAbandon (k : Nat) : Statement (.lotAbandon k) := ⟨fun _ => rfl, nofun, nofun, Nat.le_of_ble_eq_true rfl⟩
theorem flag (hd : Hdr) (d : Bool) (sys : Bool) (tgt : DWord) (val : DWord) : Statement (.flag hd d sys tgt val) := ⟨nofun, nofun, nofun, Nat.le_of_ble_eq_true rfl⟩
theorem resume (hd : Hdr) (rec : DWord) : Statement (.resume hd rec) := ⟨nofun, nofun, nofun, Nat.le_of_ble_eq_true rfl⟩
theorem gath (hd : Hdr) (n : BitVec 16) (rw : BitVec 16) (out : Bool) (idx : DWord) (base : DWord) (stride : DWord) (dst : DWord) : Statement (.gath hd n rw out idx base stride dst) := ⟨nofun, nofun, nofun, Nat.le_of_ble_eq_true rfl⟩
theorem scat (hd : Hdr) (n : BitVec 16) (rw : BitVec 16) (idx : DWord) (base : DWord) (stride : DWord) (src : DWord) : Statement (.scat hd n rw idx base stride src) := ⟨nofun, nofun, nofun, Nat.le_of_ble_eq_true rfl⟩
theorem scata (hd : Hdr) (n : BitVec 16) (rw : BitVec 16) (aop : Fin 4) (idx : DWord) (base : DWord) (stride : DWord) (src : DWord) : Statement (.scata hd n rw aop idx base stride src) := ⟨nofun, nofun, nofun, Nat.le_of_ble_eq_true rfl⟩
theorem embag (hd : Hdr) (nb : BitVec 16) (rw : BitVec 16) (idx : DWord) (base : DWord) (stride : DWord) (offs : DWord) (dst : DWord) : Statement (.embag hd nb rw idx base stride offs dst) := ⟨nofun, nofun, nofun, Nat.le_of_ble_eq_true rfl⟩
theorem run (hd : Hdr) (out : Bool) (x : RunExt) : Statement (.run hd out x) := ⟨nofun, nofun, nofun, Nat.le_of_ble_eq_true rfl⟩
theorem send (o : StepOp) : Statement (.send o) := ⟨nofun, nofun, fun _ => ⟨Nat.le_of_ble_eq_true rfl, Nat.le_of_ble_eq_true rfl⟩, Nat.le_of_ble_eq_true rfl⟩
theorem recv (o : StepOp) : Statement (.recv o) := ⟨nofun, nofun, fun _ => ⟨Nat.le_of_ble_eq_true rfl, Nat.le_of_ble_eq_true rfl⟩, Nat.le_of_ble_eq_true rfl⟩
theorem rrs (o : StepOp) (rop : BitVec 2) : Statement (.rrs o rop) := ⟨nofun, nofun, fun _ => ⟨Nat.le_of_ble_eq_true rfl, Nat.le_of_ble_eq_true rfl⟩, Nat.le_of_ble_eq_true rfl⟩
theorem rrw (o : StepOp) (rop : BitVec 2) (dbf : Fin 4) (df : BitVec 4) (rm : Rm) (ext1 : DWord) : Statement (.rrw o rop dbf df rm ext1) := ⟨nofun, nofun, fun _ => ⟨Nat.le_of_ble_eq_true rfl, Nat.le_of_ble_eq_true rfl⟩, Nat.le_of_ble_eq_true rfl⟩
theorem rcpy (o : StepOp) : Statement (.rcpy o) := ⟨nofun, nofun, fun _ => ⟨Nat.le_of_ble_eq_true rfl, Nat.le_of_ble_eq_true rfl⟩, Nat.le_of_ble_eq_true rfl⟩
theorem kWait : Statement .kWait := ⟨nofun, nofun, fun _ => ⟨Nat.le_of_ble_eq_true rfl, Nat.le_of_ble_eq_true rfl⟩, Nat.le_of_ble_eq_true rfl⟩
theorem kLoop (kc : Fin 4) (ext : DWord) : Statement (.kLoop kc ext) := ⟨nofun, nofun, fun _ => ⟨Nat.le_of_ble_eq_true rfl, Nat.le_of_ble_eq_true rfl⟩, Nat.le_of_ble_eq_true rfl⟩
theorem peer (recv : Bool) (sk : Bool) (kc : Fin 4) (delta : BitVec 16) (stride : BitVec 16) : Statement (.peer recv sk kc delta stride) := ⟨nofun, nofun, fun _ => ⟨Nat.le_of_ble_eq_true rfl, Nat.le_of_ble_eq_true rfl⟩, Nat.le_of_ble_eq_true rfl⟩
theorem barc : Statement .barc := ⟨nofun, nofun, fun _ => ⟨Nat.le_of_ble_eq_true rfl, Nat.le_of_ble_eq_true rfl⟩, Nat.le_of_ble_eq_true rfl⟩
theorem endp : Statement .endp := ⟨nofun, nofun, fun _ => ⟨Nat.le_of_ble_eq_true rfl, Nat.le_of_ble_eq_true rfl⟩, Nat.le_of_ble_eq_true rfl⟩
theorem notify (hd : Hdr) (ev : Fin 16) (part : BitVec 4) : Statement (.notify hd ev part) := ⟨nofun, nofun, nofun, Nat.le_of_ble_eq_true rfl⟩
theorem engineNop (hd : Hdr) : Statement (.engineNop hd) := ⟨nofun, nofun, fun _ => ⟨Nat.le_of_ble_eq_true rfl, Nat.le_of_ble_eq_true rfl⟩, Nat.le_of_ble_eq_true rfl⟩
theorem arrayLeaseTurn (core : Nat) : Statement (.arrayLeaseTurn core) := ⟨fun _ => rfl, nofun, nofun, Nat.le_of_ble_eq_true rfl⟩
theorem translationComplete (k : Nat) (h : Fin 32) : Statement (.translationComplete k h) := ⟨fun _ => rfl, nofun, nofun, Nat.le_of_ble_eq_true rfl⟩
theorem sleepExpire (k : Nat) : Statement (.sleepExpire k) := ⟨fun _ => rfl, nofun, nofun, Nat.le_of_ble_eq_true rfl⟩
theorem watchdog (k : Nat) (unit : Fin 4) : Statement (.watchdog k unit) := ⟨fun _ => rfl, nofun, nofun, Nat.le_of_ble_eq_true rfl⟩
theorem ptsAdvance (k : Nat) : Statement (.ptsAdvance k) := ⟨fun _ => rfl, nofun, nofun, Nat.le_of_ble_eq_true rfl⟩
theorem clockCatchup : Statement .clockCatchup := ⟨fun _ => rfl, nofun, nofun, Nat.le_of_ble_eq_true rfl⟩
theorem readLeaseExpiry (core : Nat) (line : Nat) : Statement (.readLeaseExpiry core line) := ⟨fun _ => rfl, nofun, nofun, Nat.le_of_ble_eq_true rfl⟩
theorem faultRecordWrite (ten : Nat) : Statement (.faultRecordWrite ten) := ⟨fun _ => rfl, nofun, nofun, Nat.le_of_ble_eq_true rfl⟩
theorem replayRetry (ten : Nat) (seq : Word) (one : Bool) : Statement (.replayRetry ten seq one) := ⟨fun _ => rfl, nofun, nofun, Nat.le_of_ble_eq_true rfl⟩
theorem replaySkip (ten : Nat) (seq : Word) (one : Bool) : Statement (.replaySkip ten seq one) := ⟨fun _ => rfl, nofun, nofun, Nat.le_of_ble_eq_true rfl⟩
theorem replayKill (ten : Nat) (seq : Word) (one : Bool) : Statement (.replayKill ten seq one) := ⟨fun _ => rfl, nofun, nofun, Nat.le_of_ble_eq_true rfl⟩
theorem droveValidate (d : Nat) : Statement (.droveValidate d) := ⟨fun _ => rfl, nofun, nofun, Nat.le_of_ble_eq_true rfl⟩
theorem droveWaitMet (d : Nat) : Statement (.droveWaitMet d) := ⟨fun _ => rfl, nofun, nofun, Nat.le_of_ble_eq_true rfl⟩
theorem iterationHandout (d : Nat) (strand : Nat) : Statement (.iterationHandout d strand) := ⟨fun _ => rfl, nofun, nofun, Nat.le_of_ble_eq_true rfl⟩
theorem preempt (strand : Nat) : Statement (.preempt strand) := ⟨fun _ => rfl, nofun, nofun, Nat.le_of_ble_eq_true rfl⟩
theorem partitionResume (strand : Nat) : Statement (.partitionResume strand) := ⟨fun _ => rfl, nofun, nofun, Nat.le_of_ble_eq_true rfl⟩
theorem planeDiffRecord (core : Nat) (part : Bool) (off : Nat) (data : PlanePiece) (d : Nat) : Statement (.planeDiffRecord core part off data d) := ⟨fun _ => rfl, nofun, nofun, Nat.le_of_ble_eq_true rfl⟩
theorem planeSwap (core : Nat) (part : Bool) (d : Nat) : Statement (.planeSwap core part d) := ⟨fun _ => rfl, nofun, nofun, Nat.le_of_ble_eq_true rfl⟩
theorem droveComplete (d : Nat) : Statement (.droveComplete d) := ⟨fun _ => rfl, nofun, nofun, Nat.le_of_ble_eq_true rfl⟩
theorem chainFollow (ten : Nat) (c : Fin 8) : Statement (.chainFollow ten c) := ⟨fun _ => rfl, nofun, nofun, Nat.le_of_ble_eq_true rfl⟩
theorem tickSweep (chan : Nat) : Statement (.tickSweep chan) := ⟨fun _ => rfl, nofun, nofun, Nat.le_of_ble_eq_true rfl⟩
theorem sampleAccumulate (ten : Nat) (rg : Nat) (cell : Nat) (x : Word) : Statement (.sampleAccumulate ten rg cell x) := ⟨fun _ => rfl, nofun, nofun, Nat.le_of_ble_eq_true rfl⟩
theorem autoSatnRewrite (ten : Nat) (rg : Nat) : Statement (.autoSatnRewrite ten rg) := ⟨fun _ => rfl, nofun, nofun, Nat.le_of_ble_eq_true rfl⟩
theorem regionRegister (ten : Nat) (rg : Nat) : Statement (.regionRegister ten rg) := ⟨fun _ => rfl, nofun, nofun, Nat.le_of_ble_eq_true rfl⟩
theorem regionCoef (ten : Nat) (rg : Nat) : Statement (.regionCoef ten rg) := ⟨fun _ => rfl, nofun, nofun, Nat.le_of_ble_eq_true rfl⟩
theorem regionRetire (ten : Nat) (rg : Nat) : Statement (.regionRetire ten rg) := ⟨fun _ => rfl, nofun, nofun, Nat.le_of_ble_eq_true rfl⟩
theorem regionCommandDone (ten : Nat) : Statement (.regionCommandDone ten) := ⟨fun _ => rfl, nofun, nofun, Nat.le_of_ble_eq_true rfl⟩
theorem homeRequest (r : HomeReq) : Statement (.homeRequest r) := ⟨fun _ => rfl, nofun, nofun, Nat.le_of_ble_eq_true rfl⟩
theorem reclass (ten : Nat) (cl : BitVec 2) : Statement (.reclass ten cl) := ⟨fun _ => rfl, nofun, nofun, Nat.le_of_ble_eq_true rfl⟩
theorem reclassComplete (ten : Nat) : Statement (.reclassComplete ten) := ⟨fun _ => rfl, nofun, nofun, Nat.le_of_ble_eq_true rfl⟩
theorem pinFadePeriod (ten : Nat) : Statement (.pinFadePeriod ten) := ⟨fun _ => rfl, nofun, nofun, Nat.le_of_ble_eq_true rfl⟩
theorem wayMaskWrite (ten : Nat) (v : DWord) : Statement (.wayMaskWrite ten v) := ⟨fun _ => rfl, nofun, nofun, Nat.le_of_ble_eq_true rfl⟩
theorem wayMaskComplete : Statement .wayMaskComplete := ⟨fun _ => rfl, nofun, nofun, Nat.le_of_ble_eq_true rfl⟩
theorem thermalSample (rs : List Reading) : Statement (.thermalSample rs) := ⟨fun _ => rfl, nofun, nofun, Nat.le_of_ble_eq_true rfl⟩
theorem thcfgWrite (v : DWord) : Statement (.thcfgWrite v) := ⟨fun _ => rfl, nofun, nofun, Nat.le_of_ble_eq_true rfl⟩
theorem bankIdlePrecharge (chan : Nat) (bank : Nat) (queued : Bool) : Statement (.bankIdlePrecharge chan bank queued) := ⟨fun _ => rfl, nofun, nofun, Nat.le_of_ble_eq_true rfl⟩
theorem forecastUpdate : Statement .forecastUpdate := ⟨fun _ => rfl, nofun, nofun, Nat.le_of_ble_eq_true rfl⟩
theorem llynedFlitReceive (port : Fin 18) (seq : Nat) (m : Option Packet) : Statement (.llynedFlitReceive port seq m) := ⟨fun _ => rfl, nofun, nofun, Nat.le_of_ble_eq_true rfl⟩
theorem llynedReplayRequest (port : Fin 18) (seq : Nat) : Statement (.llynedReplayRequest port seq) := ⟨fun _ => rfl, nofun, nofun, Nat.le_of_ble_eq_true rfl⟩
theorem portDown (port : Fin 18) : Statement (.portDown port) := ⟨fun _ => rfl, nofun, nofun, Nat.le_of_ble_eq_true rfl⟩
theorem portUp (port : Fin 18) (nbr : BitVec 10) : Statement (.portUp port nbr) := ⟨fun _ => rfl, nofun, nofun, Nat.le_of_ble_eq_true rfl⟩
theorem remoteRequest (r : RemoteReq) : Statement (.remoteRequest r) := ⟨fun _ => rfl, nofun, nofun, Nat.le_of_ble_eq_true rfl⟩
theorem remoteResponse (who : Nat) (a : Answer) : Statement (.remoteResponse who a) := ⟨fun _ => rfl, nofun, nofun, Nat.le_of_ble_eq_true rfl⟩
theorem fabricTimeout (who : Nat) : Statement (.fabricTimeout who) := ⟨fun _ => rfl, nofun, nofun, Nat.le_of_ble_eq_true rfl⟩
theorem podBarrierArrival (ten : Nat) (obj : Nat) (src : Arriver) (tag : Word) : Statement (.podBarrierArrival ten obj src tag) := ⟨fun _ => rfl, nofun, nofun, Nat.le_of_ble_eq_true rfl⟩
theorem podBarrierRelease (ten : Nat) (obj : PodPhase) : Statement (.podBarrierRelease ten obj) := ⟨fun _ => rfl, nofun, nofun, Nat.le_of_ble_eq_true rfl⟩
theorem shepherdDataFlit (ten : Nat) (cid : Nat) (src : Nat) (seq : FlitNo) (data : List Byte) : Statement (.shepherdDataFlit ten cid src seq data) := ⟨fun _ => rfl, nofun, nofun, Nat.le_of_ble_eq_true rfl⟩
theorem collectiveAbort (ten : Nat) (cid : Nat) (src : Nat) : Statement (.collectiveAbort ten cid src) := ⟨fun _ => rfl, nofun, nofun, Nat.le_of_ble_eq_true rfl⟩
theorem memrd (pa : Nat) : Statement (.memrd pa) := ⟨fun _ => rfl, nofun, nofun, Nat.le_of_ble_eq_true rfl⟩
theorem memwr (pa : Nat) (data : List Byte) : Statement (.memwr pa data) := ⟨fun _ => rfl, nofun, nofun, Nat.le_of_ble_eq_true rfl⟩
theorem birsp (who : Nat) (data : Option (List Byte)) : Statement (.birsp who data) := ⟨fun _ => rfl, nofun, nofun, Nat.le_of_ble_eq_true rfl⟩
theorem biconflict (who : Nat) (op : MemOp) : Statement (.biconflict who op) := ⟨fun _ => rfl, nofun, nofun, Nat.le_of_ble_eq_true rfl⟩
theorem snpdata (line : Nat) : Statement (.snpdata line) := ⟨fun _ => rfl, nofun, nofun, Nat.le_of_ble_eq_true rfl⟩
theorem snpinv (line : Nat) : Statement (.snpinv line) := ⟨fun _ => rfl, nofun, nofun, Nat.le_of_ble_eq_true rfl⟩
theorem snpcur (line : Nat) : Statement (.snpcur line) := ⟨fun _ => rfl, nofun, nofun, Nat.le_of_ble_eq_true rfl⟩
theorem hostCacheResponse (who : Nat) (excl : Bool) : Statement (.hostCacheResponse who excl) := ⟨fun _ => rfl, nofun, nofun, Nat.le_of_ble_eq_true rfl⟩
theorem barAccess (fn : Nat) (off : Nat) (size : Nat) (write : Bool) (v : DWord) : Statement (.barAccess fn off size write v) := ⟨fun _ => rfl, nofun, nofun, Nat.le_of_ble_eq_true rfl⟩
theorem doeDiscovery (fn : Nat) (ix : Nat) : Statement (.doeDiscovery fn ix) := ⟨fun _ => rfl, nofun, nofun, Nat.le_of_ble_eq_true rfl⟩
theorem spdmRequest (fn : Nat) (code : Nat) : Statement (.spdmRequest fn code) := ⟨fun _ => rfl, nofun, nofun, Nat.le_of_ble_eq_true rfl⟩
theorem getMeasurements (fn : Nat) (ix : Nat) : Statement (.getMeasurements fn ix) := ⟨fun _ => rfl, nofun, nofun, Nat.le_of_ble_eq_true rfl⟩
theorem ideKm (port : Fin 2) (key : DWord) : Statement (.ideKm port key) := ⟨fun _ => rfl, nofun, nofun, Nat.le_of_ble_eq_true rfl⟩
theorem ideIntegrityFail (port : Fin 2) : Statement (.ideIntegrityFail port) := ⟨fun _ => rfl, nofun, nofun, Nat.le_of_ble_eq_true rfl⟩
theorem tpartWrite (t : Nat) (v : DWord) : Statement (.tpartWrite t v) := ⟨fun _ => rfl, nofun, nofun, Nat.le_of_ble_eq_true rfl⟩
theorem tpolWrite (t : Nat) (v : DWord) : Statement (.tpolWrite t v) := ⟨fun _ => rfl, nofun, nofun, Nat.le_of_ble_eq_true rfl⟩
theorem windowLoad (t : Nat) : Statement (.windowLoad t) := ⟨fun _ => rfl, nofun, nofun, Nat.le_of_ble_eq_true rfl⟩
theorem windowLoadComplete : Statement .windowLoadComplete := ⟨fun _ => rfl, nofun, nofun, Nat.le_of_ble_eq_true rfl⟩
theorem rvk (ten : Nat) (va : DWord) : Statement (.rvk ten va) := ⟨fun _ => rfl, nofun, nofun, Nat.le_of_ble_eq_true rfl⟩
theorem chainEnable (ten : Nat) (c : Fin 8) : Statement (.chainEnable ten c) := ⟨fun _ => rfl, nofun, nofun, Nat.le_of_ble_eq_true rfl⟩
theorem snapshotRequest (ten : Nat) : Statement (.snapshotRequest ten) := ⟨fun _ => rfl, nofun, nofun, Nat.le_of_ble_eq_true rfl⟩
theorem meterSnapshot (ten : Nat) : Statement (.meterSnapshot ten) := ⟨fun _ => rfl, nofun, nofun, Nat.le_of_ble_eq_true rfl⟩
theorem pinbAccumulate (ten : Nat) : Statement (.pinbAccumulate ten) := ⟨fun _ => rfl, nofun, nofun, Nat.le_of_ble_eq_true rfl⟩
theorem powerCapThrottle (watts : Nat) : Statement (.powerCapThrottle watts) := ⟨fun _ => rfl, nofun, nofun, Nat.le_of_ble_eq_true rfl⟩
theorem coldBoot (x : BootIn) : Statement (.coldBoot x) := ⟨fun _ => rfl, nofun, nofun, Nat.le_of_ble_eq_true rfl⟩
theorem bootStageTimeout (stage : Nat) : Statement (.bootStageTimeout stage) := ⟨fun _ => rfl, nofun, nofun, Nat.le_of_ble_eq_true rfl⟩
theorem bootWatchdog : Statement .bootWatchdog := ⟨fun _ => rfl, nofun, nofun, Nat.le_of_ble_eq_true rfl⟩
theorem bootctlRetry (x : BootIn) : Statement (.bootctlRetry x) := ⟨fun _ => rfl, nofun, nofun, Nat.le_of_ble_eq_true rfl⟩
theorem registerWrite (fn : Nat) (off : Nat) (v : DWord) : Statement (.registerWrite fn off v) := ⟨fun _ => rfl, nofun, nofun, Nat.le_of_ble_eq_true rfl⟩
theorem illegalInstruction (w : DWord) : Statement (.illegalInstruction w) := ⟨nofun, fun _ => rfl, nofun, Nat.le_of_ble_eq_true rfl⟩
theorem unassignedCommandCode (w : DWord) : Statement (.unassignedCommandCode w) := ⟨nofun, nofun, nofun, Nat.le_of_ble_eq_true rfl⟩
theorem cxlPortDown : Statement .cxlPortDown := ⟨fun _ => rfl, nofun, nofun, Nat.le_of_ble_eq_true rfl⟩
theorem cxlPortUp : Statement .cxlPortUp := ⟨fun _ => rfl, nofun, nofun, Nat.le_of_ble_eq_true rfl⟩
theorem refresh (chan : Nat) (banks : List Nat) : Statement (.refresh chan banks) := ⟨fun _ => rfl, nofun, nofun, Nat.le_of_ble_eq_true rfl⟩
theorem modulePowerRemoved : Statement .modulePowerRemoved := ⟨fun _ => rfl, nofun, nofun, Nat.le_of_ble_eq_true rfl⟩
theorem revocationComplete (ten : Nat) : Statement (.revocationComplete ten) := ⟨fun _ => rfl, nofun, nofun, Nat.le_of_ble_eq_true rfl⟩

end Sys2Proof.Laws.Words
end

