-- ==== Sys2Proof/Tests/Slice0.lean ====
section
/-! SUPPORT. The model's own tests: decoding of words written out from the spec's encoding tables, a term against each check of
well-formedness, values the spec works out, and a witness for the hypotheses of each statement. -/

namespace Sys2Proof.Tests
open Sys2Proof Sys2Proof.Machine

/-! ### Decoding: words written out from the spec's tables (R34, R38 to R72, and the pages of the commands and steps) -/

/-- Do these words decode to these instructions? -/
def reads (l : List (Nat × Instr)) : Bool := l.all (fun x => decodeTableWord 64 x.1 == some x.2)
/-- Does engine e read these commands from these words? -/
def takes (e : Nat) (l : List (List DWord × Instr)) : Bool :=
  l.all (fun x => match decodeCommand e x.1 with | .ok i => i == x.2 | .error _ => false)
/-- Does the shepherd read these steps from these words? -/
def steps (l : List (List DWord × Instr)) : Bool :=
  l.all (fun x => match decodeStep x.1 with | .ok i => i == x.2 | .error _ => false)

/-- F class: formats FB and FS (R38, R39). -/
theorem test_decode_front_end : reads [
    (0x0000000000000000, .nop),
    (0x00100000FFFFFFFD, .br (.imm 0xFFFFFFFD)),
    (0x0020800000000004, .brc true (.imm 4)),
    (0x0020000000000004, .brc false (.imm 4)),
    (0x00370000FFFFFFFE, .loop 7 (.imm 0xFFFFFFFE)),
    (0x0041400000000000, .lcset 1 .fq),
    (0x005000007FFFFFFF, .call (.imm 0x7FFFFFFF)),
    (0x0060000000000000, .ret),
    (0x00700000FFFFFFFF, .jmp 0xFFFFFFFF),
    (0x0080000000000000, .endIter),
    (0x0094600040000000, .bar ⟨.die, 3, 16⟩),
    (0x00A2000000000000, .bara ⟨.quad, 0, 0⟩),
    (0x00B9E000FC000000, .barw ⟨.pod, 15, 63⟩),
    (0x00CA8000081FFFFF, .barcfg ⟨.ten, 4, 2⟩ 0x1FFFFF),
    (0x00D0000000000001, .barrot 1),
    (0x00E6120000000000, .fence .pkg 0b10010),
    (0x00F0400000000001, .waitev 2 1),
    (0x0101E00000000000, .evclr 15),
    (0x011C000000001000, .launch .sys 0x1000),
    (0x0120000000000000, .yieldTurn),
    (0x0130000000000007, .trap 7),
    (0x0140000000000064, .sleep 100),
    (0x0150000000000009, .halt 9)] = true := by decide

/-- A class: formats AM and AC (R40, R42, R111). -/
theorem test_decode_access : reads [
    (0x040001F8C0001000, .ld ⟨⟨false, false, false, false⟩, .q 0, 0, none, .v, false, true, true, false, 0, 0, 0x1000⟩),
    (0x5405FEF73F400000, .ld ⟨⟨false, true, false, true⟩, .a 15, 31, some 15, .d, true, false, false, true, 7, 6, 0x400000⟩),
    (0x0410C5F408000000, .ldx ⟨⟨false, false, false, false⟩, .q 3, 2, none, .w, false, false, false, false, 2, 0, 0⟩),
    (0x042541FF80000000, .lds ⟨false, false, false, false⟩ (.a 13) 0),
    (0x0430044610000800, .sa ⟨⟨false, false, false, false⟩, 2, some 4, .d, false, false, 4, 0x800⟩),
    (0x044003F324000000, .sax ⟨⟨false, false, false, false⟩, 1, none, .h, true, true, 1, 0⟩),
    (0x0450060A1C7FFFFF, .pft ⟨⟨false, false, false, false⟩, 3, some 0, .hv, 7, 0x7FFFFF⟩),
    (0x0460106F80000000, .xlt ⟨false, false, false, false⟩ 8 6),
    (0x04703FFF80000000, .hdrop ⟨false, false, false, false⟩ 31),
    (0x04818BFF80000000, .hqry ⟨false, false, false, false⟩ .fq 5),
    (0x049000B620000008, .sbind ⟨false, false, false, false⟩ 0 11 (some 12) (.imm 8) .w),
    (0x04944E1FD0000000, .sbind ⟨false, false, false, false⟩ 7 1 none (.reg 9) .hv),
    (0x04A005FF8FFFFFFF, .sskip ⟨false, false, false, false⟩ 2 (.imm 0xFFFFFFF)),
    (0x04A0043F80000000, .sskip ⟨false, false, false, false⟩ 2 (.reg 3)),
    (0x04B00DFF80000000, .sfree ⟨false, false, false, false⟩ 6),
    (0x04C004B310000040, .pdbind ⟨false, false, false, false⟩ 34 11 6 64),
    (0x04D03FFF80000000, .pdflush ⟨false, false, false, false⟩ 31),
    (0x04E001FF90000000, .pdunbind ⟨false, false, false, false⟩ 32),
    (0x04FFC04F80000010, .feset ⟨false, false, false, false⟩ 63 (some 4) 16),
    (0x050001FF80000020, .feclr ⟨false, false, false, false⟩ 0 none 32),
    (0x0511000F80000000, .fetest ⟨false, false, false, false⟩ .qs (some 0) 0),
    (0x052007FF80000020, .tkw ⟨false, false, false, false⟩ 3 32),
    (0x06120BFF80000000, .ctlr ⟨false, false, false, false⟩ (.a 0) 5),
    (0xF6200E2F80000000, .ctlw ⟨true, true, true, true⟩ 7 (some 2))] = true := by decide

/-- A class: format AA (R41). -/
theorem test_decode_address_arithmetic : reads [
    (0x0534950000000100, .adda ⟨⟨false, false, false, false⟩, .a 10, .a 10, .imm, false, 0x100⟩),
    (0x054110D000000000, .suba ⟨⟨false, false, false, false⟩, .qs, .a 8, .a 13, false, 0x0⟩),
    (0x0550232100000000, .mula ⟨⟨false, false, false, false⟩, .q 0, .xaWord, .xaPair, true, 0x0⟩),
    (0x0565C1F000000000, .mada ⟨⟨false, false, false, false⟩, .a 15, .a 0, .zero, false, 0x0⟩),
    (0x057203000000003F, .shla ⟨⟨false, false, false, false⟩, .a 0, .a 1, .imm, false, 0x3f⟩),
    (0x0582443100000000, .shra ⟨⟨false, false, false, false⟩, .a 1, .a 2, .a 3, true, 0x0⟩),
    (0x0591443000000000, .anda ⟨⟨false, false, false, false⟩, .qz, .a 2, .a 3, false, 0x0⟩),
    (0x05A01AE000000000, .ora ⟨⟨false, false, false, false⟩, .q 0, .a 13, .a 14, false, 0x0⟩),
    (0x05B2A040FFFFFFFF, .xora ⟨⟨false, false, false, false⟩, .a 2, .imm, .a 4, false, 0xffffffff⟩),
    (0x05C2CA6100000000, .mina ⟨⟨false, false, false, false⟩, .a 3, .a 5, .a 6, true, 0x0⟩),
    (0x05D30A6000000000, .maxa ⟨⟨false, false, false, false⟩, .a 4, .a 5, .a 6, false, 0x0⟩),
    (0x05E4FFF000004000, .lia ⟨⟨false, false, false, false⟩, .a 11, .zero, .zero, false, 0x4000⟩),
    (0x05F57FF000002800, .liha ⟨⟨false, false, false, false⟩, .a 13, .zero, .zero, false, 0x2800⟩),
    (0x06018FF000000000, .mova ⟨⟨false, false, false, false⟩, .fq, .a 7, .zero, false, 0x0⟩)] = true := by decide

/-- S class: format SS (R44, R157). -/
theorem test_decode_store : reads [
    (0x0C08000000000000, .st ⟨⟨false, false, false, false⟩, .v, false, false⟩),
    (0x0C04800000000000, .st ⟨⟨false, false, false, false⟩, .w, false, true⟩),
    (0x3C13000000000000, .stf ⟨⟨false, false, true, true⟩, .h, true, false⟩),
    (0x0C20000000000000, .stx ⟨⟨false, false, false, false⟩, .b, false, false⟩),
    (0x0C34518000000000, .red ⟨⟨false, false, false, false⟩, .w, false, false, .max, true, .i32⟩),
    (0x0C3A000000000000, .red ⟨⟨false, false, false, false⟩, .hv, false, false, .add, false, .f32⟩),
    (0x0C44080000000000, .smp ⟨⟨false, false, false, false⟩, .w, true, true⟩),
    (0x0C48018000000000, .smp ⟨⟨false, false, false, false⟩, .v, false, false⟩),
    (0x0C50000034000007, .tick ⟨false, false, false, false⟩ 3 .die 7),
    (0x0C60002200000000, .enq ⟨false, false, false, false⟩ 1 2),
    (0x0C70001F00000000, .enqm ⟨false, false, false, false⟩ 0 31),
    (0x0C800000000000B6, .fmtq ⟨false, false, false, false⟩ 0xB6),
    (0x0C90006000000000, .tks ⟨false, false, false, false⟩ 3 0)] = true := by decide

/-- X class: format XV (R43, R47, R69, R70, R139). -/
theorem test_decode_execute_a : reads [
    (0x08046087F0000000, .fadd ⟨⟨false, false, false, false⟩, .sd, .q 0, .q 1, .zero, 0, false, .f32, .rne, false, 0x0⟩),
    (0x08104043F01C0000, .fsub ⟨⟨false, false, false, false⟩, .n 0, .t 0, .n 0, .zero, 0, false, .bf16, .rdn, false, 0x0⟩),
    (0x08202093F0240000, .fmul ⟨⟨false, false, false, false⟩, .t, .q 0, .qs, .zero, 0, false, .f16, .rtz, false, 0x0⟩),
    (0x0831010125000000, .fma ⟨⟨false, false, false, false⟩, .n 3, .t 1, .t 0, .n 2, 2, true, .f32, .rne, false, 0x0⟩),
    (0x08440F7E3E080000, .fnma ⟨⟨false, false, false, false⟩, .n 15, .t 15, .n 15, .q 3, 7, false, .f32, .rup, false, 0x0⟩),
    (0x085001C3F0003F80, .fmin ⟨⟨false, false, false, false⟩, .t, .t 1, .imm, .zero, 0, false, .f32, .rne, false, 0x3f80⟩),
    (0x086525A3F0000000, .fmax ⟨⟨false, false, false, false⟩, .p 0, .o 0, .o 3, .zero, 0, false, .f32, .rne, false, 0x0⟩),
    (0x087FC5FFF0000003, .fsgn ⟨⟨false, false, false, false⟩, .none, .t 5, .zero, .zero, 0, false, .f32, .rne, false, 0x3⟩),
    (0x0884C00BF0000007, .fcmp ⟨⟨false, false, false, false⟩, .cq, .t 0, .t 2, .zero, 0, false, .f32, .rne, false, 0x7⟩),
    (0x089000FFF0080000, .frcp ⟨⟨false, false, false, false⟩, .t, .t 0, .zero, .zero, 0, false, .f32, .rup, false, 0x0⟩),
    (0x08A003FFF0000000, .frsq ⟨⟨false, false, false, false⟩, .t, .t 3, .zero, .zero, 0, false, .f32, .rne, false, 0x0⟩),
    (0x08B004FFF0000000, .fsqrt ⟨⟨false, false, false, false⟩, .t, .t 4, .zero, .zero, 0, false, .f32, .rne, false, 0x0⟩),
    (0x08C010FFF0000000, .fexp2 ⟨⟨false, false, false, false⟩, .t, .n 0, .zero, .zero, 0, false, .f32, .rne, false, 0x0⟩),
    (0x08D000FFF0000000, .flog2 ⟨⟨false, false, false, false⟩, .t, .t 0, .zero, .zero, 0, false, .f32, .rne, false, 0x0⟩),
    (0x08E440FFF0800100, .fcvt ⟨⟨false, false, false, false⟩, .sd, .t 0, .zero, .zero, 0, false, .fx, .rne, false, 0x100⟩),
    (0x08F007FFF0280000, .frnd ⟨⟨false, false, false, false⟩, .t, .t 7, .zero, .zero, 0, false, .f16, .rup, false, 0x0⟩),
    (0x0900010BF0720000, .iadd ⟨⟨false, false, false, false⟩, .t, .t 1, .t 2, .zero, 0, false, .u8, .rne, true, 0x0⟩),
    (0x091001C3F030FFFF, .isub ⟨⟨false, false, false, false⟩, .t, .t 1, .imm, .zero, 0, false, .i32, .rne, false, 0xffff⟩)] = true := by decide

/-- X class: format XV (R43, R47, R69, R70, R139). -/
theorem test_decode_execute_b : reads [
    (0x0920010BF0500000, .imul ⟨⟨false, false, false, false⟩, .t, .t 1, .t 2, .zero, 0, false, .i16, .rne, false, 0x0⟩),
    (0x0930010BF0400000, .imulh ⟨⟨false, false, false, false⟩, .t, .t 1, .t 2, .zero, 0, false, .u32, .rne, false, 0x0⟩),
    (0x0940010830320000, .imad ⟨⟨false, false, false, false⟩, .t, .t 1, .t 2, .t 3, 0, false, .i32, .rne, true, 0x0⟩),
    (0x0950010BF0600000, .imin ⟨⟨false, false, false, false⟩, .t, .t 1, .t 2, .zero, 0, false, .i8, .rne, false, 0x0⟩),
    (0x0960010BF0400000, .imax ⟨⟨false, false, false, false⟩, .t, .t 1, .t 2, .zero, 0, false, .u32, .rne, false, 0x0⟩),
    (0x097001FFF0300000, .iabs ⟨⟨false, false, false, false⟩, .t, .t 1, .zero, .zero, 0, false, .i32, .rne, false, 0x0⟩),
    (0x0984A5C3F0300004, .ishl ⟨⟨false, false, false, false⟩, .xa, .o 0, .imm, .zero, 0, false, .i32, .rne, false, 0x4⟩),
    (0x0990010BF0500000, .ishr ⟨⟨false, false, false, false⟩, .t, .t 1, .t 2, .zero, 0, false, .i16, .rne, false, 0x0⟩),
    (0x09A0010BF0300000, .and ⟨⟨false, false, false, false⟩, .t, .t 1, .t 2, .zero, 0, false, .i32, .rne, false, 0x0⟩),
    (0x09B44063F0300000, .or ⟨⟨false, false, false, false⟩, .sd, .t 0, .n 8, .zero, 0, false, .i32, .rne, false, 0x0⟩),
    (0x09C0010BF0400000, .xor ⟨⟨false, false, false, false⟩, .t, .t 1, .t 2, .zero, 0, false, .u32, .rne, false, 0x0⟩),
    (0x09D0010BF0300000, .andn ⟨⟨false, false, false, false⟩, .t, .t 1, .t 2, .zero, 0, false, .i32, .rne, false, 0x0⟩),
    (0x09E001FFF0400000, .popc ⟨⟨false, false, false, false⟩, .t, .t 1, .zero, .zero, 0, false, .u32, .rne, false, 0x0⟩),
    (0x09F001FFF0300000, .clz ⟨⟨false, false, false, false⟩, .t, .t 1, .zero, .zero, 0, false, .i32, .rne, false, 0x0⟩),
    (0x0A052993F0300000, .icmp ⟨⟨false, false, false, false⟩, .p 0, .lane, .qs, .zero, 0, false, .i32, .rne, false, 0x0⟩),
    (0x0A10010BF084001F, .qmul ⟨⟨false, false, false, false⟩, .t, .t 1, .t 2, .zero, 0, false, .fx, .rtz, false, 0x1f⟩),
    (0x0A20010830820010, .qmad ⟨⟨false, false, false, false⟩, .t, .t 1, .t 2, .t 3, 0, false, .fx, .rne, true, 0x10⟩),
    (0x0A3001FFF0007F76, .bpack ⟨⟨false, false, false, false⟩, .t, .t 1, .zero, .zero, 0, false, .f32, .rne, false, 0x7f76⟩)] = true := by decide

/-- X class: format XV (R43, R47, R69, R70, R139). -/
theorem test_decode_execute_c : reads [
    (0x0A4023FFF0000006, .bunpk ⟨⟨false, false, false, false⟩, .t, .q 3, .zero, .zero, 0, false, .f32, .rne, false, 0x6⟩),
    (0xAA5470FFF0300001, .mov ⟨⟨true, false, true, false⟩, .sd, .imm, .zero, .zero, 0, false, .i32, .rne, false, 0x1⟩),
    (0x0A60010832300000, .sel ⟨⟨false, false, false, false⟩, .t, .t 1, .t 2, .t 3, 1, false, .i32, .rne, false, 0x0⟩),
    (0x0A7001FFF0308001, .shfl ⟨⟨false, false, false, false⟩, .t, .t 1, .zero, .zero, 0, false, .i32, .rne, false, 0x8001⟩),
    (0x0A8166FFF0300000, .bcast ⟨⟨false, false, false, false⟩, .n 4, .o 1, .zero, .zero, 0, false, .i32, .rne, false, 0x0⟩),
    (0x0A90A0FFF0308002, .slide ⟨⟨false, false, false, false⟩, .n 1, .q 0, .zero, .zero, 0, false, .i32, .rne, false, 0x8002⟩),
    (0x0AA4405FF0300001, .ins ⟨⟨false, false, false, false⟩, .sd, .t 0, .n 7, .zero, 0, false, .i32, .rne, false, 0x1⟩),
    (0x0AB001FFF030003F, .ext ⟨⟨false, false, false, false⟩, .t, .t 1, .zero, .zero, 0, false, .i32, .rne, false, 0x3f⟩),
    (0x0AC211FFF2000000, .rsum ⟨⟨false, false, false, false⟩, .n 7, .n 1, .zero, .zero, 1, false, .f32, .rne, false, 0x0⟩),
    (0x0AD001FFF0300000, .rmax ⟨⟨false, false, false, false⟩, .t, .t 1, .zero, .zero, 0, false, .i32, .rne, false, 0x0⟩),
    (0x0AE001FFF0400000, .rmin ⟨⟨false, false, false, false⟩, .t, .t 1, .zero, .zero, 0, false, .u32, .rne, false, 0x0⟩),
    (0x0AF001FFF0000004, .scan ⟨⟨false, false, false, false⟩, .t, .t 1, .zero, .zero, 0, false, .f32, .rne, false, 0x4⟩),
    (0x0B05BFFFF0000440, .plog ⟨⟨false, false, false, false⟩, .p 2, .zero, .zero, .zero, 0, false, .f32, .rne, false, 0x440⟩),
    (0x0B16BFFFF0000040, .pset ⟨⟨false, false, false, false⟩, .p 6, .zero, .zero, .zero, 0, false, .f32, .rne, false, 0x40⟩),
    (0x0B203FFFF0000007, .pcnt ⟨⟨false, false, false, false⟩, .t, .zero, .zero, .zero, 0, false, .f32, .rne, false, 0x7⟩),
    (0x0B3024FFF000FFFF, .accrd ⟨⟨false, false, false, false⟩, .t, .qs, .zero, .zero, 0, false, .f32, .rne, false, 0xffff⟩),
    (0x0B46FFFFF0000000, .flgrd ⟨⟨false, false, false, false⟩, .drop, .zero, .zero, .zero, 0, false, .f32, .rne, false, 0x0⟩),
    (0x0B5FFFFFF000007F, .flgclr ⟨⟨false, false, false, false⟩, .none, .zero, .zero, .zero, 0, false, .f32, .rne, false, 0x7f⟩)] = true := by decide

/-- Commands of the matrix engine (R51, R72, R178, R186, R194, R196). -/
theorem test_decode_matrix_commands : takes 0 [
    ([0x400030000C5, 0x8000, 0x0], .mma ⟨0, 0, 0, 0⟩ ⟨5, true, 1, false⟩ 3 0x8000 0),
    ([0xBF41080001FFFFBF, 0x7, 0x8], .drain ⟨5, 31, 2, 1⟩ ⟨63, false, 0xFFFF, true⟩ true 7 8),
    ([0xC0000000000, 0x9], .accld ⟨0, 0, 0, 0⟩ ⟨0, false, 0, false⟩ 9),
    ([0x100000800141], .accz ⟨0, 0, 0, 0⟩ ⟨1, true, 2, true⟩),
    ([0x1400003FFFFF, 0x4], .wbld ⟨0, 0, 0, 0⟩ 0x1FFFFF 1 4),
    ([0xF80000000032], .notify ⟨0, 0, 0, 0⟩ 2 3),
    ([0x180000000000], .unassignedCommandCode 0x180000000000)] = true := by decide

/-- Commands of the copy engine (R51, R72, R178, R186, R194, R196). -/
theorem test_decode_copy_commands : takes 1 [
    ([0xA100040000001000, 0x1, 0x2], .copy ⟨5, 1, 0, 0⟩ 0x1000 1 2),
    ([0x8000000000E, 0x1, 0x2, 0x3, 0x4, 0x5, 0x6, 0x7], .copyn ⟨0, 0, 0, 0⟩ 2 3 ⟨1, 2, 3, 4, 5, 6, 7⟩),
    ([0xCFFFFFFFFFF, 0x1, 0x2], .fill ⟨0, 0, 0, 0⟩ 0xFFFFFFFFFF 1 2),
    ([0x100000000159, 0x1, 0x2], .acw ⟨0, 0, 0, 0⟩ 9 true 5 1 2),
    ([0x140000000012, 0x1, 0x2, 0x3], .amo ⟨0, 0, 0, 0⟩ 2 true 1 2 3),
    ([0x190000000040, 0x1, 0x2], .pftt ⟨0, 0, 0, 0⟩ 64 true 1 2),
    ([0x1C000000003F, 0x10000], .pin ⟨0, 0, 0, 0⟩ 15 3 0x10000),
    ([0x200000000004], .unpin ⟨0, 0, 0, 0⟩ 4),
    ([0x240000000042, 0x1, 0x2, 0x3], .mrgSet ⟨0, 0, 0, 0⟩ 2 true 1 2 3),
    ([0x280700010082, 0x1], .mrgOpen ⟨0, 0, 0, 0⟩ 2 2 1 7 1),
    ([0x2C0000000001, 0x8000000000008400], .mrgDep ⟨0, 0, 0, 0⟩ 1 0x8000000000008400),
    ([0x300000000015], .mrgClose ⟨0, 0, 0, 0⟩ 5 true),
    ([0x340000000003, 0x1, 0x2], .flag ⟨0, 0, 0, 0⟩ true true 1 2),
    ([0x380000000000, 0x1], .resume ⟨0, 0, 0, 0⟩ 1)] = true := by decide

/-- Commands of the gather engine (R51, R72, R178, R186, R194, R196). -/
theorem test_decode_gather_commands : takes 2 [
    ([0x401003F001F, 0x1, 0x2, 0x3, 0x0], .gath ⟨0, 0, 0, 0⟩ 31 63 true 1 2 3 0),
    ([0x80000020001, 0x1, 0x2, 0x3, 0x4], .scat ⟨0, 0, 0, 0⟩ 1 2 1 2 3 4),
    ([0xC0300020001, 0x1, 0x2, 0x3, 0x4], .scata ⟨0, 0, 0, 0⟩ 1 2 3 1 2 3 4),
    ([0x100000020001, 0x1, 0x2, 0x3, 0x4, 0x5], .embag ⟨0, 0, 0, 0⟩ 1 2 1 2 3 4 5),
    ([0x380000000000, 0x1], .resume ⟨0, 0, 0, 0⟩ 1)] = true := by decide

/-- Commands of the shepherd engine (R51, R72, R178, R186, R194, R196). -/
theorem test_decode_shepherd_commands : takes 3 [
    ([0x40000000001, 0x1, 0x2, 0x3, 0x4, 0x5, 0x6, 0x7], .run ⟨0, 0, 0, 0⟩ true ⟨1, 2, 3, 4, 5, 6, 7⟩),
    ([0xFC0000000000], .engineNop ⟨0, 0, 0, 0⟩)] = true := by decide

/-- Steps of a shepherd program (R197). -/
theorem test_decode_steps : steps [
    ([0x400000000015, 0x800000010], .send ⟨1, true, 2, 0x800000010⟩),
    ([0x440000000000, 0x800000010], .recv ⟨0, false, 0, 0x800000010⟩),
    ([0x480000000020, 0x800000010], .rrs ⟨0, false, 0, 0x800000010⟩ 1),
    ([0x4C00000063C0, 0x800000010, 0x5], .rrw ⟨0, false, 0, 0x800000010⟩ 2 3 1 .rdn 5),
    ([0x500000000003, 0x800000010], .rcpy ⟨3, false, 0, 0x800000010⟩),
    ([0x540000000000], .kWait),
    ([0x580000000002, 0x3FFFFFFFE], .kLoop 2 0x3FFFFFFFE),
    ([0x5C00001FFFF1], .peer true false 0 0xFFFF 1),
    ([0x600000000000], .barc),
    ([0x640000000000], .endp),
    ([0xFC0000000000], .engineNop ⟨0, 0, 0, 0⟩)] = true := by decide

/-! ### Well-formedness: a term against each check -/

/-- No token bit. -/
def noTk : Tk := ⟨false, false, false, false⟩
/-- An X instruction without sources. -/
def x0 : XArgs := ⟨noTk, .t, .zero, .zero, .zero, 0, false, .f32, .rne, false, 0⟩
/-- A load of a word into q0. -/
def ld0 : LdArgs := ⟨noTk, .q 0, 0, none, .w, false, false, false, false, 0, 0, 0⟩
/-- A store address of a word. -/
def sa0 : SaArgs := ⟨noTk, 0, none, .w, false, false, 0, 0⟩
/-- An AA instruction into a0 without sources. -/
def aa0 : AaArgs := ⟨noTk, .a 0, .zero, .zero, false, 0⟩

/-- Are these instructions all ill formed? -/
def refused (l : List Instr) : Bool := l.all (fun i => !i.wf)

/-- R40, R45, R111: a vector into a scalar place, full bits through a handle, an index or a size LDX and SAX do not have, counts outside 1 to 65,536
and 1 to 32, and a control register that is not written. -/
theorem test_wf_access : refused [
    .ld { ld0 with dst := .qs, sz := .v }, .ld { ld0 with dst := .a 1, sz := .hv }, .ld { ld0 with fw := true, h := 1 }, .ld { ld0 with fc := true, h := 1 },
    .ldx { ld0 with ix := some 0 }, .ldx { ld0 with sz := .d }, .ldx { ld0 with dst := .fq }, .ldx { ld0 with fw := true, h := 2 },
    .sax { sa0 with ix := some 0 }, .sax { sa0 with sz := .d }, .pdbind noTk 0 0 0 0, .pdbind noTk 0 0 0 65537, .tkw noTk 0 0, .tkw noTk 0 33,
    .ctlw noTk 2 none, .ctlw noTk 5 none] = true := by decide

/-- R36, R67, R133: a sub-function an instruction does not have, a destination that is not a register, an unused source or immediate. -/
theorem test_wf_address_arithmetic : refused [
    .adda { aa0 with fn := true }, .lia { aa0 with fn := true }, .mada { aa0 with dst := .qs }, .liha { aa0 with dst := .q 0 }, .mova { aa0 with s2 := .a 0 },
    .lia { aa0 with s1 := .a 0 }, .adda { aa0 with s1 := .a 1, imm := 1 }] = true := by decide

/-- R68: a type, a rounding or a saturation that the row does not list; R36: an unused source; R144: PZ across lanes. -/
theorem test_wf_execute_rows : refused [
    .iadd x0, .fadd { x0 with ty := .i32 }, .fmin { x0 with rm := .rtz }, .rsum { x0 with ty := .i32, rm := .rup }, .scan { x0 with rm := .rup, imm := 1 },
    .fadd { x0 with sat := true }, .frcp { x0 with s2 := .t 0 }, .fadd { x0 with s3 := .t 0 }, .flgrd { x0 with s1 := .t 0 }, .rsum { x0 with pz := true },
    .fsgn { x0 with imm := 3, s2 := .t 0 }, .shfl { x0 with imm := 0x8001, s2 := .t 0 }] = true := by decide

/-- R69, R70, R139: IMM16 outside each row's fields, and source code 48 where IMM16 is taken or the type has none. -/
theorem test_wf_execute_immediates : refused [
    .fadd { x0 with imm := 1 }, .mov { x0 with ty := .fx, s1 := .imm }, .mov { x0 with ty := .i8, s1 := .imm, imm := 256 }, .fsgn { x0 with imm := 4 },
    .fcmp { x0 with imm := 8 }, .icmp { x0 with ty := .i32, imm := 6 }, .shfl { x0 with imm := 1 }, .shfl { x0 with imm := 0x8040 }, .slide { x0 with imm := 0x40 },
    .scan { x0 with imm := 3 }, .plog { x0 with imm := 5 }, .plog { x0 with imm := 8 }, .plog { x0 with imm := 0x204 }, .fcvt { x0 with imm := 9 },
    .fcvt { x0 with imm := 0x10 }, .fcvt { x0 with imm := 0x200 }, .fcvt { x0 with imm := 0x4008 }, .qmul { x0 with ty := .fx, imm := 32 }, .bpack { x0 with imm := 7 },
    .bpack { x0 with imm := 0x18 }, .bpack { x0 with imm := 0x8000 }, .bunpk { x0 with imm := 7 }, .ext { x0 with imm := 64 }, .pset { x0 with imm := 65 },
    .pset { x0 with imm := 0x8100 }, .pcnt { x0 with imm := 8 }, .rmax { x0 with imm := 1 }, .flgclr { x0 with imm := 0x80 }, .fcmp { x0 with s1 := .imm }] = true := by decide

/-- R71, R157: sizes, types and operations of S instructions. -/
theorem test_wf_store : refused [
    .stx ⟨noTk, .d, false, false⟩, .red ⟨noTk, .b, false, false, .add, false, .i32⟩, .red ⟨noTk, .w, false, false, .add, false, .i16⟩,
    .red ⟨noTk, .w, false, false, .xor, false, .f32⟩, .smp ⟨noTk, .d, false, false⟩] = true := by decide

/-- R51: a reserved wait source, a count without a source, a source without a count, and an engine that waits on itself; R64: an opcode cell that is
assigned is no illegal word. -/
theorem test_wf_commands : refused [
    .engineNop ⟨6, 1, 0, 0⟩, .engineNop ⟨0, 0, 7, 1⟩, .engineNop ⟨0, 1, 0, 0⟩, .engineNop ⟨1, 0, 0, 0⟩, .engineNop ⟨0, 0, 0, 1⟩, .engineNop ⟨0, 0, 3, 0⟩,
    .accz ⟨1, 1, 0, 0⟩ ⟨0, false, 0, false⟩, .unpin ⟨0, 0, 2, 1⟩ 0, .scat ⟨3, 1, 0, 0⟩ 0 0 0 0 0 0, .run ⟨0, 0, 4, 1⟩ false ⟨0, 0, 0, 0, 0, 0, 0⟩,
    .illegalInstruction 0] = true := by decide

/-- R35, R36, R38, R39: words that raise RESERVED_FIELD: token bits on an F word, SCOPE 7, KIND without FENCE, SRC 1 with an immediate, a zero field set,
a reserved index, size, tap, destination and source code, an SS field an instruction does not use. -/
theorem test_reserved_words : [0x1000000000000000, 0x009E000000000000, 0x0080010000000000, 0x0010400000000001, 0x0010000100000000, 0x0018000000000000, 0x0400010800000000,
    0x040001FC00000000, 0x040001F403800000, 0x0401C1F400000000, 0x053227F000000000, 0x08070003F0000000, 0x08002A03F0000000, 0x08000003F0010000,
    0x0C08000100000000, 0x0C5000000E000000, 0x0C50000000010000, 0x08000003F0900000, 0x04D001FFA0000000, 0x00C0000000400000].all (fun n => decodeTableWord 64 n == none) = true := by decide

/-! ### Witnesses: states that meet the hypotheses of each statement -/

/-- A copy with nothing in it but an iteration. -/
abbrev p0 : Part := { Part.reset with inIter := true }
/-- The machine after reset with a window of 4 GiB for tenant 0, and copy 0, which is in execution, as given. -/
def at0 (p : Part) : State := (State.reset.modTen 0 (fun x => { x with wins := [⟨false, 0, 4⟩] })).setPart 0 p
/-- A page of 64 KiB of class T at a virtual base of 0x10000 and a physical base of 0x20000, writable. -/
def page1 : PageInfo := ⟨0x10000, 0x20000, 0, 0, true, false, false, 0, 0x100⟩
/-- A VALID handle of that page. -/
def handle1 : Handle := ⟨.valid, 0x10000, page1, 0, false⟩
/-- A result of lanes 0, 1, 2 and so on, times a factor. -/
def ramp (m : Nat) : Vec := (upto 64).map (fun i => BitVec.ofNat 32 (m * i))

theorem ready0 (u : Nat) : (at0 p0).readyIn u noTk := ⟨rfl, rfl, .inr rfl, rfl, .inr ⟨by rcases u with _ | _ | _ | _ | u <;> rfl, rfl⟩⟩

/-- A line of device memory that no one outside holds. -/
def lineFree (s : State) (l : Nat) : Bool := (Map.find? s.pkg.hostLines l).isNone && (Map.find? s.pkg.padAway l).isNone

theorem lineFree_home {s : State} {l : Nat} (h : lineFree s l = true) : s.lineHome l := by
  simpa [lineFree, State.lineHome] using h

/-- Stretches of device memory are at hand inside the tenant's windows where their lines and leaf entries are free, all of which is decidable. -/
def atHandDev (s : State) (t : Nat) (x : Stretch) : Bool :=
  !s.heldBack t x && !x.page.hh && !s.frozenAt x.pa && s.ours x.pa
    && (linesOf x.pa x.n).all (fun l => lineFree s l && (Map.find? s.pkg.homeQ l).isNone)
    && (x.page.ps == 3 || s.ours x.page.leaf && !s.frozenAt x.page.leaf && lineFree s (x.page.leaf / 64) && s.inWin t x.page.hh x.pa x.n)

theorem unhindered_dev (s : State) (who t : Nat) (rs ws : List Stretch) (a : Map.find? s.reqs who = none) (w : Map.find? s.reqs (walkReq who) = none)
    (b : s.pkg.waysNew = none) (c : (rs ++ ws).all (atHandDev s t) = true) (d : s.poisonedIn rs = none) : s.unhindered who t rs ws := by
  refine ⟨a, w, b, fun x hx => ?_, d⟩
  have h := (List.all_eq_true.1 c) x hx
  simp only [atHandDev, Bool.and_eq_true, Bool.not_eq_true', Bool.or_eq_true, beq_iff_eq, List.all_eq_true, Option.isNone_iff_eq_none] at h
  obtain ⟨⟨⟨⟨⟨h1, h2⟩, h3⟩, h4⟩, h5⟩, h6⟩ := h
  refine ⟨⟨h1, fun e => ?_, fun _ => ⟨h3, h4⟩, fun l hl => ?_, fun e _ => ?_⟩, fun e => ?_⟩
  · rw [h2] at e; cases e
  · unfold State.lineAtHand
    rw [if_neg (by rw [h2]; simp)]
    exact ⟨lineFree_home (h5 l hl).1, (h5 l hl).2⟩
  · obtain ⟨⟨⟨g1, g2⟩, g3⟩, _⟩ := h6.resolve_left e
    exact ⟨g1, g2, lineFree_home g3⟩
  · exact (h6.resolve_left e).2

/-- The tables of a walk are at hand where their entries are free, which is decidable. -/
def tablesDev (s : State) (who t va : Nat) : Bool :=
  (Map.find? s.reqs (walkReq who)).isNone && s.pkg.winBusy != some t
    && (s.walkPath t va).all (fun a => s.ours a && !s.frozenAt a && (linesOf a 8).all (lineFree s))

theorem tables_dev {s : State} {who t va : Nat} (h : tablesDev s who t va = true) : s.tablesAtHand who t va := by
  simp only [tablesDev, Bool.and_eq_true, Bool.not_eq_true', bne_iff_ne, List.all_eq_true, Option.isNone_iff_eq_none] at h
  exact ⟨h.1.1, h.1.2, fun a ha => ⟨(h.2 a ha).1.1, (h.2 a ha).1.2, fun l hl => lineFree_home ((h.2 a ha).2 l hl)⟩⟩

/-- A scratchpad range without paddocks needs no tables. -/
theorem padTables_none {s : State} {who t core off n : Nat} (h : (s.core core).padParts off n = []) : s.padTables who t core off n := by
  intro x hx
  rw [h] at hx
  cases hx

theorem witness_control_flow :
    let s := at0 { p0 with fq := [5], cq := [true], rstack := List.replicate 7 8 }
    s.me.fop (.imm 3) = some (3, s.me) ∧ (s.me.fop .fq).isSome = true ∧ s.me.cq = true :: [] ∧ s.me.rstack.length < 8
      ∧ s.me.rstack = 8 :: List.replicate 6 8 ∧ s.me.fq = 5 :: [] := by decide

theorem witness_nop : (at0 p0).me.sleeping = none := rfl

theorem witness_front_end_registers :
    let s := at0 { p0 with ev := [(15, 4)] }
    (4 : Word).toNat ≤ (s.me.rdEv 15).toNat ∧ (0 : Word).toNat ≤ (s.me.rdEv 0).toNat ∧ (1 : Word) ≠ 0 ∧ s.sysOk s.cten = true := by decide

theorem witness_waits :
    (at0 p0).me.fq = [] ∧ (at0 p0).me.cq = [] ∧ ((at0 p0).me.rdEv 0).toNat < (1 : Word).toNat
      ∧ (at0 { p0 with pendA := [⟨0, 0, 0, .nop⟩] }).me.pendA ≠ [] ∧ (at0 { p0 with pendX := [⟨0, 0, 0, .nop⟩] }).me.pendX ≠ []
      ∧ (at0 { p0 with pendS := [⟨0, 0, 0, .nop⟩] }).me.pendS ≠ [] := by decide

/-- An object of two members without arrivals, with one, and one of the previous phase completed. -/
theorem witness_barriers :
    let r : BarRef := ⟨.core, 7, 0⟩
    let s := (at0 { p0 with bd := 8, drove := 1 }).setBar 7 ⟨2, 0, 3, [], []⟩
    let u := (at0 { p0 with bd := 8, drove := 1, barArrived := some 7, joined := [(7, (2, 0))] }).setBar 7 ⟨2, 1, 3, [(0, 1)], []⟩
    s.barKeyOf s.cten (coreOf s.ctx.k) r.scope (r.ob.val + (s.me.brb + r.id.val) % s.me.bd) = some 7 ∧ barRemote 7 = false
      ∧ (s.bar 7).c ≠ 0 ∧ (s.bar 7).a = 0 ∧ s.released s.ctx.k s.ctx.seq = true ∧ (s.bar 7).a + 1 ≠ (s.bar 7).c
      ∧ u.barKeyOf u.cten (coreOf u.ctx.k) r.scope (r.ob.val + (u.me.brb + r.id.val) % u.me.bd) = some 7 ∧ u.released u.ctx.k u.ctx.seq = true
      ∧ (u.bar 7).a ≠ 0 ∧ (u.bar 7).others u.pkg.pkgid.toNat (u.me.droveId 7) = false ∧ u.me.joinedAt 7 (u.bar 7).phase = false ∧ (u.bar 7).a + 1 = (u.bar 7).c
      ∧ s.me.barArrived = none ∧ Map.find? u.me.joined 7 = some (2, u.me.iter) ∧ 2 < (u.bar 7).phase ∧ u.me.barArrived.isSome = true
      ∧ (0x100000 : BitVec 21) ≠ 0 ∧ (0x100000 : BitVec 21).toNat ≤ 2 ^ 20 ∧ (u.bar 7).c = (2 : BitVec 21).toNat := by decide

theorem witness_end_halt_launch :
    let s := at0 p0
    s.me.quiet = true ∧ s.inExchange s.ctx.k 1 = false ∧ s.inExchange s.ctx.k 3 = false ∧ Map.find? s.me.flight 1 = none
      ∧ Map.find? s.me.flight 3 = none ∧ s.ringsHold s.ctx.k = false ∧ s.me.leftover = false ∧ s.me.older 3 s.ctx.seq = false ∧ s.me.olderAccess 1 s.ctx.seq = false
      ∧ s.clear s.ctx.k s.ctx.seq = true ∧ (128 : Word).toNat % 128 = 0 ∧ inSpad (isU s.ctx.k) (128 : Word).toNat 128 = true ∧ s.sysOk s.cten = true
      ∧ s.myCore.padParts (128 : Word).toNat 128 = [] ∧ s.myCore.spadBad (128 : Word).toNat 128 = false ∧ Map.find? s.reqs (s.ctx.k * 8) = none
      ∧ Map.find? s.reqs (walkReq (s.ctx.k * 8)) = none ∧ Map.find? s.me.flight 0 = none ∧ s.inParts 8 = false := by decide

/-- Sources that pop two elements, and a register destination; MULA of an unsigned pair. -/
theorem witness_address_arithmetic :
    let s := at0 { p0 with xa := [ramp 1, ramp 2] }
    let o : AaArgs := ⟨noTk, .a 0, .xaWord, .xaPair, true, 0⟩
    aaArgsOf (.mula o) = some o ∧ ASrc.pops o.s1 + ASrc.pops o.s2 ≤ s.me.xa.length ∧ s.me.roomA o.dst = true := by decide

theorem witness_access_sources : (at0 { p0 with xa := [ramp 1, ramp 2] }).me.xa = ramp 1 :: ramp 2 :: [] := rfl

/-- A word through h0 at scratchpad offset 16 under FW, a vector through h1 at the page's last 256 bytes, and a load performed ahead of its turn. -/
theorem witness_load :
    let s := at0 { p0 with h := [(1, handle1)] }
    let pg := (s.me.rdH 0).page
    let u := at0 { p0 with early := [(0, [1, 2, 3, 4])] }
    s.readyIn 1 noTk ∧ Map.find? s.me.early s.ctx.seq = none ∧ Map.find? s.me.flight 1 = none ∧ (s.me.rdH 0).st = .valid
      ∧ (16 : Nat) = eaOf pg.vbase (s.me.rdAo none) 0 16
      ∧ s.accessCheck s.ctx.k 0 pg .w 0 false false 16 = none ∧ s.me.roomA (.q 3) = true
      ∧ s.mayPlain s.ctx.k 1 s.ctx.seq false (pg, [(16, s.spanOf s.cten pg .w)]) = true
      ∧ s.fullAt s.ctx.k .w [16] = true ∧ s.readFree pg .w 16
      ∧ (s.me.rdH 1).st = .valid ∧ (s.me.rdH 1).page = page1 ∧ 0x1FF00 = eaOf page1.vbase (s.me.rdAo none) 0 0xFF00
      ∧ s.accessCheck s.ctx.k 1 page1 .v 0 false false 0x1FF00 = none
      ∧ s.mayPlain s.ctx.k 1 s.ctx.seq false (page1, [(0x1FF00, s.spanOf s.cten page1 .v)]) = true ∧ s.readFree page1 .v 0x1FF00
      ∧ s.inParts (s.ldGroups s.ctx.k page1 0x1FF00 (s.spanOf s.cten page1 .v)).length = false
      ∧ s.inParts (s.ldGroups s.ctx.k pg 16 (s.spanOf s.cten pg .w)).length = false
      ∧ u.readyIn 1 noTk ∧ Map.find? u.me.early u.ctx.seq = some [1, 2, 3, 4] ∧ u.me.roomA (.q 3) = true :=
  ⟨⟨rfl, rfl, .inr rfl, rfl, .inr ⟨rfl, rfl⟩⟩, rfl, rfl, rfl, rfl, rfl, rfl, rfl, rfl, ⟨rfl, rfl, padTables_none rfl, rfl, rfl⟩, rfl, rfl, rfl, rfl, rfl,
    unhindered_dev _ _ _ _ _ rfl rfl rfl (by decide) rfl, rfl, rfl, ⟨rfl, rfl, .inr rfl, rfl, .inr ⟨rfl, rfl⟩⟩, rfl, rfl⟩

/-- Lanes 0 to 63 of words at consecutive addresses, of scratchpad and of the page. -/
theorem witness_lane_loads :
    let s := at0 { p0 with h := [(1, handle1)], xa := [ramp 4] }
    let pg := (s.me.rdH 0).page
    s.readyIn 1 noTk ∧ s.me.xa = ramp 4 :: [] ∧ (s.me.rdH 0).st = .valid
      ∧ s.lanesCheck s.ctx.k 0 pg .w 0 false false (laneEas pg.vbase (ramp 4) 0 0) = none ∧ s.me.roomA (.q 0) = true
      ∧ s.mayPlain s.ctx.k 1 s.ctx.seq false (pg, (laneEas pg.vbase (ramp 4) 0 0).map (fun a => (a, s.spanOf s.cten pg .w))) = true
      ∧ s.mayPlain s.ctx.k 1 s.ctx.seq false (page1, (laneEas page1.vbase (ramp 4) 0 0).map (fun a => (a, s.spanOf s.cten page1 .w))) = true
      ∧ Map.find? s.me.flight 1 = none ∧ s.budget ≠ 0
      ∧ s.fullAt s.ctx.k .w (laneEas pg.vbase (ramp 4) 0 0) = true ∧ pg.ps = 3
      ∧ (∀ a ∈ laneEas pg.vbase (ramp 4) 0 0, s.readFree pg .w a)
      ∧ s.lanesCheck s.ctx.k 1 page1 .w 0 false false (laneEas page1.vbase (ramp 4) 0 0) = none ∧ page1.ps ≠ 3
      ∧ s.unhindered (s.ctx.k * 8 + 1) s.cten ((laneEas page1.vbase (ramp 4) 0 0).map (fun a => ⟨page1, a, s.spanOf s.cten page1 .w⟩)) [] :=
  ⟨⟨rfl, rfl, .inr rfl, rfl, .inr ⟨rfl, rfl⟩⟩, rfl, rfl, by decide, rfl, rfl, rfl, rfl, by decide, by decide, rfl,
    fun a ha => by
      have h : ∀ a ∈ laneEas (((at0 p0).me.rdH 0).page).vbase (ramp 4) 0 0, (Core.reset.padParts a 4).isEmpty = true := by decide
      have e : Core.reset.padParts a 4 = [] := List.isEmpty_iff.1 (h a ha)
      exact ⟨congrArg (List.filter PadPart.needsFill) e, rfl, padTables_none e, rfl, rfl⟩,
    by decide, by decide, unhindered_dev _ _ _ _ _ rfl rfl rfl (by decide) (by decide)⟩

/-- A machine in which tenant 0 has virtual addresses 0 to 2^30 - 1 on one page of 1 GiB, class T, writable, at device address 0 (R249). -/
def mapped (s : State) : State :=
  ((s.modTen 0 (fun x => { x with ptroot := 0x1000000, wins := [⟨false, 0, 4⟩] })).putVal .dev 0x1000000 8 (1 + 0x1010000 + 3 * 2 ^ 60)).putVal
    .dev 0x1010000 8 (1 + 2 + 2 * 2 ^ 60)
/-- That page. -/
def gib0 : PageInfo := ⟨0, 0, 2, 0, true, false, false, 0, 0x1010000⟩

set_option maxRecDepth 8000 in
theorem mapped_xlate : (mapped State.reset).xlate 0 0x20000 = some gib0 := by decide

/-- A stream of one word left at virtual address 0x20000. -/
def strm1 : Strm := ⟨true, 0x20000, 4, 1, .w⟩
/-- A machine with that stream on its page. -/
def streaming : State := mapped (at0 { p0 with strm := [(7, strm1)] })

set_option maxRecDepth 40000 in
theorem streaming_range : streaming.mapRange streaming.cten 2 strm1.addr.toNat (szBytes strm1.esz) = .ok [⟨gib0, 0x20000, 4⟩] := by decide

set_option maxRecDepth 40000 in
theorem streaming_tables : ∀ v, v ∈ walkVas strm1.addr.toNat (szBytes strm1.esz) → streaming.tablesAtHand (streaming.ctx.k * 8 + 1) streaming.cten v := by
  intro v hv
  rw [show walkVas strm1.addr.toNat (szBytes strm1.esz) = [0x20000] by decide, List.mem_singleton] at hv
  subst hv
  exact tables_dev (by decide)

theorem witness_stream_load :
    let s := streaming
    s.readyIn 1 noTk ∧ s.me.rdStrm 7 = strm1 ∧ strm1.bnd = true ∧ strm1.left ≠ 0 ∧ strm1.esz.isVec = false
      ∧ s.mapRange s.cten 2 strm1.addr.toNat (szBytes strm1.esz) = .ok [⟨gib0, 0x20000, 4⟩]
      ∧ s.streamCheck s.cten strm1.esz strm1.addr.toNat [⟨gib0, 0x20000, 4⟩] = none ∧ s.me.roomA (.a 15) = true ∧ s.mayElem s.ctx.k [⟨gib0, 0x20000, 4⟩] = true
      ∧ (∀ v, v ∈ walkVas strm1.addr.toNat (szBytes strm1.esz) → s.tablesAtHand (s.ctx.k * 8 + 1) s.cten v)
      ∧ Map.find? s.me.flight 1 = none ∧ s.inParts (lineStretches (s.elemStretches s.cten [⟨gib0, 0x20000, 4⟩])).length = false
      ∧ s.elemStretches s.cten [⟨gib0, 0x20000, 4⟩] = [⟨gib0, 0x20000, 4⟩]
      ∧ s.unhindered (s.ctx.k * 8 + 1) s.cten [⟨gib0, 0x20000, 4⟩] [] :=
  ⟨⟨rfl, rfl, .inr rfl, rfl, .inr ⟨rfl, rfl⟩⟩, rfl, rfl, by decide, rfl, streaming_range, rfl, rfl, rfl, streaming_tables, rfl, rfl, rfl,
    unhindered_dev _ _ _ _ _ rfl rfl rfl rfl rfl⟩

/-- A word at scratchpad offset 0 and one at the page's end; lanes of words; and a handle that is not VALID for PFT. -/
theorem witness_store_addresses :
    let s := at0 { p0 with h := [(1, handle1)], xa := [ramp 4] }
    s.readyIn 1 noTk ∧ (s.me.rdH 1).st = .valid ∧ (s.me.rdH 1).page = page1 ∧ s.me.aq.length < 64
      ∧ 0x1FFFC = eaOf page1.vbase (s.me.rdAo none) 0 0xFFFC ∧ s.accessCheck s.ctx.k 1 page1 .w 0 true false 0x1FFFC = none
      ∧ s.accessCheck s.ctx.k 0 (s.me.rdH 0).page .w 0 true false 0 = none ∧ s.me.xa = ramp 4 :: []
      ∧ s.lanesCheck s.ctx.k 1 page1 .w 0 true false (laneEas page1.vbase (ramp 4) 0 0) = none ∧ (s.me.rdH 2).st ≠ .valid
      ∧ s.me.pfts = [] ∧ s.unhindered (pftReq s.ctx.k) s.cten [⟨{ page1 with ps := 3 }, 0x10000, 64⟩] []
      ∧ s.heldBack s.cten ⟨page1, 0x10000, 64⟩ = false ∧ s.padTables (s.ctx.k * 8 + 1) s.cten (coreOf s.ctx.k) 0 4 ∧ Map.find? s.reqs (walkReq (s.ctx.k * 8 + 1)) = none :=
  ⟨⟨rfl, rfl, .inr rfl, rfl, .inr ⟨rfl, rfl⟩⟩, by decide, by decide, by decide, by decide, by decide, by decide, rfl, by decide, by decide, rfl,
    unhindered_dev _ _ _ _ _ rfl rfl rfl (by decide) rfl, rfl, padTables_none rfl, rfl⟩

/-- A bound stream, an aligned address and stride, and each kind of handle state. -/
theorem witness_handles_streams :
    let s := at0 { p0 with h := [(1, handle1)], a := [(0, 0x20000), (1, 8)], strm := [(7, ⟨true, 0x20000, 4, 1, .w⟩)] }
    s.readyIn 1 noTk ∧ s.me.roomA .fq = true ∧ (0 : Fin 32) ≠ 1 ∧ (s.me.rdH 1).st = .valid ∧ (s.me.rdH 1).page.ps < 4 ∧ (s.me.rdH 1).page.cl < 4
      ∧ (s.me.rdA 0).toNat % 2 ^ 52 % szAlign .d = 0 ∧ ((s.me.rdA 1).setWidth 32).toNat % szAlign .d = 0 ∧ (s.me.rdStrm 7).bnd = true :=
  ⟨⟨rfl, rfl, .inr rfl, rfl, .inr ⟨rfl, rfl⟩⟩, by decide⟩

set_option maxRecDepth 8000 in
/-- An entry of one line to bind, a bound one with a dirty word on a mapped page, and one not bound; granules at the window's start. -/
theorem witness_paddocks :
    let p : Paddock := ⟨0x1000, 0x20000, 2, [(1, ⟨true, 1, some 0x801, false, []⟩)]⟩
    let s := (mapped (at0 { p0 with a := [(0, 0), (1, 0x30000)] })).setCore 0 { Core.reset with pd := [(3, p)] }
    s.readyIn 1 noTk ∧ s.bindCheck (coreOf s.ctx.k) (isU s.ctx.k) 0 ((s.me.rdA 0).toNat % 2 ^ 22) (s.me.rdA 1).toNat (1 : BitVec 28).toNat = none
      ∧ pdInPart (isU s.ctx.k) 3 = true ∧ s.me.olderAccess 3 s.ctx.seq = false ∧ s.fenced s.ctx.k s.ctx.seq = false
      ∧ Map.find? s.myCore.pd 0 = none ∧ Map.find? s.myCore.pd 3 = some p ∧ s.xlate s.cten (p.glob + 64 * 1) = some gib0 ∧ s.held (s.ctx.k * 8 + 1) s.cten true ⟨gib0, p.glob + 64 * 1, 64⟩ = false
      ∧ s.tablesAtHand (s.ctx.k * 8 + 1) s.cten (p.glob + 64 * 1) ∧ Map.find? s.reqs (walkReq (s.ctx.k * 8 + 1)) = none
      ∧ s.me.feOff none 0 % 16 = 0 ∧ inSpad (isU s.ctx.k) (s.me.feOff none 0) (16 * 64) = true
      ∧ inSpad (isU s.ctx.k) (s.me.feOff none 0) 16 = true ∧ s.me.roomA .qs = true :=
  ⟨⟨rfl, rfl, .inr rfl, rfl, .inr ⟨rfl, rfl⟩⟩, by decide, by decide, by decide, by decide, by decide, rfl, by decide, by decide, tables_dev (by decide), by decide, by decide, by decide, by decide, by decide⟩

/-- Nothing uses a control register; 32 engine tokens are there to take, and 32 strand tokens fit. -/
theorem witness_control_registers :
    let s := at0 { p0 with engTok := [(3, 32)] }
    s.readyIn 1 noTk ∧ s.readyIn 3 noTk ∧ s.me.roomA (.q 0) = true ∧ s.me.older 2 s.ctx.seq = false ∧ s.me.older 3 s.ctx.seq = false
      ∧ s.me.usesCtl s.ctx.seq 7 = false ∧ (32 : BitVec 28).toNat ≤ Map.get 0 s.me.engTok 3 ∧ s.mayPush s.ctx.k s.ctx.seq = true
      ∧ Map.get 0 s.me.owed 8 = 0 ∧ Map.get 0 s.me.strTok 3 + (31 + 1) ≤ 32 :=
  ⟨⟨rfl, rfl, .inr rfl, rfl, .inr ⟨rfl, rfl⟩⟩, ⟨rfl, rfl, .inr rfl, rfl, .inr ⟨rfl, rfl⟩⟩, by decide⟩

/-! Witnesses for the execute unit. -/

/-- A copy with two results in its queue and one element in q0 and o1. -/
def pX : Part := { p0 with t := [ramp 1, ramp 3], q := [(0, [ramp 2])], o := [(1, [ramp 5])], qs := [7] }

theorem witness_result_queue :
    pX.rdQ 0 = ramp 2 :: [] ∧ pX.rdO 1 = ramp 5 :: [] ∧ pX.qs = 7 :: [] ∧ XDst.none ≠ .t ∧ XDst.t ≠ .cq ∧ (15 : Nat) < 16 := by decide

/-- An X instruction that reads t0 and pops q0 and o1. -/
def xPops : XArgs := { x0 with s1 := .t 0, s2 := .q 0, s3 := .o 1, ty := .i32, p := 7 }

theorem xPops_ready : (at0 pX).readyIn 2 noTk ∧ (at0 pX).me.readyX (at0 pX).ctx.seq xPops = true
    ∧ ∃ a b c q, (at0 pX).me.readSrcs xPops = (a, b, c, q) :=
  ⟨⟨rfl, rfl, .inr rfl, rfl, .inr ⟨rfl, rfl⟩⟩, by decide, _, _, _, _, rfl⟩

/-- An instruction without sources is ready on any queues. -/
theorem x0_ready (ty : Ty) (imm : BitVec 16) (d : XDst) : (at0 p0).readyIn 2 noTk
    ∧ (at0 p0).me.readyX (at0 p0).ctx.seq { x0 with ty := ty, imm := imm, d := d } = true
    ∧ ∃ a b c q, (at0 p0).me.readSrcs { x0 with ty := ty, imm := imm, d := d } = (a, b, c, q) := by
  refine ⟨⟨rfl, rfl, .inr rfl, rfl, .inr ⟨rfl, rfl⟩⟩, ?_, _, _, _, _, rfl⟩
  cases d <;> rfl

theorem witness_integer_arithmetic :
    xArgsOf (.imad xPops) = some xPops ∧ (intOf 0 0 0 (.imad xPops)).isSome = true ∧ (at0 pX).readyIn 2 noTk
      ∧ (at0 pX).me.readyX (at0 pX).ctx.seq xPops = true ∧ (at0 { pX with p := [(7, 1)] }).active xPops 0 ∧ outside .i32 (2 ^ 31)
      ∧ intOf 1 2 3 (.imad xPops) = some 5 :=
  ⟨rfl, rfl, xPops_ready.1, xPops_ready.2.1, ⟨by decide, by decide⟩, by simp [outside, Ty.signed, Ty.width], rfl⟩

theorem witness_bits_comparisons :
    xArgsOf (.icmp { x0 with ty := .u8, imm := 5 }) = some { x0 with ty := .u8, imm := 5 } ∧ (5 : BitVec 16).toNat < 6
      ∧ (bitOf true true (.andn x0)).isSome = true ∧ Instr.popc x0 = .popc x0 ∧ (at0 p0).readyIn 2 noTk
      ∧ (at0 p0).me.readyX (at0 p0).ctx.seq { x0 with ty := .u8, imm := 5 } = true :=
  ⟨rfl, by decide, rfl, rfl, (x0_ready .u8 5 .t).1, (x0_ready .u8 5 .t).2.1⟩

theorem witness_fixed_point :
    let o : XArgs := { xPops with ty := .fx, imm := 31 }
    o.ty = .fx ∧ (at0 pX).readyIn 2 o.tk ∧ (at0 pX).me.readyX (at0 pX).ctx.seq o = true ∧ isRndsh .rne 3 1 2 ∧ isRndsh .rdn (-3) 1 (-2) :=
  ⟨rfl, ⟨rfl, rfl, .inr rfl, rfl, .inr ⟨rfl, rfl⟩⟩, by decide, by unfold isRndsh; decide, by unfold isRndsh; decide⟩

/-- The smallest and the largest finite f16, and a value that overflows it. -/
theorem witness_float_elements :
    xArgsOf (.fma { xPops with ty := .f16 }) = some { xPops with ty := .f16 } ∧ Ty.fmt .f16 = some f16 ∧ (fltOf f16 0 0 0 (.fma { xPops with ty := .f16 })).isSome = true
      ∧ (at0 pX).readyIn 2 noTk ∧ (at0 pX).me.readyX (at0 pX).ctx.seq { xPops with ty := .f16 } = true ∧ f16 ∈ fmts
      ∧ unpack f16 1 = .fin ⟨false, 1, -24⟩ ∧ unpack f16 f16.maxFin = .fin ⟨false, 2047, 5⟩ ∧ (2047 : Nat) ≠ 0 ∧ (2 : Rat) ^ 16 ≤ |(⟨false, 1, 16⟩ : Dy).val| :=
  ⟨rfl, rfl, rfl, ⟨rfl, rfl, .inr rfl, rfl, .inr ⟨rfl, rfl⟩⟩, by decide, by simp [fmts], by decide, by decide, by decide, by simp [Dy.val]⟩

/-- Two values in order, two zeros of both signs, a negative value, and the powers of two at the ends of f16. -/
theorem witness_float_functions :
    f16 ∈ fmts ∧ unpack f16 0x3C00 = .fin ⟨false, 1024, -10⟩ ∧ (⟨false, 1024, -10⟩ : Dy).val < (⟨false, 1024, -9⟩ : Dy).val
      ∧ (⟨true, 0, 0⟩ : Dy).m = 0 ∧ (⟨true, 1, 0⟩ : Dy).neg = true ∧ (0x8000 : Nat) < 2 ^ (f16.eb + f16.fb + 1)
      ∧ (15 : Int).natAbs < 1024 ∧ f16.emin ≤ 15 ∧ (15 : Int) ≤ f16.bias ∧ unpack f16 0x4B80 = .fin ⟨false, 0x780, -7⟩ ∧ (⟨false, 0x780, -7⟩ : Dy).val = ((15 : Int) : Rat)
      ∧ unpack f16 0x7800 = .fin ⟨false, 0x400, 5⟩ ∧ (⟨false, 0x400, 5⟩ : Dy).val = (2 : Rat) ^ (15 : Int) :=
  ⟨by simp [fmts], by decide, by norm_num [Dy.val], rfl, rfl, by decide, by decide, by decide, by decide, by decide, by norm_num [Dy.val],
    by decide, by norm_num [Dy.val]⟩

/-- A conversion of f32 to fx32 with F = 16, 1.5 and an infinity to i8, and 300 to u8. -/
theorem witness_conversions :
    let o : XArgs := { x0 with ty := .fx, imm := 0x100 }
    Ty.ofCode (o.imm.toNat % 16) = some .f32 ∧ (at0 p0).readyIn 2 o.tk ∧ (at0 p0).me.readyX (at0 p0).ctx.seq o = true ∧ (31 : Nat) < 32
      ∧ unpack f32 0x7FC00001 = .nan false ∧ unpack f32 0xFF800000 = .inf true ∧ unpack f32 0x3FC00000 = .fin ⟨false, 0xC00000, -23⟩
      ∧ isRndsh .rne 0xC00000 23 2 ∧ Ty.fmt .i8 = none ∧ Ty.fmt .bf16 = some bf16 ∧ Ty.width .u8 < Ty.width .i32 ∧ outside .u8 300 :=
  ⟨rfl, (x0_ready .fx 0x100 .t).1, (x0_ready .fx 0x100 .t).2.1, by decide, by decide, by decide, by decide, by unfold isRndsh; decide, rfl, rfl, by decide, by simp [outside, Ty.signed, Ty.width]⟩

theorem witness_block_floating_point :
    (6 : BitVec 16).toNat % 8 + 2 ≤ 8 ∧ (at0 p0).readyIn 2 noTk ∧ (at0 p0).me.readyX (at0 p0).ctx.seq { x0 with ty := .f32, imm := 6, d := .t } = true
      ∧ 2 ≤ 8 ∧ (3 : Nat) < 4 ∧ (254 : Nat) < 255 ∧ [FVal.nan false].any FVal.isNan = true ∧ [FVal.fin ⟨false, 1, 0⟩, .inf true].any FVal.isNan = false
      ∧ isRndsh .rtz 1 1 0 :=
  ⟨by decide, (x0_ready .f32 6 .t).1, (x0_ready .f32 6 .t).2.1, by decide, by decide, by decide, rfl, rfl, by unfold isRndsh; decide⟩

theorem witness_lane_moves :
    xArgsOf (.slide { x0 with imm := 0x803F }) = some { x0 with imm := 0x803F } ∧ (at0 p0).readyIn 2 noTk
      ∧ (at0 p0).me.readyX (at0 p0).ctx.seq { x0 with ty := .f32, imm := 0x803F, d := .t } = true
      ∧ (moveOf (fun _ => 0) (fun _ => 0) (fun _ => 0) 0 (.slide { x0 with imm := 0x803F })).isSome = true
      ∧ (predBitOf p0 0 (.plog { x0 with imm := 4 })).isSome = true ∧ combOf (.scan { x0 with imm := 6 }) = some .min
      ∧ combOf (.rsum x0) = some .add ∧ (6 : BitVec 16).getLsbD 2 = true :=
  ⟨rfl, (x0_ready .f32 0x803F .t).1, (x0_ready .f32 0x803F .t).2.1, rfl, rfl, rfl, rfl, rfl⟩

/-- Tile 0, row 0, without a version check, and its version 0. -/
theorem witness_accumulator_flags :
    let o : XArgs := { x0 with s1 := .qs }
    let s := at0 { p0 with qs := [0x4000] }
    s.readyIn 2 o.tk ∧ s.me.readyX s.ctx.seq o = true ∧ (lane (s.me.readSrcs o).1 0).toNat = 0x4000 ∧ (0x4000 : Nat) < 2 ^ 15
      ∧ tileInPart (isU s.ctx.k) (0x4000 % 64) = true ∧ s.tileBusy (coreOf s.ctx.k) (0x4000 % 64) = false ∧ (0x4000 : Nat).testBit 14 = true
      ∧ (s.myCore.tile 0).ver = o.imm ∧ s.me.older 3 s.ctx.seq = false :=
  ⟨⟨rfl, rfl, .inr rfl, rfl, .inr ⟨rfl, rfl⟩⟩, by decide, by decide, by decide, by decide, (by decide), by decide, by decide, by decide⟩

/-! Witnesses for the store unit. -/

/-- Entries of aq: a vector at the end of the page, 64 words on it, a word and a scatter at the start of scratchpad, a dword there. -/
def eVec : AqEntry := ⟨false, [0x1FF00], 1, page1, [], .v, false, false⟩
def eLanes : AqEntry := ⟨true, laneEas page1.vbase (ramp 4) 0 0, 1, page1, [], .w, false, false⟩
def ePad (sz : Size) : AqEntry := ⟨false, [0], 0, ((at0 p0).me.rdH 0).page, [], sz, false, false⟩
/-- A copy with an entry and its data. -/
def storing (e : AqEntry) : State := at0 { p0 with aq := [e], sd := [ramp 9] }

theorem storing_ready (e : AqEntry) : (storing e).storeReady noTk e (ramp 9) [] [] :=
  ⟨⟨rfl, rfl, .inr rfl, rfl, .inr ⟨rfl, rfl⟩⟩, rfl, rfl, rfl, rfl, Nat.succ_ne_zero _⟩

set_option maxRecDepth 8000 in
theorem witness_stores :
    (storing eVec).storeReady noTk eVec (ramp 9) [] [] ∧ eVec.scatter = false ∧ (storing eVec).sysOk (storing eVec).cten = true ∧ eVec.h ≠ 0
      ∧ eVec.page.ps ≠ 3 ∧ eVec.page.cl ≠ 3
      ∧ (storing eVec).unhindered ((storing eVec).ctx.k * 8 + 3) (storing eVec).cten [] ((storeRunsOf eVec (ramp 9)).map (fun r => ⟨eVec.page, r.1, r.2.length⟩))
      ∧ (storing eLanes).storeReady noTk eLanes (ramp 9) [] [] ∧ eLanes.scatter = true ∧ szBytes eLanes.sz ≤ 4
      ∧ (storing (ePad .d)).storeReady noTk (ePad .d) (ramp 9) [] [] ∧ (ePad .d).h = 0 ∧ (ePad .d).page.ps = 3
      ∧ Map.find? (storing (ePad .d)).reqs ((storing (ePad .d)).ctx.k * 8 + 3) = none
      ∧ (∀ r ∈ storeRunsOf (ePad .d) (ramp 9), (storing (ePad .d)).myCore.padParts r.1 r.2.length = []) :=
  ⟨storing_ready _, rfl, rfl, by decide, by decide, by decide, unhindered_dev _ _ _ _ _ rfl rfl rfl (by decide) (by decide), storing_ready _, rfl, by decide,
    storing_ready _, rfl, rfl, rfl, by decide⟩

/-- A region of 64 cells of 16 bytes at virtual address 0x10000, FX with F = 16. -/
def region1 : Region := ⟨false, false, 16, false, false, false, false, 0x10000, 64, ⟨0, 0, 0, 0, 0⟩, [2], 0, 0, 0, false, false⟩
/-- Its page, of class F. -/
def pageF : PageInfo := { page1 with cl := 3, rgn := 5 }
/-- A word of data for its last cell. -/
def eCell : AqEntry := ⟨false, [0x10000 + 63 * 16], 1, pageF, [], .w, false, false⟩
/-- A machine with that region registered. -/
def sampling (e : AqEntry) : State := (storing e).modTen 0 (fun x => { x with regs := [(5, region1)] })

theorem sampling_ready (e : AqEntry) : (sampling e).storeReady noTk e (ramp 9) [] [] :=
  ⟨⟨rfl, rfl, .inr rfl, rfl, .inr ⟨rfl, rfl⟩⟩, rfl, rfl, rfl, rfl, Nat.succ_ne_zero _⟩

theorem witness_samples :
    (sampling eCell).storeReady noTk eCell (ramp 9) [] [] ∧ eCell.page.cl = 3 ∧ eCell.page.ps ≠ 3
      ∧ (sampling eCell).regionOf (sampling eCell).cten eCell.page = some region1
      ∧ (∀ x ∈ elemsOf eCell region1.csz (ramp 9), (region1.cellAt x.1).isSome = true)
      ∧ (sampling eCell).unhindered ((sampling eCell).ctx.k * 8 + 3) (sampling eCell).cten [] ((elemsOf eCell region1.csz (ramp 9)).map (fun x => ⟨eCell.page, x.1, region1.csz⟩))
      ∧ (sampling eCell).me.olderCtl (sampling eCell).ctx.seq [1, 6] = false ∧ (sampling eCell).me.olderFlagRead (sampling eCell).ctx.seq = false
      ∧ (storing eVec).storeReady noTk eVec (ramp 9) [] [] ∧ eVec.page.cl ≠ 3 ∧ unpack f32 0x40000000 = .fin ⟨false, 0x800000, -22⟩
      ∧ isRndsh .rne 0x800000 6 0x20000 :=
  ⟨sampling_ready _, rfl, by decide, rfl, by decide, unhindered_dev _ _ _ _ _ rfl rfl rfl (by decide) (by decide), rfl, rfl, storing_ready _, by decide, by decide,
    by unfold isRndsh; decide⟩

theorem witness_reductions :
    let e : AqEntry := { eVec with sz := .w, addrs := [0x1FFFC] }
    (storing e).storeReady noTk e (ramp 9) [] [] ∧ (storing e).sysOk (storing e).cten = true ∧ e.h ≠ 0 ∧ e.page.ps ≠ 3 ∧ e.page.cl ≠ 3
      ∧ (storing e).unhindered ((storing e).ctx.k * 8 + 3) (storing e).cten ((elemsOf e 4 (ramp 9)).map (fun x => ⟨e.page, x.1, 4⟩))
          ((elemsOf e 4 (ramp 9)).map (fun x => ⟨e.page, x.1, 4⟩)) ∧ (storing e).memOk = true
      ∧ (storing (ePad .w)).storeReady noTk (ePad .w) (ramp 9) [] [] ∧ Map.find? (storing (ePad .w)).reqs ((storing (ePad .w)).ctx.k * 8 + 3) = none
      ∧ (∀ x ∈ elemsOf (ePad .w) 4 (ramp 9), (storing (ePad .w)).myCore.padParts x.1 4 = [] ∧ (storing (ePad .w)).myCore.spadBad x.1 4 = false) :=
  ⟨storing_ready _, rfl, by decide, by decide, by decide, unhindered_dev _ _ _ _ _ rfl rfl rfl (by decide) (by decide), by decide, storing_ready _, rfl, by decide⟩

/-- Each kind of mismatch of an entry; a region with room for a tick; a ring of 256 bytes with room for 32 words; formats. -/
theorem witness_entries_pushes :
    let s := (sampling (ePad .d)).modPart 0 (fun p => { p with rings := [(1, { Ring.none with base := 0x1000, size := 256 })] })
    (storing eVec).storeReady noTk eVec (ramp 9) [] [] ∧ (storing eLanes).storeReady noTk eLanes (ramp 9) [] [] ∧ eVec.sz ≠ .w ∧ eLanes.scatter = true ∧ eVec.scatter = false ∧ eVec.h ≠ 0
      ∧ s.readyIn 3 noTk ∧ s.memOk = true ∧ (255 : BitVec 16).toNat < 256 ∧ Map.find? (s.ten s.cten).regs 5 = some region1 ∧ region1.retiring = false
      ∧ region1.auto = false ∧ s.sysOk s.cten = true ∧ s.mayAccess s.ctx.k 3 s.ctx.seq = true ∧ s.tickRoom region1 = true
      ∧ s.mayPush s.ctx.k s.ctx.seq = true ∧ 31 + 1 ≤ (s.me.ring 1).free ∧ Map.get 0 s.me.owed 9 = 0 ∧ s.me.sd = ramp 9 :: [] ∧ s.me.aq = ePad .d :: []
      ∧ inSpad (isU s.ctx.k) 0 (8 * (31 + 1)) = true ∧ s.myCore.padParts 0 (8 * (31 + 1)) = [] ∧ s.me.olderCtl s.ctx.seq [0] = false
      ∧ s.me.fmtq.length < 32 ∧ Map.find? s.me.flight 3 = none ∧ s.myCore.spadBad 0 (8 * (31 + 1)) = false
      ∧ s.inParts (cutAt 16 0 (8 * (31 + 1))).length = false :=
  ⟨storing_ready _, storing_ready _, by decide, rfl, rfl, by decide, ⟨rfl, rfl, .inr rfl, rfl, .inr ⟨rfl, rfl⟩⟩, by decide, by decide, rfl, rfl, rfl, rfl, rfl, by decide, rfl, by decide, rfl, rfl, rfl, by decide⟩

/-! Witnesses for the engines. -/

/-- No WAIT and no SIGNAL byte. -/
def hd0 : Hdr := ⟨0, 0, 0, 0⟩
/-- A scratchpad operand. -/
def spd (off : Nat) : DWord := BitVec.ofNat 64 (2 ^ 63 + off)
/-- A copy in an iteration whose strand holds the array lease, with a format word that is all zeros. -/
def engined : State := (at0 { p0 with fmtq := [0] }).modCore 0 (fun c => { c with holder := some 0, turnLeft := 1 })

/-- A command runs where no exchange of its ring is open and it has begun no element. -/
theorem cmd_ready {s : State} {e : Nat} (a : Map.find? s.reqs (engWho s.ctx.k e) = none) (w : Map.find? s.reqs (walkReq (engWho s.ctx.k e)) = none)
    (b : s.budget ≠ 0) (r : s.ctx.room = none) (p : s.ctx.pick = none) (x : (s.curOf s.ctx.k e).seen = []) (y : (s.curOf s.ctx.k e).ahead = []) : s.cmdReady e hd0 :=
  ⟨.inr (.inl rfl), a, w, b, r, p, x, y⟩
theorem engined_ready (e : Fin 4) : engined.cmdReady e.val hd0 := cmd_ready rfl rfl (by decide) rfl rfl rfl rfl
/-- A scratchpad word outside the paddocks is read and written where no exchange of the ring is open. -/
theorem pad_gets {s : State} {e a n : Nat} (h : a % n = 0) (p : s.myCore.padParts a n = []) (b : s.myCore.spadBad a n = false)
    (q : Map.find? s.reqs (engWho s.ctx.k e) = none) : s.gets e ⟨true, a⟩ n (s.valAt (.spad (coreOf s.ctx.k)) a n) ((s.stampAgent false []).padTouch s.cten (coreOf s.ctx.k) a n) :=
  ⟨h, .inl ⟨rfl, congrArg (List.filter PadPart.needsFill) p, b, padTables_none p, q, rfl, rfl⟩⟩
theorem pad_puts {s : State} {e a n v : Nat} (h : a % n = 0) (p : s.myCore.padParts a n = []) (c : s.padStoreCheck s.cten (coreOf s.ctx.k) a n 1 = none)
    (x : s.padStretches (coreOf s.ctx.k) (s.xlate s.cten) a n = []) (q : Map.find? s.reqs (engWho s.ctx.k e) = none)
    (w : Map.find? s.reqs (walkReq (engWho s.ctx.k e)) = none) (b : s.pkg.waysNew = none) :
    s.puts e ⟨true, a⟩ n v ((((s.stampAgent true []).padTouch s.cten (coreOf s.ctx.k) a n).spadStore s.cten (coreOf s.ctx.k) (s.xlate s.cten) a (leBytes n v)).modCore
      (coreOf s.ctx.k) (·.setFull a n)) :=
  ⟨h, .inl ⟨rfl, c, padTables_none p, unhindered_dev _ _ _ _ _ q w b (by rw [x]; rfl) rfl, rfl⟩⟩
theorem engined_chain {f : Nat → State → State → Prop} (h : ∃ m, f 0 engined m) : ∃ m, chain f 1 0 engined m :=
  h.elim fun m hm => ⟨m, m, hm, rfl⟩

/-- One word read from scratchpad, and one written there. -/
theorem engined_gets (e : Fin 4) : ∃ v m, engined.gets e.val ⟨true, 0⟩ 4 v m := ⟨_, _, pad_gets rfl rfl rfl rfl⟩
theorem engined_puts (e : Fin 4) (v : Nat) : ∃ m, engined.puts e.val ⟨true, 64⟩ 4 v m := ⟨_, pad_puts rfl rfl rfl rfl rfl rfl rfl⟩

/-- A NOP with tokens to wait for and none there; with 31 to signal; NOTIFY of M alone, and of M and C. -/
theorem witness_tokens_notify :
    let s := engined
    s.ctx.retry = false ∧ (s.curOf 0 1).toks = false ∧ s.waitTokens 0 1 5 < (1 : BitVec 5).toNat ∧ s.cmdReady 1 hd0
      ∧ s.sameIter 0 (s.curOf 0 1).iter = true ∧ s.me.inIter = true ∧ (s.curOf 0 0).iter = s.me.iter ∧ s.ringFirst 0 0 = true
      ∧ (1 : BitVec 4).getLsbD 0 = true ∧ ((0 : BitVec 4) ||| BitVec.ofNat 4 (2 ^ 0)) = 1 ∧ ((0 : BitVec 4) ||| BitVec.ofNat 4 (2 ^ 0)) ≠ 3
      ∧ (2 : BitVec 4).getLsbD 0 = false :=
  ⟨rfl, rfl, by decide, engined_ready 1, rfl, rfl, rfl, rfl, rfl, rfl, by decide, rfl⟩

theorem witness_matrix_commands :
    let t : TileOp := ⟨47, true, 0, true⟩
    engined.tileReady hd0 t 0 [] ∧ rangeOk (isU 0) (spd 0) 65536 = true ∧ dwOk (spd 0) = true ∧ rangeOk (isU 0) (spd 0) (128 * drainBytes 0) = true
      ∧ (engined.curOf 0 0).prog = 0 ∧ 128 - 128 ≤ engined.budget ∧ engined.myCore.turnLeft ≠ 0 ∧ inSpad (isU 0) 0 (512 * 1 * 2) = true ∧ inSpad (isU 0) 0 128 = true
      ∧ engined.cmdReady 0 hd0 ∧ engined.myCore.holder = some engined.ctx.k ∧ rangeOk (isU 0) (spd 0) 1 = true ∧ 1 ≤ engined.budget
      ∧ (∃ v m, engined.gets 0 ⟨true, 0⟩ 4 v m) ∧ unpack f32 0 = .fin ⟨false, 0, -149⟩ ∧ isRndsh .rne 5 1 2 :=
  ⟨⟨engined_ready 0, rfl, .inl (by decide), rfl, rfl, fun _ => rfl, fun _ => rfl, rfl, rfl, rfl, rfl⟩, by decide, by decide, by decide, rfl, by decide, by decide,
    by decide, by decide, engined_ready 0,
    rfl, by decide, by decide, engined_gets 0, by decide, by unfold isRndsh; decide⟩

/-- COPY, FILL and the atomic commands of one word in scratchpad; a bound PFTT at an object of one member. -/
theorem witness_copy_commands :
    let s := engined.setBar 2097152 ⟨1, 0, 0, [], []⟩
    engined.cmdReady 1 hd0 ∧ (4 : BitVec 40).toNat % 4 = 0 ∧ rangeOk (isU 0) (spd 0) 4 = true ∧ (engined.curOf 0 1).prog = 4 * 0 ∧ 1 ≤ engined.budget
      ∧ (∃ m, State.movesApart 4 (fun j => (eaDword (spd 0)).at (4 * j)) (fun j => (eaDword (spd 64)).at (4 * j)) 1 0 engined.written engined m)
      ∧ (∃ v a, engined.engReadAt 0 1 ⟨true, 0⟩ 4 = .ok v a)
      ∧ copynDims ⟨spd 0, spd 64, 0, 4, 0, 4, 0⟩ 1 = true ∧ copynRange (isU 0) (spd 0) ⟨spd 0, spd 64, 0, 4, 0, 4, 0⟩ 4 0 4 = true
      ∧ (∃ m, chain (fun j s r => s.puts 1 ((eaDword (spd 64)).at (4 * j)) 4 7 r) 1 0 engined m)
      ∧ (∃ m old, engined.updates 1 (eaDword (spd 64)) 4 true (fun m => Upd.iadd.word m 5) old m) ∧ amoOk 2 true 1 0 = true
      ∧ engined.me.roomO 0 (1 + engined.reserved 0 1) = true ∧ engined.ringFirst 0 1 = true ∧ engined.sysOk engined.cten = true ∧ vaOk 0x20000 = true ∧ s.cmdReady 1 hd0 ∧ (0x10 : DWord).toNat < 2 ^ 13
      ∧ (∃ key, s.barKeyOf s.cten (coreOf s.ctx.k) .quad 0 = some key ∧ barRemote key = false ∧ (s.bar key).c ≠ 0 ∧ (s.bar key).a = 0)
      ∧ lineCount (0x20000 % 2 ^ 52) 4 ≤ s.budget ∧ s.xlate s.cten (64 * (0x20000 / 64)) = none :=
  ⟨engined_ready 1, by decide, by decide, rfl, by decide, ⟨_, _, _, _, pad_gets rfl rfl rfl rfl, fun _ _ => List.not_mem_nil, pad_puts rfl rfl rfl rfl rfl rfl rfl, rfl⟩, ⟨_, _, rfl⟩, by decide, by decide,
    engined_chain (engined_puts 1 7), ⟨_, _, rfl, .inl ⟨rfl, rfl, rfl, padTables_none rfl, .inl ⟨rfl, rfl, rfl, rfl⟩⟩⟩, by decide, by decide, rfl, rfl, by decide, cmd_ready rfl rfl (by decide) rfl rfl rfl rfl, by decide,
    ⟨_, rfl, by decide, by decide, by decide⟩, by decide, by decide⟩

set_option maxRecDepth 20000 in
/-- PIN of one unit on a mapped page with room for it. -/
theorem witness_windows :
    let s := (mapped engined).modTen 0 (fun x => { x with pinlim := 16 })
    s.cmdReady 1 hd0 ∧ vaOk 0x20000 = true ∧ s.xlate s.cten 0x20000 = some gib0 ∧ gib0.hh = false
      ∧ gib0.pa 0x20000 / 2 ^ 50 % 1024 = s.pkg.pkgid.toNat ∧ (∀ d, d < 4 → s.pinnedOn s.cten 15 d + 1 ≤ (s.ten s.cten).cap) :=
  ⟨cmd_ready rfl rfl (by decide) rfl rfl rfl rfl, by decide, by decide, rfl, by decide, by decide⟩

/-- A lot of one tile in bay 0 of die 0, and one whose CLOSE has been recorded. -/
def lot1 : Lot := ⟨2, 1, 7, 0, 1, 0, some 0, [(0, true)], [], 0, none, 0, 0, 0, 0, none, 0⟩
theorem witness_merge_closes :
    let s := engined.modPart 0 (fun p => { p with rings := [(1, { Ring.none with lot := some lot1 })] })
    s.cmdReady 1 hd0 ∧ s.lot 0 = some lot1 ∧ lot1.bay.isSome = true ∧ lot1.verdict = none ∧ s.me.roomO 0 (2 + s.reserved 0 1) = true ∧ s.sameIter 0 (s.curOf 0 1).iter = true
      ∧ ((s.ten s.cten).group lot1.g).tgt = false ∧ lot1.die ≠ remoteDie ∧ ((s.ten s.cten).group lot1.g).closing = [] ∧ lot1.result = none ∧ lot1.seq < 2 ^ 16
      ∧ Map.get false lot1.bitmap 0 = true ∧ Map.get false lot1.bitmap 1 = false ∧ unpack f32 0x3F800000 = .fin ⟨false, 0x800000, -23⟩ :=
  ⟨cmd_ready rfl rfl (by decide) rfl rfl rfl rfl, rfl, rfl, rfl, rfl, rfl, rfl, by decide, rfl, rfl, by decide, rfl, rfl, by decide⟩

/-- One row of one word, its index and its table in scratchpad; 32 rows of 64 words to o2. -/
theorem witness_gather :
    engined.cmdReady 2 hd0 ∧ (4 : DWord).toNat < 2 ^ 32 ∧ dwOk (spd 0) = true ∧ rangeOk (isU 0) (spd 0) (4 * (0 + 1)) = true ∧ (engined.curOf 0 2).prog = 0
      ∧ 1 ≤ engined.budget ∧ rangeOk (isU 0) (spd 64) (4 * 1 * (0 + 1)) = true
      ∧ (∃ m, chain (fun j s r => ∃ v a x, s.listEntry (spd 0) j v a ∧ a.row (spd 128) 4 1 v x ∧ a.moves 2 x ((eaDword (spd 64)).at (4 * 1 * j)) 1 r) 1 0 engined m)
      ∧ (31 : BitVec 16).toNat < 32 ∧ engined.me.roomO 2 (32 + engined.reserved 0 2) = true :=
  ⟨engined_ready 2, by decide, by decide, by decide, rfl, by decide, by decide,
    engined_chain ⟨_, _, _, ⟨true, 128⟩, ⟨fun _ => by decide, pad_gets rfl rfl rfl rfl⟩, ⟨by decide, by decide, fun _ => by decide⟩,
      _, ⟨_, _, pad_gets rfl rfl rfl rfl, pad_puts rfl rfl rfl rfl rfl rfl rfl⟩, rfl⟩, by decide, by decide⟩

/-- A running program of rank 0 of two, with its buffer bf0 in scratchpad and 8 bytes received from rank 1. -/
def run1 : Run := ⟨0, 0, 0, false, 0x8000, 0, 2, 5, [0, 1], [(0, spd 0)], [], 1, 1, [], 0, 0, false, false, false, false⟩
def running (u : Run) : State :=
  (engined.modCore 0 (fun c => { c with run := some u })).modPkg (fun g => { g with streams := [⟨0, 5, 1, 0, [], [1, 0, 0, 0, 2, 0, 0, 0]⟩] })

set_option maxRecDepth 20000 in
theorem mapped_running : (mapped (running { run1 with bf := [(0, 0x20000)] })).xlate 0 0x20000 = some gib0 := by decide

set_option maxRecDepth 20000 in
theorem tables_running : (mapped (running { run1 with bf := [(0, 0x20000)] })).tablesAtHand (engWho 0 3) 0 0x20000 := tables_dev (by decide)

set_option maxRecDepth 20000 in
/-- A RUN of one rank with its rank table of id 0 in scratchpad, a finished program, and each control step's condition. -/
theorem witness_shepherd_control :
    let x : RunExt := ⟨0x8000, 0x0000_0005_0001_0000, spd 0, spd 0, 0, 0, 0⟩
    engined.cmdReady 3 hd0 ∧ engined.myCore.run = none ∧ runOk (isU 0) x = true ∧ engined.me.roomO 1 (1 + engined.reserved 0 3) = true ∧ (engined.curOf 0 3).latch = []
      ∧ (∃ bs m, engined.readsBytes 3 (eaDword x.ranks) 0 2 bs m ∧ (idsOf bs).getD 0 0 = engined.pkg.pkgid.toNat ∧ (idsOf bs).Nodup)
      ∧ engined.pkg.cids.any (fun e => e.1 == engined.cten && e.2.1 == 5) = false ∧ (engined.ten engined.cten).aborts.any (fun a => a.1 == 5) = false
      ∧ (running { run1 with fin := true }).myCore.run = some { run1 with fin := true } ∧ (running run1).myCore.run = some run1 ∧ run1.unreceived = 0
      ∧ (running run1).stepReady 0 ∧ 0 < (0x0000_0001_0000_0000 : DWord).toNat / 2 ^ 32 ∧ 0 < run1.g ∧ run1.g ≠ 1
      ∧ run1.barcDone = false ∧ run1.out = false ∧ (running run1).sameIter 0 ((running run1).curOf 0 3).iter = true
      ∧ (∃ v m, (mapped (running { run1 with bf := [(0, 0x20000)] })).gets 3 ⟨false, 0x20000⟩ 8 v m) :=
  ⟨engined_ready 3, rfl, by decide, by decide, rfl, ⟨[0, 0], _, ⟨[0], ⟨_, pad_gets rfl rfl rfl rfl, rfl⟩, rfl, rfl⟩, rfl, by decide⟩, rfl, rfl, rfl, rfl, rfl, ⟨rfl, rfl, by decide, rfl, rfl, rfl⟩,
    by decide, by decide, by decide, rfl, rfl, rfl, _, _, rfl, .inr ⟨rfl, tables_running, gib0, _, mapped_running, rfl, unhindered_dev _ _ _ _ _ rfl rfl rfl (by decide) rfl, .inl ⟨by decide, rfl, rfl⟩⟩⟩

/-- The same with a link to package 1. -/
def linked : State := (running run1).modPkg (fun g => { g with route := [(1, 1)], ports := [(0, { Port.reset with up := true })] })

/-- Eight bytes from rank 1, words to read and write, a link that takes flits and one that is down, a stream that has no more than 8 bytes, and the two bytes of one FP16 result. -/
theorem witness_shepherd_data :
    let o : StepOp := ⟨0, false, 0, 0x0000_0008_0000_0000⟩
    let s := running run1
    s.myCore.run = some run1 ∧ s.stepReady 0 ∧ linked.myCore.run = some run1 ∧ linked.stepReady 0 ∧ linked.sendWaits run1 = false ∧ s.sendWaits run1 = true
      ∧ o.ext.toNat / 2 ^ 32 = 8 ∧ 8 % 4 = 0 ∧ eaOk false ⟨true, 0⟩ 8 = true
      ∧ (∃ m, s.reads 3 ⟨true, 0⟩ [0, 0] m) ∧ s.streamNext run1 8 = some [1, 0, 0, 0, 2, 0, 0, 0] ∧ s.streamNext run1 12 = none
      ∧ (∃ m, s.writes 3 ⟨true, 0⟩ [1, 2] m) ∧ (2 : BitVec 2) ≠ 3 ∧ (2 : BitVec 4).toNat ≤ 2 ∧ (0 : DWord).toNat < 2 ^ 32
      ∧ (∃ m, s.writesBytes 3 ⟨true, 2⟩ [7, 8] m) :=
  ⟨rfl, ⟨rfl, rfl, by decide, rfl, rfl, rfl⟩, rfl, ⟨rfl, rfl, by decide, rfl, rfl, rfl⟩, rfl, rfl, by decide, rfl, by decide,
    ⟨_, _, pad_gets rfl rfl rfl rfl, _, pad_gets rfl rfl rfl rfl, rfl⟩, rfl, rfl,
    ⟨_, _, pad_puts rfl rfl rfl rfl rfl rfl rfl, _, pad_puts rfl rfl rfl rfl rfl rfl rfl, rfl⟩, by decide, by decide, by decide,
    ⟨_, _, ⟨(2, 2), rfl, pad_puts rfl rfl rfl rfl rfl rfl rfl⟩, rfl⟩⟩

/-! Witnesses for faults and events. -/

/-- A record of requester who for a cause, written as number 0. -/
def rec1 (who cause : Nat) (res : Bool) : FRec := ⟨0, who, 0, cause, res, 0, 0, 0, 0, 0, 0, [], 0, false, some 0, none, false⟩

/-- A held record of X; a quiet TRAP; a taken command of engine C; an expired wait of F and of A; replays of a strand and of an engine. -/
theorem witness_faults :
    let c : Cur := ⟨0, 0, 0, [], false, 0, 0, none, 0, 0, [], [], [], []⟩
    let s := at0 { p0 with inIter := true, waits := [(0, 3), (1, 1)], pendA := [⟨0, 0, 0, .nop⟩], rings := [(0, { Ring.none with cur := some c })] }
    let u : State := { s with faults := [{ rec1 2 7 false with seq := none }] }
    let b := at0 { p0 with rings := [(0, { Ring.none with bad := [c] })] }
    let f := at0 { p0 with frozen := true }
    (((at0 p0).payAll (at0 p0).ctx.k).part (at0 p0).ctx.k).quiet = true ∧ ((s.payAll s.ctx.k).part s.ctx.k).quiet = false
      ∧ (s.me.ring s.ctx.eng).cur = some c ∧ (s.ten (s.tenOf (coreOf 0))).fqctl.toNat / 2 ^ 24 % 2 ^ 5 = 31
      ∧ Map.find? (s.part 0).waits 0 = some 3 ∧ Map.find? (s.part 0).waits 1 = some 1 ∧ (3 : Nat) ≠ 7 ∧ (s.part 0).inIter = true
      ∧ (s.part 0).frozen = false ∧ (∀ j, j < 4 → s.stopped (0 * 8 + j) = false)
      ∧ (Map.find? (s.part 0).tail 1).toList ++ (s.part 0).pend 1 = ⟨0, 0, 0, .nop⟩ :: []
      ∧ u.faults.find? (fun r => r.ten == 0 && r.seq.isNone) = some { rec1 2 7 false with seq := none }
      ∧ (∀ r ∈ [rec1 0 0x14 true, rec1 1 1 true, rec1 2 7 false, rec1 4 1 true, rec1 4 0x0F false, { rec1 1 1 true with dead := true }],
          ({ s with faults := [r] } : State).faults.filter (·.named 0 0 true) = [r]
            ∧ ({ s with faults := [r] } : State).faults.find? (fun x => x.id == r.id) = some r)
      ∧ ((b.part 0).ring 0).bad.find? (fun c => c.idx % 2 ^ 32 == (rec1 4 1 true).loc) = some c ∧ b.sameIter 0 c.iter = true
      ∧ (f.part 0).frozen = true
      ∧ ({ s with faults := [] } : State).faults.filter (·.named 0 0 true) = [] ∧ Map.get 0 (s.part 0).engTok 1 + 31 ≤ 32 := by decide

/-- A machine with a pending handle of a mapped page and one of a page that is not mapped. -/
def pending : State := mapped (at0 { p0 with h := [(1, ⟨.pending, 0x20000, PageInfo.none, 24, false⟩), (31, ⟨.pending, 2 ^ 30, PageInfo.none, 24, true⟩)]
                                             sleeping := some 9, inIter := true })
/-- The same when the first is due. -/
def due : State := { pending with cycle := max pending.cycle 24 }
set_option maxRecDepth 20000 in
theorem due_tables : due.tablesAtHand (xltReq 0 1) 0 0x20000 := tables_dev (by decide)
set_option maxRecDepth 20000 in
theorem due_leaf : due.unhindered (xltReq 0 1) 0 [] [leafStretch gib0] := unhindered_dev _ _ _ _ _ (by decide) (by decide) (by decide) (by decide) (by decide)
set_option maxRecDepth 20000 in
theorem pending_tables : pending.tablesAtHand (xltReq 0 31) 0 (2 ^ 30) := tables_dev (by decide)

set_option maxRecDepth 20000 in
/-- A pending handle of a mapped page and of none; a sleeper; clocks at and above 2^45 from the top; a lease that has ended; a ready strand. -/
theorem witness_clocks :
    let s := pending
    let l := (State.reset.modCore 0 (fun c => { c with l1d := [(7, .s 0)] })).setPart 0 { p0 with pts := 1 }
    let q := (State.reset.modPkg (fun g => { g with rdc := [(rdcKey (dieOf 0) false 7, ⟨.s, 0, 0, 0⟩)] })).setPart 0 { p0 with pts := 1 }
    ((s.part 0).rdH 1).st = .pending ∧ s.xlate (s.tenOf (coreOf 0)) 0x20000 = some gib0 ∧ s.leafDue gib0 false = true
      ∧ ({ s with cycle := max s.cycle 24 } : State).tablesAtHand (xltReq 0 1) (s.tenOf (coreOf 0)) 0x20000
      ∧ ({ s with cycle := max s.cycle 24 } : State).unhindered (xltReq 0 1) (s.tenOf (coreOf 0)) [] [leafStretch gib0]
      ∧ s.leafDue { gib0 with ps := 3 } false = false ∧ Map.find? s.reqs (xltReq 0 31) = none
      ∧ ((s.part 0).rdH 31).st = .pending ∧ s.tablesAtHand (xltReq 0 31) (s.tenOf (coreOf 0)) (2 ^ 30) ∧ s.xlate (s.tenOf (coreOf 0)) (2 ^ 30) = none ∧ (s.part 0).sleeping = some 9 ∧ (s.part 0).inIter = true
      ∧ (s.part 0).frozen = false ∧ ((at0 { p0 with frozen := true }).part 0).frozen = true
      ∧ s.gts.toNat < 2 ^ 46 ∧ (∀ e ∈ s.parts, e.2.pts.toNat < 2 ^ 46) ∧ Map.find? (l.core 0).l1d 7 = some (.s 0)
      ∧ Map.find? l.pkg.rdc (rdcKey (dieOf 0) false 7) = none ∧ (l.part (8 * 0 + 0)).inIter = true
      ∧ 0 < ((l.part (8 * 0 + 0)).pts - 0).toNat ∧ ((l.part (8 * 0 + 0)).pts - 0).toNat < 2 ^ 47
      ∧ Map.find? (q.core 0).l1d 7 = none ∧ Map.find? q.pkg.rdc (rdcKey (dieOf 0) false 7) = some ⟨.s, 0, 0, 0⟩
      ∧ (∀ x : BitVec 48, 2 ^ 45 < (x + 2 ^ 46 - x).toNat ∧ (x + 2 ^ 46 - x).toNat < 2 ^ 47) ∧ (s.core 0).holder = none
      ∧ (∀ j, j < 8 → s.arrayReady (8 * 0 + j) = false ∨ s.arraySkipped (8 * 0 + j) = true) :=
  ⟨by decide, by decide, by decide, due_tables, due_leaf, by decide, by decide, by decide, pending_tables, by decide, by decide, by decide, by decide,
    (by decide), by decide, by decide, by decide, by decide, (by decide), by decide, by decide, by decide, by decide,
    fun x => by rw [show x + 2 ^ 46 - x = 2 ^ 46 by bv_omega]; decide, by decide, by decide⟩

/-- A ring with a matrix command makes its strand ready for the array lease. -/
theorem witness_array_lease :
    let s := (at0 { p0 with inIter := true, rings := [(0, { Ring.none with cur := some ⟨0, 0x0000040000000000, 0, [], true, 0, 0, none, 0, 0, [], [], [], []⟩ })] })
    let u := s.modCore 0 (fun c => { c with holder := some 0, turnLeft := 1 })
    u.arrayReady 0 = true ∧ (u.core 0).turnLeft ≠ 0 ∧ (u.core 0).holder = some 0 ∧ u.arraySkipped 0 = false ∧ s.arrayReady 0 = true ∧ s.arraySkipped 0 = false ∧ (s.core 0).holder = none
      ∧ (List.range 8).map (fun j => 2 * (4 * 0 + ((if j < 4 then (s.core 0).lastUrgent else (s.core 0).lastHolder) + 1 + j) % 4) + if j < 4 then 1 else 0) = [3, 5, 7, 1, 2, 4, 6] ++ 0 :: []
      ∧ (∀ j ∈ [3, 5, 7, 1, 2, 4, 6], s.arrayReady j = false ∨ s.arraySkipped j = true) := by decide

set_option maxRecDepth 40000 in
/-- A group of 256 elements with its counter on a mapped page; an OPEN of one tile of it with every bay free. -/
theorem witness_merge_lots :
    let g : Group := ⟨true, false, 0x20000, 256, 0x3F800000, 0x30000, [], 0, 0, 0, 0, 0, []⟩
    let s := (mapped engined).modTen 0 (fun x => { x with groups := [(2, g)] })
    s.cmdReady 1 hd0 ∧ unpack f32 0x3F800000 = .fin ⟨false, 0x800000, -23⟩ ∧ vaOk 0x30000 = true ∧ (eaDword 0x30000).a % 8 = 0
      ∧ s.plainTarget s.cten (eaDword 0x30000).a 8 = true ∧ s.openLots s.cten 2 = [] ∧ s.plainTarget s.cten (eaDword 0x20000).a (4 * 256) = true
      ∧ s.opening 0 = none ∧ s.lot 0 = none ∧ s.currentLot 0 = none ∧ ((s.ten s.cten).group 2).set = true ∧ 0 + 0 + 1 ≤ ((s.ten s.cten).group 2).len / 256
      ∧ s.targetStretch s.cten 2 = .ok ⟨gib0, 0x20000, 4⟩ ∧ s.remoteHome ⟨gib0, 0x20000, 4⟩ = false ∧ s.pkg.bayWait = []
      ∧ (((s.ten s.cten).baysOn (s.homeDie (gib0.pa 0x20000))).find? (fun b => (Map.find? s.pkg.bays (bayKey (s.homeDie (gib0.pa 0x20000)) b)).isNone)).isSome = true
      ∧ s.sameLot s.cten 0 { lot1 with bitmap := [] } = false ∧ s.tablesAtHand (engWho 0 1) s.cten (eaDword 0x30000).a
      ∧ (∀ v ∈ walkVas (eaDword 0x20000).a (4 * 256), s.tablesAtHand (engWho 0 1) s.cten v) ∧ (∀ v ∈ s.targetVas s.cten 2, s.tablesAtHand (engWho 0 1) s.cten v) :=
  ⟨cmd_ready rfl rfl (by decide) rfl rfl rfl rfl, by decide, by decide, by decide, by decide, (by decide), by decide, by decide, by decide, by decide, (by decide), by decide, by decide, by decide, by decide, (by decide), by decide, tables_dev (by decide),
    fun v hv => tables_dev ((by decide : ∀ v ∈ walkVas (eaDword 0x20000).a (4 * 256), tablesDev _ (engWho 0 1) 0 v = true) v hv),
    fun v hv => tables_dev ((by decide : ∀ v ∈ State.targetVas _ 0 2, tablesDev _ (engWho 0 1) 0 v = true) v hv)⟩

/-- A lot that holds a bay, to deposit a first tile and a duplicate; one that waits for a bay; one whose iteration has retired. -/
theorem witness_lots :
    let w : Lot := { lot1 with bay := none }
    let s := engined.modPart 0 (fun p => { p with rings := [(1, { Ring.none with lot := some lot1 })] })
    let u := (engined.modPart 0 (fun p => { p with rings := [(1, { Ring.none with opening := some w })] })).modPkg (fun g => { g with bayWait := [.ring 0] })
    let o := u.modPart 8 (fun p => { p with rings := [(1, { Ring.none with lot := some lot1 })] })
    let a := engined.modPkg (fun g => { g with bayWait := [.away ⟨1, 0, 0, 0, 0, false, .bay true⟩] })
    let r := (at0 { p0 with iter := 1, rings := [(1, { Ring.none with lot := some lot1 })] })
    s.lot 0 = some lot1 ∧ lot1.bay.isSome = true ∧ lot1.result = none ∧ lot1.die ≠ remoteDie ∧ lot1.bt ≤ 0 ∧ 0 < lot1.bt + lot1.tiles
      ∧ (spd 0).getLsbD 63 = true ∧ rangeOk (isU 0) (spd 0) 1024 = true ∧ Map.get false { lot1 with bitmap := [] }.bitmap 0 = false
      ∧ Map.get false lot1.bitmap 0 = true ∧ u.pkg.bayWait = [] ++ BayUser.ring 0 :: [] ∧ u.opening 0 = some w ∧ w.bay = none ∧ w.die = 0
      ∧ ((u.ten w.ten).baysOn 0).find? (fun b => (Map.find? u.pkg.bays (bayKey 0 b)).isNone) = some 0
      ∧ u.sameLot w.ten 0 w = false ∧ o.sameLot w.ten 0 w = true
      ∧ a.pkg.bayWait = [] ++ BayUser.away ⟨1, 0, 0, 0, 0, false, .bay true⟩ :: [] ∧ a.homeDie 0 = 0
      ∧ r.lot 0 = some lot1 ∧ r.sameIter 0 lot1.iter = false ∧ r.opening 0 = none ∧ Map.find? r.droves lot1.drove = none
      ∧ (∀ e, e < 4 → ((r.part 0).ring e).cmds = []) ∧ (r.part 0).iter ≠ lot1.iter := by decide

/-! Witnesses for filter regions. -/

/-- An empty cell of a HOLD region, one with input, and a cell at the edge of the band of R241. -/
theorem witness_filter_arithmetic :
    let x : Cell := ⟨0, 0, 0, 0, 0, 0⟩
    let y : Cell := { x with acc := 2 ^ 48 + 5 }
    x.count = 0 ∧ { region1 with hold := true }.hold = true ∧ y.count ≠ 0 ∧ region1.fp = false ∧ region1.ord = false
      ∧ |(⟨0, 0, 0, 0x3FFFFFFF, 0⟩ : Coef).a1.toInt| < 2 ^ 30 ∧ unpack f32 0x40000000 = .fin ⟨false, 0x800000, -22⟩
      ∧ isRndsh .rne (2 ^ 30) 30 1 :=
  ⟨by decide, rfl, by decide, rfl, rfl, by decide, by decide, by unfold isRndsh; decide⟩

/-- Does an access of the device go through, and does it fault? -/
def ended {α : Type} : Eff α → Bool | .ok _ _ => true | _ => false
def faulted {α : Type} : Eff α → Bool | .fault _ _ => true | _ => false

/-- A registered region, its last cell on a cool stack and on a frozen one, and a tick of it that waits at a channel, before its sweep and after. -/
theorem witness_filter_ticks :
    let tk : Tick := ⟨0, 5, 1, ⟨0, 0, 0, 0, 0⟩, 0, 0, 0, 0, false⟩
    let s := (sampling eCell).modPkg (fun g => { g with chanQ := [(0, [tk])] })
    let u := s.modPkg (fun g => { g with samples := [(0, 5, 63, 1)], hotstop := true })
    Map.find? (s.ten 0).regs 5 = some region1 ∧ 63 < region1.ncell ∧ s.frozenAt (region1.cellPa 63) = false ∧ s.pkg.samples = []
      ∧ u.frozenAt (region1.cellPa 63) = true ∧ ((0, 5, 63, 1) : Nat × Nat × Nat × Word) ∈ u.pkg.samples
      ∧ region1.auto = false ∧ { region1 with satnDue := true }.satnDue = true ∧ region1.satnDue = false
      ∧ s.ticksAt 0 = tk :: [] ∧ tk.swept = false ∧ { tk with swept := true }.swept = true ∧ s.pkg.hotstop = false ∧ u.pkg.hotstop = true
      ∧ (s.stack (0 / 32)).lvl < 3 ∧ (∃ m, s.descDone 0 5 1 0 m) :=
  ⟨by decide, by decide, by decide, by decide, (by decide), by decide, by decide, by decide, by decide, (by decide), by decide, by decide, by decide, by decide, (by decide),
    _, _, _, rfl, ⟨fun v hv => tables_dev ((by decide : ∀ v ∈ walkVas _ 4, tablesDev _ (descReq 0 5) 0 v = true) v hv), .inl ⟨by decide, rfl⟩⟩, ⟨fun v hv => tables_dev ((by decide : ∀ v ∈ walkVas _ 4, tablesDev _ (descReq 0 5) 0 v = true) v hv), .inl ⟨by decide, rfl⟩⟩⟩

set_option maxRecDepth 40000 in
/-- Each command in progress, on a mapped table whose descriptor is all zeros, and on one that is not mapped. -/
theorem witness_region_commands :
    let s := (mapped (sampling eCell)).modTen 0 (fun x => { x with rgBusy := true, rgLrg := 5, rgCmd := 1, rtbase := 0x20000 })
    let u := (sampling eCell).modTen 0 (fun x => { x with rgBusy := true, rgLrg := 5, rgCmd := 3 })
    (s.ten 0).rgBusy = true ∧ (s.ten 0).rgLrg = 5 ∧ (s.ten 0).rgCmd = 1 ∧ ended (s.getVa (descReq 0 5) 0 (0x20000 + 64 * 5) 64) = true
      ∧ ended (s.getVa (descReq 0 5) 0 (0x20000 + 64 * 5 + 0x18) 20) = true ∧ ended (s.getVa (descReq 0 5) 0 (0x20000 + 64 * 5) 1) = true
      ∧ ended (s.putVa (descReq 0 5) 0 (0x20000 + 64 * 5) [0]) = true
      ∧ faulted (u.getVa (descReq 0 5) 0 (64 * 5) 64) = true ∧ faulted (u.getVa (descReq 0 5) 0 (64 * 5) 1) = true ∧ (u.ten 0).rgCmd = 3
      ∧ Map.find? (u.ten 0).regs 5 = some region1 ∧ (u.ten 0).groups = [] ∧ u.pkg.chanQ = [] ∧ u.pkg.samples = []
      ∧ (∀ e ∈ u.parts, e.2.flight = []) ∧ region1.auto = false
      ∧ (at0 p0).pkg.chanQ = [] ∧ Map.find? ((at0 p0).ten 0).regs 5 = none := by decide

/-! Witnesses for droves, homes and main memory. -/

/-- A drove record with extents of 2, 1, 1 and 1, one strand a gang, and the given PRIO and FLAGS. -/
def record1 (prio flags : Nat) : List Byte :=
  (upto 128).map (fun i => if i = 0x18 then 2 else if i = 0x1C ∨ i = 0x20 ∨ i = 0x24 ∨ i = 0x2A then 1 else if i = 0x2B then BitVec.ofNat 8 prio
    else if i = 0x2C then BitVec.ofNat 8 flags else 0)
/-- A drove of tenant 0 with it. -/
def drove1 (prio flags : Nat) (st : DSt) : Drove := ⟨0, 0, .core, none, record1 prio flags, st, 0, 2, [], 0, none, 0, true, [], []⟩
/-- A machine with that drove as number 1, and a plane resident on core 0 whose placement mask holds its quad. -/
def herding (d : Drove) : State :=
  ({ State.reset with droves := [(1, d)] } : State).modCore 0 (fun c => { c with plane := [(0, [(0x500, 1)]), (1, [(0x500, 1)])] })

set_option maxRecDepth 40000 in
/-- A valid record, one with a reserved PRIO, a zero extent; and counters without threshold. -/
theorem witness_droves_judged :
    let d := drove1 0 0 .submitted
    let f := fun o k => leVal ((d.record.drop o).take k)
    Map.find? (herding d).droves 1 = some d ∧ d.st = .submitted ∧ (herding d).pkg.minMode = false ∧ f 0x18 4 * f 0x1C 4 * f 0x20 4 * f 0x24 4 = 2
      ∧ f 0x2C 1 < 2 ∧ f 0x2A 1 = 1 ∧ f 0x2B 1 = 0 ∧ f 0x10 8 = 0 ∧ f 8 8 % 8 = 0 ∧ (gangsOf ((herding d).reach d) 1).length ≠ 0
      ∧ leVal (((record1 0 4).drop 0x2C).take 1) = 4 ∧ (drove1 0 0 .waiting).st = .waiting ∧ f 0x30 8 = 0 := by decide

theorem witness_wait_counters : let s := herding (drove1 0 0 .waiting); s.seesCounter 1 0 0 0 true s := .inl ⟨rfl, rfl, rfl⟩

set_option maxRecDepth 40000 in
/-- The last tuple of two; a gang that may have the next iteration, as an ordinary drove and as a resident one; and one of another core. -/
theorem witness_iterations :
    let d := drove1 0 0 .eligible
    let r := { drove1 0 1 .eligible with total := 1 }
    let E := fun k => leVal ((d.record.drop (0x18 + 4 * k)).take 4)
    1 < E 0 * E 1 * E 2 * E 3 ∧ d.order = 0 ∧ d.index 1 0 = 1 ∧ Map.find? (herding d).droves 1 = some d ∧ (herding d).pkg.minMode = false
      ∧ (herding d).mayHand 1 d 0 = true ∧ (herding d).mayHand 1 d 4 = false ∧ d.presetDone = true ∧ d.resident = false ∧ (herding d).partBusy 0 d.urgent = false
      ∧ Map.find? ((herding d).core 0).lastDrove 0 ≠ some 1 ∧ r.resident = true ∧ r.total ≤ r.reserved.length + 1
      ∧ { r with total := 2 }.reserved.length + 1 < { r with total := 2 }.total ∧ (herding d).podAway 0 = false
      ∧ Map.find? (herding d).reqs (walkerReq 1) = none ∧ (herding d).poolFree 1 d 0
      ∧ Map.find? (herding d).reqs (walkReq (walkerReq 1)) = none :=
  ⟨by decide, by decide, by decide, by decide, (by decide), by decide, by decide, by decide, by decide, (by decide), by decide, by decide, by decide, by decide, (by decide), by decide, .inr (.inl rfl), by decide⟩

set_option maxRecDepth 40000 in
/-- A drove with everything handed out and nothing running, and one with an iteration left; a chain at an unmapped anchor, at a null pointer and at a
record. -/
theorem witness_droves_complete :
    let d := { drove1 0 0 .eligible with next := 2 }
    let c : Chain := ⟨0x20000, true, 0, false, 0, 0x20000, 0⟩
    let s := (mapped State.reset).modTen 0 (fun x => { x with chains := [(7, c)] })
    Map.find? (herding d).droves 1 = some d ∧ d.st = .eligible ∧ d.total ≤ d.next ∧ d.live = [] ∧ (∀ e ∈ (herding d).parts, e.2.hasCommands 1 = false)
      ∧ (drove1 0 0 .eligible).status = 0 ∧ (drove1 0 0 .eligible).next < (drove1 0 0 .eligible).total ∧ ((s.ten 0).chain 7).en = true
      ∧ ((s.ten 0).chain 0).en = false ∧ ended (s.getVa (chainReq 0 7) 0 0x20000 8) = true ∧ faulted (State.reset.getVa (chainReq 0 7) 0 0x20000 8) = true
      ∧ s.pkg.minMode = false ∧ c.fetched = 0 ∧ { c with fetched := 0x20080 }.fetched ≠ 0 ∧ ended (s.getVa (chainReq 0 7) 0 0x20080 128) = true
      ∧ faulted (State.reset.getVa (chainReq 0 7) 0 0x20080 128) = true := by decide

set_option maxRecDepth 40000 in
/-- A P iteration that makes way for a waiting U drove; a frozen one without and with a replay that waits; a plane to record and to swap. -/
theorem witness_partitions_planes :
    let d := drove1 3 0 .eligible
    let run : Part := { p0 with inIter := true, iter := 1, waits := [(0, 3)] }
    let s := ((((herding d).setPart 0 run).setPart 2 run).setPart 4 run).setPart 6 run
    let f := at0 { run with frozen := true }
    let e := { drove1 0 0 .eligible with plane := List.replicate 4096 0 }
    let g := (herding e).modCore 0 (fun c => { c with shadowOk := [(0, 1)] })
    (s.part 0).inIter = true ∧ (s.part 0).frozen = false ∧ (s.part 1).inIter = false ∧ s.settled 0 = true ∧ s.wantedForU 0 = true ∧ s.atBoundary 0 = true ∧ d.urgent = true
      ∧ (f.part 0).frozen = true ∧ (f.part 1).inIter = false ∧ f.uPending 0 = false
      ∧ ({ f with faults := [{ rec1 0 1 true with act := some .retry }] } : State).faults.filter (fun r => decide (r.who / 8 = 0)) = [{ rec1 0 1 true with act := some .retry }]
      ∧ Map.find? g.droves 1 = some e ∧ e.st ≠ .done ∧ e.urgent = false ∧ 4095 + 1 ≤ 4096 ∧ Map.find? (g.core 0).shadowOk 0 = some 1
      ∧ e.open? = true ∧ g.heldFor 1 0 false = false ∧ g.partBusy 0 false = false ∧ (f.partBusy 0 false) = true := by decide

/-- A machine in which tenant 0 has the unit of 64 KiB at virtual address 0 on a page of its own, class T, writable, at device address 0 (R249). -/
def mapped64 (s : State) : State :=
  ((((s.modTen 0 (fun x => { x with ptroot := 0x1000000, wins := [⟨false, 0, 4⟩] })).putVal .dev 0x1000000 8 (1 + 0x1010000 + 3 * 2 ^ 60)).putVal
    .dev 0x1010000 8 (1 + 0x1011000 + 3 * 2 ^ 60)).putVal .dev 0x1011000 8 (1 + 0x1012000 + 3 * 2 ^ 60)).putVal .dev 0x1012000 8 (1 + 2)
/-- That page. -/
def unit0 : PageInfo := ⟨0, 0, 0, 0, true, false, false, 0, 0x1012000⟩
/-- A reclass of that page in progress. -/
def reclassing1 : State := (mapped64 State.reset).modTen 0 (fun x => { x with rcBusy := true, rcAt := 0, rcSize := 2 ^ 16 })

set_option maxRecDepth 40000 in
/-- Nothing stands in the way of its end. -/
theorem witness_reclass_end :
    let m := reclassing1
    (m.ten 0).rcBusy = true ∧ m.xlate 0 0 = some unit0 ∧ m.rcPages 0 = [unit0] ∧ m.pkg.hostLines = [] ∧ m.classWaits 0 = none ∧ (∀ l, m.stuckAt l = false) ∧ (∀ l, m.carries l = true)
      ∧ (∀ v ∈ walkVas 0 (2 ^ 16), m.tablesAtHand (ownReq 0 3) 0 v) ∧ m.unhindered (ownReq 0 3) 0 [] [leafStretch unit0] :=
  ⟨by decide, by decide, by decide, rfl, rfl,
    fun l => by
      have h : reclassing1.frozenAt (64 * l) = false := by rw [State.frozenAt]; exact Bool.and_eq_false_iff.2 (.inr rfl)
      show (_ && reclassing1.frozenAt (64 * l) && _ && _) = false
      simp [h],
    fun l => rfl, fun v hv => tables_dev ((by decide : ∀ v ∈ walkVas 0 (2 ^ 16), tablesDev reclassing1 (ownReq 0 3) 0 v = true) v hv),
    unhindered_dev _ _ _ _ _ (by decide) (by decide) (by decide) (by decide) (by decide)⟩

set_option maxRecDepth 40000 in
/-- A paddock line with a dirty word and an L1D copy of it, whose clusters the directory marks; a busy line and a full buffer; a mapped range of 16,384
units to reclass, one that is not mapped and one in progress; an overlapping way mask and one that takes effect. -/
theorem witness_homes_classes :
    let p : Paddock := ⟨0, 0x20000, 1, [(0, ⟨true, 1, some 0x800, false, []⟩)]⟩
    let s := (State.reset.modCore 3 (fun c => { c with pd := [(1, p)], l1d := [(0x800, .e 0)] })).modPkg (fun g => { g with dir := [(0x100, 0xFFF)] })
    let r : HomeReq := ⟨.none, .rmw 1, 0x800, 1⟩
    let b := s.modPkg (fun g => { g with homeQ := [(0x800, [r])] })
    let f := s.modPkg (fun g => { g with homeQ := [(0x800, List.replicate 257 r)] })
    let m := (mapped State.reset).modTen 0 (fun x => { x with rcBusy := true, rcAt := 0, rcSize := 2 ^ 30 })
    let w := State.reset.modPkg (fun g => { g with waysNew := some (0, 0) })
    Map.find? (s.core 3).pd 1 = some p ∧ Map.find? p.st 0 = some ⟨true, 1, some 0x800, false, []⟩ ∧ ((1 : BitVec 16) &&& 1) ≠ 0 ∧ ((1 : BitVec 16) &&& 2) = 0
      ∧ (Map.get 0 s.pkg.dir (r.line / 8) : BitVec 12).getLsbD (clusterOf (s.homeDie (64 * r.line)) 3) = true
      ∧ s.ours (64 * r.line) = true ∧ s.reclassing r.line = false ∧ s.reqWaits r = none ∧ r.cl.val ≠ 3 ∧ s.stuckAt r.line = false ∧ Map.find? s.pkg.homeQ r.line = none ∧ Map.find? b.pkg.homeQ r.line = some [r]
      ∧ b.queuedOn (b.homeDie (64 * r.line)) < 256 ∧ 256 ≤ f.queuedOn (f.homeDie (64 * r.line)) ∧ m.reclassing r.line = true
      ∧ (State.reset.ten 0).rcBusy = false ∧ (m.ten 0).rcBusy = true ∧ (m.xlate 0 (2 ^ 30 - 1)) = some gib0 ∧ m.frozenAt gib0.leaf = false
      ∧ State.reset.xlate 0 0 = none ∧ m.pkg.hostLines = [] ∧ (∀ l, w.carries l = true) ∧ State.reset.pkg.waysNew = none ∧ w.pkg.waysNew = some (0, 0) ∧ (∀ pa, w.frozenAt pa = false)
      ∧ ((1 : DWord) &&& (State.reset.ten 0).ways).toNat % 2 ^ 48 ≠ 0
      ∧ (∀ u, u < 17 → u ≠ 0 → ((1 : DWord) &&& (State.reset.waysApply.ten u).ways).toNat % 2 ^ 48 = 0) :=
  ⟨by decide, by decide, by decide, by decide, (by decide), by decide, by decide, by decide, by decide, (by decide), by decide, by decide, by decide, by decide, (by decide), by decide, by decide, by decide, by decide, (by decide), by decide, fun _ => rfl, by decide, by decide, fun pa => by rw [State.frozenAt]; exact Bool.and_eq_false_iff.2 (.inr rfl), by decide, by decide⟩

/-- An open row whose timer has expired, and one whose timer runs; readings at each threshold of a stack at each level; thresholds in and out of order. -/
theorem witness_temperature_banks :
    let s := State.reset.modPkg (fun g => { g with openRows := [(1024, true)] })
    let u := s.modPkg (fun g => { g with rowIdle := [(1024, 99)] })
    let T := fun i => s.pkg.thcfg.toNat / 2 ^ (8 * (i - 1)) % 2 ^ 8
    Map.get false s.pkg.openRows (1 * 1024 + 0) = true ∧ Map.get 0 s.pkg.rowIdle (1 * 1024 + 0) ≤ s.cycle ∧ u.cycle < Map.get 0 u.pkg.rowIdle (1 * 1024 + 0)
      ∧ T 1 = 85 ∧ T 2 = 95 ∧ T 3 = 105 ∧ T 4 = 115 ∧ (115 : BitVec 8).toNat = T 4 ∧ (105 : BitVec 8).toNat = T 3
      ∧ (s.stack 23).lvl = 0 ∧ (92 : BitVec 8).toNat + s.pkg.thcfg.toNat / 2 ^ 32 % 2 ^ 4 = T 2 ∧ (23 : Nat) < 24
      ∧ (0x5A5955 : DWord).toNat % 2 ^ 8 < (0x5A5955 : DWord).toNat / 2 ^ 8 % 2 ^ 8 ∧ (s.stack (1 / 32)).idle ≠ 0
      ∧ (Map.get ⟨true, false⟩ ((s.modTen 0 (fun x => { x with msix := [(0, ⟨false, false⟩)] })).ten 0).msix (s.pkg.thcfg.toNat / 2 ^ 48 % 2 ^ 6)).masked = false
      ∧ (s.ten 0).msixOff = false ∧ s.portOpen 0 = true := by
  decide

/-! Witnesses for the fabric, the host, tenants, bring-up and the step. -/

/-- Tenant 0 with 4 GiB of device memory and the given ports. -/
def windowed (ports : Map Port) : State := (State.reset.modTen 0 (fun x => { x with wins := [⟨false, 0, 4⟩] })).modPkg (fun g => { g with ports := ports })

/-- An exchange that waits for its answer. -/
def asking (k : ReqKind) (va : Nat) : Req := ⟨k, [], va, false, .done, 0, false, 0, none, false, []⟩

set_option maxRecDepth 20000 in
/-- Ports down, up, failed eight times with a flit that another port takes; requests performed, served before, outside the windows, on poison and on a frozen
stack; a request that waits; arrivals at a pod barrier in use, its last, and at none. -/
theorem witness_fabric :
    let ok := windowed []
    let x : Port := { Port.reset with up := true, failed := 15, txBuf := [(3, ⟨7, 0, ⟨0, .release 0 0 1⟩⟩)] }
    let u := (windowed [(0, x), (1, { Port.reset with up := true })]).modPkg (fun g => { g with route := [(7, 3)] })
    let r : Req := { asking (.remote 5) 0 with tag := 7 }
    let q : RemoteReq := ⟨1, 3, 0, 0, 0x100, false, .bay true⟩
    let y := ok.modPkg (fun g => { g with bays := [(0, .away q)], served := [(7, 0, [])] })
    let p := ok.modPkg (fun g => { g with poison := [(0, true)] })
    let b : State := { ok with bars := [(barKey 4 0 0 0, ⟨2, 1, 0, [(6, 5 * 2 ^ 32)], []⟩)] }
    ok.pkg.pkgid = 0 ∧ (0x100 / 2 ^ 50 % 1024) = ok.pkg.pkgid.toNat ∧ ok.inWin 0 false 0x100 8 = true ∧ ok.inWin 0 false (2 ^ 32) 8 = false
      ∧ ok.pkg.served.find? (fun e => e.1 == 7) = none ∧ ok.outWaits 0 0x100 8 = false ∧ ok.poisonedPa 0x100 8 = false ∧ p.poisonedPa 0 8 = true
      ∧ (∀ l ∈ linesOf 0x100 8, Map.find? ok.reqs (homeReq l) = none) ∧ (ok.ten 0).baysOn (ok.homeDie 0x100) ≠ [] ∧ (ok.ten 3).baysOn (ok.homeDie 0x100) = []
      ∧ y.pkg.bays = [(0, .away q)] ∧ 0 / 64 = y.homeDie 0x100 ∧ y.pkg.served.find? (fun e => e.1 == 7) = some (7, 0, [])
      ∧ (∀ e ∈ ({ ok with reqs := [(4, r)] } : State).reqs, e.2.tag = 7 → e = (4, r)) ∧ (∀ e ∈ ({ ok with reqs := [(4, r)] } : State).reqs, e.2.tag ≠ 8)
      ∧ (ok.modPkg (fun g => { g with winBusy := some 0 })).outWaits 0 0x100 8 = true
      ∧ Map.get Port.reset u.pkg.ports 0 = x ∧ max 1 (u.pkg.fabcfg.toNat / 2 ^ 16 % 2 ^ 4) ≤ x.failed ∧ x.txBuf.length ≤ 64
      ∧ (Map.get 0 u.pkg.route 7 : BitVec 18).getLsbD 1 = true ∧ (Map.get Port.reset u.pkg.ports 1).up = true ∧ (Map.get Port.reset u.pkg.ports 2).up = false
      ∧ Map.find? ({ ok with reqs := [(4, r)] } : State).reqs 4 = some r ∧ r.kind = .remote 5 ∧ r.answered = false ∧ r.tag = 7 ∧ r.resend = false
      ∧ { r with answered := true }.answered = true ∧ { r with resend := true }.resend = true ∧ (b.bar (barKey 4 0 0 0)).a ≠ 0 ∧ (∀ e ∈ (b.bar (barKey 4 0 0 0)).drove, e.2 / 2 ^ 32 = (5 * 2 ^ 32 + 1) / 2 ^ 32 ∧ (e.1 = 7 → e.2 = 5 * 2 ^ 32 + 1))
      ∧ (∃ e ∈ (b.bar (barKey 4 0 0 0)).drove, e.2 / 2 ^ 32 ≠ (4 * 2 ^ 32) / 2 ^ 32)
      ∧ b.podAway 0 = false ∧ (b.bar (barKey 4 0 0 0)).c ≠ 0 ∧ (b.bar (barKey 4 0 0 0)).a + 1 = (b.bar (barKey 4 0 0 0)).c ∧ 0 < (b.ten 0).barsHeld 4
      ∧ (ok.bar (barKey 4 0 0 0)).c = 0 ∧ (ok.modTen 0 (fun x => { x with pol := 0x40820005 })).podAway 0 = true := by decide

set_option maxRecDepth 20000 in
/-- What another package's paddock holds of a line that is asked for, and a demand for what a paddock here holds. -/
theorem witness_fabric_homes :
    let ok := windowed []
    let away := ok.modPkg (fun g => { g with padAway := [(4, (5, 1))] })
    let pd : Paddock := ⟨0, 0x20000, 1, [(0, ⟨true, 1, some 4, false, []⟩)]⟩
    let k := ok.modCore 3 (fun c => { c with pd := [(1, pd)] })
    let v : Req := { asking (.recall 5 4) 0 with tag := 7 }
    ok.homeExchange 1 0 0x100 8 true true false = none ∧ ok.homeExchange 1 0 0x100 8 false false false = none
      ∧ (away.homeExchange 1 0 0x100 8 true false false).isSome = true ∧ (ok.intoMsc 0 4).isSome = true ∧ ok.linkRefuses (.release 0 0 1) = false
      ∧ ok.linkRefuses (.data 0 9 1 0 0 []) = true ∧ Map.find? (k.core 3).pd 1 = some pd ∧ Map.find? pd.st 0 = some ⟨true, 1, some 4, false, []⟩
      ∧ (∃ g ∈ [((256 : Nat), (64 : Nat))], g.1 < 64 * 4 + 64 ∧ 64 * 4 < g.1 + g.2) ∧ ok.pkg.minMode = false
      ∧ Map.find? ({ ok with reqs := [(2 ^ 60 + 4, v)] } : State).reqs (2 ^ 60 + 4) = some v ∧ v.kind = .recall 5 4 ∧ v.answered = false ∧ v.tag = 7 := by decide

/-- A registered CID with a stream that holds the flit after next; a program of it that runs; an unknown CID and one past its ENDP. -/
theorem witness_collectives :
    let u : Run := ⟨0, 1, 1, true, 0, 0, 2, 9, [0, 5], [], [], 0, 0, [], 0, 0, false, false, false, false⟩
    let s := (State.reset.modCore 0 (fun c => { c with run := some u })).modPkg (fun g => { g with cids := [(0, 9, 0)], streams := [⟨0, 9, 5, 3, [(4, [1])], []⟩] })
    (∃ e ∈ s.pkg.cids, e.1 = 0 ∧ e.2.1 = 9) ∧ ¬(∃ e ∈ s.pkg.cids, e.1 = 0 ∧ e.2.1 = 8) ∧ u.faulted = false
      ∧ (s.pkg.streams.find? (fun x => x.ten == 0 && x.cid == 9 && x.src == 5)) = some ⟨0, 9, 5, 3, [(4, [1])], []⟩
      ∧ s.pkg.cids.find? (fun e => e.1 == 0 && e.2.1 == 9) = some (0, 9, 0) ∧ (s.core 0).run = some u ∧ u.k / 8 = 0 ∧ u.fin = false
      ∧ { u with fin := true }.fin = true ∧ s.pkg.cids.find? (fun e => e.1 == 0 && e.2.1 == 8) = none ∧ 8 ∉ (s.ten 0).ended
      ∧ 8 ∈ ((s.modTen 0 (fun y => { y with ended := [8] })).ten 0).ended ∧ (s.ten 0).aborts.length < 16 := by decide

theorem windowed_msix : ∀ t e, e ∈ ((windowed []).ten t).msix → e.2.pending = false := by
  intro t e h
  rcases t with _ | t
  · cases h
  · exact absurd h (show e ∉ ([] : Map Msix) from List.not_mem_nil)

set_option maxRecDepth 20000 in
/-- Lines that a port carries, inside a window, outside, poisoned; snoops outstanding; a mailbox that is free and one that is not; a keyed port. -/
theorem witness_host :
    let s := windowed []
    let r : Req := asking (.backInv 4 true) 256
    s.carries 4 = true ∧ s.windowOwner 256 64 = some 0 ∧ s.windowOwner (2 ^ 40) 64 = none ∧ s.outWaits 0 256 64 = false ∧ s.poisonedPa 256 64 = false
      ∧ (s.modPkg (fun g => { g with minMode := true })).carries 4 = false ∧ whoDie 0 = 0 ∧ (s.modPkg (fun g => { g with rdc := [(rdcKey 0 true 4, ⟨.s, 0, 2, 0⟩)] })).pkg.rdc ≠ []
      ∧ ((s.ten ((s.owner true (64 * 4) 64).getD 0)).ways).toNat / 2 ^ 16 % 2 ^ 16 ≠ 0 ∧ (∀ t, t < 17 → (s.ten t).msix = []) ∧ (256 : Nat) ≤ 256 ∧ (s.modPkg (fun g => { g with poison := [(4, true)] })).poisonedPa 256 64 = true
      ∧ Map.find? ({ s with reqs := [(4, r)] } : State).reqs 4 = some r ∧ r.kind = .backInv 4 true ∧ r.answered = false
      ∧ ({ r with kind := .hostLine 4 true } : Req).kind = .hostLine 4 true ∧ ({ r with kind := .hostU 4 } : Req).kind = .hostU 4 ∧ s.carries 0 = true
      ∧ Map.find? s.pkg.doe 17 = none ∧ Map.find? (s.modPkg (fun g => { g with doe := [(17, [1])] })).pkg.doe 17 ≠ none ∧ s.pkg.stage < 2 ^ 4 ∧ s.pkg.fails < 2 ^ 2
      ∧ s.pkg.reason < 2 ^ 8 ∧ Map.get false s.pkg.ideKeyed 1 = false ∧ Map.get false (s.modPkg (fun g => { g with ideKeyed := [(1, true)] })).pkg.ideKeyed 1 = true
      ∧ (List.replicate 64 (1 : Byte)).length = 64
      ∧ s.hostWaits 256 64 false = none ∧ s.hostWaits 256 64 true = none ∧ s.rdcTakes 0 true 4 0 = true ∧ Map.get false s.pkg.poison (poisonKey true 4) = false
      ∧ s.portOpen 1 = true ∧ (∀ t e, e ∈ (s.ten t).msix → e.2.pending = false) :=
  ⟨by decide, by decide, by decide, by decide, (by decide), by decide, by decide, by decide, by decide, (by decide), by decide, by decide, by decide, by decide, (by decide), by decide,
    by decide, by decide, by decide, (by decide), by decide, by decide, by decide, by decide, (by decide), by decide, by decide, by decide, by decide, (by decide), by decide, windowed_msix⟩

/-- Every line is carried and can be written at its home. -/
theorem witness_host_lines : (∀ l, (windowed []).carries l = true) ∧ (∀ l, (windowed []).stuckAt l = false) := by
  refine ⟨fun _ => rfl, fun l => ?_⟩
  have h : (windowed []).frozenAt (64 * l) = false := by rw [State.frozenAt]; exact Bool.and_eq_false_iff.2 (.inr rfl)
  show (_ && (windowed []).frozenAt (64 * l) && _ && _) = false
  simp [h]

/-- A register of each kind, a busy and a free region unit, a region to retire. -/
theorem witness_control_pages :
    (0x1C0 : Nat) % 8 = 0 ∧ (16 : Nat) < 17 ∧ (State.reset.ten 16).rgBusy = false ∧ ((State.reset.modTen 16 (fun y => { y with rgBusy := true })).ten 16).rgBusy = true
      ∧ Map.find? ((State.reset.modTen 0 (fun y => { y with regs := [(3, region1)] })).ten 0).regs 3 = some region1
      ∧ (State.reset.modTen 0 (fun y => { y with regs := [(3, region1)] })).regionTargeted 0 3 = false ∧ (0x1FF8 : Nat) < 0x2000 ∧ (4 : Nat) % 8 ≠ 0 := by decide

set_option maxRecDepth 20000 in
/-- Quads given, taken by two, and taken from one at work; barrier objects within and beyond 32; a window table of one entry that is right and one of another
package; translations that become stale; records with and without a slot. -/
theorem witness_tenants :
    let s := State.reset
    let w := (s.modPkg (fun g => { g with wintab := 0x1000000 })).putVal .dev 0x1000000 8 1
    let b := w.modPkg (fun g => { g with winBusy := some 0, winNew := [⟨false, 0, 1⟩] })
    let d := w.modPkg (fun g => { g with winBusy := some 0, winDue := true })
    let h := at0 { p0 with h := [(1, handle1)] }
    let m := mapped (s.modTen 0 (fun x => { x with snpEn := true, snpbase := 0x2000000, snpLog := 4 }))
    (s.ten 0).quads = 0xFFFFFFFF ∧ (s.ten 1).quads = 0 ∧ s.quadBusy 3 = false ∧ (s.ten 1).bays.getLsbD 5 = false
      ∧ s.polSum 1 0x40820001 (fun p => p.toNat / 2 ^ 12 % 2 ^ 6) = 64 ∧ s.polSum 1 0 (fun p => p.toNat / 2 ^ 12 % 2 ^ 6) = 32
      ∧ s.polSum 1 0 (fun p => p.toNat / 2 ^ 18 % 2 ^ 6) = 32 ∧ (∀ key ∈ s.takenAway 0 0, s.barInUse key = false) ∧ s.pkg.winBusy = none
      ∧ w.windowsBad 0 [⟨false, 0, 1⟩] = false ∧ w.windowsBad 0 [⟨false, 2 ^ 50, 1⟩] = true ∧ w.valAt .dev 0x1000000 8 = 1
      ∧ b.pkg.winBusy = some 0 ∧ b.pkg.winDue = false ∧ w.tableWaits 0 = none ∧ d.pkg.winBusy = some 0 ∧ d.pkg.winDue = true ∧ d.tableWaits 0 = none
      ∧ w.stuckAt ((w.pkg.wintab.toNat / 2 ^ 12 % 2 ^ 48 * 2 ^ 12 + 64 * 0) / 64) = false ∧ lineFree w ((w.pkg.wintab.toNat / 2 ^ 12 % 2 ^ 48 * 2 ^ 12 + 64 * 0) / 64) = true ∧ b.pkg.hostLines = [] ∧ Map.find? h.parts 0 = some { p0 with h := [(1, handle1)] } ∧ h.tenOf (coreOf 0) = 0
      ∧ handle1.st = .valid ∧ handle1.page.vbase < 2 ^ 52 ∧ (h.ten 0).rvkVa = none ∧ handle1.page.vbase < 0x10000 + 2 ^ 16
      ∧ (0x10000 : Nat) < handle1.page.vbase + pageBytes handle1.page.ps ∧ (s.ten 0).snpEn = false ∧ (m.ten 0).snpEn = true
      ∧ m.stretches 0 64 0x2000000 512 ≠ none ∧ ended (m.putVa (ownReq 0 2) 0 0x2000000 (List.replicate 512 0)) = true ∧ (s.ten 0).snpOut = none
      ∧ ((s.modTen 0 (fun x => { x with snpOut := some [] })).ten 0).snpOut ≠ none := by decide

/-- A boot that succeeds, one that fails its self-test, each stage that may fail, and an enable map of too few quads. -/
theorem witness_boot :
    let good := fun em : Nat => em < 2 ^ 36 ∧ ∀ d, d < 4 → ((List.range 9).filter (fun q => (BitVec.ofNat 64 em).getLsbD (9 * d + q))).length = 8
    good State.reset.pkg.em.toNat ∧ ¬good 0 ∧ (⟨none, false, false, true, 1⟩ : BootIn).fail = none ∧ (⟨none, false, true, true, 1⟩ : BootIn).selfTest = true
      ∧ (∀ k, 1 ≤ k → k ≤ 5 → (⟨some k, true, false, true, 1⟩ : BootIn).fail = some k) ∧ State.reset.pkg.fails = 0
      ∧ ¬(State.reset.pkg.power = true ∧ ∃ e ∈ State.reset.pkg.hbm, 3 ≤ e.2.lvl) := by
  refine ⟨by decide, by decide, rfl, rfl, fun _ _ _ => rfl, rfl, by decide⟩

/-- A stack that is hot while the package has power. -/
theorem witness_boot_hot :
    let s := State.reset.modPkg (fun g => { g with power := true, hbm := [(5, { Stack.reset with lvl := 3 })] })
    s.pkg.power = true ∧ (∃ e ∈ s.pkg.hbm, 3 ≤ e.2.lvl) ∧ s.pkg.ready = false ∧ ({ s with pkg := { s.pkg with ready := true } } : State).pkg.ready = true := by decide

/-- The machine right after reset with a word placed where the next step fetches. -/
def placed (w : DWord) : State := State.reset.withFetchWord 64 w.toNat

set_option maxRecDepth 40000 in
/-- A fetch of ADDA A10, A10, 256 (worked in the spec) that nothing holds back. -/
theorem witness_step_fetch :
    let u : State := { placed 0x0534_9500_0000_0100 with agenda := [] }
    let p : PageInfo := ⟨0, 0, 2, 0, false, true, false, 0, 0x80010000⟩
    (placed 0x0534_9500_0000_0100).picks (.fetch 0) u ∧ (placed 0x0534_9500_0000_0100).pkg.power = true ∧ u.pkg.booting = false ∧ u.tablesAtHand (fetchReq 0) (u.tenOf (coreOf 0)) (u.part 0).pc.toNat
      ∧ u.heldBack (u.tenOf (coreOf 0)) ⟨p, (u.part 0).pc.toNat, 8⟩ = false ∧ u.issues 0 = true ∧ (u.part 0).ending = false
      ∧ (u.part 0).yielded = false ∧ u.xlate (u.tenOf (coreOf 0)) (u.part 0).pc.toNat = some p ∧ p.x = true
      ∧ u.unhindered (fetchReq 0) (u.tenOf (coreOf 0)) [⟨p, (u.part 0).pc.toNat, 8⟩] [] ∧ u.l1iWord 0 p.hh (p.pa (u.part 0).pc.toNat) = none
      ∧ (0x0534_9500_0000_0100 : DWord) = BitVec.ofNat 64 (u.valAt (spaceOf p.hh) (p.pa (u.part 0).pc.toNat) 8)
      ∧ decode 0x0534_9500_0000_0100 = .ok (.adda ⟨noTk, .a 10, .a 10, .imm, false, 256⟩) := by
  exact ⟨.inl ⟨[], rfl, rfl⟩, rfl, rfl, tables_dev (by decide), by decide, by decide, by decide, by decide, by decide, rfl, unhindered_dev _ _ _ _ _ rfl rfl rfl (by decide) rfl, by decide, by decide, rfl⟩

set_option maxRecDepth 40000 in
/-- A unit, an engine, a shepherd and an event whose turn it is, in a package that has power; and one without power. -/
theorem witness_step_agents :
    let c : Cur := ⟨0, 0xFF00_0000_0000_0000, 0, [], false, 0, 0, none, 0, 0, [], [], [], []⟩
    let r : Run := ⟨0, 0, 0, false, 0, 0, 1, 9, [0], [], [], 0, 0, [], 0, 0, false, false, false, false⟩
    let q := (at0 { p0 with pendA := [⟨0, 0, 0, .nop⟩], rings := [(1, { Ring.none with cur := some c })] }).modCore 0 (fun x => { x with run := some r })
    let s : State := { q with agenda := [.unit 0 1] }
    let e : State := { q with agenda := [.engine 0 1] }
    let v : State := { State.reset with agenda := [.event .bootWatchdog] }
    s.picks (.unit 0 1) q ∧ (q.part 0).frozen = false ∧ q.stopped 1 = false ∧ (q.part 0).pend 1 = [⟨0, 0, 0, .nop⟩] ∧ e.picks (.engine 0 1) q
      ∧ q.stopped 5 = false ∧ ((q.part 0).ring 1).sig = none ∧ ((q.part 0).ring 1).hold = none ∧ ((q.part 0).ring 1).cur = some c ∧ c.need = 0
      ∧ (q.core 0).run = some r ∧ r.fin = false ∧ r.faulted = false ∧ q.sigStalls (coreOf 0) 1 = false
      ∧ (q.modPkg (fun g => { g with rxQ := [⟨0, .release 0 1 1⟩] })).pkg.rxQ[0]? = some ⟨0, .release 0 1 1⟩ ∧ q.pkg.booting = false ∧ q.sigStalls (coreOf r.k) 3 = false
      ∧ (q.modPkg (fun g => { g with booting := true })).pkg.booting = true ∧ duringBoot (.unit 0 1) = false ∧ duringBoot (.event .bootWatchdog) = true ∧ v.picks (.event .bootWatchdog) State.reset ∧ isEvent .bootWatchdog = true
      ∧ (v.modPkg (fun g => { g with power := false })).pkg.power = false ∧ ∀ b, Action.event .bootWatchdog ≠ .event (.coldBoot b) := by
  exact ⟨.inl ⟨[], rfl, rfl⟩, rfl, by decide, rfl, .inl ⟨[], rfl, rfl⟩, by decide, rfl, rfl, rfl, rfl, rfl, rfl, rfl, rfl, rfl, rfl, rfl, rfl, rfl, rfl, .inl ⟨[], rfl, rfl⟩, rfl, rfl, fun b => by simp⟩

set_option maxRecDepth 40000 in
/-- A shepherd whose program, at the start of the scratchpad, begins with the spec's worked PEER. -/
theorem witness_step_shepherd :
    let r : Run := ⟨0, 0, 0, false, 2 ^ 63, 0, 1, 9, [0], [], [], 0, 0, [], 0, 0, false, false, false, false⟩
    let u := (at0 p0).modCore 0 (fun x => { x with run := some r, spad := [(0, 0xF1), (1, 0xFF), (2, 0x1F), (5, 0x5C)] })
    let s : State := { u with agenda := [.shepherd 0] }
    s.picks (.shepherd 0) u ∧ (u.core 0).run = some r ∧ r.fin = false ∧ (State.curOf u r.k 3).latch = []
      ∧ (∃ v, State.stepWords { u with ctx := ⟨r.k, 0, 0, 0, true, 3, false, 0, none, none⟩ } r = .ok [0x0000_5C00_001F_FFF1] v)
      ∧ decodeStep [0x0000_5C00_001F_FFF1] = .ok (.peer true false 0 0xFFFF 1) := by
  exact ⟨.inl ⟨[], rfl, rfl⟩, rfl, rfl, rfl, ⟨_, rfl⟩, rfl⟩

/-- Well-formed instructions of each of the kinds that the round trip is stated for. -/
theorem witness_round_trip :
    (Instr.adda ⟨noTk, .a 10, .a 10, .imm, false, 256⟩).wf = true ∧ (Instr.adda ⟨noTk, .a 10, .a 10, .imm, false, 256⟩).isWord = true
      ∧ (Instr.copy hd0 64 1 2).wf = true ∧ (Instr.copy hd0 64 1 2).isCommandOf 1 = true
      ∧ (Instr.peer true false 0 0xFFFF 1).wf = true ∧ (Instr.peer true false 0 0xFFFF 1).isStep = true := by decide

set_option maxRecDepth 40000 in
/-- A step from a machine whose memories are canonical. -/
theorem witness_canonical :
    (placed 0x0534_9500_0000_0100).memOk = true ∧ (match step (placed 0x0534_9500_0000_0100) with | .next t => t.memOk | _ => false) = true := by decide

/-! ### Values the spec works out -/

/-- Lanes of 2^24, 1.0, 1.0 and +0 after; and with the first moved behind the ones. -/
def example1 : Vec := [0x4B800000, 0x3F800000, 0x3F800000] ++ List.replicate 61 0
def example2 : Vec := [0x3F800000, 0x3F800000, 0x4B800000] ++ List.replicate 61 0
/-- An instruction of T on a copy whose q0 holds a vector, in execution. -/
def onQ0 (v : Vec) : State := { at0 { p0 with q := [(0, [v])] } with ctx := ⟨0, 0, 0, 0, true, 0, false, 0, none, none⟩ }
/-- What the result queue holds after an instruction on it. -/
def result (i : Instr) (v : Vec) : List Vec := match exec i (onQ0 v) with | .next t => t.me.t | _ => []

set_option maxRecDepth 40000 in
/-- Source: the example after R89. The tree sum of these lanes is 16,777,216 in every lane. -/
theorem test_rsum : (result (.rsum { x0 with s1 := .q 0 }) example1).map (fun v => v[0]?) = [some 0x4B800000] := by decide
set_option maxRecDepth 40000 in
/-- Source: the same example. Lane 3 of the running sum is 16,777,216; with the ones first it is 16,777,218. -/
theorem test_scan : (result (.scan { x0 with s1 := .q 0 }) example1).map (fun v => v[3]?) = [some 0x4B800000]
    ∧ (result (.scan { x0 with s1 := .q 0 }) example2).map (fun v => v[3]?) = [some 0x4B800001] := by decide
/-- Source: the examples under R77. 1.5 and -0.25 as FX32 of F = 16, by FCVT from F32 (destination type fx; source type F32; Fd = 16). -/
theorem test_fx32 : (result (.fcvt { x0 with s1 := .q 0, ty := .fx, imm := 256 }) ([0x3FC00000, 0xBE800000] ++ List.replicate 62 0)).map (fun v => (v[0]?, v[1]?))
    = [(some 0x00018000, some 0xFFFFC000)] := by decide
/-- Source: the example under R347. On a die without physical quad 2, QD 0 to 7 are the quads 0, 1 and 3 to 8. -/
theorem test_quads : (upto 8).map (physQuad (0x1FB * 2 ^ 18) 2) = [0, 1, 3, 4, 5, 6, 7, 8] := by decide

end Sys2Proof.Tests
end

section
/-! The sources of the AA instructions (R46): what reading each one gives and takes from xa, and which codes name them. -/
namespace Sys2Proof.Machine

/-! ### Reading a source of the access unit -/

section
variable (p : Part) (imm : Word)

theorem readA_reg (r : Fin 16) : p.readA imm (.a r) = (p.rdA r.val, p) := rfl

theorem readA_imm : p.readA imm .imm = (imm.signExtend 64, p) := rfl

theorem readA_zero : p.readA imm .zero = (0, p) := rfl

variable {p} {v : Vec} {rest : List Vec} (hxa : p.xa = v :: rest)
include hxa

theorem readA_xaWord : p.readA imm .xaWord = ((lane v 0).signExtend 64, { p with xa := rest }) := by
  simp only [Part.readA, hxa, List.headD_cons, List.drop_one, List.tail_cons]

theorem readA_xaPair : p.readA imm .xaPair = (val64 v, { p with xa := rest }) := by
  simp only [Part.readA, hxa, List.headD_cons, List.drop_one, List.tail_cons]

end

/-- Two lanes fit 64 bits, so none of their bits is lost. -/
theorem val64_toNat (v : Vec) : (val64 v).toNat = (lane v 0).toNat + 2 ^ 32 * (lane v 1).toNat := by
  have hlow := (lane v 0).isLt
  have hhigh := (lane v 1).isLt
  rw [val64, BitVec.toNat_ofNat]
  omega

/-! ### Source codes of the access unit -/

theorem aSrc_ofCode_reg (n : Fin 16) : ASrc.ofCode n.val = some (.a n) := by
  simp [ASrc.ofCode, toFin, n.isLt]

theorem aSrc_ofCode_reserved {n : Nat} (hlow : 19 ≤ n) (hhigh : n ≤ 30) : ASrc.ofCode n = none := by
  have hreg : ¬n < 16 := by omega
  have himm : n ≠ 16 := by omega
  have hword : n ≠ 17 := by omega
  have hpair : n ≠ 18 := by omega
  have hzero : n ≠ 31 := by omega
  simp only [ASrc.ofCode, hreg, himm, hword, hpair, hzero, if_false]

/-- Settles O8: each source is read by its own rule, and a second pop reads the queue as the first one left it, whose oldest
element is the next one. -/
theorem accessSources : Obligations.AccessSources := by
  refine ⟨fun p imm a b rest hxa => ?_, aSrc_ofCode_reg, rfl, rfl, rfl, fun _ => aSrc_ofCode_reserved, rfl⟩
  have hnext : ({ p with xa := b :: rest } : Part).xa = b :: rest := rfl
  have signed (w : Word) : (w.signExtend 64).toInt = w.toInt := BitVec.toInt_signExtend_of_le (by decide)
  rw [readA_imm p imm, readA_xaWord imm hxa, readA_xaPair imm hxa, readA_xaWord imm hnext, readA_xaPair imm hnext]
  exact ⟨readA_reg p imm, signed imm, rfl, signed _, rfl, val64_toNat a, rfl, readA_zero p imm, val64_toNat b, signed _, rfl⟩

end Sys2Proof.Machine
end

section
/-! NOP and SLEEP of the front end (R94, R109): the copy each of them leaves. -/
namespace Sys2Proof.Machine

theorem exec_nop_became (s : State) : ∃ t, exec .nop s = .next t ∧ s.became t (s.me.at (s.me.pc + 8)) :=
  exec_front .nop _ s s _ (exec_nop s) rfl rfl

/-- When the copy is next awake after `SLEEP cycles` (R109); with 0 cycles it does not sleep at all. -/
def State.wakeAfter (s : State) (cycles : Word) : Option Nat := if cycles = 0 then none else some (s.cycle + cycles.toNat)

theorem exec_sleep_became (s : State) (cycles : Word) :
    ∃ t, exec (.sleep cycles) s = .next t ∧ s.became t ({ s.me with sleeping := s.wakeAfter cycles }.at (s.me.pc + 8)) :=
  exec_front (.sleep cycles) _ s s _ (exec_sleep cycles s) rfl rfl

theorem awake_of_sleeping_none {p : Part} (hawake : p.sleeping = none) : { p with sleeping := none } = p := by
  rw [← hawake]

/-- Settles O2: SLEEP 0 leaves the copy awake, as it was, so that like NOP it moves pc alone. -/
theorem nopChangesOnlyPc : Obligations.NopChangesOnlyPc := by
  refine fun s => ⟨exec_nop_became s, fun hawake => ?_⟩
  have hsleep := exec_sleep_became s 0
  have hzero : s.wakeAfter 0 = none := rfl
  rwa [hzero, awake_of_sleeping_none hawake] at hsleep

end Sys2Proof.Machine
end

section
/-! Fixed point (R148): RNDSH is the one rounding that the mode describes (R79), and what QMUL and QMAD make of an exact value. -/
namespace Sys2Proof.Machine

/-! ### Rounding a shifted integer (R79) -/

/-- The rounding mode that does to -x what `rm` does to x. -/
def Rm.mirror : Rm → Rm
  | .rne => .rne
  | .rtz => .rtz
  | .rup => .rdn
  | .rdn => .rup

theorem isRndsh_neg {rm : Rm} {x r : Int} {k : Nat} (h : isRndsh (Rm.mirror rm) x k r) : isRndsh rm (-x) k (-r) := by
  have hdist : |-r * 2 ^ k - -x| = |r * 2 ^ k - x| := by rw [← abs_neg]; ring_nf
  cases rm with
  | rne =>
    obtain ⟨hnear, htie⟩ := h
    refine ⟨hdist ▸ hnear, fun heq => ?_⟩
    have heven := htie (hdist ▸ heq)
    omega
  | rtz =>
    obtain ⟨hmag, hnear⟩ := h
    exact ⟨by rwa [neg_mul, abs_neg, abs_neg], hdist ▸ hnear⟩
  | rup =>
    obtain ⟨hle, hlt⟩ := h
    simp only [isRndsh, neg_mul]
    omega
  | rdn =>
    obtain ⟨hle, hlt⟩ := h
    simp only [isRndsh, neg_mul]
    omega

theorem roundAt_mirror (rm : Rm) (m : Nat) (e q : Int) : roundAt rm true m e q = roundAt (Rm.mirror rm) false m e q := by
  cases rm <;> rfl

/-- With nothing shifted out, the value is its own rounding. -/
theorem isRndsh_zero (rm : Rm) (x : Int) : isRndsh rm x 0 x := by
  cases rm <;> simp [isRndsh]

theorem roundAt_shift_zero (rm : Rm) (m : Nat) : (roundAt rm false m (-(0 : Nat)) 0).1 = m := by
  simp [roundAt]

/-- The magnitude is m / 2^k rounded down, and one more where the mode says so. -/
theorem isRndsh_roundAt (rm : Rm) (m k : Nat) : isRndsh rm m k (roundAt rm false m (-(k : Int)) 0).1 := by
  rcases Nat.eq_zero_or_pos k with rfl | hk
  · rw [roundAt_shift_zero]
    exact isRndsh_zero rm m
  have hshift : ¬(0 : Int) ≤ -(k : Int) := by omega
  have hexp : (0 - -(k : Int)).toNat = k := by omega
  have hdown : ((m / 2 ^ k : Nat) : Int) * 2 ^ k = m - ((m % 2 ^ k : Nat) : Int) := by
    rw [eq_sub_iff_add_eq]
    exact_mod_cast Nat.div_add_mod' m (2 ^ k)
  have hup : ((m / 2 ^ k + 1 : Nat) : Int) * 2 ^ k = m - ((m % 2 ^ k : Nat) : Int) + 2 ^ k := by
    rw [Nat.cast_add_one, add_one_mul, hdown]
  have hlt : ((m % 2 ^ k : Nat) : Int) < 2 ^ k := by exact_mod_cast Nat.mod_lt m (Nat.two_pow_pos k)
  have hle : m % 2 ^ k ≤ m := Nat.mod_le m _
  have hpow : ((2 ^ k : Nat) : Int) = 2 ^ k := by push_cast; rfl
  simp only [roundAt, if_neg hshift, hexp]
  generalize m / 2 ^ k = base at *
  generalize m % 2 ^ k = rem at *
  cases rm with
  | rne =>
    simp only [isRndsh, b2n, Bool.or_eq_true, Bool.and_eq_true, decide_eq_true_eq]
    split_ifs with hround
    · have hdist : |(m : Int) - rem + 2 ^ k - m| = 2 ^ k - rem := by rw [abs_of_pos] <;> omega
      rw [hup, hdist]
      omega
    · have hdist : |(m : Int) - rem - m| = rem := by rw [sub_sub_cancel_left, abs_neg, Nat.abs_cast]
      rw [Nat.add_zero, hdown, hdist]
      omega
  | rtz =>
    simp only [isRndsh, b2n, Bool.false_eq_true, if_false, Nat.add_zero, hdown, abs_le, abs_lt, Nat.abs_cast]
    omega
  | rdn =>
    simp only [isRndsh, b2n, Bool.false_and, Bool.false_eq_true, if_false, Nat.add_zero, hdown]
    omega
  | rup =>
    simp only [isRndsh, b2n, Bool.not_false, Bool.true_and, decide_eq_true_eq]
    split_ifs with hrem
    · rw [hup]
      omega
    · rw [Nat.add_zero, hdown]
      omega

/-- RNDSH rounds as the mode says: a negative value by the mirrored rounding of its magnitude. -/
theorem isRndsh_rndsh (rm : Rm) (x : Int) (k : Nat) : isRndsh rm x k (rndsh x k rm) := by
  rcases lt_or_ge x 0 with hneg | hpos
  · obtain ⟨m, rfl⟩ := Int.exists_eq_neg_ofNat hneg.le
    have hr : rndsh (-(m : Int)) k rm = -((roundAt (Rm.mirror rm) false m (-(k : Int)) 0).1 : Int) := by
      simp only [rndsh, Dy.ofInt, Dy.roundInt, hneg, decide_true, if_true, Int.natAbs_neg, Int.natAbs_natCast, roundAt_mirror]
    exact hr ▸ isRndsh_neg (isRndsh_roundAt (Rm.mirror rm) m k)
  · obtain ⟨m, rfl⟩ := Int.eq_ofNat_of_zero_le hpos
    have hr : rndsh m k rm = ((roundAt rm false m (-(k : Int)) 0).1 : Int) := by
      simp only [rndsh, Dy.ofInt, Dy.roundInt, hpos.not_gt, decide_false, Bool.false_eq_true, if_false, Int.natAbs_natCast]
    exact hr ▸ isRndsh_roundAt rm m k

/-- No mode has two roundings: they would be a whole 2^k apart. -/
theorem isRndsh_not_lt {rm : Rm} {x r r' : Int} {k : Nat} (h : isRndsh rm x k r) (h' : isRndsh rm x k r') : ¬r < r' := by
  intro hlt
  have hpos : (0 : Int) < 2 ^ k := by positivity
  have hapart : r * 2 ^ k + 2 ^ k ≤ r' * 2 ^ k := by nlinarith
  cases rm with
  | rne =>
    obtain ⟨hnear, htie⟩ := h
    obtain ⟨hnear', htie'⟩ := h'
    have hbelow := neg_le_abs (r * 2 ^ k - x)
    have habove := le_abs_self (r' * 2 ^ k - x)
    have heven := htie (by omega)
    have heven' := htie' (by omega)
    have hstep : r + 2 ≤ r' := by omega
    nlinarith
  | rtz =>
    obtain ⟨hmag, hnear⟩ := h
    obtain ⟨hmag', hnear'⟩ := h'
    rw [abs_lt] at hnear hnear'
    rcases abs_cases x with ⟨hx, -⟩ | ⟨hx, -⟩ <;> rw [hx, abs_le] at hmag hmag' <;> omega
  | rup =>
    obtain ⟨hle, -⟩ := h
    obtain ⟨-, hlt'⟩ := h'
    omega
  | rdn =>
    obtain ⟨-, hlt⟩ := h
    obtain ⟨hle', -⟩ := h'
    omega

theorem isRndsh_iff {rm : Rm} {x r : Int} {k : Nat} : isRndsh rm x k r ↔ r = rndsh x k rm := by
  have hround := isRndsh_rndsh rm x k
  constructor
  · intro h
    exact le_antisymm (not_lt.1 (isRndsh_not_lt hround h)) (not_lt.1 (isRndsh_not_lt h hround))
  · rintro rfl
    exact hround

/-! ### 32-bit patterns as integers -/

theorem i32_toNat (w : Word) : i32 w.toNat = w.toInt := by
  have hw := w.isLt
  simp only [i32, sext, BitVec.toInt_eq_toNat_cond, Nat.mod_eq_of_lt hw]
  split_ifs <;> omega

theorem elemOf_fx_toNat (w : Word) : elemOf .fx w.toNat 0 = w.toNat := by
  simpa [elemOf, bits, Ty.width] using w.isLt

theorem bits_five (n : Nat) : bits n 0 5 = n % 32 := by
  simp [bits]

theorem wrap_mod (len : Nat) (z : Int) : wrap len z % 2 ^ len = wrap len z := by
  refine Nat.mod_eq_of_lt ?_
  have hlt : z % 2 ^ len < 2 ^ len := Int.emod_lt_of_pos z (by positivity)
  have hcast : ((2 ^ len : Nat) : Int) = 2 ^ len := by push_cast; rfl
  rw [wrap]
  omega

/-- A lane that holds the residue of z is the low 32 bits of z in two's complement. -/
theorem toInt_eq_intoRange_of_wrap {w : Word} {z : Int} (h : w.toNat = wrap 32 z) : w.toInt = intoRange .fx false z := by
  simp only [intoRange, Ty.signed, Ty.width, if_true, Bool.false_eq_true, if_false, BitVec.toInt_eq_toNat_cond, h, wrap]
  split_ifs <;> omega

theorem intoRange_fx_sat (z : Int) : intoRange .fx true z = sat32 z := by
  simp only [intoRange, Ty.signed, Ty.width, if_true, sat32, clampTo]
  split_ifs <;> omega

/-- A clamped value has all its bits in the low 32. -/
theorem intoRange_fx_sat32 (z : Int) : intoRange .fx false (sat32 z) = sat32 z := by
  simp only [intoRange, Ty.signed, Ty.width, if_true, Bool.false_eq_true, if_false, sat32, clampTo]
  split_ifs <;> omega

theorem sat32_ne_iff (z : Int) : sat32 z ≠ z ↔ outside .fx z := by
  simp only [outside, Ty.signed, Ty.width, if_true, sat32, clampTo]
  split_ifs <;> omega

/-! ### What QMUL and QMAD make of an exact value -/

theorem qRes_fst (o : XArgs) (x : Int) :
    (qRes o x).1 = wrap 32 (if o.sat then sat32 (rndsh x (o.imm.toNat % 32) o.rm) else rndsh x (o.imm.toNat % 32) o.rm) := by
  cases hsat : o.sat <;> simp [qRes, hsat, bits_five]

theorem toInt_of_qRes (o : XArgs) (x : Int) {w : Word} (h : w.toNat = (qRes o x).1 % 2 ^ 32) :
    w.toInt = intoRange .fx o.sat (rndsh x (o.imm.toNat % 32) o.rm) := by
  rw [qRes_fst, wrap_mod] at h
  rw [toInt_eq_intoRange_of_wrap h]
  cases o.sat with
  | false => rfl
  | true => exact (intoRange_fx_sat32 _).trans (intoRange_fx_sat _).symm

theorem testBit_flagIf (b : Bool) (f k : Nat) : (flagIf b f).testBit k = (b && f.testBit k) := by
  cases b <;> simp [flagIf]

theorem testBit_fNX (k : Nat) : fNX.testBit k = decide (3 = k) := Nat.testBit_two_pow (n := 3)

theorem testBit_fSAT (k : Nat) : fSAT.testBit k = decide (4 = k) := Nat.testBit_two_pow (n := 4)

/-- NX and SAT are the only flags, each under its own condition of R148. -/
theorem qRes_flags (o : XArgs) (x : Int) (k : Nat) :
    (qRes o x).2.testBit k = true ↔
      (k = 3 ∧ x % 2 ^ (o.imm.toNat % 32) ≠ 0) ∨ (k = 4 ∧ o.sat = true ∧ outside .fx (rndsh x (o.imm.toNat % 32) o.rm)) := by
  rw [← sat32_ne_iff]
  cases hsat : o.sat <;> simp [qRes, hsat, bits_five, testBit_flagIf, testBit_fNX, testBit_fSAT, and_comm, @eq_comm _ k]

theorem and_flags_eq_self {fl : Word} (h : ∀ k, k < 32 → fl.getLsbD k = true → k = 3 ∨ k = 4) : fl &&& 24 = fl := by
  apply BitVec.eq_of_getLsbD_eq
  intro k hk
  rw [BitVec.getLsbD_and]
  cases hbit : fl.getLsbD k with
  | false => rfl
  | true => rcases h k hk hbit with rfl | rfl <;> rfl

/-- What R148 asks of a ready instruction whose lane l has the exact value x l, whatever the value is made of. -/
theorem fixedPoint_ends (i : Instr) (o : XArgs) (f : Nat → Nat → Nat → Int) (x : Nat → Int) (s : State) (hfx : o.ty = .fx)
    (hready : s.readyIn 2 o.tk) (hqueues : s.me.readyX s.ctx.seq o = true) {a b c : Vec} {q : Part} (hsrcs : s.me.readSrcs o = (a, b, c, q))
    (hx : ∀ l, x l = f (lane a l).toNat (lane b l).toNat (lane c l).toNat) :
    ∃ t v fl, routed 2 i o.tk (xBody o (elemwise o (fun a b c => qRes o (f a b c)))) s = .next t ∧ s.xLanes t o v fl
      ∧ (∀ l, s.active o l → ∃ r, isRndsh o.rm (x l) (o.imm.toNat % 32) r ∧ (lane v l).toInt = intoRange .fx o.sat r)
      ∧ (fl.getLsbD 3 = true ↔ ∃ l, s.active o l ∧ x l % 2 ^ (o.imm.toNat % 32) ≠ 0)
      ∧ (fl.getLsbD 4 = true ↔ o.sat = true ∧ ∃ l r, s.active o l ∧ isRndsh o.rm (x l) (o.imm.toNat % 32) r ∧ outside .fx r)
      ∧ fl &&& 24 = fl := by
  have hper : perLane .fx = 1 := rfl
  have hwidth : Ty.width .fx = 32 := rfl
  obtain ⟨t, v, fl, hnext, hlanes, helems, hflags⟩ := elems_ends i o (fun a b c => qRes o (f a b c)) s hready hqueues hsrcs
  simp only [hfx, hper, Nat.lt_one_iff] at helems hflags
  have hlane : ∀ l, s.active o l → (lane v l).toNat = (qRes o (x l)).1 % 2 ^ 32 := by
    intro l hl
    have h := helems l 0 hl rfl
    simpa only [elemOf_fx_toNat, hwidth, ← hx] using h
  have hflag : ∀ k, k < 32 → (fl.getLsbD k = true ↔ ∃ l, s.active o l ∧ (qRes o (x l)).2.testBit k = true) := by
    intro k hk
    rw [hflags k hk]
    simp [elemOf_fx_toNat, ← hx]
  refine ⟨t, v, fl, hnext, hlanes, fun l hl => ?_, ?_, ?_, ?_⟩
  · exact ⟨_, isRndsh_rndsh _ _ _, toInt_of_qRes o (x l) (hlane l hl)⟩
  · rw [hflag 3 (by decide)]
    simp [qRes_flags]
  · rw [hflag 4 (by decide)]
    simp [qRes_flags, isRndsh_iff, and_left_comm]
  · refine and_flags_eq_self fun k hk hbit => ?_
    obtain ⟨l, -, hl⟩ := (hflag k hk).1 hbit
    exact ((qRes_flags o (x l) k).1 hl).imp And.left And.left

/-- Settles O18: QMUL and QMAD differ in the exact value alone. -/
theorem fixedPoint : Obligations.FixedPoint := by
  intro i o s a b c q x hi hfx hready hqueues hsrcs hx
  rcases hi with rfl | rfl
  · rw [exec_qmul, execQmul]
    exact fixedPoint_ends _ o (fun a b _ => i32 a * i32 b) x s hfx hready hqueues hsrcs fun l => by simp [hx, i32_toNat]
  · rw [exec_qmad, execQmad]
    exact fixedPoint_ends _ o (fun a b c => i32 a * i32 b + i32 c * 2 ^ bits o.imm.toNat 0 5) x s hfx hready hqueues hsrcs fun l => by
      simp [hx, i32_toNat, bits_five]

end Sys2Proof.Machine
end

section
/-! STF through h0 whose entry names a class-F page (R120, R162): S stops with FILTER_ACCESS, whether or not the paddock that gave the
entry that page is still bound. -/
namespace Sys2Proof.Machine

/-- A page of class F, as the checks of an SA find it behind a paddock (R120). -/
def filterPage : PageInfo := { PageInfo.none with cl := 3, w := true }

/-- A word at offset 0 of scratchpad, captured by an SA while a paddock over `filterPage` was bound there. -/
def filterEntry : AqEntry :=
  { scatter := false, addrs := [0], h := 0, page := h0Page, gpages := [(1, filterPage)], sz := .w, na := false, sys := false }

/-- STF.w without tokens. -/
def stfWord : StArgs := ⟨⟨false, false, false, false⟩, .w, false, false⟩

/-- A copy that runs an iteration and holds that entry with a vector of data. No paddock is bound any more, as after a PDUNBIND
between the SA and the STF (R130). The tenant's fault queue is enabled and full, so that a record is held (R204). -/
def filterStore : State :=
  (State.reset.modTen 0 (fun x => { x with fqctl := 16, fqprod := 16 })).setPart 0
    { Part.reset with inIter := true, aq := [filterEntry], sd := [zeroVec] }

theorem filterStore_ready : filterStore.storeReady stfWord.tk filterEntry zeroVec [] [] :=
  ⟨⟨rfl, rfl, .inr rfl, rfl, .inr ⟨rfl, rfl⟩⟩, rfl, rfl, rfl, rfl, Nat.succ_ne_zero _⟩

theorem filterStore_unpadded : ∀ r ∈ storeRunsOf filterEntry zeroVec, filterStore.myCore.padParts r.1 r.2.length = [] := by
  decide

/-- S stops with FILTER_ACCESS, and the STF at fault has popped nothing (R205). -/
theorem stf_stops_at_filterEntry {t : State} (h : exec (.stf stfWord) filterStore = .next t) :
    t.faults.map (fun r => (r.who, r.cause)) = [(3, cFilter)] ∧ t.me.aq = [filterEntry] := by
  cases h
  exact ⟨rfl, rfl⟩

/-- Refutes O25: its second part asks of every entry through h0 outside the paddocks that STF stores its data and pops it. The entry of an
SA inside a paddock over a class-F page keeps the name of that page, and once the paddock is unbound it meets the hypotheses; yet
STF through it raises FILTER_ACCESS (R120, R162) and leaves it in aq. -/
theorem not_storesPutBytes : ¬ Obligations.StoresPutBytes := by
  rintro ⟨-, hspad⟩
  obtain ⟨t, -, hnext, hme, -⟩ := hspad (.stf stfWord) stfWord filterStore filterEntry zeroVec [] [] filterStore_ready
    (.inl ⟨rfl, .inr rfl⟩) rfl nofun nofun rfl rfl rfl filterStore_unpadded
  have hpopped : t.me.aq = [] := congrArg Part.aq hme
  obtain ⟨-, hkept⟩ := stf_stops_at_filterEntry hnext
  rw [hkept] at hpopped
  cases hpopped

end Sys2Proof.Machine
end

section
/-! The life of an engine command (R173): how its WAIT tokens are taken, how its SIGNAL tokens go out, and that its start and its finish
move nothing else but its place in its ring. -/
namespace Sys2Proof.Machine

/-! ### Maps -/

theorem del_of_find_none {α : Type} (m : Map α) (k : Nat) (h : Map.find? m k = none) : Map.del m k = m := by
  induction m with
  | nil => rfl
  | cons entry m ih =>
    obtain ⟨j, v⟩ := entry
    by_cases hkey : k = j
    · simp [Map.find?, hkey] at h
    · simp only [Map.find?, hkey, if_false] at h
      simp [Map.del, hkey, ih h]

/-- A function that keeps the default acts on a map value by value. -/
theorem get_mapValues {α : Type} (d : α) (f : α → α) (hd : f d = d) (m : Map α) (k : Nat) :
    Map.get d (m.map (fun entry => (entry.1, f entry.2))) k = f (Map.get d m k) := by
  induction m with
  | nil => exact hd.symm
  | cons entry m ih =>
    obtain ⟨j, v⟩ := entry
    by_cases hkey : k = j
    · simp [Map.get, Map.find?, hkey]
    · simpa [Map.get, Map.find?, hkey] using ih

/-! ### Copies that differ in the command of one ring -/

/-- `q` is `p` but for the command that ring `e` has taken, the signal tokens it has still to push, and the copy's token queues. -/
structure Part.SameButCmd (e : Nat) (p q : Part) : Prop where
  bare : q.cmdBare = p.cmdBare
  ring : { q.ring e with cur := none, sig := none } = { p.ring e with cur := none, sig := none }
  others : ∀ j, j ≠ e → Map.find? q.rings j = Map.find? p.rings j

namespace Part.SameButCmd
variable {e : Nat} {p q r : Part}

theorem refl (e : Nat) (p : Part) : p.SameButCmd e p := ⟨rfl, rfl, fun _ _ => rfl⟩

theorem trans (h : p.SameButCmd e q) (g : q.SameButCmd e r) : p.SameButCmd e r :=
  ⟨g.bare.trans h.bare, g.ring.trans h.ring, fun j hj => (g.others j hj).trans (h.others j hj)⟩

theorem tokens (p : Part) (e : Nat) (eng str : Map Nat) : p.SameButCmd e { p with engTok := eng, strTok := str } :=
  ⟨rfl, rfl, fun _ _ => rfl⟩

theorem putRing (p : Part) (g : Ring) (hg : { g with cur := none, sig := none } = { p.ring e with cur := none, sig := none }) :
    p.SameButCmd e { p with rings := Map.put p.rings e g } :=
  ⟨rfl, by simpa [Part.ring] using hg, fun _ hj => find_put_other _ _ hj⟩

theorem inIter (h : p.SameButCmd e q) : q.inIter = p.inIter := (congrArg Part.inIter h.bare :)
theorem iter (h : p.SameButCmd e q) : q.iter = p.iter := (congrArg Part.iter h.bare :)
theorem ev (h : p.SameButCmd e q) : q.ev = p.ev := (congrArg Part.ev h.bare :)
theorem slots (h : p.SameButCmd e q) : q.slots = p.slots := (congrArg Part.slots h.bare :)
theorem sleeping (h : p.SameButCmd e q) : q.sleeping = p.sleeping := (congrArg Part.sleeping h.bare :)

theorem more (h : p.SameButCmd e q) : (q.ring e).more = (p.ring e).more := (congrArg Ring.more h.ring :)
theorem bad (h : p.SameButCmd e q) : (q.ring e).bad = (p.ring e).bad := (congrArg Ring.bad h.ring :)
theorem hold (h : p.SameButCmd e q) : (q.ring e).hold = (p.ring e).hold := (congrArg Ring.hold h.ring :)

theorem ring_of_cur_none (h : p.SameButCmd e q) (hcur : (q.ring e).cur = none) :
    q.ring e = { p.ring e with cur := none, sig := (q.ring e).sig } := by
  have hfree : q.ring e = { q.ring e with cur := none } := by rw [← hcur]
  exact hfree.trans (congrArg (fun g : Ring => { g with sig := (q.ring e).sig }) h.ring :)

theorem ring_other (h : p.SameButCmd e q) {j : Nat} (hj : j ≠ e) : q.ring j = p.ring j := by
  simp only [Part.ring, Map.get, h.others j hj]

end Part.SameButCmd

/-! ### Machines that differ in one copy and the tokens of its core -/

/-- The machine with other tokens between the engines of core `c` (R173). -/
def State.setEngTok (s : State) (c : Nat) (tok : Map Nat) : State := s.modCore c (fun x => { x with engTok := tok })

section
variable (s : State) (c : Nat) (tok : Map Nat)

@[simp] theorem setEngTok_ctx : (s.setEngTok c tok).ctx = s.ctx := rfl
@[simp] theorem setEngTok_part (j : Nat) : (s.setEngTok c tok).part j = s.part j := rfl
@[simp] theorem setEngTok_engTok : ((s.setEngTok c tok).core c).engTok = tok := by simp [State.setEngTok]
@[simp] theorem setEngTok_setEngTok (old : Map Nat) : (s.setEngTok c old).setEngTok c tok = s.setEngTok c tok := by
  simp [State.setEngTok, State.modCore]
@[simp] theorem setPart_setEngTok (k : Nat) (p : Part) : (s.setEngTok c tok).setPart k p = (s.setPart k p).setEngTok c tok := rfl

/-- Giving a core the tokens that it has shows a program nothing. -/
theorem setEngTok_self : SameSeen (s.setEngTok c (s.core c).engTok) s := by
  refine (sameSeen_of s (s.setEngTok c (s.core c).engTok).cores s.pkg (fun j => ?_) rfl).symm
  show ((s.setEngTok c (s.core c).engTok).core j).bare = (s.core j).bare
  by_cases hj : j = c
  · rw [hj, State.setEngTok, core_modCore_same]
  · rw [State.setEngTok, core_modCore_other _ _ hj]

theorem SameSeen.setEngTok {s t : State} (h : SameSeen s t) (c : Nat) (tok : Map Nat) : SameSeen (s.setEngTok c tok) (t.setEngTok c tok) := by
  refine { h with cores := fun j => ?_ }
  by_cases hj : j = c
  · rw [hj, State.setEngTok, State.setEngTok, core_modCore_same, core_modCore_same]
    exact congrArg (fun x : Core => { x with engTok := tok }) (h.cores c)
  · rw [State.setEngTok, State.setEngTok, core_modCore_other _ _ hj, core_modCore_other _ _ hj]
    exact h.cores j

end

/-- `t` is `s` but for the copy in execution, the tokens between the engines of its core, and what no program sees. -/
def State.SameButCopy (s t : State) : Prop :=
  ∃ tok, ∀ p, SameSeen ((s.setPart s.ctx.k p).setEngTok (coreOf s.ctx.k) tok) (t.setPart s.ctx.k p)

namespace State.SameButCopy
variable {s t : State}

theorem refl (s : State) : s.SameButCopy s :=
  ⟨(s.core (coreOf s.ctx.k)).engTok, fun p => setEngTok_self (s.setPart s.ctx.k p) _⟩

theorem modPart (h : s.SameButCopy t) (f : Part → Part) : s.SameButCopy (t.modPart s.ctx.k f) := by
  obtain ⟨tok, h⟩ := h
  exact ⟨tok, fun p => by simpa using h p⟩

theorem setEngTok (h : s.SameButCopy t) (tok : Map Nat) : s.SameButCopy (t.setEngTok (coreOf s.ctx.k) tok) := by
  obtain ⟨old, h⟩ := h
  exact ⟨tok, fun p => by simpa using (h p).setEngTok (coreOf s.ctx.k) tok⟩

theorem ctx (h : s.SameButCopy t) : t.ctx = s.ctx := by
  obtain ⟨tok, h⟩ := h
  exact (h s.me).ctx

theorem reqs (h : s.SameButCopy t) : t.reqs = s.reqs := by
  obtain ⟨tok, h⟩ := h
  exact (h s.me).reqs

theorem part_other (h : s.SameButCopy t) {j : Nat} (hj : j ≠ s.ctx.k) : t.part j = s.part j := by
  obtain ⟨tok, h⟩ := h
  have hpart := (h s.me).part j
  rwa [part_setPart_other _ _ hj, setEngTok_part, part_setPart_other _ _ hj] at hpart

end State.SameButCopy

/-! ### Taking WAIT tokens -/

theorem me_of_ctx {s t : State} (h : t.ctx = s.ctx) : t.me = t.part s.ctx.k := by rw [State.me, h]

@[simp] theorem modRing_ctx (s : State) (k e : Nat) (f : Ring → Ring) : (s.modRing k e f).ctx = s.ctx := rfl
@[simp] theorem modCur_ctx (s : State) (k e : Nat) (f : Cur → Cur) : (s.modCur k e f).ctx = s.ctx := rfl
@[simp] theorem part_modRing_same (s : State) (k e : Nat) (f : Ring → Ring) :
    (s.modRing k e f).part k = { s.part k with rings := Map.put (s.part k).rings e (f ((s.part k).ring e)) } := part_modPart_same _ _ _
@[simp] theorem part_modCur_same (s : State) (k e : Nat) (f : Cur → Cur) : (s.modCur k e f).part k
    = { s.part k with rings := Map.put (s.part k).rings e { (s.part k).ring e with cur := some (f (s.curOf k e)) } } := part_modPart_same _ _ _
@[simp] theorem ring_putRing_same (p : Part) (e : Nat) (g : Ring) : ({ p with rings := Map.put p.rings e g } : Part).ring e = g :=
  get_put_same _ _ _ _

theorem curOf_modCur (s : State) (k e : Nat) (f : Cur → Cur) : (s.modCur k e f).curOf k e = f (s.curOf k e) := by
  rw [State.curOf, part_modCur_same, ring_putRing_same]

theorem popWait_ctx (s : State) (k e w n : Nat) : (s.popWait k e w n).ctx = s.ctx := by
  unfold State.popWait
  split_ifs <;> rfl

/-- Only a WAIT on the strand's queue (WSRC = 5) takes anything from the copy: its own tokens towards the engine (R173). -/
theorem part_popWait (s : State) (k e w n : Nat) : ∃ str, (s.popWait k e w n).part k = { s.part k with strTok := str }
    ∧ ∀ j, Map.get 0 str j = Map.get 0 (s.part k).strTok j - (if j = e ∧ w = 5 then n else 0) := by
  by_cases hstrand : w = 5
  · refine ⟨Map.put (s.part k).strTok e (Map.get 0 (s.part k).strTok e - n), by simp [State.popWait, hstrand], fun j => ?_⟩
    by_cases hj : j = e <;> simp [hj, hstrand, get_put]
  · refine ⟨(s.part k).strTok, ?_, by simp [hstrand]⟩
    by_cases hnone : w = 0 <;> simp [State.popWait, hnone, hstrand]

theorem curOf_popWait (s : State) (k e w n : Nat) : (s.popWait k e w n).curOf k e = s.curOf k e := by
  obtain ⟨str, hpart, -⟩ := part_popWait s k e w n
  rw [State.curOf, hpart, popWait_ctx]
  rfl

theorem State.SameButCopy.popWait {s t : State} (h : s.SameButCopy t) (e w n : Nat) : s.SameButCopy (t.popWait s.ctx.k e w n) := by
  unfold State.popWait
  split_ifs
  · exact h
  · exact h.modPart _
  · exact h.setEngTok _

/-- The machine in which the body of a command of ring `e` runs: its WAIT tokens are taken, now or before (R173). -/
def State.cmdStarted (s : State) (e : Nat) (hd : Hdr) : State :=
  if (s.curOf s.ctx.k e).toks then s
  else (s.popWait s.ctx.k e hd.wsrc.toNat hd.wcnt.toNat).modCur s.ctx.k e (fun c => { c with toks := true })

section
variable (s : State) (e : Nat) (hd : Hdr)

@[simp] theorem cmdStarted_ctx : (s.cmdStarted e hd).ctx = s.ctx := by
  unfold State.cmdStarted
  split_ifs
  · rfl
  · exact popWait_ctx _ _ _ _ _

theorem curOf_cmdStarted : (s.cmdStarted e hd).curOf s.ctx.k e = { s.curOf s.ctx.k e with toks := true } := by
  unfold State.cmdStarted
  split_ifs with htaken
  · rw [← htaken]
  · rw [curOf_modCur, curOf_popWait]

theorem cmdStarted_sameButCopy : s.SameButCopy (s.cmdStarted e hd) := by
  unfold State.cmdStarted
  split_ifs
  · exact .refl s
  · exact ((State.SameButCopy.refl s).popWait _ _ _).modPart _

/-- Taking the WAIT tokens touches nothing of the copy but the command's place in its ring and the strand's tokens. -/
theorem part_cmdStarted : s.me.SameButCmd e ((s.cmdStarted e hd).part s.ctx.k) ∧ ((s.cmdStarted e hd).part s.ctx.k).engTok = s.me.engTok
    ∧ ∀ j, Map.get 0 ((s.cmdStarted e hd).part s.ctx.k).strTok j
      = Map.get 0 s.me.strTok j - (if j = e ∧ hd.wsrc = 5 ∧ (s.curOf s.ctx.k e).toks = false then hd.wcnt.toNat else 0) := by
  have hstrand : hd.wsrc.toNat = 5 ↔ hd.wsrc = 5 := BitVec.toNat_inj (y := 5#3)
  unfold State.cmdStarted
  split_ifs with htaken
  · exact ⟨.refl _ _, rfl, by simp [State.me, htaken]⟩
  · obtain ⟨str, hpart, hstr⟩ := part_popWait s s.ctx.k e hd.wsrc.toNat hd.wcnt.toNat
    rw [part_modCur_same, hpart]
    exact ⟨(Part.SameButCmd.tokens s.me e s.me.engTok str).trans (.putRing _ _ rfl), rfl, by simpa [State.me, htaken, hstrand] using hstr⟩

theorem core_cmdStarted (hwait : hd.wsrc = 0) (c : Nat) : (s.cmdStarted e hd).core c = s.core c := by
  unfold State.cmdStarted
  split_ifs
  · rfl
  · simp [hwait, State.popWait, State.modCur, State.modRing]

end

/-! ### Pushing SIGNAL tokens -/

section
variable (s : State) (k e n iter : Nat)

/-- SDST = 5: as many tokens as the strand's queue has room for are pushed (R173). -/
theorem pushSig_strand (hiter : s.sameIter k iter = true) : s.pushSig k e 5 n iter
    = (s.modPart k (fun p => { p with engTok := Map.put p.engTok e (Map.get 0 p.engTok e + min n (32 - Map.get 0 p.engTok e)) }),
      n - min n (32 - Map.get 0 (s.part k).engTok e)) := by
  obtain ⟨hin, hsame⟩ := Bool.and_eq_true_iff.mp hiter
  simp [State.pushSig, hin, beq_iff_eq.mp hsame, State.modPart, Config.engTokDepth]

/-- Tokens to a strand that has left the iteration are discarded (R132). -/
theorem pushSig_strand_left (hiter : s.sameIter k iter = false) : s.pushSig k e 5 n iter = (s, 0) := by
  have hgone : (!(s.part k).inIter || (s.part k).iter != iter) = true := by
    simpa [State.sameIter, imp_iff_not_or] using hiter
  simp only [State.pushSig, hgone, if_true, OfNat.ofNat_ne_zero, if_false]

/-- Another SDST: as many tokens as the queue towards that engine has room for are pushed (R173). -/
theorem pushSig_engine {d : Nat} (hsome : d ≠ 0) (hengine : d ≠ 5) {have_ : Nat}
    (hhave : have_ = Map.get 0 (s.core (coreOf k)).engTok (engPair e (d - 1))) : s.pushSig k e d n iter
    = (s.setEngTok (coreOf k) (Map.put (s.core (coreOf k)).engTok (engPair e (d - 1)) (have_ + min n (32 - have_))),
      n - min n (32 - have_)) := by
  subst hhave
  simp [State.pushSig, hsome, hengine, State.setEngTok, State.modCore, Config.engTokDepth]

/-- A push moves engine tokens of the copy, or of its core, or nothing. -/
theorem pushSig_cases (d : Nat) : ∃ left, s.pushSig k e d n iter = (s, left)
    ∨ (∃ tok, s.pushSig k e d n iter = (s.modPart k (fun p => { p with engTok := tok }), left))
    ∨ ∃ tok, s.pushSig k e d n iter = (s.setEngTok (coreOf k) tok, left) := by
  by_cases hsome : d = 0
  · subst hsome
    exact ⟨0, .inl rfl⟩
  by_cases hstrand : d = 5
  · subst hstrand
    cases hiter : s.sameIter k iter with
    | false => exact ⟨_, .inl (pushSig_strand_left s k e n iter hiter)⟩
    | true => exact ⟨_, .inr (.inl ⟨_, pushSig_strand s k e n iter hiter⟩)⟩
  · exact ⟨_, .inr (.inr ⟨_, pushSig_engine s k e n iter hsome hstrand rfl⟩)⟩

end

/-! ### Finishing -/

theorem endReqs_closed (s : State) (who : Nat) (hopen : Map.find? s.reqs who = none) (hwalk : Map.find? s.reqs (walkReq who) = none) :
    s.endReqs who = s := by
  rw [State.endReqs, del_of_find_none _ _ hopen, del_of_find_none _ _ hwalk]

section
variable (s : State) (k e : Nat) (hd : Hdr) (iter : Nat)

/-- Once its tokens are pushed, the command is out of its ring, and the ring stands at those that are left. -/
theorem finishCmd_of_pushSig {d : Nat} (hdst : hd.sdst.toNat = d) {u : State} {left : Nat}
    (hpush : (s.endReqs (engWho k e)).pushSig k e d hd.scnt.toNat iter = (u, left)) :
    s.finishCmd k e hd iter = u.modRing k e (fun g => { g with cur := none, sig := if left = 0 then none else some (d, left, iter) }) := by
  unfold State.finishCmd
  rw [show k * 8 + 4 + e = engWho k e from rfl, hdst, hpush]

/-- What a finish can be: the ring is freed, and engine tokens of the copy, or of its core, or none have moved. -/
theorem finishCmd_cases : ∃ u sig, s.finishCmd k e hd iter = u.modRing k e (fun g => { g with cur := none, sig := sig })
    ∧ (u = s.endReqs (engWho k e) ∨ (∃ tok, u = (s.endReqs (engWho k e)).modPart k (fun p => { p with engTok := tok }))
      ∨ ∃ tok, u = (s.endReqs (engWho k e)).setEngTok (coreOf k) tok) := by
  obtain ⟨left, hpush | ⟨tok, hpush⟩ | ⟨tok, hpush⟩⟩ := pushSig_cases (s.endReqs (engWho k e)) k e hd.scnt.toNat iter hd.sdst.toNat
  · exact ⟨_, _, finishCmd_of_pushSig s k e hd iter rfl hpush, .inl rfl⟩
  · exact ⟨_, _, finishCmd_of_pushSig s k e hd iter rfl hpush, .inr (.inl ⟨tok, rfl⟩)⟩
  · exact ⟨_, _, finishCmd_of_pushSig s k e hd iter rfl hpush, .inr (.inr ⟨tok, rfl⟩)⟩

@[simp] theorem finishCmd_ctx : (s.finishCmd k e hd iter).ctx = s.ctx := by
  obtain ⟨u, sig, hfinish, rfl | ⟨tok, rfl⟩ | ⟨tok, rfl⟩⟩ := finishCmd_cases s k e hd iter <;> rw [hfinish] <;> rfl

/-- A finish moves nothing of the copy but the command's place in its ring and engine tokens. -/
theorem part_finishCmd : ∃ tok sig, (s.finishCmd k e hd iter).part k = { s.part k with
    engTok := tok, rings := Map.put (s.part k).rings e { (s.part k).ring e with cur := none, sig := sig } } := by
  obtain ⟨u, sig, hfinish, rfl | ⟨tok, rfl⟩ | ⟨tok, rfl⟩⟩ := finishCmd_cases s k e hd iter
  · exact ⟨(s.part k).engTok, sig, by rw [hfinish, part_modRing_same]; rfl⟩
  · exact ⟨tok, sig, by rw [hfinish, part_modRing_same, part_modPart_same]; rfl⟩
  · exact ⟨(s.part k).engTok, sig, by rw [hfinish, part_modRing_same]; rfl⟩

theorem sameButCmd_finishCmd : (s.part k).SameButCmd e ((s.finishCmd k e hd iter).part k) := by
  obtain ⟨tok, sig, hpart⟩ := part_finishCmd s k e hd iter
  rw [hpart]
  exact (Part.SameButCmd.tokens (s.part k) e tok (s.part k).strTok).trans (.putRing _ _ rfl)

theorem cur_finishCmd : (((s.finishCmd k e hd iter).part k).ring e).cur = none := by
  obtain ⟨tok, sig, hpart⟩ := part_finishCmd s k e hd iter
  rw [hpart, Part.ring, get_put_same]

theorem strTok_finishCmd : ((s.finishCmd k e hd iter).part k).strTok = (s.part k).strTok := by
  obtain ⟨tok, sig, hpart⟩ := part_finishCmd s k e hd iter
  rw [hpart]

theorem sig_finishCmd_none (hdst : hd.sdst = 0) : (((s.finishCmd k e hd iter).part k).ring e).sig = none := by
  rw [finishCmd_of_pushSig s k e hd iter (congrArg BitVec.toNat hdst) rfl, part_modRing_same, ring_putRing_same]
  rfl

/-- Of the SCNT tokens those stay with the ring that found no room. -/
theorem sig_left (d n room : Nat) : (if n - min n room = 0 then none else some (d, n - min n room, iter))
    = if min n room = n then none else some (d, n - min n room, iter) :=
  if_congr (by omega) rfl rfl

theorem finishCmd_signals_strand (hdst : hd.sdst = 5) (hiter : s.sameIter k iter = true) : ∃ n,
    n = min hd.scnt.toNat (32 - Map.get 0 (s.part k).engTok e)
    ∧ Map.get 0 ((s.finishCmd k e hd iter).part k).engTok e = Map.get 0 (s.part k).engTok e + n
    ∧ (((s.finishCmd k e hd iter).part k).ring e).sig = if n = hd.scnt.toNat then none else some (5, hd.scnt.toNat - n, iter) := by
  have hpush := pushSig_strand (s.endReqs (engWho k e)) k e hd.scnt.toNat iter hiter
  rw [finishCmd_of_pushSig s k e hd iter (congrArg BitVec.toNat hdst) hpush, part_modRing_same, ring_putRing_same, part_modPart_same]
  exact ⟨_, rfl, get_put_same _ _ _ _, sig_left iter 5 _ _⟩

theorem finishCmd_signals_engine (hlow : 1 ≤ hd.sdst.toNat) (hhigh : hd.sdst.toNat ≤ 4) : ∃ n have_,
    have_ = Map.get 0 (s.core (coreOf k)).engTok (engPair e (hd.sdst.toNat - 1)) ∧ n = min hd.scnt.toNat (32 - have_)
    ∧ Map.get 0 ((s.finishCmd k e hd iter).core (coreOf k)).engTok (engPair e (hd.sdst.toNat - 1)) = have_ + n
    ∧ (((s.finishCmd k e hd iter).part k).ring e).sig
      = if n = hd.scnt.toNat then none else some (hd.sdst.toNat, hd.scnt.toNat - n, iter) := by
  have hpush := pushSig_engine (s.endReqs (engWho k e)) k e hd.scnt.toNat iter (d := hd.sdst.toNat) (by omega) (by omega) rfl
  rw [finishCmd_of_pushSig s k e hd iter rfl hpush, part_modRing_same, ring_putRing_same]
  refine ⟨_, _, rfl, rfl, ?_, sig_left iter _ _ _⟩
  rw [State.modRing, modPart_core, setEngTok_engTok, get_put_same]
  rfl

end

namespace State.SameButCopy
variable {s t : State}

theorem finishCmd (h : s.SameButCopy t) (e : Nat) (hd : Hdr) (iter : Nat)
    (hopen : Map.find? s.reqs (engWho s.ctx.k e) = none) (hwalk : Map.find? s.reqs (walkReq (engWho s.ctx.k e)) = none) :
    s.SameButCopy (t.finishCmd s.ctx.k e hd iter) := by
  have hclosed := endReqs_closed t (engWho s.ctx.k e) (by rwa [h.reqs]) (by rwa [h.reqs])
  obtain ⟨u, sig, hfinish, hu⟩ := finishCmd_cases t s.ctx.k e hd iter
  rw [hclosed] at hu
  rw [hfinish]
  obtain rfl | ⟨tok, rfl⟩ | ⟨tok, rfl⟩ := hu
  · exact h.modPart _
  · exact (h.modPart _).modPart _
  · exact (h.setEngTok _).modPart _

end State.SameButCopy

/-- A command of a machine that is ready for it ends as the copy `q`, once its body has made that copy and moved nothing outside it. -/
theorem finishCmd_cmdEnds {s m : State} {e : Nat} {hd : Hdr} {q : Part} (hready : s.cmdReady e hd) (hbeside : s.SameButCopy m)
    (hcopy : q.SameButCmd e (m.part s.ctx.k)) (iter : Nat) : s.cmdEnds (m.finishCmd s.ctx.k e hd iter) e q := by
  obtain ⟨-, hopen, hwalk, -⟩ := hready
  have hended := hbeside.finishCmd e hd iter hopen hwalk
  have hmoved := hcopy.trans (sameButCmd_finishCmd m s.ctx.k e hd iter)
  obtain ⟨u, sig, hfinish, -⟩ := finishCmd_cases m s.ctx.k e hd iter
  have hput : (m.finishCmd s.ctx.k e hd iter).setPart s.ctx.k ((m.finishCmd s.ctx.k e hd iter).part s.ctx.k)
      = m.finishCmd s.ctx.k e hd iter := by
    rw [hfinish, State.modRing, setPart_modPart, part_modPart_same]
    rfl
  rw [State.cmdEnds, me_of_ctx hended.ctx]
  obtain ⟨tok, hsame⟩ := hended
  refine ⟨hmoved.ring_of_cur_none (cur_finishCmd _ _ _ _ _), hmoved.others, hmoved.bare, tok, ?_⟩
  have hlast := hsame ((m.finishCmd s.ctx.k e hd iter).part s.ctx.k)
  rwa [hput] at hlast

/-! ### A command in execution -/

section
variable {s : State} {e : Nat} {hd : Hdr} (body : State → Res)

theorem engineCmd_waits (htaken : (s.curOf s.ctx.k e).toks = false) (hsome : hd.wsrc ≠ 0)
    (hfew : s.waitTokens s.ctx.k e hd.wsrc.toNat < hd.wcnt.toNat) : engineCmd e hd body s = .next (s.modCur s.ctx.k e id) := by
  have hstuck : (!(s.curOf s.ctx.k e).toks && decide (s.waitTokens s.ctx.k e hd.wsrc.toNat < hd.wcnt.toNat) && hd.wsrc != 0) = true := by
    simp only [htaken, hfew, bne_iff_ne.mpr hsome, Bool.not_false, decide_true, Bool.and_self]
  simp only [engineCmd, hstuck, if_true]

variable {body} (hready : s.cmdReady e hd)
include hready

theorem cmdReady_goes :
    (!(s.curOf s.ctx.k e).toks && decide (s.waitTokens s.ctx.k e hd.wsrc.toNat < hd.wcnt.toNat) && hd.wsrc != 0) = false := by
  obtain ⟨htaken | hnone | hthere, -⟩ := hready
  · simp [htaken]
  · simp [hnone]
  · simp [Nat.not_lt.mpr hthere]

theorem engineCmd_done {m : State} (hbody : body (s.cmdStarted e hd) = .done m) :
    engineCmd e hd body s = .next (m.finishCmd s.ctx.k e hd (s.curOf s.ctx.k e).iter) := by
  rw [State.cmdStarted] at hbody
  simp only [engineCmd, cmdReady_goes hready, Bool.false_eq_true, if_false, hbody]

theorem engineCmd_fault {f : FInfo} {m : State} (hbody : body (s.cmdStarted e hd) = .fault f m) :
    engineCmd e hd body s = .next (m.engineFault s.ctx.k e f false) := by
  rw [State.cmdStarted] at hbody
  simp only [engineCmd, cmdReady_goes hready, Bool.false_eq_true, if_false, hbody]

end

end Sys2Proof.Machine
end

section
/-! NOP on an engine and as a program step (R199): its tokens and nothing else. -/
namespace Sys2Proof.Machine

/-- Without its WAIT tokens a command only stays taken, whichever it is. -/
theorem exec_waits (s : State) (hd : Hdr) {e : Nat} (he : e = s.ctx.eng) (hretry : s.ctx.retry = false)
    (htaken : (s.curOf s.ctx.k e).toks = false) (hsome : hd.wsrc ≠ 0)
    (hfew : s.waitTokens s.ctx.k e hd.wsrc.toNat < hd.wcnt.toNat) (i : Instr)
    (hi : i = .engineNop hd ∨ (∃ ev part, i = .notify hd ev part) ∨ (∃ rec, i = .resume hd rec)
      ∨ (e = 1 ∧ ∃ len src dst, i = .copy hd len src dst) ∨ (e = 0 ∧ ∃ t, i = .accz hd t)) :
    exec i s = .next (s.modCur s.ctx.k e id) := by
  have hwaits (body : State → Res) : engineCmd e hd body s = .next (s.modCur s.ctx.k e id) := engineCmd_waits body htaken hsome hfew
  obtain rfl | ⟨ev, part, rfl⟩ | ⟨rec, rfl⟩ | ⟨rfl, len, src, dst, rfl⟩ | ⟨rfl, t, rfl⟩ := hi
  · rw [exec_engineNop, execEngineNop, if_neg (by simp [hretry]), ← he, hwaits]
  · rw [exec_notify, execNotify, ← he, hwaits]
  · rw [exec_resume, execResume, ← he, hwaits]
  · rw [exec_copy, execCopy, hwaits]
  · rw [exec_accz, execAccz, tileCmd, hwaits]

/-- The machine after a command of ring `e` that does nothing but pass tokens. -/
def State.passTokens (s : State) (e : Nat) (hd : Hdr) : State := (s.cmdStarted e hd).finishCmd s.ctx.k e hd (s.curOf s.ctx.k e).iter

theorem exec_engineNop_ring (s : State) (hd : Hdr) {e : Nat} (he : e = s.ctx.eng) (hretry : s.ctx.retry = false) (hready : s.cmdReady e hd) :
    exec (.engineNop hd) s = .next (s.passTokens e hd) := by
  rw [exec_engineNop, execEngineNop, if_neg (by simp [hretry]), ← he, engineCmd_done hready rfl, State.passTokens]

section
variable (s : State) (e : Nat) (hd : Hdr)

@[simp] theorem passTokens_ctx : (s.passTokens e hd).ctx = s.ctx := by simp [State.passTokens]

theorem passTokens_cmdEnds (hready : s.cmdReady e hd) : s.cmdEnds (s.passTokens e hd) e s.me :=
  finishCmd_cmdEnds hready (cmdStarted_sameButCopy s e hd) (part_cmdStarted s e hd).1 _

theorem passTokens_takes (j : Nat) : Map.get 0 (s.passTokens e hd).me.strTok j
    = Map.get 0 s.me.strTok j - (if j = e ∧ hd.wsrc = 5 ∧ (s.curOf s.ctx.k e).toks = false then hd.wcnt.toNat else 0) := by
  obtain ⟨-, -, hstrTok⟩ := part_cmdStarted s e hd
  rw [me_of_ctx (passTokens_ctx s e hd), State.passTokens, strTok_finishCmd, hstrTok]

theorem passTokens_signals_none (hdst : hd.sdst = 0) : ((s.passTokens e hd).me.ring e).sig = none := by
  rw [me_of_ctx (passTokens_ctx s e hd), State.passTokens, sig_finishCmd_none _ _ _ _ _ hdst]

theorem passTokens_signals_strand (hdst : hd.sdst = 5) (hiter : s.sameIter s.ctx.k (s.curOf s.ctx.k e).iter = true) : ∃ n,
    n = min hd.scnt.toNat (32 - Map.get 0 s.me.engTok e) ∧ Map.get 0 (s.passTokens e hd).me.engTok e = Map.get 0 s.me.engTok e + n
    ∧ ((s.passTokens e hd).me.ring e).sig = if n = hd.scnt.toNat then none else some (5, hd.scnt.toNat - n, (s.curOf s.ctx.k e).iter) := by
  obtain ⟨hcopy, hengTok, -⟩ := part_cmdStarted s e hd
  have hstill : (s.cmdStarted e hd).sameIter s.ctx.k (s.curOf s.ctx.k e).iter = true := by
    rwa [State.sameIter, hcopy.inIter, hcopy.iter]
  rw [me_of_ctx (passTokens_ctx s e hd), State.passTokens, ← hengTok]
  exact finishCmd_signals_strand _ _ _ _ _ hdst hstill

theorem passTokens_signals_engine (hlow : 1 ≤ hd.sdst.toNat) (hhigh : hd.sdst.toNat ≤ 4) (hwait : hd.wsrc = 0) : ∃ n have_,
    have_ = Map.get 0 s.myCore.engTok (engPair e (hd.sdst.toNat - 1)) ∧ n = min hd.scnt.toNat (32 - have_)
    ∧ Map.get 0 (s.passTokens e hd).myCore.engTok (engPair e (hd.sdst.toNat - 1)) = have_ + n
    ∧ ((s.passTokens e hd).me.ring e).sig
      = if n = hd.scnt.toNat then none else some (hd.sdst.toNat, hd.scnt.toNat - n, (s.curOf s.ctx.k e).iter) := by
  rw [me_of_ctx (passTokens_ctx s e hd), State.myCore, State.myCore, passTokens_ctx, State.passTokens, ← core_cmdStarted s e hd hwait]
  exact finishCmd_signals_engine _ _ _ _ _ hlow hhigh

end

/-- An element that is done at once is performed whole (R208). -/
theorem element_done {s m : State} {k e : Nat} {f : State → Res} (hbudget : s.budget ≠ 0) (hseen : (s.curOf k e).seen = [])
    (hdone : f s = .done m) : s.element k e f = .done (m.endReqs (engWho k e)) := by
  simp only [State.element, hbudget, hseen, ne_eq, not_true_eq_false, or_self, if_false, hdone]

/-- A step that does nothing but end: the program goes on 8 bytes further. -/
theorem stepRun_pass {s : State} {u : Run} (hrun : s.myCore.run = some u) (hu : u.k = s.ctx.k) (hready : s.stepReady s.ctx.k) :
    ∃ t, stepRun (fun r s => stepDone r 0 s) s = .next t ∧ s.stepEnds t { u with pc := u.pc + 8 } := by
  obtain ⟨hopen, hwalk, hbudget, -, -, hseen⟩ := hready
  rw [← hu] at hopen hwalk hseen
  have hclosed := endReqs_closed (s.setRun (coreOf u.k) (some (u.past 0))) (engWho u.k 3) hopen hwalk
  have helement := element_done (f := fun s => stepDone u 0 s) hbudget hseen rfl
  rw [State.myCore] at hrun
  simp only [stepRun, hrun, helement, hclosed]
  refine ⟨_, rfl, ?_⟩
  rw [State.stepEnds, ← hu]
  exact .refl _

theorem exec_engineNop_step (s : State) (hd : Hdr) (u : Run) (hretry : s.ctx.retry = true) (hrun : s.myCore.run = some u) (hu : u.k = s.ctx.k)
    (hready : s.stepReady s.ctx.k) : ∃ t, exec (.engineNop hd) s = .next t ∧ s.stepEnds t { u with pc := u.pc + 8 } := by
  rw [exec_engineNop, execEngineNop, if_pos hretry]
  exact stepRun_pass hrun hu hready

end Sys2Proof.Machine
end

section
/-! NOTIFY (R198): what it makes of the combiner slot of its event and of the rings. -/
namespace Sys2Proof.Machine

/-- The copy once a NOTIFY of ring `e` on event `ev` is reached: its slot is `sl`, and the ring is held. -/
def Part.reach (p : Part) (e ev : Nat) (sl : Slot) : Part :=
  { p with slots := Map.put p.slots ev sl, rings := Map.put p.rings e { p.ring e with hold := some ev } }

/-- A ring that waits for the event goes on; another stands as it did. -/
def Ring.release (ev : Nat) (g : Ring) : Ring := if g.hold = some ev then { g with hold := .none } else g

/-- The copy once every engine has reached its NOTIFY: the slot is free, the rings go on, and the event is raised (R198). -/
def Part.combined (p : Part) (ev : Nat) : Part :=
  { p with slots := Map.del p.slots ev, rings := p.rings.map (fun g => (g.1, g.2.release ev)), ev := Map.put p.ev ev (p.rdEv ev + 1)
           sleeping := none }

section
variable (p : Part) (e ev : Nat) (sl : Slot)

@[simp] theorem ring_reach : (p.reach e ev sl).ring e = { p.ring e with hold := some ev } := get_put_same _ _ _ _
theorem ring_reach_other {j : Nat} (hj : j ≠ e) : (p.reach e ev sl).ring j = p.ring j := get_put_other _ _ _ hj

theorem Part.SameButCmd.reach {q : Part} (h : p.SameButCmd e q) : (p.reach e ev sl).SameButCmd e (q.reach e ev sl) where
  bare := (congrArg (fun x : Part => { x with slots := Map.put x.slots ev sl }) h.bare :)
  ring := by
    rw [ring_reach, ring_reach]
    exact (congrArg (fun g : Ring => { g with hold := some ev }) h.ring :)
  others j hj := by
    simp only [Part.reach, find_put_other _ _ hj, h.others j hj]

@[simp] theorem slots_combined : Map.find? (p.combined ev).slots ev = none := find_del_same _ _
@[simp] theorem rdEv_combined : (p.combined ev).rdEv ev = p.rdEv ev + 1 := get_put_same _ _ _ _

theorem ring_combined (j : Nat) : (p.combined ev).ring j = (p.ring j).release ev :=
  get_mapValues Ring.none (Ring.release ev) rfl p.rings j

theorem hold_release (g : Ring) : (g.release ev).hold = if g.hold = some ev then none else g.hold := by
  unfold Ring.release
  split_ifs <;> rfl

end

/-- The slot that a NOTIFY of event `ev` finds: the one opened by the first of them, or a fresh one. -/
def Part.slotFor (p : Part) (ev : Nat) (part : BitVec 4) : Slot := (Map.find? p.slots ev).getD ⟨part, 0, p.iter⟩

/-- The slot once engine `e` has reached its NOTIFY. -/
def Slot.reachedBy (sl : Slot) (e : Nat) : Slot := { sl with reached := sl.reached ||| BitVec.ofNat 4 (2 ^ e) }

/-- A PART holds the bit of engine `e` or nothing of it. -/
theorem part_and_engine (part : BitVec 4) {e : Nat} (he : e < 4) : part &&& BitVec.ofNat 4 (2 ^ e) = 0 ↔ part.getLsbD e = false := by
  have hbit : BitVec.twoPow 4 e ≠ 0#4 := fun hzero => by simpa [he] using congrArg (BitVec.getLsbD · e) hzero
  have hpow : BitVec.ofNat 4 (2 ^ e) = BitVec.twoPow 4 e := BitVec.eq_of_toNat_eq (by simp [BitVec.toNat_twoPow])
  rw [hpow, BitVec.and_twoPow]
  cases part.getLsbD e <;> simp [hbit]

theorem raiseEv_live {s : State} {k iter : Nat} (hin : (s.part k).inIter = true) (hiter : (s.part k).iter = iter) (ev : Nat) :
    s.raiseEv k iter ev = s.modPart k (fun p => { p.wrEv ev (p.rdEv ev + 1) with sleeping := none }) := by
  simp only [State.raiseEv, hin, hiter, beq_self_eq_true, Bool.and_self, if_true, State.modPart]

/-- The combiner completes for an iteration that still runs. -/
theorem combine_live {s : State} {k iter : Nat} (hin : (s.part k).inIter = true) (hiter : (s.part k).iter = iter) (ev : Nat) :
    s.combine k iter ev = s.modPart k (fun p => p.combined ev) := by
  rw [State.combine, raiseEv_live (by rwa [part_modPart_same]) (by rwa [part_modPart_same]), modPart_modPart]
  rfl

/-- A NOTIFY of ring `e` of copy `k` is in execution for the iteration that runs, and every command of its ring before it has finished. -/
structure State.AtNotify (s : State) (k e : Nat) : Prop where
  k_eq : s.ctx.k = k
  eng_eq : s.ctx.eng = e
  eng_lt : e < 4
  inIter : (s.part k).inIter = true
  iter : (s.curOf k e).iter = (s.part k).iter
  first : s.ringFirst k e = true

/-- What refuses a NOTIFY of engine `e` whose slot is `sl` (R198): no engine, one's own left out, or not the PART already reached. -/
abbrev Slot.refuses (sl : Slot) (e : Nat) (part : BitVec 4) : Prop := part = 0 ∨ part &&& BitVec.ofNat 4 (2 ^ e) = 0 ∨ sl.part ≠ part

theorem accepts_own {sl : Slot} {e : Nat} {part : BitVec 4} (he : e < 4) (hown : part.getLsbD e = true) (hpart : sl.part = part) :
    ¬sl.refuses e part := by
  have hbit := mt (part_and_engine part he).mp (by simp [hown])
  rintro (rfl | hnone | hother)
  · exact hbit BitVec.zero_and
  · exact hbit hnone
  · exact hother hpart

section
variable {s : State} {k e : Nat} (h : s.AtNotify k e) {ev : Fin 16} {part : BitVec 4}
include h

theorem notifyBody_eq : notifyBody ev part s
    = if part = 0 ∨ part &&& BitVec.ofNat 4 (2 ^ e) = 0 ∨ ((s.part k).slotFor ev.val part).part ≠ part then badCmd s
      else .done (if (((s.part k).slotFor ev.val part).reachedBy e).reached = part
        then (s.modPart k (fun p => p.reach e ev.val (((s.part k).slotFor ev.val part).reachedBy e))).combine k (s.part k).iter ev.val
        else s.modPart k (fun p => p.reach e ev.val (((s.part k).slotFor ev.val part).reachedBy e))) := by
  obtain ⟨rfl, rfl, -, -, hiter, hfirst⟩ := h
  have hreach (sl : Slot) : ((s.modPart s.ctx.k (fun p => { p with slots := Map.put p.slots ev.val sl })).modRing s.ctx.k s.ctx.eng
      (fun g => { g with hold := some ev.val })) = s.modPart s.ctx.k (fun p => p.reach s.ctx.eng ev.val sl) := modPart_modPart _ _ _ _
  cases hfound : Map.find? (s.part s.ctx.k).slots ev.val <;>
    simp only [notifyBody, Part.slotFor, hfound, Option.getD, hiter, hfirst, hreach, ne_eq, not_true_eq_false, if_false, Bool.not_true,
      Bool.false_eq_true] <;>
    rfl

theorem notifyBody_refused (hbad : ((s.part k).slotFor ev.val part).refuses e part) : notifyBody ev part s = badCmd s :=
  (notifyBody_eq h).trans (if_pos hbad)

variable {sl : Slot} (hslot : (s.part k).slotFor ev.val part = sl) (hown : part.getLsbD e = true) (hpart : sl.part = part)
include hslot hown hpart

/-- Engines are still missing: the ring is held. -/
theorem notifyBody_held (hmissing : (sl.reachedBy e).reached ≠ part) :
    notifyBody ev part s = .done (s.modPart k (fun p => p.reach e ev.val (sl.reachedBy e))) := by
  rw [notifyBody_eq h, hslot, if_neg (accepts_own h.eng_lt hown hpart), if_neg hmissing]

/-- The last engine of PART reaches it: the combiner raises the event. -/
theorem notifyBody_combined (hall : (sl.reachedBy e).reached = part) :
    notifyBody ev part s = .done (s.modPart k (fun p => (p.reach e ev.val (sl.reachedBy e)).combined ev.val)) := by
  have hlive := combine_live (s := s.modPart k (fun p => p.reach e ev.val (sl.reachedBy e))) (k := k) (iter := (s.part k).iter)
    (by rw [part_modPart_same]; exact h.inIter) (by rw [part_modPart_same]; rfl) ev.val
  rw [notifyBody_eq h, hslot, if_neg (accepts_own h.eng_lt hown hpart), if_pos hall, hlive, modPart_modPart]

end

theorem State.AtNotify.cmdStarted {s : State} {k e : Nat} (h : s.AtNotify k e) (hd : Hdr) : (s.cmdStarted e hd).AtNotify k e := by
  obtain ⟨rfl, rfl, hlt, hin, hiter, hfirst⟩ := h
  obtain ⟨hcopy, -, -⟩ := part_cmdStarted s s.ctx.eng hd
  have hcur := curOf_cmdStarted s s.ctx.eng hd
  refine ⟨by rw [cmdStarted_ctx], by rw [cmdStarted_ctx], hlt, hcopy.inIter.trans hin, ?_, ?_⟩
  · rw [hcur, hcopy.iter]
    exact hiter
  · rw [State.ringFirst, hcur, hcopy.more, hcopy.bad]
    exact hfirst

theorem slotFor_cmdStarted (s : State) (e : Nat) (hd : Hdr) (ev : Nat) (part : BitVec 4) :
    ((s.cmdStarted e hd).part s.ctx.k).slotFor ev part = s.me.slotFor ev part := by
  obtain ⟨hcopy, -, -⟩ := part_cmdStarted s e hd
  rw [Part.slotFor, Part.slotFor, hcopy.slots, hcopy.iter]

section
variable {s : State} {e : Nat} {hd : Hdr} (h : s.AtNotify s.ctx.k e) (hready : s.cmdReady e hd) {ev : Fin 16} {part : BitVec 4}
include h hready

theorem exec_notify_refused (hbad : (s.me.slotFor ev.val part).refuses e part) :
    ∃ x : State, exec (.notify hd ev part) s = .next (x.engineFault s.ctx.k e (.of cEngine 0) false) ∧ x.me.cmdBare = s.me.cmdBare := by
  have hbody := notifyBody_refused (h.cmdStarted hd) (ev := ev) (part := part) (by rwa [slotFor_cmdStarted])
  refine ⟨s.cmdStarted e hd, by rw [exec_notify, execNotify, h.eng_eq, engineCmd_fault hready hbody], ?_⟩
  rw [me_of_ctx (cmdStarted_ctx s e hd), (part_cmdStarted s e hd).1.bare]

variable {sl : Slot} (hslot : s.me.slotFor ev.val part = sl) (hown : part.getLsbD e = true) (hpart : sl.part = part)
include hslot hown hpart

theorem exec_notify_held (hmissing : (sl.reachedBy e).reached ≠ part) :
    ∃ t, exec (.notify hd ev part) s = .next t ∧ s.cmdEnds t e (s.me.reach e ev.val (sl.reachedBy e)) := by
  have hbody := notifyBody_held (h.cmdStarted hd) ((slotFor_cmdStarted s e hd ev.val part).trans hslot) hown hpart hmissing
  refine ⟨_, by rw [exec_notify, execNotify, h.eng_eq, engineCmd_done hready hbody], ?_⟩
  have hbeside := (cmdStarted_sameButCopy s e hd).modPart (fun p => p.reach e ev.val (sl.reachedBy e))
  refine finishCmd_cmdEnds hready hbeside ?_ _
  rw [part_modPart_same]
  exact (part_cmdStarted s e hd).1.reach _ _ _ _

theorem exec_notify_combined (hall : (sl.reachedBy e).reached = part) :
    ∃ t, exec (.notify hd ev part) s = .next t ∧ Map.find? t.me.slots ev.val = none ∧ t.me.rdEv ev.val = s.me.rdEv ev.val + 1
      ∧ t.me.sleeping = none ∧ (t.me.ring e).cur = none ∧ (t.me.ring e).hold = none
      ∧ (∀ j, j ≠ e → (t.me.ring j).hold = if (s.me.ring j).hold = some ev.val then none else (s.me.ring j).hold)
      ∧ (∀ j, j ≠ s.ctx.k → t.part j = s.part j) := by
  have hbody := notifyBody_combined (h.cmdStarted hd) ((slotFor_cmdStarted s e hd ev.val part).trans hslot) hown hpart hall
  have hbeside := (cmdStarted_sameButCopy s e hd).modPart (fun p => (p.reach e ev.val (sl.reachedBy e)).combined ev.val)
  refine ⟨_, by rw [exec_notify, execNotify, h.eng_eq, engineCmd_done hready hbody], ?_⟩
  obtain ⟨-, hopen, hwalk, -⟩ := hready
  obtain ⟨hcopy, -, -⟩ := part_cmdStarted s e hd
  have hended := hbeside.finishCmd e hd (s.curOf s.ctx.k e).iter hopen hwalk
  have hmoved := sameButCmd_finishCmd ((s.cmdStarted e hd).modPart s.ctx.k (fun p => (p.reach e ev.val (sl.reachedBy e)).combined ev.val))
    s.ctx.k e hd (s.curOf s.ctx.k e).iter
  rw [part_modPart_same] at hmoved
  rw [me_of_ctx hended.ctx]
  refine ⟨?_, ?_, hmoved.sleeping, cur_finishCmd _ _ _ _ _, ?_, fun j hj => ?_, fun j hj => hended.part_other hj⟩
  · rw [hmoved.slots, slots_combined]
  · rw [Part.rdEv, hmoved.ev, ← Part.rdEv, rdEv_combined, Part.rdEv]
    exact congrArg (fun m => Map.get 0 m ev.val + 1) hcopy.ev
  · rw [hmoved.hold, ring_combined, hold_release, ring_reach, if_pos rfl]
  · rw [hmoved.ring_other hj, ring_combined, hold_release, ring_reach_other _ _ _ _ hj, hcopy.ring_other hj]

end

/-- Settles O29: a command takes its WAIT tokens whole or stays as it was; its finish frees the ring and pushes the SIGNAL tokens that find
room; NOTIFY holds its ring, completes the combiner slot, or is refused, as the slot it finds says. -/
theorem commandTokensAndNotify : Obligations.CommandTokensAndNotify := by
  refine ⟨?_, ?_⟩
  · rintro s hd e k he rfl
    refine ⟨exec_waits s hd he, fun hretry hready => ?_, fun hretry u hrun hu hready => exec_engineNop_step s hd u hretry hrun hu hready⟩
    exact ⟨s.passTokens e hd, exec_engineNop_ring s hd he hretry hready, passTokens_cmdEnds s e hd hready, passTokens_takes s e hd,
      passTokens_signals_strand s e hd, passTokens_signals_none s e hd, passTokens_signals_engine s e hd⟩
  · rintro s hd ev part e k he rfl hlt hready hin hiter hfirst
    have hat : s.AtNotify s.ctx.k e := ⟨rfl, he.symm, hlt, hin, hiter, hfirst⟩
    refine ⟨?_, fun hbad => exec_notify_refused hat hready ?_⟩
    · rintro sl rfl hown hpart
      exact ⟨exec_notify_held hat hready rfl hown hpart, exec_notify_combined hat hready rfl hown hpart⟩
    · obtain hnone | hown | ⟨sl, hslot, hpart⟩ := hbad
      · exact .inl hnone
      · exact .inr (.inl ((part_and_engine part hlt).mpr hown))
      · exact .inr (.inr (by rwa [Part.slotFor, hslot]))

end Sys2Proof.Machine
end
